-- ==== Sys2Proof/Word.lean ====
section
/-! DEFINITION. The two word types of AHCC: a byte of a buffer and a 32-bit register or table word (R9, R100, R102). -/

namespace Sys2Proof

/-- One byte of `IN_BUF` or `OUT_BUF` (R57, R58). -/
abbrev Byte := BitVec 8

/-- One 32-bit register, table word, node word or command word (R9, R150). -/
abbrev Word := BitVec 32

end Sys2Proof
end

