-- ==== Sys2Proof/Syntax.lean ====
section
/-! DEFINITION. The commands of AHCC, one constructor per row of the opcode table (R153, R157), and the fields of a
command word (R150). -/

namespace Sys2Proof

/-- The 17 legal commands (R157). For a model opcode the `MODEL` field is part of the mnemonic (R152), so a command has
no operand: everything it reads and writes is implicit (R155). -/
inductive Instr where
  /-- 0x00000000 `NOP` (R384) -/
  | nop
  /-- 0x00000001 `AENC.FIX` (R260) -/
  | aencFix
  /-- 0x00000101 `AENC.DIR` (R260) -/
  | aencDir
  /-- 0x00000201 `AENC.BIG` (R260) -/
  | aencBig
  /-- 0x00000002 `ADEC.FIX` (R270) -/
  | adecFix
  /-- 0x00000102 `ADEC.DIR` (R270) -/
  | adecDir
  /-- 0x00000202 `ADEC.BIG` (R270) -/
  | adecBig
  /-- 0x00000003 `MPROBE.FIX` (R213) -/
  | mprobeFix
  /-- 0x00000103 `MPROBE.DIR` (R213) -/
  | mprobeDir
  /-- 0x00000203 `MPROBE.BIG` (R213) -/
  | mprobeBig
  /-- 0x00000010 `HCOUNT` (R335) -/
  | hcount
  /-- 0x00000011 `HBUILD` (R336) -/
  | hbuild
  /-- 0x00000012 `HLOAD` (R337) -/
  | hload
  /-- 0x00000013 `HENC` (R338) -/
  | henc
  /-- 0x00000014 `HDEC` (R339) -/
  | hdec
  /-- 0x00000020 `PACK` (R382) -/
  | pack
  /-- 0x00000021 `UNPACK` (R383) -/
  | unpack
  deriving DecidableEq, Repr

/-- The fields of a command word, format `CMDW` (R150). -/
structure CmdWord where
  /-- bits 7:0 -/
  opcode : BitVec 8
  /-- bits 10:8 -/
  model : BitVec 3
  /-- bits 31:11 -/
  rsv : BitVec 21
  deriving DecidableEq, Repr

end Sys2Proof
end

