-- ==== Sys2Proof/WellFormed.lean ====
section
/-! DEFINITION. When a command word is legal: the four conditions of R156, each a check of its own.
A term of `Instr` has no operand, so every term of `Instr` is well formed; what can be ill formed is a command word. -/

namespace Sys2Proof

/-- The eleven opcodes of R153. -/
def legalOpcodes : List (BitVec 8) :=
  [0x00, 0x01, 0x02, 0x03, 0x10, 0x11, 0x12, 0x13, 0x14, 0x20, 0x21]

/-- The opcodes that take a model (R150, R152). -/
def modelOpcodes : List (BitVec 8) := [0x01, 0x02, 0x03]

namespace CmdWord

/-- R156: an illegal word has `RSV ≠ 0`. -/
def reservedClear (f : CmdWord) : Bool := f.rsv == 0

/-- R156: an illegal word has an opcode outside the eleven of R153. -/
def opcodeKnown (f : CmdWord) : Bool := legalOpcodes.contains f.opcode

/-- R156: a model opcode with `MODEL` in 3..7 is illegal. -/
def modelInRange (f : CmdWord) : Bool := !(modelOpcodes.contains f.opcode) || f.model.toNat ≤ 2

/-- R156: an opcode that takes no model must have `MODEL = 0`. -/
def modelAbsent (f : CmdWord) : Bool := modelOpcodes.contains f.opcode || f.model == 0

/-- A command word is legal when it passes the four checks (R156). -/
def wellFormed (f : CmdWord) : Bool :=
  f.reservedClear && f.opcodeKnown && f.modelInRange && f.modelAbsent

end CmdWord

/-- Every command of `Instr` is well formed: it has no operand (R150, R155). -/
def Instr.wellFormed (_ : Instr) : Bool := true

end Sys2Proof
end

