-- ==== Sys2Proof/Decode.lean ====
section
/-! DEFINITION. The decoder of command words (R150 to R157), total on every 32-bit word, and after it the encoder.
A command word is one 32-bit value written to `CMD`; it has no byte structure (R102, R154). -/

namespace Sys2Proof

/-- Why a command word is illegal: the four lines of R151, in that order. -/
inductive DecodeError where
  /-- `w[31:11] ≠ 0` -/
  | reservedBits
  /-- the opcode is not one of the eleven of R153 -/
  | unknownOpcode
  /-- a model opcode with `MODEL` in 3..7 -/
  | reservedModel
  /-- an opcode that takes no model, with `MODEL ≠ 0` -/
  | modelNotAllowed
  deriving DecidableEq, Repr

/-- The fields of a word (R150). -/
def CmdWord.ofWord (w : Word) : CmdWord :=
  { opcode := w.extractLsb' 0 8, model := w.extractLsb' 8 3, rsv := w.extractLsb' 11 21 }

/-- The word that has these fields (R150). -/
def CmdWord.toWord (f : CmdWord) : Word := f.rsv ++ f.model ++ f.opcode

/-- The opcode map of R153 with the model suffixes of R152: (opcode, model, command). -/
def opcodeMap : List (BitVec 8 × BitVec 3 × Instr) :=
  [ (0x00, 0, .nop),
    (0x01, 0, .aencFix), (0x01, 1, .aencDir), (0x01, 2, .aencBig),
    (0x02, 0, .adecFix), (0x02, 1, .adecDir), (0x02, 2, .adecBig),
    (0x03, 0, .mprobeFix), (0x03, 1, .mprobeDir), (0x03, 2, .mprobeBig),
    (0x10, 0, .hcount), (0x11, 0, .hbuild), (0x12, 0, .hload), (0x13, 0, .henc), (0x14, 0, .hdec),
    (0x20, 0, .pack), (0x21, 0, .unpack) ]

/-- The command an opcode and a model select (R153). -/
def selectCommand (op : BitVec 8) (m : BitVec 3) : Option Instr :=
  (opcodeMap.find? fun r => r.1 == op && r.2.1 == m).map fun r => r.2.2

/-- R151: the legality checks in the spec's order, then the command. -/
def decode (w : Word) : Except DecodeError Instr :=
  let f := CmdWord.ofWord w
  if !f.reservedClear then .error .reservedBits
  else if !f.opcodeKnown then .error .unknownOpcode
  else if !f.modelInRange then .error .reservedModel
  else if !f.modelAbsent then .error .modelNotAllowed
  else match selectCommand f.opcode f.model with
    | some i => .ok i
    | none => .error .unknownOpcode

/-- The `OPCODE` field of a command (R153). -/
def Instr.opcode : Instr → BitVec 8
  | .nop => 0x00
  | .aencFix => 0x01
  | .aencDir => 0x01
  | .aencBig => 0x01
  | .adecFix => 0x02
  | .adecDir => 0x02
  | .adecBig => 0x02
  | .mprobeFix => 0x03
  | .mprobeDir => 0x03
  | .mprobeBig => 0x03
  | .hcount => 0x10
  | .hbuild => 0x11
  | .hload => 0x12
  | .henc => 0x13
  | .hdec => 0x14
  | .pack => 0x20
  | .unpack => 0x21

/-- The `MODEL` field of a command (R152). -/
def Instr.model : Instr → BitVec 3
  | .nop => 0
  | .aencFix => 0
  | .aencDir => 1
  | .aencBig => 2
  | .adecFix => 0
  | .adecDir => 1
  | .adecBig => 2
  | .mprobeFix => 0
  | .mprobeDir => 1
  | .mprobeBig => 2
  | .hcount => 0
  | .hbuild => 0
  | .hload => 0
  | .henc => 0
  | .hdec => 0
  | .pack => 0
  | .unpack => 0

/-- The command word of a command, `RSV = 0` (R150, R157). -/
def encode (i : Instr) : Word := CmdWord.toWord { opcode := i.opcode, model := i.model, rsv := 0 }

/-- A 32-bit word given as the number `w` of an opcode-table row of `nbits` bits: bits at `nbits` and above are 0. -/
def tableWord (nbits w : Nat) : Word := BitVec.ofNat 32 (w % 2 ^ nbits)

/-- The command the decoder reads from a row of the opcode table. -/
def decodeTableWord (nbits w : Nat) : Option Instr :=
  match decode (tableWord nbits w) with
  | .ok i => some i
  | .error _ => none

end Sys2Proof
end

