-- ==== Sys2Proof/Config.lean ====
section
/-! DEFINITION. The implementation parameters of R7 and R8, and the free values the spec leaves open.
A parameter with a value is a plain definition. A parameter the spec calls OPEN, and every value the spec
calls unspecified, is an opaque constant: nothing in Lean can evaluate it, so no proof can lean on one choice. -/

namespace Sys2Proof.Config

/-- `NSYM_MAX` (R7): the largest arithmetic alphabet. -/
def nsymMax : Nat := 128

/-- `SENT_H` (R7): the Huffman sentinel symbol. -/
def sentH : Nat := 128

/-- `PRIME_BITS` (R7): bits the arithmetic decoder reads before its first symbol. -/
def primeBits : Nat := 16

/-- `P` (R7): the interval precision of `FIXED` mode in bits. -/
def fixedP : Nat := 32

/-- The binary64 grid: every non-negative finite binary64 value is a multiple of `2^-1074` (R12). -/
def fp64Grid : Nat := 1074

/-- `DEN_MAX` (R7): the largest probability denominator. -/
def denMax : Nat := 2 ^ 30

/-- `KMAX` (R7): the largest lookahead bit position; `ENC` is a fraction register of this many bits. -/
def kmax : Nat := 192

/-- `IBUF_BYTES` (R7). -/
def ibufBytes : Nat := 65536

/-- `OBUF_BYTES` (R7). -/
def obufBytes : Nat := 65536

/-- `LMAX` (R7): the longest Huffman codeword in bits. -/
def lmax : Nat := 128

/-- `NODE_CAP` (R7): the capacity of the node arena. -/
def nodeCap : Nat := 32768

/-- `NIL` (R7): the node index that stands for an absent child. -/
def nil : BitVec 15 := 0x7FFF

/-- The size of the host aperture in bytes (R100). -/
def apertureBytes : Nat := 0x60000

/-- The constant of the `ID` register (R31). -/
def idWord : Word := 0x41484307

/-- A bound on the steps of one renormalization loop.
R257 bounds the loop by 33 steps.
An interval on the binary64 grid inside `[0, 1]` doubles at most 1074 times, so this bound is never reached
from a non-empty interval (Laws/Interval.lean shows it); it only makes the loop structurally recursive. -/
def renormFuel : Nat := 1100

/-- FREE VALUE: byte `i` of a buffer whose contents are unspecified since epoch `e` (R450, R404, R452; U1, U2, U5). -/
opaque freeByte : Nat → Nat → Byte

/-- FREE VALUE: node word `n` of the arena whose contents are unspecified since epoch `e` (R450, R404, R452; U1, U3, U5). -/
opaque freeNode : Nat → Nat → Word

/-- FREE VALUE: what a read returns where the spec says any value: a `Volatile` location while busy
(R462, U4), any location while the hard reset input is asserted (R451, U6), or an address outside the aperture (R109). -/
opaque freeWord : Nat → Word

/-- OPEN PARAMETER `T_CMD` (R7, R475): how many service slots of the port lie between the acceptance of a
command and its completion. -/
opaque tCmd : Nat → Nat

/-- OPEN PARAMETER `AHCC_BASE` (R7, R100): the physical address of the aperture. -/
opaque ahccBase : Nat

/-- OPEN PARAMETER `IRQ_ROUTE` (R7, R420): the host interrupt line that `IRQ` drives. -/
opaque irqRoute : Nat

end Sys2Proof.Config
end

