-- ==== Sys2Proof/Machine/State.lean ====
section
/-! DEFINITION. The state of AHCC as plain data (10_state.md, 20_memory.md), the reasons a step can stop, and the state
right after power-on reset (R450, R451).

The registers and tables the host addresses stand in `Conf`, `Res`, `Diag`, `Huff` and the fields of `State`.
The internal working registers (R59 to R68) stand in `Work`.
The last five fields of `State` are the model's own: the level of the reset input, the host accesses that have yet to
arrive, the data of the last host read, the time left to the running command, and the counter of the free values. -/

namespace Sys2Proof.Machine

/-- Why a step can stop with a fault: never. Every error of the spec is a state the machine goes on from (R404, R407,
R408), and an access outside the aperture does not reach it (R109). -/
inductive Fault where
  deriving DecidableEq, Repr

/-- Why a step can refuse an instruction. -/
inductive Refusal where
  /-- An instruction that has no meaning in the model yet. No arm of `exec` answers with it. Safe. -/
  | notModelled (mnemonic : String)
  deriving DecidableEq, Repr

/-- `PHASE` (R59). It equals `STATUS.BUSY`, so it has no storage of its own: see `State.phase`. -/
inductive Phase where
  | idle
  | busy
  deriving DecidableEq, Repr

/-- `ACFG.NUMFMT` (R39): 0 is `FP64`, 1 is `FIXED`. -/
inductive NumFmt where
  | fp64
  | fixed
  deriving DecidableEq, Repr

/-- The `MODEL` operand (R152). -/
inductive Model where
  | fix
  | dir
  | big
  deriving DecidableEq, Repr

/-- The error codes of R401. -/
inductive ErrCode where
  | illegalCmd
  | cfgLen
  | cfgNsym
  | cfgAlpha
  | cfgModel
  | cfgCode
  | range
  | zeroProb
  | noCode
  | digit
  | noTree
  | stream
  | badCode
  | outOvf
  | modelOvf
  deriving DecidableEq, Repr

/-- What a command reports when it raises an error (R404): the code, the position and the symbol or detail, the count
`W` of `OUT_BUF` bytes it had written, and whether the command was `HLOAD`. -/
structure Failure where
  code : ErrCode
  pos : Nat
  sym : Nat
  wrote : Nat := 0
  tree : Bool := false
  deriving DecidableEq, Repr

/-- The fields of `STATUS` (R35). -/
structure Status where
  busy : Bool
  done : Bool
  err : Bool
  wbusy : Bool
  buserr : Bool
  hvalid : Bool
  errcode : BitVec 8
  deriving DecidableEq, Repr

/-- The configuration registers (R38 to R42). Reserved bits have no storage. -/
structure Conf where
  /-- `IN_LEN[16:0]` (R38) -/
  inLen : BitVec 17
  /-- `ACFG.NUMFMT` (R39) -/
  numFmt : NumFmt
  /-- `ACFG.NSYM` (R39) -/
  nsym : BitVec 8
  /-- `ALPHA[15:0]` (R40) -/
  alpha : BitVec 16
  /-- `FIX_DEN[30:0]` (R41) -/
  fixDen : BitVec 31
  /-- `FIX_CUM[0..127][30:0]` (R42) -/
  fixCum : Vector (BitVec 31) 128
  deriving DecidableEq, Repr

/-- The result registers of every command (R43 to R46). -/
structure Res where
  outLen : Word
  outBits : Word
  rdBits : Word
  errPos : Word
  errSym : Word
  deriving DecidableEq, Repr

/-- The diagnostic registers (R50). -/
structure Diag where
  lowL : Word
  lowH : Word
  highL : Word
  highH : Word
  pend : Word
  k : Word
  enc : Vector Word 6
  deriving DecidableEq, Repr

/-- A byte buffer: the bytes it is known to hold, keyed by buffer index, strictly rising.
An index that is not listed holds an unspecified byte: no value is stored for it, and a read of it gives
`Config.freeByte epoch index`. -/
structure Memory where
  cells : List Host.Cell
  epoch : Nat
  deriving DecidableEq, Repr

/-- The node arena (R55), in the form of `Memory`, keyed by node index. -/
structure Arena where
  cells : List (Nat × Word)
  epoch : Nat
  deriving DecidableEq, Repr

/-- The Huffman tables and registers (R47, R48, R51 to R53, R55). `FREQ[128]` is hardwired and has no storage. -/
structure Huff where
  /-- `FREQ[0..127]` (R51) -/
  freq : Vector Word 128
  /-- `CW_LEN[0..128]`: bit 8 `VALID`, bits 7:0 `LEN` (R52) -/
  cwLen : Vector (BitVec 9) 129
  /-- `CW_BITS[s][m]` at index `4s + m` (R53) -/
  cwBits : Vector Word 516
  /-- `HROOT[14:0]` (R47) -/
  hroot : BitVec 15
  /-- `HNODES[15:0]` (R48) -/
  hnodes : BitVec 16
  /-- `HNODE[0..32767]` (R55) -/
  arena : Arena
  deriving DecidableEq, Repr

/-- The model registers (R67, R68), as tables with strictly rising keys in which an unlisted entry is 0.
`BCNT[p][c]` has the key `128p + c`. -/
structure Counts where
  /-- `CNT[c]` -/
  cnt : List (Nat × Nat)
  /-- `TOT` -/
  tot : Nat
  /-- `BCNT[p][c]` -/
  bcnt : List (Nat × Nat)
  /-- `BTOT[p]` -/
  btot : List (Nat × Nat)
  /-- `PREV`, `none` for `NONE` -/
  prev : Option Nat
  deriving DecidableEq, Repr

/-- A group of the Huffman builder (R66, R336). Each member stands with the codeword it has so far. -/
structure Group where
  freq : Nat
  id : Nat
  size : Nat
  members : List (Nat × List Bool)
  tree : Nat
  deriving DecidableEq, Repr

/-- The internal working registers (R60 to R68). Pseudocode integers are mathematical integers and every rule shows
that they fit their registers (R10, R389), so they are natural numbers here.
`low` and `high` are counted in the unit of the numeric mode: `2^-32` in `FIXED`, `2^-1074` in `FP64` (R60, R251). -/
structure Work where
  /-- `LOW` (R60) -/
  low : Nat
  /-- `HIGH` (R60) -/
  high : Nat
  /-- `PEND` (R61) -/
  pend : Nat
  /-- `ENC` as the integer `E` of R273 (R62) -/
  enc : Nat
  /-- `K` (R62) -/
  k : Nat
  /-- `OBITS` (R63) -/
  obits : Nat
  /-- `NOUT` (R65), which is also `OBYTES` (R63) -/
  nout : Nat
  /-- `IPOS` (R64) -/
  ipos : Nat
  /-- `RPOS` (R64) -/
  rpos : Nat
  /-- the model registers (R67, R68) -/
  counts : Counts
  /-- the builder's groups (R66) -/
  groups : List Group
  deriving DecidableEq, Repr

/-- What arrives at the port of the block, in arrival order (R112): host accesses of `n` bytes at aperture offset `a`
(R106, R107), and changes of the hard reset input (R451). -/
inductive PortEvent where
  | read (a n : Nat)
  | write (a n : Nat) (v : Word)
  | resetInput (level : Bool)
  deriving DecidableEq, Repr

/-- The state of AHCC. -/
structure State where
  /-- `CTRL.IRQ_EN` (R34) -/
  irqEn : Bool
  /-- `STATUS` (R35) -/
  status : Status
  /-- `CMD` (R36) -/
  cmd : Word
  /-- configuration registers (R38 to R42) -/
  conf : Conf
  /-- result registers (R43 to R46) -/
  res : Res
  /-- diagnostic registers (R50) -/
  diag : Diag
  /-- `PROBE_CUM[0..127]` (R56) -/
  probeCum : Vector Word 128
  /-- `PROBE_DEN` (R49) -/
  probeDen : Word
  /-- Huffman tables, arena and registers (R47, R48, R51 to R53, R55) -/
  huff : Huff
  /-- `IN_BUF` (R57) -/
  inBuf : Memory
  /-- `OUT_BUF` (R58) -/
  outBuf : Memory
  /-- internal working registers (R60 to R68) -/
  work : Work
  /-- MODEL'S OWN: the hard reset input is asserted (R451) -/
  resetIn : Bool
  /-- MODEL'S OWN: what has yet to arrive at the port, in arrival order (R112, R113) -/
  port : List PortEvent
  /-- MODEL'S OWN: the data the last host read returned (R106) -/
  rdata : Word
  /-- MODEL'S OWN: service slots of the port left before the running command completes (R475) -/
  wait : Nat
  /-- MODEL'S OWN: the counter of the free values -/
  free : Nat
  deriving DecidableEq, Repr

/-- `PHASE` (R59): "It equals `STATUS.BUSY`". -/
def State.phase (s : State) : Phase := if s.status.busy then .busy else .idle

/-- `STATUS` after reset (R450): all fields 0. -/
def Status.reset : Status :=
  { busy := false, done := false, err := false, wbusy := false, buserr := false, hvalid := false, errcode := 0 }

/-- The configuration registers after reset (R38 to R42, R450). -/
def Conf.reset : Conf :=
  { inLen := 0, numFmt := .fp64, nsym := 128, alpha := 0x100, fixDen := 0, fixCum := Vector.replicate 128 0 }

/-- The result registers after reset (R43 to R46, R450). -/
def Res.reset : Res := { outLen := 0, outBits := 0, rdBits := 0, errPos := 0, errSym := 0 }

/-- The diagnostic registers after reset (R50, R450). -/
def Diag.reset : Diag :=
  { lowL := 0, lowH := 0, highL := 0, highH := 0, pend := 0, k := 0, enc := Vector.replicate 6 0 }

/-- The Huffman registers and tables after reset (R450), over an arena whose contents reset does not give. -/
def Huff.reset (a : Arena) : Huff :=
  { freq := Vector.replicate 128 0, cwLen := Vector.replicate 129 0, cwBits := Vector.replicate 516 0,
    hroot := 0, hnodes := 0, arena := a }

/-- Model registers with every count 0 and `PREV = NONE` (R205, R208). -/
def Counts.zero : Counts := { cnt := [], tot := 0, bcnt := [], btot := [], prev := none }

/-- The working registers after reset. R450 calls them unobservable and re-initialised by every command that uses
them; DESIGN CHOICE (log entry 2): all 0. -/
def Work.reset : Work :=
  { low := 0, high := 0, pend := 0, enc := 0, k := 0, obits := 0, nout := 0, ipos := 0, rpos := 0,
    counts := Counts.zero, groups := [] }

/-- The machine right after power-on reset (R450, R451): engine idle, buffers and arena unspecified (each in an epoch of
its own), and nothing at the port (R453). DESIGN CHOICE (log entries 1, 2, 3): the epochs, the working registers and the
model's own fields. -/
def State.reset : State :=
  { irqEn := false, status := Status.reset, cmd := 0, conf := Conf.reset, res := Res.reset, diag := Diag.reset,
    probeCum := Vector.replicate 128 0, probeDen := 0, huff := Huff.reset { cells := [], epoch := 2 },
    inBuf := { cells := [], epoch := 0 }, outBuf := { cells := [], epoch := 1 }, work := Work.reset,
    resetIn := false, port := [], rdata := 0, wait := 0, free := 3 }

end Sys2Proof.Machine
end

