-- ==== Sys2Proof/Machine/Flags.lean ====
section
/-! DEFINITION. Every flag computation of the spec: the `STATUS` word and its write-1-to-clear bits (R35), the codes of
`ERRCODE` (R401) and the interrupt output (R420). AHCC has no condition codes (R32). -/

namespace Sys2Proof.Machine

/-- The value of `STATUS.ERRCODE` for an error (R401). -/
def ErrCode.toByte : ErrCode → BitVec 8
  | .illegalCmd => 0x01
  | .cfgLen => 0x02
  | .cfgNsym => 0x03
  | .cfgAlpha => 0x04
  | .cfgModel => 0x05
  | .cfgCode => 0x06
  | .range => 0x10
  | .zeroProb => 0x11
  | .noCode => 0x12
  | .digit => 0x13
  | .noTree => 0x14
  | .stream => 0x20
  | .badCode => 0x21
  | .outOvf => 0x30
  | .modelOvf => 0x31

/-- Every value `STATUS.ERRCODE` can take (R401): "All other codes are never produced". -/
def errCodeValues : List (BitVec 8) :=
  [0x00, 0x01, 0x02, 0x03, 0x04, 0x05, 0x06, 0x10, 0x11, 0x12, 0x13, 0x14, 0x20, 0x21, 0x30, 0x31]

/-- The word a read of `STATUS` returns (R35): `ERRCODE` in 23:16, `HVALID` in 8, `BUSERR`, `WBUSY`, `ERR`, `DONE`,
`BUSY` in 4:0, the rest 0. -/
def Status.word (st : Status) : Word :=
  0#8 ++ st.errcode ++ 0#7 ++ BitVec.ofBool st.hvalid ++ 0#3 ++ BitVec.ofBool st.buserr ++ BitVec.ofBool st.wbusy
    ++ BitVec.ofBool st.err ++ BitVec.ofBool st.done ++ BitVec.ofBool st.busy

/-- A host write of `v` to `STATUS` (R35): a 1 in bit 1, 2, 3 or 4 clears `DONE`, `ERR`, `WBUSY` or `BUSERR`; a 0 has no
effect, and the other bits are read-only. -/
def Status.writeOneToClear (st : Status) (v : Word) : Status :=
  { st with
    done := st.done && !v.getLsbD 1
    err := st.err && !v.getLsbD 2
    wbusy := st.wbusy && !v.getLsbD 3
    buserr := st.buserr && !v.getLsbD 4 }

/-- Acceptance of a command (R37): `DONE`, `ERR` and `ERRCODE` to 0, `BUSY` to 1. -/
def Status.accept (st : Status) : Status := { st with busy := true, done := false, err := false, errcode := 0 }

/-- Completion without error (R405). -/
def Status.complete (st : Status) : Status := { st with busy := false, done := true, errcode := 0 }

/-- Completion with an error (R404). -/
def Status.raise (st : Status) (c : ErrCode) : Status := { st with busy := false, err := true, errcode := c.toByte }

/-- The interrupt output `IRQ` (R420). -/
def State.irq (s : State) : Bool := s.irqEn && (s.status.done || s.status.err)

/-- The level of host interrupt line `line`: `IRQ` drives the line `IRQ_ROUTE` (R420). -/
def State.irqLine (s : State) (line : Nat) : Bool := s.irq && line == Config.irqRoute

end Sys2Proof.Machine
end

