-- ==== Sys2Proof/Machine/Memory.lean ====
section
/-! DEFINITION. The named operations over the stores of the machine: keyed cells, byte buffers, the node arena, word
tables and model counts. -/

namespace Sys2Proof.Machine

/-- What is listed under key `a`. -/
def Cells.find? {α : Type} : List (Nat × α) → Nat → Option α
  | [], _ => none
  | (k, v) :: t, a => if k = a then some v else Cells.find? t a

/-- List `v` under key `a`, keeping the keys strictly rising. -/
def Cells.put {α : Type} : List (Nat × α) → Nat → α → List (Nat × α)
  | [], a, v => [(a, v)]
  | (k, w) :: t, a, v =>
    if a < k then (a, v) :: (k, w) :: t
    else if a = k then (a, v) :: t
    else (k, w) :: Cells.put t a v

/-- The keys are strictly rising: the one canonical form of every keyed list of the state. -/
abbrev Cells.rising {α : Type} (l : List (Nat × α)) : Prop := l.Pairwise fun x y => x.1 < y.1

/-- The elements of a list with the keys `i`, `i+1`, … -/
def Cells.indexed {α : Type} : Nat → List α → List (Nat × α)
  | _, [] => []
  | i, x :: xs => (i, x) :: Cells.indexed (i + 1) xs

/-- The list `xs` under the keys `0 .. |xs| - 1`, and what was listed above it. -/
def Cells.overwrite {α : Type} (l : List (Nat × α)) (xs : List α) : List (Nat × α) :=
  Cells.indexed 0 xs ++ l.filter fun c => decide (xs.length ≤ c.1)

/-- The canonical form of a byte buffer: strictly rising indices, all inside the 65536 bytes of the buffer (R57, R58).
An index that is not listed has no value, so no entry can equal what it reads as. -/
abbrev Memory.wf (m : Memory) : Prop := Cells.rising m.cells ∧ ∀ c ∈ m.cells, c.1 < Config.ibufBytes

/-- A buffer whose contents are unspecified since epoch `e` (R450, R452). -/
def Memory.fresh (e : Nat) : Memory := { cells := [], epoch := e }

/-- Byte `i` of a buffer; a free value where no byte is listed (R57, R58, R450). -/
def Memory.read (m : Memory) (i : Nat) : Byte :=
  match Cells.find? m.cells i with
  | some b => b
  | none => Config.freeByte m.epoch i

/-- Write byte `i` of a buffer. -/
def Memory.write (m : Memory) (i : Nat) (b : Byte) : Memory := { m with cells := Cells.put m.cells i b }

/-- Write the bytes `bs` at `i`, `i+1`, … -/
def Memory.writeMany (m : Memory) : Nat → List Byte → Memory
  | _, [] => m
  | i, b :: bs => (m.write i b).writeMany (i + 1) bs

/-- Replace bytes `0 .. |bs| - 1` of a buffer and keep the others. -/
def Memory.overwrite (m : Memory) (bs : List Byte) : Memory := { m with cells := Cells.overwrite m.cells bs }

/-- Bytes `0 .. w - 1` become unspecified, in epoch `e`; the others are kept (R404, U2). -/
def Memory.scramble (m : Memory) (e w : Nat) : Memory := m.overwrite ((List.range w).map (Config.freeByte e))

/-- The canonical form of the arena: strictly rising node indices below `NODE_CAP` (R55). -/
abbrev Arena.wf (a : Arena) : Prop := Cells.rising a.cells ∧ ∀ c ∈ a.cells, c.1 < Config.nodeCap

/-- An arena whose contents are unspecified since epoch `e` (R404, R450, R452). -/
def Arena.fresh (e : Nat) : Arena := { cells := [], epoch := e }

/-- Node word `n`; a free value where no word is listed (R55, R450). -/
def Arena.read (a : Arena) (n : Nat) : Word :=
  match Cells.find? a.cells n with
  | some w => w
  | none => Config.freeNode a.epoch n

/-- Write node word `n`. -/
def Arena.write (a : Arena) (n : Nat) (w : Word) : Arena := { a with cells := Cells.put a.cells n w }

/-- Entry `i` of a table; 0 past its end, which no rule reads. -/
def tget {w n : Nat} (t : Vector (BitVec w) n) (i : Nat) : BitVec w := if h : i < n then t[i] else 0

/-- Write entry `i` of a table; nothing past its end. -/
def tset {w n : Nat} (t : Vector (BitVec w) n) (i : Nat) (v : BitVec w) : Vector (BitVec w) n :=
  if h : i < n then t.set i v else t

/-- The table whose entry `i` is `f i`. -/
def tabulate {w : Nat} (n : Nat) (f : Nat → BitVec w) : Vector (BitVec w) n :=
  ⟨⟨(List.range n).map f⟩, by simp⟩

/-- A count of the model registers; an unlisted count is 0 (R67, R68). -/
def countOf (l : List (Nat × Nat)) (key : Nat) : Nat := (Cells.find? l key).getD 0

/-- Add 1 to a count (R207, R210). -/
def countUp (l : List (Nat × Nat)) (key : Nat) : List (Nat × Nat) := Cells.put l key (countOf l key + 1)

end Sys2Proof.Machine
end

