-- ==== Sys2Proof/Machine/Ops.lean ====
section
/-! DEFINITION. The frame every command runs in: acceptance (R37), the common prologue (R380), completion (R405), the
raising of an error, which is AHCC's trap entry (R404), and the two resets (R451, R452). There is no return from an error:
"AHCC needs no return-from-error operation" (R407). -/

namespace Sys2Proof.Machine

/-- Command acceptance (R37). The command completes after `T_CMD` service slots of the port (R475). -/
def acceptCommand (w : Word) (s : State) : State :=
  { s with
    cmd := w
    status := s.status.accept
    res := { s.res with errPos := 0, errSym := 0 }
    wait := Config.tCmd s.free
    free := s.free + 1 }

/-- The command word whose completion is due: a command is running and no service slot is left to it (R465, R475). -/
def dueCommand (s : State) : Option Word := if s.status.busy && s.wait == 0 then some s.cmd else none

/-- The writes of the common prologue (R380), for every command but `NOP`. -/
def startCommand (s : State) : State :=
  { s with
    res := { s.res with outLen := 0, outBits := 0, rdBits := 0 }
    work := { s.work with obits := 0, nout := 0, ipos := 0, rpos := 0 } }

/-- The check of `IN_LEN` in the common prologue (R380). -/
def checkInLen (s : State) : Except Failure Unit :=
  if Config.ibufBytes < s.conf.inLen.toNat then .error { code := .cfgLen, pos := 0, sym := s.conf.inLen.toNat } else .ok ()

/-- The check of `STATUS.HVALID` in the common prologue (R380). -/
def checkTree (s : State) : Except Failure Unit :=
  if s.status.hvalid then .ok () else .error { code := .noTree, pos := 0, sym := 0 }

/-- `complete with DONE` (R405). -/
def completeDone (s : State) : State := { s with status := s.status.complete }

/-- The part of R404 that concerns `HLOAD`: no tree is left. -/
def loseTree (e : Nat) (s : State) : State :=
  { s with
    status := { s.status with hvalid := false }
    huff := { s.huff with hnodes := 0, hroot := 0, arena := Arena.fresh e } }

/-- `raise Err(code, pos, sym)` (R404), the trap entry of AHCC. `s` is the state after the prologue: every other
effect of the command is discarded.
`ERR_POS`, `ERR_SYM` and `ERRCODE` take the report; the `W` bytes of `OUT_BUF` the command had written become
unspecified; a failed `HLOAD` leaves no tree; `BUSY` falls and `ERR` rises; the working state is discarded. -/
def raiseErr (f : Failure) (s : State) : State :=
  let t : State :=
    { s with
      res := { s.res with errPos := BitVec.ofNat 32 f.pos, errSym := BitVec.ofNat 32 f.sym }
      status := s.status.raise f.code
      outBuf := s.outBuf.scramble s.free f.wrote
      work := Work.reset
      free := s.free + 2 }
  if f.tree then loseTree (s.free + 1) t else t

/-- The end of a command (R400): it completes with the state its body left, or raises from the state `s` after its
prologue. -/
def settle (s : State) (r : Except Failure State) : Host.Outcome State Fault Refusal :=
  .next (match r with
    | .ok t => completeDone t
    | .error f => raiseErr f s)

/-- The completion of an illegal command word (R151): `E_ILLEGAL_CMD`, position 0, the whole word. The prologue has not
run. -/
def illegalCommand (s : State) : State := raiseErr { code := .illegalCmd, pos := 0, sym := s.cmd.toNat } s

/-- The commands that write `OUT_BUF` (R452). -/
def writesOutBuf : Instr → Bool
  | .aencFix | .aencDir | .aencBig | .adecFix | .adecDir | .adecBig | .henc | .hdec | .pack | .unpack => true
  | .nop | .mprobeFix | .mprobeDir | .mprobeBig | .hcount | .hbuild | .hload => false

/-- The commands that write the node arena (R452). -/
def writesArena : Instr → Bool
  | .hbuild | .hload => true
  | .nop | .aencFix | .aencDir | .aencBig | .adecFix | .adecDir | .adecBig | .mprobeFix | .mprobeDir | .mprobeBig
  | .hcount | .henc | .hdec | .pack | .unpack => false

/-- Whether a running command that satisfies `p` would be aborted now (R452). -/
def aborts (p : Instr → Bool) (s : State) : Bool :=
  s.status.busy && (match decode s.cmd with
    | .ok i => p i
    | .error _ => false)

/-- Soft reset (R452): every register and table of R450 marked "reset" takes its reset value, a running command is
aborted, `IN_BUF` is kept, and `OUT_BUF` and `HNODE` are kept unless the aborted command writes them. -/
def softReset (s : State) : State :=
  { State.reset with
    huff := Huff.reset (if aborts writesArena s then Arena.fresh (s.free + 1) else s.huff.arena)
    inBuf := s.inBuf
    outBuf := if aborts writesOutBuf s then Memory.fresh s.free else s.outBuf
    resetIn := s.resetIn
    port := s.port
    rdata := s.rdata
    free := s.free + 2 }

/-- Hard reset (R450, R451): every item of R450 takes its reset value; the buffers and the arena are unspecified anew. -/
def hardReset (s : State) : State :=
  { State.reset with
    huff := Huff.reset (Arena.fresh (s.free + 2))
    inBuf := Memory.fresh s.free
    outBuf := Memory.fresh (s.free + 1)
    resetIn := s.resetIn
    port := s.port
    rdata := s.rdata
    free := s.free + 3 }

end Sys2Proof.Machine
end

