-- ==== Sys2Proof/Machine/Operands.lean ====
section
/-! DEFINITION. The operand forms of AHCC (R155): symbol bytes and packed bits of `IN_BUF` (R103, R104, R162), frequencies
(R51), codewords (R53, R159), node words (R55, R160), and the packed and byte output forms (R103, R381, R161 to R163). -/

namespace Sys2Proof.Machine

/-- `IN_LEN` (R38). -/
def inLen (s : State) : Nat := s.conf.inLen.toNat

/-- `IN[i]` (R104). -/
def inByte (s : State) (i : Nat) : Byte := s.inBuf.read i

/-- `IN[0..IN_LEN−1]` (R104). -/
def inBytes (s : State) : List Byte := (List.range (inLen s)).map (inByte s)

/-- `InBit(j)` (R103): bit 0 of the stream is the most significant bit of byte 0. -/
def inBit (s : State) (j : Nat) : Bool := (inByte s (j / 8)).getMsbD (j % 8)

/-- The input as a packed bit stream, bits `0 .. 8·IN_LEN − 1` (R103, R161). -/
def inBits (s : State) : List Bool := (List.range (8 * inLen s)).map (inBit s)

/-- The bit source of `ADEC` (R272): the stream extended by zero bits. -/
def inBitZ (s : State) (j : Nat) : Bool := decide (j < 8 * inLen s) && inBit s j

/-- The unsigned value of `w` bits of `bits` from position `k`, most significant first; bits past the end are 0. -/
def bitsValue (bits : List Bool) (k : Nat) : Nat → Nat
  | 0 => 0
  | w + 1 => 2 * bitsValue bits k w + (bits.getD (k + w) false).toNat

/-- Unit `j` of width `w` of a bit string, most significant bit first, zero-padded (R53, R103). -/
def packUnit (w : Nat) (bits : List Bool) (j : Nat) : BitVec w := BitVec.ofNat w (bitsValue bits (w * j) w)

/-- The bytes that hold `n` packed bits: `ceil(n / 8)` (R381). -/
def packedLen (n : Nat) : Nat := (n + 7) / 8

/-- A bit string in the packed byte format (R103, R161). -/
def packBits (bits : List Bool) : List Byte := (List.range (packedLen bits.length)).map (packUnit 8 bits)

/-- `OutBit(b, pos, sym)` on the bits appended so far (R381): `OBITS` is their count. -/
def outBit (pos sym : Nat) (out : List Bool) (b : Bool) : Except Failure (List Bool) :=
  if out.length = 8 * Config.obufBytes then
    .error { code := .outOvf, pos := pos, sym := sym, wrote := packedLen out.length }
  else .ok (out ++ [b])

/-- `OutBit` of each bit in turn (R256, R338). -/
def outBits (pos sym : Nat) : List Bool → List Bool → Except Failure (List Bool)
  | out, [] => .ok out
  | out, b :: bs =>
    match outBit pos sym out b with
    | .error f => .error f
    | .ok out' => outBits pos sym out' bs

/-- The completion writes of a bit-producing command (R381): `OUT_BUF`, `OUT_BITS`, `OUT_LEN`. -/
def commitBits (out : List Bool) (s : State) : State :=
  { s with
    outBuf := s.outBuf.overwrite (packBits out)
    res := { s.res with outBits := BitVec.ofNat 32 out.length, outLen := BitVec.ofNat 32 (packedLen out.length) }
    work := { s.work with obits := out.length } }

/-- The completion writes of a byte-producing command (R381): `OUT_BUF`, `OUT_LEN`; `OUT_BITS` stays 0. -/
def commitBytes (out : List Byte) (s : State) : State :=
  { s with
    outBuf := s.outBuf.overwrite out
    res := { s.res with outBits := 0, outLen := BitVec.ofNat 32 out.length }
    work := { s.work with nout := out.length } }

/-- `FREQ[s]` (R51): entry 128 is hardwired to 1. -/
def freqOf (h : Huff) (sym : Nat) : Nat := if sym = Config.sentH then 1 else (tget h.freq sym).toNat

/-- `CW_LEN[s].VALID` (R52). -/
def cwValid (h : Huff) (sym : Nat) : Bool := (tget h.cwLen sym).getLsbD 8

/-- `CW_LEN[s].LEN` (R52). -/
def cwLength (h : Huff) (sym : Nat) : Nat := ((tget h.cwLen sym).setWidth 8).toNat

/-- Codeword bit `i` of symbol `s` (R53, R159): bit `31 − (i mod 32)` of `CW_BITS[s][i // 32]`. -/
def cwBit (h : Huff) (sym i : Nat) : Bool := (tget h.cwBits (4 * sym + i / 32)).getMsbD (i % 32)

/-- The codeword of symbol `s` in the table (R53, R159). -/
def codeOf (h : Huff) (sym : Nat) : List Bool := (List.range (cwLength h sym)).map (cwBit h sym)

/-- `LEAF`, bit 31 of a node word (R55). -/
def nodeIsLeaf (w : Word) : Bool := w.getLsbD 31

/-- `SYM`, bits 7:0 of a leaf (R55). -/
def nodeSym (w : Word) : Nat := (w.setWidth 8).toNat

/-- `LEFT`, bits 29:15, or `RIGHT`, bits 14:0, of an internal node (R55); bit 0 goes left, bit 1 right (R331). -/
def nodeChild (w : Word) (b : Bool) : BitVec 15 := if b then w.extractLsb' 0 15 else w.extractLsb' 15 15

/-- A leaf word (R55): `{1'b1, 23'b0, SYM[7:0]}`. -/
def leafWord (sym : Nat) : Word := 1#1 ++ 0#23 ++ BitVec.ofNat 8 sym

/-- An internal node word (R55): `{1'b0, 1'b0, LEFT[14:0], RIGHT[14:0]}`. -/
def internalWord (left right : BitVec 15) : Word := 0#2 ++ left ++ right

/-- The node word with the child of branch `b` replaced. -/
def setChild (w : Word) (b : Bool) (n : BitVec 15) : Word :=
  if b then internalWord (nodeChild w false) n else internalWord n (nodeChild w true)

end Sys2Proof.Machine
end

