-- ==== Sys2Proof/Machine/Bus.lean ====
section
/-! DEFINITION. The port of the block: the address map (R101), legal accesses (R108), host reads (R106, R462) and writes
(R107, R461), holes and accesses that do not reach the block (R109), and the hard reset input (R451). -/

namespace Sys2Proof.Machine

/-- What stands at an aperture offset (R101). A word location is named by its word, a buffer location by its byte. -/
inductive Loc where
  | id
  | ctrl
  | status
  | cmd
  | inLen
  | outLen
  | outBits
  | rdBits
  | errPos
  | errSym
  | acfg
  | alpha
  | fixDen
  | hroot
  | hnodes
  | probeDen
  | diagLowL
  | diagLowH
  | diagHighL
  | diagHighH
  | diagPend
  | diagK
  | diagEnc (m : Nat)
  | fixCum (c : Nat)
  | freq (s : Nat)
  | cwLen (s : Nat)
  | cwBits (s m : Nat)
  | probeCum (c : Nat)
  | inBuf (i : Nat)
  | outBuf (i : Nat)
  | hnode (n : Nat)
  | hole
  deriving DecidableEq, Repr

/-- The registers of the first 22 words, in address order (R101). -/
def registerMap : List Loc :=
  [.id, .ctrl, .status, .cmd, .inLen, .outLen, .outBits, .rdBits, .errPos, .errSym, .acfg, .alpha, .fixDen, .hroot,
    .hnodes, .probeDen, .diagLowL, .diagLowH, .diagHighL, .diagHighH, .diagPend, .diagK]

/-- The address map (R101). Every offset that is not listed is a hole (R109). -/
def locate (a : Nat) : Loc :=
  if a < 0x58 then registerMap.getD (a / 4) .hole
  else if 0x60 ≤ a ∧ a < 0x78 then .diagEnc ((a - 0x60) / 4)
  else if 0x1000 ≤ a ∧ a < 0x1200 then .fixCum ((a - 0x1000) / 4)
  else if 0x1400 ≤ a ∧ a < 0x1604 then .freq ((a - 0x1400) / 4)
  else if 0x1800 ≤ a ∧ a < 0x1A04 then .cwLen ((a - 0x1800) / 4)
  else if 0x2000 ≤ a ∧ a < 0x2810 then .cwBits ((a - 0x2000) / 16) ((a - 0x2000) / 4 % 4)
  else if 0x3000 ≤ a ∧ a < 0x3200 then .probeCum ((a - 0x3000) / 4)
  else if 0x10000 ≤ a ∧ a < 0x20000 then .inBuf (a - 0x10000)
  else if 0x20000 ≤ a ∧ a < 0x30000 then .outBuf (a - 0x20000)
  else if 0x40000 ≤ a ∧ a < 0x60000 then .hnode ((a - 0x40000) / 4)
  else .hole

/-- The aperture offset of a physical address, if it lies in the aperture at `AHCC_BASE` (R100). -/
def busOffset (pa : Nat) : Option Nat :=
  if Config.ahccBase ≤ pa ∧ pa < Config.ahccBase + Config.apertureBytes then some (pa - Config.ahccBase) else none

/-- Whether an offset lies in one of the two byte buffers (R101). -/
def inByteBuffer (a : Nat) : Bool := decide (0x10000 ≤ a) && decide (a < 0x30000)

/-- `Legal(a, n)` (R108). An aligned access of 1, 2 or 4 bytes never leaves the 65536-byte buffer it starts in. -/
def legalAccess (a n : Nat) : Bool :=
  if inByteBuffer a then (n == 1 || n == 2 || n == 4) && a % n == 0 else n == 4 && a % 4 == 0

/-- The `n` bytes of a buffer from index `i`, little-endian byte lanes (R102). -/
def readLanes (m : Memory) (i : Nat) : Nat → Word
  | 0 => 0
  | n + 1 => readLanes m i n ||| ((m.read (i + n)).setWidth 32 <<< (8 * n))

/-- The `n` low bytes of a data word, lane 0 first (R102). -/
def lanes (v : Word) (n : Nat) : List Byte := (List.range n).map fun k => v.extractLsb' (8 * k) 8

/-- The mask of the `n` low bytes. -/
def laneMask (n : Nat) : Word := BitVec.ofNat 32 (2 ^ (8 * n) - 1)

/-- The word of `ACFG` (R39). -/
def acfgWord (c : Conf) : Word :=
  0#16 ++ c.nsym ++ 0#7 ++ (match c.numFmt with
    | .fp64 => 0#1
    | .fixed => 1#1)

/-- The current content of a location; reserved bits read 0 (R34 to R58, R106). -/
def contentOf (s : State) (n : Nat) : Loc → Word
  | .id => Config.idWord
  | .ctrl => 0#30 ++ BitVec.ofBool s.irqEn ++ 0#1
  | .status => s.status.word
  | .cmd => s.cmd
  | .inLen => s.conf.inLen.setWidth 32
  | .outLen => s.res.outLen
  | .outBits => s.res.outBits
  | .rdBits => s.res.rdBits
  | .errPos => s.res.errPos
  | .errSym => s.res.errSym
  | .acfg => acfgWord s.conf
  | .alpha => s.conf.alpha.setWidth 32
  | .fixDen => s.conf.fixDen.setWidth 32
  | .hroot => s.huff.hroot.setWidth 32
  | .hnodes => s.huff.hnodes.setWidth 32
  | .probeDen => s.probeDen
  | .diagLowL => s.diag.lowL
  | .diagLowH => s.diag.lowH
  | .diagHighL => s.diag.highL
  | .diagHighH => s.diag.highH
  | .diagPend => s.diag.pend
  | .diagK => s.diag.k
  | .diagEnc m => tget s.diag.enc m
  | .fixCum c => (tget s.conf.fixCum c).setWidth 32
  | .freq x => BitVec.ofNat 32 (freqOf s.huff x)
  | .cwLen x => (tget s.huff.cwLen x).setWidth 32
  | .cwBits x m => tget s.huff.cwBits (4 * x + m)
  | .probeCum c => tget s.probeCum c
  | .inBuf i => readLanes s.inBuf i n
  | .outBuf i => readLanes s.outBuf i n
  | .hnode k => s.huff.arena.read k
  | .hole => 0

/-- The bits of a location that may hold any value while the command `i` runs (R462).
The first row of the table of R462 says "every command except `NOP`"; the illegal word, `none`, is read into it (log
entry 6). A reserved bit still reads 0. -/
def volatileBits (i : Option Instr) (loc : Loc) : Word :=
  let coder := i matches some .aencFix | some .aencDir | some .aencBig | some .adecFix | some .adecDir | some .adecBig
  let probe := i matches some .mprobeFix | some .mprobeDir | some .mprobeBig
  let count := i matches some .hcount
  let build := i matches some .hbuild
  let load := i matches some .hload
  let bytes := i matches some .henc | some .hdec | some .pack | some .unpack
  let all (b : Bool) (mask : Word) : Word := if b then mask else 0
  match loc with
  | .outLen | .outBits | .rdBits | .errPos | .errSym => all (!(i matches some .nop)) 0xFFFFFFFF
  | .outBuf _ => all (coder || bytes) 0xFFFFFFFF
  | .diagLowL | .diagLowH | .diagHighL | .diagHighH | .diagPend | .diagK | .diagEnc _ => all coder 0xFFFFFFFF
  | .probeCum _ | .probeDen => all probe 0xFFFFFFFF
  | .freq x => all (count && decide (x < 128)) 0xFFFFFFFF
  | .cwLen _ => all build 0x1FF
  | .cwBits _ _ => all build 0xFFFFFFFF
  | .hnode _ => all (build || load) 0xFFFFFFFF
  | .hroot => all (build || load) 0x7FFF
  | .hnodes => all (build || load) 0xFFFF
  | .status => all (build || load) 0x100
  | .id | .ctrl | .cmd | .inLen | .acfg | .alpha | .fixDen | .fixCum _ | .inBuf _ | .hole => 0

/-- The command that is running, if the word in `CMD` is legal (R462). -/
def runningCommand (s : State) : Option Instr :=
  match decode s.cmd with
  | .ok i => some i
  | .error _ => none

/-- The data of a legal read of `n` bytes at offset `a` (R106): the current content, or any value in the bits that are
volatile while busy (R462, U4). -/
def readData (s : State) (a n : Nat) : Word :=
  let loc := locate a
  let v := if s.status.busy then volatileBits (runningCommand s) loc &&& laneMask n else 0
  if v = 0 then contentOf s n loc else (contentOf s n loc &&& ~~~v) ||| (Config.freeWord s.free &&& v)

/-- An illegal access (R108): nothing but `STATUS.BUSERR <- 1`. -/
def busError (s : State) : State := { s with status := { s.status with buserr := true } }

/-- `MemRead(a, n)` (R106): the data stands in `rdata`; no other effect but `BUSERR` of an illegal access. -/
def memRead (a n : Nat) (s : State) : State :=
  if legalAccess a n then { s with rdata := readData s a n, free := s.free + 1 }
  else { busError s with rdata := 0 }

/-- A write of `v` to `CTRL` (R34, R452): `SRST` takes precedence over the other bits. -/
def writeCtrl (v : Word) (s : State) : State := if v.getLsbD 0 then softReset s else { s with irqEn := v.getLsbD 1 }

/-- A write of `v` to `STATUS` (R35). -/
def writeStatus (v : Word) (s : State) : State := { s with status := s.status.writeOneToClear v }

/-- A host write to the codeword table clears `HVALID` (R54). -/
def dropTree (s : State) : State := { s with status := { s.status with hvalid := false } }

/-- The last line of R107: store `v` into the writable bits of a writable location (R38 to R42, R51 to R54, R57). A
read-only or hardwired location, or a hole, ignores the write. -/
def storeWord (loc : Loc) (n : Nat) (v : Word) (s : State) : State :=
  match loc with
  | .inLen => { s with conf := { s.conf with inLen := v.setWidth 17 } }
  | .acfg =>
    { s with conf := { s.conf with numFmt := if v.getLsbD 0 then .fixed else .fp64, nsym := v.extractLsb' 8 8 } }
  | .alpha => { s with conf := { s.conf with alpha := v.setWidth 16 } }
  | .fixDen => { s with conf := { s.conf with fixDen := v.setWidth 31 } }
  | .fixCum c => { s with conf := { s.conf with fixCum := tset s.conf.fixCum c (v.setWidth 31) } }
  | .freq x => { s with huff := { s.huff with freq := tset s.huff.freq x v } }
  | .cwLen x => dropTree { s with huff := { s.huff with cwLen := tset s.huff.cwLen x (v.setWidth 9) } }
  | .cwBits x m => dropTree { s with huff := { s.huff with cwBits := tset s.huff.cwBits (4 * x + m) v } }
  | .inBuf i => { s with inBuf := s.inBuf.writeMany i (lanes v n) }
  | .id | .ctrl | .status | .cmd | .outLen | .outBits | .rdBits | .errPos | .errSym | .hroot | .hnodes | .probeDen
  | .diagLowL | .diagLowH | .diagHighL | .diagHighH | .diagPend | .diagK | .diagEnc _ | .probeCum _ | .outBuf _
  | .hnode _ | .hole => s

/-- A legal write to a location that is no hole, `CTRL` or `STATUS` (R107): dropped while busy, a command at `CMD`, else
a store. -/
def writeIdle (loc : Loc) (n : Nat) (v : Word) (s : State) : State :=
  if s.status.busy then { s with status := { s.status with wbusy := true } }
  else match loc with
    | .cmd => acceptCommand v s
    | _ => storeWord loc n v s

/-- `MemWrite(a, n, v)` (R107), in the rule's order. -/
def memWrite (a n : Nat) (v : Word) (s : State) : State :=
  if legalAccess a n then
    match locate a with
    | .hole => s
    | .ctrl => writeCtrl v s
    | .status => writeStatus v s
    | loc => writeIdle loc n v s
  else busError s

/-- A change of the hard reset input (R451). On assertion a running command is lost and every item of R450 takes its
reset value; on release "every item of rule R450 holds its reset value". -/
def setResetInput (level : Bool) (s : State) : State :=
  if level then { hardReset s with resetIn := true }
  else if s.resetIn then { hardReset s with resetIn := false }
  else s

/-- A host read as the port serves it: while the reset input is asserted it returns any value (R451, U6). -/
def portRead (a n : Nat) (s : State) : State :=
  if s.resetIn then { s with rdata := Config.freeWord s.free, free := s.free + 1 } else memRead a n s

/-- A host write as the port serves it: while the reset input is asserted it has no effect (R451). -/
def portWrite (a n : Nat) (v : Word) (s : State) : State := if s.resetIn then s else memWrite a n v s

/-- A host read outside the aperture (R109): it does not reach AHCC, and the data is the platform's, any value (log entry
7). -/
def outsideRead (s : State) : State := { s with rdata := Config.freeWord s.free, free := s.free + 1 }

/-- One arrival at the port (R112). An access outside the aperture does not reach AHCC (R109). -/
def serve (e : PortEvent) (s : State) : State :=
  match e with
  | .read a n => if a < Config.apertureBytes then portRead a n s else outsideRead s
  | .write a n v => if a < Config.apertureBytes then portWrite a n v s else s
  | .resetInput level => setResetInput level s

/-- One service slot passes (R475). -/
def passSlot (s : State) : State := { s with wait := s.wait - 1 }

/-- One service slot of the port: the next arrival, if there is one, in arrival order (R112). With nothing at the port
the block waits (R453). -/
def servePort (s : State) : State :=
  match s.port with
  | [] => passSlot s
  | e :: rest => serve e { passSlot s with port := rest }

end Sys2Proof.Machine
end

