-- ==== Sys2Proof/Machine/Interval.lean ====
section
/-! DEFINITION. The numeric datapath of the arithmetic coder (R12, R251 to R255): binary64 rounding, the boundary function,
the renormalization cases and the rescale.

An interval value is an exact natural number of units. The unit is `2^-32` in `FIXED` (R60) and `2^-1074` in `FP64`,
of which every non-negative finite binary64 value is a multiple (R12). So comparisons are exact (R251), and `HALF`,
`QTR` and the rescale have one form in both modes. -/

namespace Sys2Proof.Machine

/-- The number of units in 1 (R251): `ONE = 2^32` in `FIXED`. -/
def oneOf : NumFmt → Nat
  | .fixed => 2 ^ Config.fixedP
  | .fp64 => 2 ^ Config.fp64Grid

/-- `rnd64` (R12) of the quotient `n / d`, both in units of `2^-1074`: to the nearest multiple of `ulp`, ties to even.
`ulp` is `2^(e-52)` for the exponent `e = max(floor(log2 x), -1022)`; in units it is `2^(max(E, 52) - 52)` with
`E = floor(log2(n / d))`. -/
def rnd64 (n d : Nat) : Nat :=
  let ulp := 2 ^ (max (Nat.log2 (n / d)) 52 - 52)
  let q := n / (d * ulp)
  let r := n % (d * ulp)
  (if 2 * r < d * ulp then q else if d * ulp < 2 * r then q + 1 else q + q % 2) * ulp

/-- The binary64 bit pattern of `x` units (R12): biased exponent in 62:52, fraction in 51:0, sign 0. -/
def pattern64 (x : Nat) : BitVec 64 :=
  if x < 2 ^ 52 then BitVec.ofNat 64 x
  else BitVec.ofNat 64 ((Nat.log2 x - 51) * 2 ^ 52 + (x / 2 ^ (Nat.log2 x - 52) - 2 ^ 52))

/-- The 64 bits that `DIAG_LOW` and `DIAG_HIGH` show for `x` units (R50). -/
def intervalBits : NumFmt → Nat → BitVec 64
  | .fixed, x => BitVec.ofNat 64 x
  | .fp64, x => pattern64 x

/-- A cumulative vector `(cum, den)` with `cum[0..NSYM−1]` (R200). -/
structure CumVec where
  cum : List Nat
  den : Nat
  deriving DecidableEq, Repr

/-- `cum[j−1]`, with `cum[−1] = 0` (R200). -/
def CumVec.below (v : CumVec) (j : Nat) : Nat := if j = 0 then 0 else v.cum.getD (j - 1) 0

/-- `mass(c)` (R200). -/
def CumVec.mass (v : CumVec) (c : Nat) : Nat := v.below (c + 1) - v.below c

/-- The boundary `B(j)` for `1 ≤ j ≤ NSYM`, from the width `HIGH − LOW` and the cumulative numerator (R252). -/
def narrow (fmt : NumFmt) (low high cum den : Nat) : Nat :=
  match fmt with
  | .fixed => low + (high - low) * cum / den
  | .fp64 =>
    let w := rnd64 (high - low) 1
    let p := rnd64 (cum * oneOf .fp64) den
    rnd64 (low + rnd64 (w * p) (oneOf .fp64)) 1

/-- The boundary function `B(j)` (R252). -/
def boundary (fmt : NumFmt) (nsym : Nat) (v : CumVec) (low high j : Nat) : Nat :=
  if j = 0 then low
  else if j = nsym + 1 then high
  else narrow fmt low high (v.below j) v.den

/-- The renormalization cases (R254). -/
inductive RCase where
  | lower
  | upper
  | middle
  deriving DecidableEq, Repr

/-- The case function of R254, with `one` units in 1; `none` is the case NONE. -/
def renormCase (one : Nat) (middle : Bool) (low high : Nat) : Option RCase :=
  if high ≤ one / 2 then some .lower
  else if one / 2 ≤ low then some .upper
  else if middle && decide (one / 4 ≤ low) && decide (high ≤ 3 * (one / 4)) then some .middle
  else none

/-- The rescale of R255, of an interval value or of `ENC` (R273). -/
def rescale (one : Nat) (k : RCase) (x : Nat) : Nat :=
  match k with
  | .lower => 2 * x
  | .upper => 2 * (x - one / 2)
  | .middle => 2 * (x - one / 4)

end Sys2Proof.Machine
end

