-- ==== Sys2Proof/Machine/Models.lean ====
section
/-! DEFINITION. The probability models (R200 to R212) and `MPROBE` (R213). -/

namespace Sys2Proof.Machine

/-- `NSYM` (R39). -/
def nsymOf (c : Conf) : Nat := c.nsym.toNat

/-- `α_raw` (R40). -/
def alphaOf (c : Conf) : Nat := c.alpha.toNat

/-- `FIX_CUM[c]` (R42). -/
def fixCumOf (c : Conf) (i : Nat) : Nat := (tget c.fixCum i).toNat

/-- `cum[c] = c + 1`, `den = N + 1` (R203, R209). -/
def uniformVec (n : Nat) : CumVec := { cum := (List.range n).map (· + 1), den := n + 1 }

/-- The sum of the first `k` masses `count·256 + α_raw` (R206, R209). -/
def smoothedSum (count : Nat → Nat) (alpha : Nat) : Nat → Nat
  | 0 => 0
  | k + 1 => smoothedSum count alpha k + (count k * 256 + alpha)

/-- The Dirichlet-smoothed vector of the counts `count` with total `total` (R206, R209). -/
def smoothedVec (n alpha : Nat) (count : Nat → Nat) (total : Nat) : CumVec :=
  { cum := (List.range n).map fun c => smoothedSum count alpha (c + 1), den := total * 256 + (n + 1) * alpha }

/-- `Vec()` of the selected model (R203, R206, R209). -/
def modelVec (m : Model) (c : Conf) (k : Counts) : CumVec :=
  match m with
  | .fix =>
    if c.fixDen.toNat = 0 then uniformVec (nsymOf c)
    else { cum := (List.range (nsymOf c)).map (fixCumOf c), den := c.fixDen.toNat }
  | .dir => smoothedVec (nsymOf c) (alphaOf c) (countOf k.cnt) k.tot
  | .big =>
    match k.prev with
    | none => uniformVec (nsymOf c)
    | some p => smoothedVec (nsymOf c) (alphaOf c) (fun x => countOf k.bcnt (128 * p + x)) (countOf k.btot p)

/-- Whether one more update of a total `total` would pass `DEN_MAX` (R207, R210). -/
def modelFull (c : Conf) (total : Nat) : Bool :=
  decide (Config.denMax < (total + 1) * 256 + (nsymOf c + 1) * alphaOf c)

/-- `Update(c, pos)` of the selected model (R204, R207, R210); `none` where the rule raises `E_MODEL_OVF`. -/
def modelUpdate (m : Model) (c : Conf) (k : Counts) (sym : Nat) : Option Counts :=
  match m with
  | .fix => some k
  | .dir =>
    if modelFull c k.tot then none
    else some { k with cnt := countUp k.cnt sym, tot := k.tot + 1 }
  | .big =>
    match k.prev with
    | none => some { k with prev := some sym }
    | some p =>
      if modelFull c (countOf k.btot p) then none
      else some { k with bcnt := countUp k.bcnt (128 * p + sym), btot := countUp k.btot p, prev := some sym }

/-- The model registers a command starts from (R202, R205, R208): `Init` zeroes the registers of the selected model.
Model state is never carried over (R69). -/
def modelInit (m : Model) (k : Counts) : Counts :=
  match m with
  | .fix => k
  | .dir => { k with cnt := [], tot := 0 }
  | .big => { k with bcnt := [], btot := [], prev := none }

/-- The first `c` in `1 .. N−1` with `FIX_CUM[c] < FIX_CUM[c−1]` (R211). -/
def firstDecrease (c : Conf) : Option Nat :=
  (List.range (nsymOf c)).find? fun i => decide (1 ≤ i) && decide (fixCumOf c i < fixCumOf c (i - 1))

/-- The model configuration check (R211), in the rule's order. -/
def checkModel (m : Model) (c : Conf) : Except Failure Unit :=
  if nsymOf c = 0 ∨ Config.nsymMax < nsymOf c then .error { code := .cfgNsym, pos := 0, sym := nsymOf c }
  else match m with
    | .fix =>
      if c.fixDen.toNat = 0 then .ok ()
      else if Config.denMax < c.fixDen.toNat then .error { code := .cfgModel, pos := 0, sym := 1 }
      else match firstDecrease c with
        | some i => .error { code := .cfgModel, pos := i, sym := 2 }
        | none =>
          if c.fixDen.toNat ≤ fixCumOf c (nsymOf c - 1) then
            .error { code := .cfgModel, pos := nsymOf c - 1, sym := 3 }
          else .ok ()
    | .dir => if alphaOf c = 0 then .error { code := .cfgAlpha, pos := 0, sym := 0 } else .ok ()
    | .big => if alphaOf c = 0 then .error { code := .cfgAlpha, pos := 0, sym := 0 } else .ok ()

/-- The start-time checks of `AENC`, `ADEC` and `MPROBE` (R380): `IN_LEN`, then the model configuration. -/
def checkCoder (m : Model) (s : State) : Except Failure Unit :=
  match checkInLen s with
  | .error f => .error f
  | .ok () => checkModel m s.conf

/-- The loop of R213: feed the symbols to the model. -/
def feedModel (m : Model) (c : Conf) : Nat → List Byte → Counts → Except Failure Counts
  | _, [], k => .ok k
  | i, b :: bs, k =>
    if nsymOf c ≤ b.toNat then .error { code := .range, pos := i, sym := b.toNat }
    else match modelUpdate m c k b.toNat with
      | none => .error { code := .modelOvf, pos := i, sym := b.toNat }
      | some k' => feedModel m c (i + 1) bs k'

/-- The result writes of R213: entries at `NSYM` and above are 0. -/
def commitProbe (v : CumVec) (k : Counts) (s : State) : State :=
  { s with
    probeCum := tabulate 128 fun c => if c < nsymOf s.conf then BitVec.ofNat 32 (v.below (c + 1)) else 0
    probeDen := BitVec.ofNat 32 v.den
    work := { s.work with ipos := inLen s, counts := k } }

/-- The body of `MPROBE.m` (R213), from the state after the writes of the prologue. -/
def probeBody (m : Model) (s : State) : Except Failure State :=
  match checkCoder m s with
  | .error f => .error f
  | .ok () =>
    match feedModel m s.conf 0 (inBytes s) (modelInit m s.work.counts) with
    | .error f => .error f
    | .ok k => .ok (commitProbe (modelVec m s.conf k) k s)

/-- `MPROBE.FIX` (R213). -/
def execMprobeFix (s : State) : Host.Outcome State Fault Refusal :=
  settle (startCommand s) (probeBody .fix (startCommand s))

/-- `MPROBE.DIR` (R213). -/
def execMprobeDir (s : State) : Host.Outcome State Fault Refusal :=
  settle (startCommand s) (probeBody .dir (startCommand s))

/-- `MPROBE.BIG` (R213). -/
def execMprobeBig (s : State) : Host.Outcome State Fault Refusal :=
  settle (startCommand s) (probeBody .big (startCommand s))

end Sys2Proof.Machine
end

