-- ==== Sys2Proof/Machine/Arith.lean ====
section
/-! DEFINITION. The arithmetic encoder `AENC` (R256, R260 to R262) and decoder `ADEC` (R270 to R279). -/

namespace Sys2Proof.Machine

/-- The encoder's registers while it runs: `LOW`, `HIGH`, `PEND` (R60, R61) and the bits appended so far (R381). -/
structure EncRun where
  low : Nat
  high : Nat
  pend : Nat
  out : List Bool
  deriving DecidableEq, Repr

/-- One step of the renormalization loop in case `k` (R256): the bit with its pending bits of the opposite value, or one
more pending bit; then the rescale. -/
def renormEncStep (one pos sym : Nat) (k : RCase) (r : EncRun) : Except Failure EncRun :=
  let low' := rescale one k r.low
  let high' := rescale one k r.high
  match k with
  | .lower =>
    match outBits pos sym r.out (false :: List.replicate r.pend true) with
    | .error f => .error f
    | .ok out => .ok { low := low', high := high', pend := 0, out := out }
  | .upper =>
    match outBits pos sym r.out (true :: List.replicate r.pend false) with
    | .error f => .error f
    | .ok out => .ok { low := low', high := high', pend := 0, out := out }
  | .middle => .ok { low := low', high := high', pend := r.pend + 1, out := r.out }

/-- `RenormEnc(pos, sym)` (R256) with `middle = true`, and the half-only loop of R261 with `middle = false`. -/
def renormEnc (one : Nat) (middle : Bool) (pos sym : Nat) : Nat → EncRun → Except Failure EncRun
  | 0, r => .ok r
  | fuel + 1, r =>
    match renormCase one middle r.low r.high with
    | none => .ok r
    | some k =>
      match renormEncStep one pos sym k r with
      | .error f => .error f
      | .ok r' => renormEnc one middle pos sym fuel r'

/-- The symbol loop of R260, stages 1 to 5, on the input from index `i`. -/
def encodeSymbols (m : Model) (c : Conf) : Nat → List Byte → Counts → EncRun → Except Failure (Counts × EncRun)
  | _, [], k, r => .ok (k, r)
  | i, b :: bs, k, r =>
    let sym := b.toNat
    let v := modelVec m c k
    if nsymOf c ≤ sym then
      .error { code := .range, pos := i, sym := sym, wrote := packedLen r.out.length }
    else if v.mass sym = 0 then
      .error { code := .zeroProb, pos := i, sym := sym, wrote := packedLen r.out.length }
    else match modelUpdate m c k sym with
      | none => .error { code := .modelOvf, pos := i, sym := sym, wrote := packedLen r.out.length }
      | some k' =>
        let low' := boundary c.numFmt (nsymOf c) v r.low r.high sym
        let high' := boundary c.numFmt (nsymOf c) v r.low r.high (sym + 1)
        match renormEnc (oneOf c.numFmt) true i sym Config.renormFuel { r with low := low', high := high' } with
        | .error f => .error f
        | .ok r' => encodeSymbols m c (i + 1) bs k' r'

/-- `Terminate()` before its final bit (R261): narrow to the sentinel and run the half-only loop. -/
def narrowSentinel (m : Model) (c : Conf) (pos : Nat) (k : Counts) (r : EncRun) : Except Failure EncRun :=
  let low' := boundary c.numFmt (nsymOf c) (modelVec m c k) r.low r.high (nsymOf c)
  renormEnc (oneOf c.numFmt) false pos (nsymOf c) Config.renormFuel { r with low := low' }

/-- The registers `LOW = 0`, `HIGH = ONE`, `PEND = 0` (R60, R260). -/
def encStart (fmt : NumFmt) : EncRun := { low := 0, high := oneOf fmt, pend := 0, out := [] }

/-- The completion writes of `AENC` (R262): `DIAG_LOW`, `DIAG_HIGH` and `DIAG_PEND` hold the values before the final bit. -/
def commitEncode (k : Counts) (r : EncRun) (out : List Bool) (s : State) : State :=
  let t := commitBits out s
  { t with
    diag :=
      { lowL := (intervalBits s.conf.numFmt r.low).setWidth 32
        lowH := (intervalBits s.conf.numFmt r.low).extractLsb' 32 32
        highL := (intervalBits s.conf.numFmt r.high).setWidth 32
        highH := (intervalBits s.conf.numFmt r.high).extractLsb' 32 32
        pend := BitVec.ofNat 32 r.pend
        k := 0
        enc := Vector.replicate 6 0 }
    work := { t.work with low := r.low, high := r.high, pend := r.pend, ipos := inLen s, counts := k } }

/-- The body of `AENC.m` (R260), from the state after the writes of the prologue. -/
def encodeBody (m : Model) (s : State) : Except Failure State :=
  match checkCoder m s with
  | .error f => .error f
  | .ok () =>
    match encodeSymbols m s.conf 0 (inBytes s) (modelInit m s.work.counts) (encStart s.conf.numFmt) with
    | .error f => .error f
    | .ok (k, r) =>
      match narrowSentinel m s.conf (inLen s) k r with
      | .error f => .error f
      | .ok r' =>
        match outBit (inLen s) (nsymOf s.conf) r'.out true with
        | .error f => .error f
        | .ok out => .ok (commitEncode k r' out s)

/-- `AENC.FIX` (R260). -/
def execAencFix (s : State) : Host.Outcome State Fault Refusal :=
  settle (startCommand s) (encodeBody .fix (startCommand s))

/-- `AENC.DIR` (R260). -/
def execAencDir (s : State) : Host.Outcome State Fault Refusal :=
  settle (startCommand s) (encodeBody .dir (startCommand s))

/-- `AENC.BIG` (R260). -/
def execAencBig (s : State) : Host.Outcome State Fault Refusal :=
  settle (startCommand s) (encodeBody .big (startCommand s))

/-- The decoder's registers while it runs: `LOW`, `HIGH`, `ENC`, `K`, `RPOS` (R60, R62, R64), the symbols appended so
far (`NOUT` is their count, R65) and the model registers. -/
structure DecRun where
  low : Nat
  high : Nat
  enc : Nat
  k : Nat
  rpos : Nat
  out : List Byte
  counts : Counts
  deriving DecidableEq, Repr

/-- `AddBit(ReadBit())` (R272, R273) with the bit source `src`. -/
def takeBit (src : Nat → Bool) (r : DecRun) : DecRun :=
  { r with enc := r.enc + (src r.rpos).toNat * 2 ^ (Config.kmax - r.k), rpos := r.rpos + 1 }

/-- `K <- K + 1; AddBit(ReadBit())`, the step of R271 and of R276. -/
def widen (src : Nat → Bool) (r : DecRun) : DecRun := takeBit src { r with k := r.k + 1 }

/-- `Prime()` (R271): `n` steps. -/
def prime (src : Nat → Bool) : Nat → DecRun → DecRun
  | 0, r => r
  | n + 1, r => prime src n (widen src r)

/-- `real(x) ≤ ENC'` for a value `e` of `ENC` or `U` in units of `2^-192`, exactly (R251, R273). -/
def realLe (fmt : NumFmt) (x e : Nat) : Bool := decide (x * 2 ^ Config.kmax ≤ e * oneOf fmt)

/-- The sentinel test (R274): `ENC ≥ real(B(NSYM))`. -/
def sentinelSeen (c : Conf) (v : CumVec) (r : DecRun) : Bool :=
  realLe c.numFmt (boundary c.numFmt (nsymOf c) v r.low r.high (nsymOf c)) r.enc

/-- The test of R275 for symbol `x`: `ENC` and `U = ENC + 2^-K` lie in `[B(x), B(x+1))`. -/
def confirms (c : Conf) (v : CumVec) (r : DecRun) (x : Nat) : Bool :=
  let lo := boundary c.numFmt (nsymOf c) v r.low r.high x
  let hi := boundary c.numFmt (nsymOf c) v r.low r.high (x + 1)
  let u := r.enc + 2 ^ (Config.kmax - r.k)
  realLe c.numFmt lo r.enc && !realLe c.numFmt hi r.enc && realLe c.numFmt lo u && !realLe c.numFmt hi u

/-- `Confirm()` (R275): the scan in increasing order. -/
def confirm (c : Conf) (v : CumVec) (r : DecRun) : Option Nat := (List.range (nsymOf c)).find? (confirms c v r)

/-- The search for the next symbol (R270, steps 1 to 3): the sentinel test, `Confirm`, and `Lookahead` (R276) until one
of them succeeds. The first argument is `KMAX − K`, the number of lookaheads left; with none left, `E_STREAM`.
The answer `none` is the sentinel. -/
def findSymbol (src : Nat → Bool) (c : Conf) (v : CumVec) : Nat → DecRun → Except Failure (Option Nat × DecRun)
  | n, r =>
    if sentinelSeen c v r then .ok (none, r)
    else match confirm c v r with
      | some x => .ok (some x, r)
      | none =>
        match n with
        | 0 => .error { code := .stream, pos := r.rpos, sym := r.out.length, wrote := r.out.length }
        | n + 1 => findSymbol src c v n (widen src r)

/-- The renormalization loop of `Accept` (R277): one new bit per step, `K` unchanged. -/
def renormDec (src : Nat → Bool) (one : Nat) : Nat → DecRun → DecRun
  | 0, r => r
  | fuel + 1, r =>
    match renormCase one true r.low r.high with
    | none => r
    | some k =>
      renormDec src one fuel
        (takeBit src
          { r with low := rescale one k r.low, high := rescale one k r.high, enc := rescale (2 ^ Config.kmax) k r.enc })

/-- The narrowing and renormalization of `Accept(x)` (R277), from the vector fetched before the update. -/
def acceptSymbol (src : Nat → Bool) (c : Conf) (v : CumVec) (x : Nat) (k : Counts) (r : DecRun) : DecRun :=
  renormDec src (oneOf c.numFmt) Config.renormFuel
    { r with
      low := boundary c.numFmt (nsymOf c) v r.low r.high x
      high := boundary c.numFmt (nsymOf c) v r.low r.high (x + 1)
      out := r.out ++ [BitVec.ofNat 8 x]
      counts := k }

/-- The loop of R270. The first argument is `OBUF_BYTES − NOUT`, the room left in `OUT_BUF`; with none left, `OutByte`
raises `E_OUT_OVF` (R381). `Update` comes after `OutByte` (R277). -/
def decodeSymbols (src : Nat → Bool) (m : Model) (c : Conf) : Nat → DecRun → Except Failure DecRun
  | room, r =>
    match findSymbol src c (modelVec m c r.counts) (Config.kmax - r.k) r with
    | .error f => .error f
    | .ok (none, r') => .ok r'
    | .ok (some x, r') =>
      match room with
      | 0 => .error { code := .outOvf, pos := r'.out.length, sym := x, wrote := r'.out.length }
      | room + 1 =>
        match modelUpdate m c r'.counts x with
        | none => .error { code := .modelOvf, pos := r'.out.length, sym := x, wrote := r'.out.length + 1 }
        | some k => decodeSymbols src m c room (acceptSymbol src c (modelVec m c r.counts) x k r')

/-- The registers at the start of R270, after `Prime()` (R271). -/
def decStart (src : Nat → Bool) (fmt : NumFmt) (k : Counts) : DecRun :=
  prime src Config.primeBits
    { low := 0, high := oneOf fmt, enc := 0, k := 0, rpos := 0, out := [], counts := k }

/-- The completion writes of `ADEC` (R279). -/
def commitDecode (r : DecRun) (s : State) : State :=
  let t := commitBytes r.out s
  { t with
    res := { t.res with rdBits := BitVec.ofNat 32 r.rpos }
    diag :=
      { lowL := (intervalBits s.conf.numFmt r.low).setWidth 32
        lowH := (intervalBits s.conf.numFmt r.low).extractLsb' 32 32
        highL := (intervalBits s.conf.numFmt r.high).setWidth 32
        highH := (intervalBits s.conf.numFmt r.high).extractLsb' 32 32
        pend := 0
        k := BitVec.ofNat 32 r.k
        enc := tabulate 6 fun i => BitVec.ofNat 32 (r.enc / 2 ^ (32 * i)) }
    work := { t.work with low := r.low, high := r.high, enc := r.enc, k := r.k, rpos := r.rpos, counts := r.counts } }

/-- The body of `ADEC.m` (R270), from the state after the writes of the prologue. -/
def decodeBody (m : Model) (s : State) : Except Failure State :=
  match checkCoder m s with
  | .error f => .error f
  | .ok () =>
    match decodeSymbols (inBitZ s) m s.conf Config.obufBytes
        (decStart (inBitZ s) s.conf.numFmt (modelInit m s.work.counts)) with
    | .error f => .error f
    | .ok r => .ok (commitDecode r s)

/-- `ADEC.FIX` (R270). -/
def execAdecFix (s : State) : Host.Outcome State Fault Refusal :=
  settle (startCommand s) (decodeBody .fix (startCommand s))

/-- `ADEC.DIR` (R270). -/
def execAdecDir (s : State) : Host.Outcome State Fault Refusal :=
  settle (startCommand s) (decodeBody .dir (startCommand s))

/-- `ADEC.BIG` (R270). -/
def execAdecBig (s : State) : Host.Outcome State Fault Refusal :=
  settle (startCommand s) (decodeBody .big (startCommand s))

end Sys2Proof.Machine
end

