-- ==== Sys2Proof/Machine/BitPack.lean ====
section
/-! DEFINITION. `PACK` (R382), `UNPACK` (R383) and `NOP` (R384). -/

namespace Sys2Proof.Machine

/-- The loop of R382 on the input from index `i`. -/
def packDigits : Nat → List Byte → List Bool → Except Failure (List Bool)
  | _, [], out => .ok out
  | i, d :: ds, out =>
    if d = 0x30 ∨ d = 0x31 then
      match outBit i d.toNat out (d == 0x31) with
      | .error f => .error f
      | .ok out' => packDigits (i + 1) ds out'
    else .error { code := .digit, pos := i, sym := d.toNat, wrote := packedLen out.length }

/-- The body of `PACK` (R382). -/
def packBody (s : State) : Except Failure State :=
  match checkInLen s with
  | .error f => .error f
  | .ok () =>
    match packDigits 0 (inBytes s) [] with
    | .error f => .error f
    | .ok out => .ok (commitBits out { s with work := { s.work with ipos := inLen s } })

/-- `PACK` (R382). -/
def execPack (s : State) : Host.Outcome State Fault Refusal :=
  settle (startCommand s) (packBody (startCommand s))

/-- The ASCII digit of a bit (R163). -/
def digitOf (b : Bool) : Byte := if b then 0x31 else 0x30

/-- The body of `UNPACK` (R383): the overflow check comes before any write. -/
def unpackBody (s : State) : Except Failure State :=
  match checkInLen s with
  | .error f => .error f
  | .ok () =>
    if Config.obufBytes < 8 * inLen s then .error { code := .outOvf, pos := inLen s, sym := 0 }
    else .ok (commitBytes ((inBits s).map digitOf) { s with work := { s.work with rpos := 8 * inLen s } })

/-- `UNPACK` (R383). -/
def execUnpack (s : State) : Host.Outcome State Fault Refusal :=
  settle (startCommand s) (unpackBody (startCommand s))

/-- `NOP` (R384): no prologue; it completes with `DONE` and changes nothing else. -/
def execNop (s : State) : Host.Outcome State Fault Refusal := settle s (.ok s)

end Sys2Proof.Machine
end

