-- ==== Sys2Proof/Machine/Huffman.lean ====
section
/-! DEFINITION. The Huffman commands `HCOUNT`, `HBUILD`, `HLOAD`, `HENC` and `HDEC` (R330 to R339). -/

namespace Sys2Proof.Machine

/-! ### HCOUNT (R335) -/

/-- The first input byte that is no ASCII symbol, with its index (R335). -/
def firstOutside : Nat → List Byte → Option (Nat × Nat)
  | _, [] => none
  | i, b :: bs => if Config.sentH ≤ b.toNat then some (i, b.toNat) else firstOutside (i + 1) bs

/-- The number of input bytes equal to `sym` (R335). -/
def occurrences (bytes : List Byte) (sym : Nat) : Nat := bytes.countP fun b => b.toNat == sym

/-- The body of `HCOUNT` (R335): the whole input is checked before any write. -/
def countBody (s : State) : Except Failure State :=
  match checkInLen s with
  | .error f => .error f
  | .ok () =>
    match firstOutside 0 (inBytes s) with
    | some (i, b) => .error { code := .range, pos := i, sym := b }
    | none =>
      .ok { s with
        huff := { s.huff with freq := tabulate 128 fun x => BitVec.ofNat 32 (occurrences (inBytes s) x) }
        work := { s.work with ipos := inLen s } }

/-- `HCOUNT` (R335). -/
def execHcount (s : State) : Host.Outcome State Fault Refusal :=
  settle (startCommand s) (countBody (startCommand s))

/-! ### The arena (R334) -/

/-- The arena with the count of its allocated nodes, `HNODES`, while a builder runs (R334). -/
structure Trie where
  arena : Arena
  count : Nat
  deriving DecidableEq, Repr

/-- `Alloc(word)` (R334): the new node's index is the old count. -/
def Trie.alloc (t : Trie) (w : Word) : Trie := { arena := t.arena.write t.count w, count := t.count + 1 }

/-- Node word `n`. -/
def Trie.node (t : Trie) (n : Nat) : Word := t.arena.read n

/-- Write node word `n`. -/
def Trie.setNode (t : Trie) (n : Nat) (w : Word) : Trie := { t with arena := t.arena.write n w }

/-- The builders start from `HNODES = 0` (R334). -/
def trieStart (s : State) : Trie := { arena := s.huff.arena, count := 0 }

/-! ### HBUILD (R336) -/

/-- The leaves and one-symbol groups of the symbols with a positive frequency, in ascending order (R336). -/
def makeLeaves (h : Huff) : List Nat → Trie → List Group × Trie
  | [], t => ([], t)
  | sym :: rest, t =>
    if freqOf h sym = 0 then makeLeaves h rest t
    else
      let g : Group := { freq := freqOf h sym, id := sym, size := 1, members := [(sym, [])], tree := t.count }
      let q := makeLeaves h rest (t.alloc (leafWord sym))
      (g :: q.1, q.2)

/-- The order of extraction (R336): lexicographic, freq, then id. -/
def Group.before (a b : Group) : Bool := decide (a.freq < b.freq) || (a.freq == b.freq && decide (a.id < b.id))

/-- Remove the group with the least `(freq, id)` (R336). -/
def extractMin : List Group → Option (Group × List Group)
  | [] => none
  | g :: gs =>
    match extractMin gs with
    | none => some (g, [])
    | some (m, rest) => if g.before m then some (g, gs) else some (m, g :: rest)

/-- The merge of the first-extracted group `a` and the second `b` under node `n` (R336). -/
def mergeGroups (a b : Group) (n : Nat) : Group :=
  { freq := a.freq + b.freq
    id := if b.size ≤ a.size then a.id else b.id
    size := a.size + b.size
    members := (a.members.map fun x => (x.1, false :: x.2)) ++ (b.members.map fun x => (x.1, true :: x.2))
    tree := n }

/-- The merge loop of R336. Each merge takes one group away, so the number of groups bounds the loop. -/
def mergeAll : Nat → List Group → Trie → List Group × Trie
  | 0, gs, t => (gs, t)
  | fuel + 1, gs, t =>
    match extractMin gs with
    | none => (gs, t)
    | some (a, rest) =>
      match extractMin rest with
      | none => (gs, t)
      | some (b, rest') =>
        mergeAll fuel (mergeGroups a b t.count :: rest')
          (t.alloc (internalWord (BitVec.ofNat 15 a.tree) (BitVec.ofNat 15 b.tree)))

/-- The codeword of a symbol in a list of members. -/
def memberCode : List (Nat × List Bool) → Nat → Option (List Bool)
  | [], _ => none
  | (x, code) :: rest, sym => if x = sym then some code else memberCode rest sym

/-- `CW_LEN[s]` (R52, R336): `VALID = 1` and the length, or 0 for a symbol without a leaf. -/
def cwLenEntry (members : List (Nat × List Bool)) (sym : Nat) : BitVec 9 :=
  match memberCode members sym with
  | some code => 1#1 ++ BitVec.ofNat 8 code.length
  | none => 0

/-- `CW_BITS[s][m]` (R53, R336): MSB first, zero-padded, or 0 for a symbol without a leaf. -/
def cwBitsEntry (members : List (Nat × List Bool)) (sym m : Nat) : Word :=
  match memberCode members sym with
  | some code => packUnit 32 code m
  | none => 0

/-- The group that is left when the merge loop ends. `FREQ[128] = 1`, so there always is one (R336). -/
def lastGroup (gs : List Group) : Group :=
  gs.headD { freq := 0, id := 0, size := 0, members := [], tree := 0 }

/-- The result writes of `HBUILD` (R336). -/
def commitBuild (g : Group) (t : Trie) (s : State) : State :=
  { s with
    status := { s.status with hvalid := true }
    huff :=
      { s.huff with
        cwLen := tabulate 129 (cwLenEntry g.members)
        cwBits := tabulate 516 fun i => cwBitsEntry g.members (i / 4) (i % 4)
        hroot := BitVec.ofNat 15 g.tree
        hnodes := BitVec.ofNat 16 t.count
        arena := t.arena }
    work := { s.work with groups := [g] } }

/-- The body of `HBUILD` (R336). It raises nothing. -/
def buildBody (s : State) : State :=
  let q := makeLeaves s.huff (List.range 129) (trieStart s)
  let p := mergeAll q.1.length q.1 q.2
  commitBuild (lastGroup p.1) p.2 s

/-- `HBUILD` (R336). -/
def execHbuild (s : State) : Host.Outcome State Fault Refusal :=
  settle (startCommand s) (.ok (buildBody (startCommand s)))

/-! ### HLOAD (R337) -/

/-- A node is free for a leaf when it is no leaf and has no child (R337). -/
def nodeIsEmpty (w : Word) : Bool :=
  !nodeIsLeaf w && nodeChild w false == Config.nil && nodeChild w true == Config.nil

/-- `E_CFG_CODE` at bit `pos` of symbol `sym` (R337). -/
def codeError (pos sym : Nat) : Failure := { code := .cfgCode, pos := pos, sym := sym, tree := true }

/-- An internal node without children (R337). -/
def emptyNode : Word := internalWord Config.nil Config.nil

/-- One branch of the descent of R337: the child of node `n` on branch `b`, allocated if it is absent. -/
def descend (t : Trie) (n : Nat) (b : Bool) : Nat × Trie :=
  if nodeChild (t.node n) b = Config.nil then
    (t.count, (t.alloc emptyNode).setNode n (setChild (t.node n) b (BitVec.ofNat 15 t.count)))
  else ((nodeChild (t.node n) b).toNat, t)

/-- Insert the rest of a codeword at node `n`, at bit index `i` (R337). -/
def insertCode (sym : Nat) : Nat → Nat → List Bool → Trie → Except Failure Trie
  | n, i, [], t => if nodeIsEmpty (t.node n) then .ok (t.setNode n (leafWord sym)) else .error (codeError i sym)
  | n, i, b :: bs, t =>
    if nodeIsLeaf (t.node n) then .error (codeError i sym)
    else insertCode sym (descend t n b).1 (i + 1) bs (descend t n b).2

/-- Insert the codewords of the symbols, in the order given (R337). -/
def insertAll (h : Huff) : List Nat → Trie → Except Failure Trie
  | [], t => .ok t
  | sym :: rest, t =>
    if Config.lmax < cwLength h sym then .error (codeError (cwLength h sym) sym)
    else if cwLength h sym = 0 ∧ sym ≠ Config.sentH then .error (codeError 0 sym)
    else match insertCode sym 0 0 (codeOf h sym) t with
      | .error f => .error f
      | .ok t' => insertAll h rest t'

/-- The symbols that have a codeword, ascending (R337). -/
def validSymbols (h : Huff) : List Nat := (List.range 129).filter (cwValid h)

/-- The body of `HLOAD` (R337). -/
def loadBody (s : State) : Except Failure State :=
  if validSymbols s.huff = [] then .error (codeError 0 129)
  else match insertAll s.huff (validSymbols s.huff) ((trieStart s).alloc emptyNode) with
    | .error f => .error f
    | .ok t =>
      .ok { s with
        status := { s.status with hvalid := true }
        huff := { s.huff with hroot := 0, hnodes := BitVec.ofNat 16 t.count, arena := t.arena } }

/-- `HLOAD` (R337). -/
def execHload (s : State) : Host.Outcome State Fault Refusal :=
  settle (startCommand s) (loadBody (startCommand s))

/-! ### HENC (R338) -/

/-- The start-time checks of `HENC` and `HDEC` (R380): `IN_LEN`, then `HVALID`. -/
def checkHuffman (s : State) : Except Failure Unit :=
  match checkInLen s with
  | .error f => .error f
  | .ok () => checkTree s

/-- Append the codeword of `sym` (R338), or `E_NOCODE`. -/
def emitCode (h : Huff) (pos sym : Nat) (out : List Bool) : Except Failure (List Bool) :=
  if cwValid h sym then outBits pos sym out (codeOf h sym)
  else .error { code := .noCode, pos := pos, sym := sym, wrote := packedLen out.length }

/-- The symbol loop of R338 on the input from index `i`. -/
def huffEncode (h : Huff) : Nat → List Byte → List Bool → Except Failure (List Bool)
  | _, [], out => .ok out
  | i, b :: bs, out =>
    if Config.sentH ≤ b.toNat then
      .error { code := .range, pos := i, sym := b.toNat, wrote := packedLen out.length }
    else match emitCode h i b.toNat out with
      | .error f => .error f
      | .ok out' => huffEncode h (i + 1) bs out'

/-- The body of `HENC` (R338). -/
def huffEncodeBody (s : State) : Except Failure State :=
  match checkHuffman s with
  | .error f => .error f
  | .ok () =>
    match huffEncode s.huff 0 (inBytes s) [] with
    | .error f => .error f
    | .ok out =>
      match emitCode s.huff (inLen s) Config.sentH out with
      | .error f => .error f
      | .ok out' =>
        .ok (commitBits out' { s with work := { s.work with ipos := inLen s } })

/-- `HENC` (R338). -/
def execHenc (s : State) : Host.Outcome State Fault Refusal :=
  settle (startCommand s) (huffEncodeBody (startCommand s))

/-! ### HDEC (R339) -/

/-- Where a walk from a node ends (R339): at a leaf, with its symbol and what is left of the input; at an absent child,
with the bit that asked for it; or at the end of the input. `rpos` is `RPOS`. -/
inductive WalkEnd where
  | leaf (sym rpos : Nat) (rest : List Bool)
  | missing (rpos : Nat) (bit : Bool)
  | exhausted (rpos : Nat)
  deriving DecidableEq, Repr

/-- The walk of R339 from node `n`: the leaf test comes before a bit is read; bit 0 goes left, bit 1 right. -/
def walk (a : Arena) : Nat → Nat → List Bool → WalkEnd
  | n, rpos, [] => if nodeIsLeaf (a.read n) then .leaf (nodeSym (a.read n)) rpos [] else .exhausted rpos
  | n, rpos, b :: bs =>
    if nodeIsLeaf (a.read n) then .leaf (nodeSym (a.read n)) rpos (b :: bs)
    else if nodeChild (a.read n) b = Config.nil then .missing rpos b
    else walk a (nodeChild (a.read n) b).toNat (rpos + 1) bs

/-- The loop of R339. The first argument is `OBUF_BYTES − NOUT`, the room left in `OUT_BUF`. -/
def huffDecode (a : Arena) (root : Nat) : Nat → Nat → List Bool → List Byte → Except Failure (Nat × List Byte)
  | room, rpos, bits, out =>
    match walk a root rpos bits with
    | .exhausted p => .error { code := .stream, pos := p, sym := out.length, wrote := out.length }
    | .missing p b => .error { code := .badCode, pos := p, sym := b.toNat, wrote := out.length }
    | .leaf sym p rest =>
      if sym = Config.sentH then .ok (p, out)
      else match room with
        | 0 => .error { code := .outOvf, pos := out.length, sym := sym, wrote := out.length }
        | room + 1 => huffDecode a root room p rest (out ++ [BitVec.ofNat 8 sym])

/-- The body of `HDEC` (R339). -/
def huffDecodeBody (s : State) : Except Failure State :=
  match checkHuffman s with
  | .error f => .error f
  | .ok () =>
    match huffDecode s.huff.arena s.huff.hroot.toNat Config.obufBytes 0 (inBits s) [] with
    | .error f => .error f
    | .ok (rpos, out) =>
      let t := commitBytes out s
      .ok { t with
        res := { t.res with rdBits := BitVec.ofNat 32 rpos }
        work := { t.work with rpos := rpos } }

/-- `HDEC` (R339). -/
def execHdec (s : State) : Host.Outcome State Fault Refusal :=
  settle (startCommand s) (huffDecodeBody (startCommand s))

end Sys2Proof.Machine
end

