-- ==== Sys2Proof/Machine/Dispatch.lean ====
section
/-! DEFINITION. The meaning of every command: one arm per row of the opcode table. -/

namespace Sys2Proof.Machine

/-- The execution of an accepted command, from its acceptance to its completion, as one step (R465). -/
def exec (i : Instr) (s : State) : Host.Outcome State Fault Refusal :=
  match i with
  | .nop => Sys2Proof.Machine.execNop s
  | .aencFix => Sys2Proof.Machine.execAencFix s
  | .aencDir => Sys2Proof.Machine.execAencDir s
  | .aencBig => Sys2Proof.Machine.execAencBig s
  | .adecFix => Sys2Proof.Machine.execAdecFix s
  | .adecDir => Sys2Proof.Machine.execAdecDir s
  | .adecBig => Sys2Proof.Machine.execAdecBig s
  | .mprobeFix => Sys2Proof.Machine.execMprobeFix s
  | .mprobeDir => Sys2Proof.Machine.execMprobeDir s
  | .mprobeBig => Sys2Proof.Machine.execMprobeBig s
  | .hcount => Sys2Proof.Machine.execHcount s
  | .hbuild => Sys2Proof.Machine.execHbuild s
  | .hload => Sys2Proof.Machine.execHload s
  | .henc => Sys2Proof.Machine.execHenc s
  | .hdec => Sys2Proof.Machine.execHdec s
  | .pack => Sys2Proof.Machine.execPack s
  | .unpack => Sys2Proof.Machine.execUnpack s

end Sys2Proof.Machine
end

