-- ==== Sys2Proof/Machine/Step.lean ====
section
/-! DEFINITION. One step of the machine. There is no program counter (R33): the word the engine runs stands in `CMD`. -/

namespace Sys2Proof.Machine

/-- One event (R112, R465). If a command is running and no service slot is left to it, its completion is the event: the
word in `CMD` is decoded (R151) and executed whole, or `E_ILLEGAL_CMD` is raised. Otherwise one service slot of the port
passes. -/
def step (s : State) : Host.Outcome State Fault Refusal :=
  match dueCommand s with
  | some w =>
    match decode w with
    | .ok i => exec i s
    | .error _ => .next (illegalCommand s)
  | none => .next (servePort s)

/-- The state in which the command word of an opcode-table row has been written to `CMD` and accepted (R36, R37) and its
completion is due: the next step runs it. Log entry 4 says how a command comes to run from reset. -/
def State.withFetchWord (s : State) (nbits w : Nat) : State :=
  { acceptCommand (tableWord nbits w) s with wait := 0, resetIn := false }

end Sys2Proof.Machine
end

