-- ==== Sys2Proof/Safety.lean ====
section
/-! DEFINITION. The terms claims are stated in: what a safe run is, the invariants of the machine, what a command leaves
unchanged, and when its operands are legal. Nothing here gives a command its meaning. -/

namespace Sys2Proof.Machine

/-! ### Safe runs -/

/-- A run of `k` steps is safe when no step of it stops the machine. Every error of the spec is a state the machine goes on
from (R404, R407, R408). -/
abbrev RunSafe (k : Nat) (s : State) : Prop := ∃ t : State, Sys2Proof.core.run k s = .next t

/-! ### Invariants -/

/-- The three byte and node stores are in canonical form. -/
abbrev StoresCanonical (s : State) : Prop := s.inBuf.wf ∧ s.outBuf.wf ∧ s.huff.arena.wf

/-- What R35, R37, R401, R404 and R405 say of `STATUS` at any time: at most one of `BUSY`, `DONE`, `ERR` is 1;
`ERRCODE` is a listed code; it is 0 while busy and after success, and not 0 after an error. With it, the reset input and a
running command exclude each other (R451). -/
abbrev StatusCoherent (s : State) : Prop :=
  (s.status.busy && s.status.done) = false ∧ (s.status.busy && s.status.err) = false ∧
  (s.status.done && s.status.err) = false ∧ s.status.errcode ∈ errCodeValues ∧
  (s.status.busy = true → s.status.errcode = 0) ∧ (s.status.done = true → s.status.errcode = 0) ∧
  (s.status.err = true → s.status.errcode ≠ 0) ∧ (s.resetIn = true → s.status.busy = false)

/-- The path `bits` from node `n` ends at a leaf of `sym` and passes no leaf and no absent child before (R332). -/
def leadsTo (a : Arena) : Nat → List Bool → Nat → Bool
  | n, [], sym => a.read n == leafWord sym
  | n, b :: bs, sym =>
    !nodeIsLeaf (a.read n) && nodeChild (a.read n) b != Config.nil && leadsTo a (nodeChild (a.read n) b).toNat bs sym

/-- The node that the path `bits` from node `n` reaches (R331, R332); `none` if it passes a leaf or an absent child. -/
def followPath (a : Arena) : Nat → List Bool → Option Nat
  | n, [] => some n
  | n, b :: bs =>
    if nodeIsLeaf (a.read n) || nodeChild (a.read n) b == Config.nil then none
    else followPath a (nodeChild (a.read n) b).toNat bs

/-- The codeword table and the tree hold the same code (R331, R333): the codeword of every symbol with `VALID = 1` is at
most `LMAX` bits long and is the path to that symbol's leaf, and every leaf among the allocated nodes belongs to a symbol with
`VALID = 1`. -/
abbrev TreeMatchesTable (h : Huff) : Prop :=
  h.hroot.toNat < h.hnodes.toNat ∧
  (∀ sym < 129, cwValid h sym = true →
    cwLength h sym ≤ Config.lmax ∧ leadsTo h.arena h.hroot.toNat (codeOf h sym) sym = true) ∧
  (∀ n < h.hnodes.toNat, nodeIsLeaf (h.arena.read n) = true →
    nodeSym (h.arena.read n) < 129 ∧ cwValid h (nodeSym (h.arena.read n)) = true)

/-- R333: `STATUS.HVALID = 1` means that the codeword table and the tree hold the same code. -/
abbrev TreeCoherent (s : State) : Prop := s.status.hvalid = true → TreeMatchesTable s.huff

/-- Bounds the spec gives for registers: `OUT_LEN ≤ OBUF_BYTES` (R43), `HNODES ≤ NODE_CAP` (R48), and `HROOT` and `HNODES`
are 0 together (R404, R450). -/
abbrev RegistersBounded (s : State) : Prop :=
  s.res.outLen.toNat ≤ Config.obufBytes ∧ s.huff.hnodes.toNat ≤ Config.nodeCap ∧
  (s.huff.hnodes = 0 → s.huff.hroot = 0)

/-! ### What a command leaves unchanged -/

/-- What no command writes (R105): the configuration, `IN_BUF`, `CMD`, `CTRL`, the sticky bus flags, and the port. -/
abbrev SetupKept (s t : State) : Prop :=
  t.conf = s.conf ∧ t.inBuf = s.inBuf ∧ t.cmd = s.cmd ∧ t.irqEn = s.irqEn ∧ t.status.wbusy = s.status.wbusy ∧
  t.status.buserr = s.status.buserr ∧ t.port = s.port ∧ t.resetIn = s.resetIn ∧ t.rdata = s.rdata ∧ t.wait = s.wait

/-- The Huffman tables, arena and registers and `HVALID` are unchanged. -/
abbrev HuffKept (s t : State) : Prop := t.huff = s.huff ∧ t.status.hvalid = s.status.hvalid

/-- `PROBE_CUM` and `PROBE_DEN` are unchanged. -/
abbrev ProbeKept (s t : State) : Prop := t.probeCum = s.probeCum ∧ t.probeDen = s.probeDen

/-- The diagnostic registers are unchanged. -/
abbrev DiagKept (s t : State) : Prop := t.diag = s.diag

/-- Every byte of `OUT_BUF` from index `n` on reads as before. -/
abbrev OutBufKeptFrom (n : Nat) (s t : State) : Prop := ∀ i, n ≤ i → t.outBuf.read i = s.outBuf.read i

/-- The command completed without error (R405): `BUSY = 0`, `DONE = 1`, `ERRCODE = 0`, and `ERR_POS`, `ERR_SYM` stay as the
acceptance left them. `ERR`, `WBUSY` and `BUSERR` are unchanged. -/
abbrev Completed (s t : State) : Prop :=
  t.status.busy = false ∧ t.status.done = true ∧ t.status.errcode = 0 ∧ t.status.err = s.status.err ∧
  t.res.errPos = s.res.errPos ∧ t.res.errSym = s.res.errSym

/-- The command raised `Err(code, pos, sym)` after it had started (R404, R406): `BUSY = 0`, `ERR = 1`, the report, and no
result. `DONE` is unchanged. -/
abbrev Raised (code : BitVec 8) (pos sym : Nat) (s t : State) : Prop :=
  t.status.busy = false ∧ t.status.err = true ∧ t.status.done = s.status.done ∧ t.status.errcode = code ∧
  t.res.errPos = BitVec.ofNat 32 pos ∧ t.res.errSym = BitVec.ofNat 32 sym ∧
  t.res.outLen = 0 ∧ t.res.outBits = 0 ∧ t.res.rdBits = 0

/-- A command other than an output command that raised an error changed nothing but the report (R404). -/
abbrev AllElseKept (s t : State) : Prop :=
  SetupKept s t ∧ HuffKept s t ∧ ProbeKept s t ∧ DiagKept s t ∧ OutBufKeptFrom 0 s t

/-! ### Operands -/

/-- Input byte `i` as a symbol (R13, R162). -/
def symAt (s : State) (i : Nat) : Nat := (inByte s i).toNat

/-- The `AENC` command of a model (R152, R157). -/
def aencOf : Model → Instr
  | .fix => .aencFix
  | .dir => .aencDir
  | .big => .aencBig

/-- The `ADEC` command of a model (R152, R157). -/
def adecOf : Model → Instr
  | .fix => .adecFix
  | .dir => .adecDir
  | .big => .adecBig

/-- The `MPROBE` command of a model (R152, R157). -/
def mprobeOf : Model → Instr
  | .fix => .mprobeFix
  | .dir => .mprobeDir
  | .big => .mprobeBig

/-- A legal model configuration, the conditions of R211 said of the registers: `NSYM` in 1..128; for `FIX` the uniform
vector or a weakly increasing one with its last value below `FIX_DEN ≤ DEN_MAX`; for `DIR` and `BIG` a positive `ALPHA`. -/
abbrev ConfigLegal (m : Model) (c : Conf) : Prop :=
  1 ≤ c.nsym.toNat ∧ c.nsym.toNat ≤ 128 ∧
  (m = .fix → c.fixDen = 0 ∨
    (c.fixDen.toNat ≤ 2 ^ 30 ∧
      (∀ i < c.nsym.toNat, 1 ≤ i → (tget c.fixCum (i - 1)).toNat ≤ (tget c.fixCum i).toNat) ∧
      (tget c.fixCum (c.nsym.toNat - 1)).toNat < c.fixDen.toNat)) ∧
  (m ≠ .fix → c.alpha ≠ 0)

/-- `FIX_CUM[c]` over `FIX_DEN`, or the uniform vector (R203): the cumulative numerator of symbol `c`. -/
def fixedCum (c : Conf) (x : Nat) : Nat := if c.fixDen = 0 then x + 1 else (tget c.fixCum x).toNat

/-- Symbol `x` has a positive mass in the fixed model (R200, R203). -/
abbrev FixedMassPositive (c : Conf) (x : Nat) : Prop := (if x = 0 then 0 else fixedCum c (x - 1)) < fixedCum c x

/-- The input is a legal symbol sequence for `AENC.m` (R260): `IN_LEN` fits, every byte is below `NSYM`, and in the fixed
model every symbol that occurs has a positive mass. -/
abbrev InputLegal (m : Model) (s : State) : Prop :=
  inLen s ≤ Config.ibufBytes ∧ (∀ i < inLen s, symAt s i < s.conf.nsym.toNat) ∧
  (m = .fix → ∀ i < inLen s, FixedMassPositive s.conf (symAt s i))

/-- The state `u` holds in `IN_BUF` and `IN_LEN` what `t` holds in `OUT_BUF` and `OUT_LEN`: the host's copy of R468. -/
abbrev HoldsOutputOf (t u : State) : Prop :=
  inLen u = t.res.outLen.toNat ∧ ∀ i < t.res.outLen.toNat, inByte u i = t.outBuf.read i

/-- How many adjacent pairs of the input are `p`, then `c` (R210). -/
def transitions (bytes : List Byte) (p c : Nat) : Nat :=
  (bytes.zip bytes.tail).countP fun x => x.1.toNat == p && x.2.toNat == c

/-- The sum of `f 0 .. f (k - 1)`. -/
def sumBelow (f : Nat → Nat) : Nat → Nat
  | 0 => 0
  | k + 1 => sumBelow f k + f k

/-- The symbols of the Huffman alphabet that have a positive frequency (R336). -/
def usedSymbols (h : Huff) : List Nat := (List.range 129).filter fun x => freqOf h x ≠ 0

/-- The symbols below `k` have codewords that `HLOAD` accepts together (R337): none is longer than `LMAX`; only the sentinel
may have the empty one; and no codeword is a prefix of another symbol's. -/
abbrev EntriesLoadable (h : Huff) (k : Nat) : Prop :=
  (∀ x < k, cwValid h x = true → cwLength h x ≤ Config.lmax ∧ (cwLength h x = 0 → x = Config.sentH)) ∧
  (∀ x < k, ∀ y < k, x ≠ y → cwValid h x = true → cwValid h y = true → ¬ codeOf h x <+: codeOf h y)

/-- A codeword table that `HLOAD` accepts (R337): some symbol has a codeword, and all the codewords can stand together. -/
abbrev TableLoadable (h : Huff) : Prop := (∃ x < 129, cwValid h x = true) ∧ EntriesLoadable h 129

/-- The paths of the nodes of the tree that R337 builds, in the order of allocation: the root, then for each symbol in
ascending order the prefixes of its codeword, shortest first, that no earlier one has. -/
def triePaths (h : Huff) : List (List Bool) :=
  ((validSymbols h).flatMap fun x => (List.range (cwLength h x)).map fun i => (codeOf h x).take (i + 1)).foldl
    (fun seen p => if p ∈ seen then seen else seen ++ [p]) [[]]

/-- The child field for the path `p` (R55, R337): the place of the node among the allocated ones, `NIL` if there is none. -/
def trieChild (h : Huff) (p : List Bool) : BitVec 15 :=
  if p ∈ triePaths h then BitVec.ofNat 15 ((triePaths h).idxOf p) else Config.nil

/-- The order of extraction of R336: lexicographic, `freq`, then `id`. -/
abbrev Group.Precedes (a b : Group) : Prop := a.freq < b.freq ∨ (a.freq = b.freq ∧ a.id < b.id)

/-- The groups the merge loop of R336 starts from: one for each used symbol, its leaf at its place in symbol order. -/
def leafGroups (h : Huff) : List Group :=
  (usedSymbols h).zipIdx.map fun q =>
    { freq := freqOf h q.1, id := q.1, size := 1, members := [(q.1, [])], tree := q.2 }

/-- The merge loop of R336, said as a relation over the node words `node`, from the groups `gs` with `n` nodes allocated to
the group that is left. Each merge takes the least group `a` and then the least remaining group `b`, makes node `n` with
`a` on the left, and puts a 0 before the codewords of `a` and a 1 before those of `b`. The merged group has the sum of the
frequencies and the id of the larger group, of `a` if they are equal in size. -/
inductive GreedyMerge (node : Nat → Word) : Nat → List Group → Group → Prop where
  | last (n : Nat) (g : Group) : GreedyMerge node n [g] g
  | merge (n : Nat) (gs rest : List Group) (a b c g : Group)
      (hp : gs.Perm (a :: b :: rest)) (ha : ∀ x ∈ b :: rest, a.Precedes x) (hb : ∀ x ∈ rest, b.Precedes x)
      (hn : node n = internalWord (BitVec.ofNat 15 a.tree) (BitVec.ofNat 15 b.tree)) (ht : c.tree = n)
      (hf : c.freq = a.freq + b.freq) (hs : c.size = a.size + b.size)
      (hi : c.id = if b.size ≤ a.size then a.id else b.id)
      (hm : c.members = (a.members.map fun x => (x.1, false :: x.2)) ++ (b.members.map fun x => (x.1, true :: x.2)))
      (hr : GreedyMerge node (n + 1) (c :: rest) g) : GreedyMerge node n gs g

/-- The total coded length of a text with these frequencies, under these codeword lengths (R341). -/
def codedLength (h : Huff) (length : Nat → Nat) : Nat := sumBelow (fun x => freqOf h x * length x) 129

/-- The bits `HENC` writes for a symbol sequence (R338): the codewords, then the sentinel's. -/
def huffStream (h : Huff) (syms : List Nat) : List Bool := syms.flatMap (codeOf h) ++ codeOf h Config.sentH

/-- The bits that a renormalization step of the encoder appends, with `pend` bits deferred (R256). -/
def caseBits : RCase → Nat → List Bool
  | .lower, pend => false :: List.replicate pend true
  | .upper, pend => true :: List.replicate pend false
  | .middle, _ => []

/-- The encoder's loop of R256, or of R261 with `middle = false`, takes `r` to `r'`, said as a relation: rescale in the case of
R254 until there is none. The output stream has no bound here. -/
inductive RenormTo (fmt : NumFmt) (middle : Bool) : EncRun → EncRun → Prop where
  | exit (r : EncRun) (hc : renormCase (oneOf fmt) middle r.low r.high = none) : RenormTo fmt middle r r
  | step (r r' : EncRun) (k : RCase) (hc : renormCase (oneOf fmt) middle r.low r.high = some k)
      (hr : RenormTo fmt middle
        { low := rescale (oneOf fmt) k r.low, high := rescale (oneOf fmt) k r.high,
          pend := if k = .middle then r.pend + 1 else 0, out := r.out ++ caseBits k r.pend } r') : RenormTo fmt middle r r'

/-- The loop of R260 on the input of `s` reaches the model registers `k` and the coder registers `r` after `i` symbols, each
in the alphabet and of positive mass: fetch, update, narrow by the fetched vector, renormalize. -/
inductive EncodeReaches (m : Model) (s : State) : Nat → Counts → EncRun → Prop where
  | start : EncodeReaches m s 0 (modelInit m s.work.counts) { low := 0, high := oneOf s.conf.numFmt, pend := 0, out := [] }
  | symbol (i : Nat) (k k' : Counts) (r r' : EncRun) (h : EncodeReaches m s i k r) (hi : i < inLen s)
      (hx : symAt s i < s.conf.nsym.toNat) (hm : 1 ≤ (modelVec m s.conf k).mass (symAt s i))
      (hk : modelUpdate m s.conf k (symAt s i) = some k')
      (hr : RenormTo s.conf.numFmt true
        { r with
          low := boundary s.conf.numFmt s.conf.nsym.toNat (modelVec m s.conf k) r.low r.high (symAt s i)
          high := boundary s.conf.numFmt s.conf.nsym.toNat (modelVec m s.conf k) r.low r.high (symAt s i + 1) } r') :
      EncodeReaches m s (i + 1) k' r'

/-- `Terminate()` before its final bit (R261): narrow to the sentinel, then the half-only loop. -/
abbrev TerminatesTo (m : Model) (c : Conf) (k : Counts) (r r' : EncRun) : Prop :=
  RenormTo c.numFmt false
    { r with low := boundary c.numFmt c.nsym.toNat (modelVec m c k) r.low r.high c.nsym.toNat } r'

/-- The stream first passes the `8·OBUF_BYTES` bits that fit (R381) in the renormalization of symbol `pos`. -/
abbrev OverflowsAt (m : Model) (s : State) (pos : Nat) : Prop :=
  ∃ k r k' r', EncodeReaches m s pos k r ∧ r.out.length ≤ 524288 ∧
    EncodeReaches m s (pos + 1) k' r' ∧ 524288 < r'.out.length

/-- The loop of R270 gets from `r` to `r'`, said as a relation: it accepts a confirmed symbol, with room for it; or it looks
one bit ahead, with `K < KMAX`; never past the sentinel. -/
inductive DecodeReaches (src : Nat → Bool) (m : Model) (c : Conf) : DecRun → DecRun → Prop where
  | here (r : DecRun) : DecodeReaches src m c r r
  | symbol (r r' : DecRun) (x : Nat) (k : Counts)
      (hs : sentinelSeen c (modelVec m c r.counts) r = false)
      (hx : confirm c (modelVec m c r.counts) r = some x) (hroom : r.out.length < Config.obufBytes)
      (hk : modelUpdate m c r.counts x = some k)
      (hr : DecodeReaches src m c (acceptSymbol src c (modelVec m c r.counts) x k r) r') : DecodeReaches src m c r r'
  | lookahead (r r' : DecRun)
      (hs : sentinelSeen c (modelVec m c r.counts) r = false)
      (hx : confirm c (modelVec m c r.counts) r = none) (hk : r.k < Config.kmax)
      (hr : DecodeReaches src m c (widen src r) r') : DecodeReaches src m c r r'

/-- One run of the loop of R270 from `r` to the recognized sentinel (R274). -/
abbrev DecodeRun (src : Nat → Bool) (m : Model) (c : Conf) (r r' : DecRun) : Prop :=
  DecodeReaches src m c r r' ∧ sentinelSeen c (modelVec m c r'.counts) r' = true

/-- The decoder window of R280 in units of `2^-192` and of the numeric mode: `[ENC, U)` lies in `[LOW, HIGH)`, `HIGH ≤ 1`,
`ENC` is a multiple of `2^-K`, and `K ≤ KMAX`. -/
abbrev WindowInside (fmt : NumFmt) (r : DecRun) : Prop :=
  r.low * 2 ^ 192 ≤ r.enc * oneOf fmt ∧ (r.enc + 2 ^ (192 - r.k)) * oneOf fmt ≤ r.high * 2 ^ 192 ∧
  r.high ≤ oneOf fmt ∧ r.k ≤ 192 ∧ r.enc % 2 ^ (192 - r.k) = 0

/-- A cumulative vector that satisfies R200 for `n` symbols. -/
abbrev VecLegal (n : Nat) (v : CumVec) : Prop :=
  v.cum.length = n ∧ (∀ j < n, v.below j ≤ v.below (j + 1)) ∧ v.below n < v.den ∧ v.den ≤ 2 ^ 30

/-! ### Numbers -/

/-- The spacing of the binary64 values around `x` (R12), in units of `2^-1074`. -/
def ulp64 (x : Nat) : Nat := 2 ^ (max (Nat.log2 x) 52 - 52)

/-- `y` is the binary64 value nearest to the quotient `n / d`, with an even multiple of the spacing in a tie (R12). -/
abbrev NearestEven (n d y : Nat) : Prop :=
  ∃ q : Nat, y = q * ulp64 (n / d) ∧
    2 * ((q * ulp64 (n / d) * d : Nat) - n : Int).natAbs ≤ d * ulp64 (n / d) ∧
    (2 * ((q * ulp64 (n / d) * d : Nat) - n : Int).natAbs = d * ulp64 (n / d) → q % 2 = 0)

/-- `x` is a value of the numeric mode (R251): any integer in `FIXED`, a binary64 number in `FP64`. -/
abbrev ModeValue : NumFmt → Nat → Prop
  | .fixed, _ => True
  | .fp64, x => ulp64 x ∣ x

/-- The interval lies in `[0, 1]` and is wider than `2^-33`, as every narrowed interval is (R253, R257). -/
abbrev NarrowedInterval (fmt : NumFmt) (low high : Nat) : Prop :=
  low < high ∧ high ≤ oneOf fmt ∧ oneOf fmt < (high - low) * 2 ^ 33

/-- Where a renormalization loop leaves the interval (R257): it straddles `HALF`, inside `[0, 1]`, and with the middle case it
is wider than a quarter. -/
abbrev Renormalized (fmt : NumFmt) (middle : Bool) (low high : Nat) : Prop :=
  low < oneOf fmt / 2 ∧ oneOf fmt / 2 < high ∧ high ≤ oneOf fmt ∧ (middle = true → oneOf fmt / 4 < high - low)

/-! ### What a host read returns -/

/-- `STATUS` as a read shows it (R35). -/
structure StatusReads (st : Status) (d : Word) : Prop where
  busy : d.getLsbD 0 = st.busy
  done : d.getLsbD 1 = st.done
  err : d.getLsbD 2 = st.err
  wbusy : d.getLsbD 3 = st.wbusy
  buserr : d.getLsbD 4 = st.buserr
  hvalid : d.getLsbD 8 = st.hvalid
  errcode : d.extractLsb' 16 8 = st.errcode
  reserved : d &&& 0xFF00FEE0 = 0

/-- The content that a read of `n` bytes at offset `a` returns (R31 to R58, R101, R102, R106): the registers and tables by
their offsets, with reserved bits 0, and the bytes of the buffers by lane. -/
structure ReadsAs (s : State) (a n : Nat) (d : Word) : Prop where
  id : a = 0x000 → d = 0x41484307
  ctrl : a = 0x004 → d = if s.irqEn then 2 else 0
  status : a = 0x008 → StatusReads s.status d
  cmd : a = 0x00C → d = s.cmd
  inLen : a = 0x010 → d.toNat = s.conf.inLen.toNat
  outLen : a = 0x014 → d = s.res.outLen
  outBits : a = 0x018 → d = s.res.outBits
  rdBits : a = 0x01C → d = s.res.rdBits
  errPos : a = 0x020 → d = s.res.errPos
  errSym : a = 0x024 → d = s.res.errSym
  acfg : a = 0x028 → d.toNat = 256 * s.conf.nsym.toNat + if s.conf.numFmt = .fixed then 1 else 0
  alpha : a = 0x02C → d.toNat = s.conf.alpha.toNat
  fixDen : a = 0x030 → d.toNat = s.conf.fixDen.toNat
  hroot : a = 0x034 → d.toNat = s.huff.hroot.toNat
  hnodes : a = 0x038 → d.toNat = s.huff.hnodes.toNat
  probeDen : a = 0x03C → d = s.probeDen
  diagLowL : a = 0x040 → d = s.diag.lowL
  diagLowH : a = 0x044 → d = s.diag.lowH
  diagHighL : a = 0x048 → d = s.diag.highL
  diagHighH : a = 0x04C → d = s.diag.highH
  diagPend : a = 0x050 → d = s.diag.pend
  diagK : a = 0x054 → d = s.diag.k
  diagEnc : ∀ m < 6, a = 0x060 + 4 * m → d = tget s.diag.enc m
  fixCum : ∀ c < 128, a = 0x1000 + 4 * c → d.toNat = (tget s.conf.fixCum c).toNat
  freq : ∀ x < 128, a = 0x1400 + 4 * x → d = tget s.huff.freq x
  freqSentinel : a = 0x1600 → d = 1
  cwLen : ∀ x < 129, a = 0x1800 + 4 * x → d.toNat = (tget s.huff.cwLen x).toNat
  cwBits : ∀ x < 129, ∀ m < 4, a = 0x2000 + 16 * x + 4 * m → d = tget s.huff.cwBits (4 * x + m)
  probeCum : ∀ c < 128, a = 0x3000 + 4 * c → d = tget s.probeCum c
  inBuf : 0x10000 ≤ a → a < 0x20000 → ∀ k < n, d.extractLsb' (8 * k) 8 = s.inBuf.read (a - 0x10000 + k)
  outBuf : 0x20000 ≤ a → a < 0x30000 → ∀ k < n, d.extractLsb' (8 * k) 8 = s.outBuf.read (a - 0x20000 + k)
  hnode : ∀ j < 32768, a = 0x40000 + 4 * j → d = s.huff.arena.read j

/-- The offsets that may read as any value while the word `cmd` runs: the table of R462, row by row. In the first row an
illegal word counts as a command other than `NOP` (log entry 6). -/
abbrev VolatileAt (cmd : Word) (a : Nat) : Prop :=
  (decode cmd ≠ .ok .nop ∧ 0x014 ≤ a ∧ a < 0x028) ∨
  (decode cmd ∈ [Except.ok Instr.aencFix, .ok .aencDir, .ok .aencBig, .ok .adecFix, .ok .adecDir, .ok .adecBig] ∧
    ((0x20000 ≤ a ∧ a < 0x30000) ∨ (0x040 ≤ a ∧ a < 0x058) ∨ (0x060 ≤ a ∧ a < 0x078))) ∨
  (decode cmd ∈ [Except.ok Instr.mprobeFix, .ok .mprobeDir, .ok .mprobeBig] ∧
    ((0x3000 ≤ a ∧ a < 0x3200) ∨ a = 0x03C)) ∨
  (decode cmd = .ok .hcount ∧ 0x1400 ≤ a ∧ a < 0x1600) ∨
  (decode cmd = .ok .hbuild ∧ ((0x1800 ≤ a ∧ a < 0x1A04) ∨ (0x2000 ≤ a ∧ a < 0x2810))) ∨
  (decode cmd ∈ [Except.ok Instr.hbuild, .ok .hload] ∧
    ((0x40000 ≤ a ∧ a < 0x60000) ∨ a = 0x034 ∨ a = 0x038 ∨ a = 0x008)) ∨
  (decode cmd ∈ [Except.ok Instr.henc, .ok .hdec, .ok .pack, .ok .unpack] ∧ 0x20000 ≤ a ∧ a < 0x30000)

/-- The writable words of the aperture but `STATUS` and `CMD`, each with the mask of its writable bits (R34, R38 to R42, R51
to R53); of `CTRL`, a write that does not set `SRST`. -/
abbrev WritableWord (a : Nat) (v mask : Word) : Prop :=
  (a = 0x004 ∧ v.getLsbD 0 = false ∧ mask = 0x00000002) ∨
  (a = 0x010 ∧ mask = 0x0001FFFF) ∨ (a = 0x028 ∧ mask = 0x0000FF01) ∨ (a = 0x02C ∧ mask = 0x0000FFFF) ∨
  (a = 0x030 ∧ mask = 0x7FFFFFFF) ∨
  (0x1000 ≤ a ∧ a < 0x1200 ∧ a % 4 = 0 ∧ mask = 0x7FFFFFFF) ∨
  (0x1400 ≤ a ∧ a < 0x1600 ∧ a % 4 = 0 ∧ mask = 0xFFFFFFFF) ∨
  (0x1800 ≤ a ∧ a < 0x1A04 ∧ a % 4 = 0 ∧ mask = 0x000001FF) ∨
  (0x2000 ≤ a ∧ a < 0x2810 ∧ a % 4 = 0 ∧ mask = 0xFFFFFFFF)

end Sys2Proof.Machine
end

