-- ==== Sys2Proof/Certificates/Slice0/Obligations.lean ====
section
/-! DEFINITION. The statements about the model, each from numbered rules of the spec. Nothing is proved here. -/

open Sys2Proof Sys2Proof.Machine

/-! ### Command words -/

/-- R150 to R153: a few command words, written out from the fields of R150, decode to the command they stand for. -/
def Obligations.SampleWordsDecode : Prop :=
  decode (0b000000000000000000000#21 ++ 0b000#3 ++ 0b00000000#8) = .ok .nop ∧
  decode (0b000000000000000000000#21 ++ 0b010#3 ++ 0b00000001#8) = .ok .aencBig ∧
  decode (0b000000000000000000000#21 ++ 0b001#3 ++ 0b00000010#8) = .ok .adecDir ∧
  decode (0b000000000000000000000#21 ++ 0b000#3 ++ 0b00000011#8) = .ok .mprobeFix ∧
  decode (0b000000000000000000000#21 ++ 0b000#3 ++ 0b00010010#8) = .ok .hload ∧
  decode (0b000000000000000000000#21 ++ 0b000#3 ++ 0b00100001#8) = .ok .unpack

/-- R150, R157: the decoder reads every command back from its word, and a word that decodes to a command is that command's
word, on all 32 bits. -/
def Obligations.DecodeInvertsEncode : Prop :=
  (∀ i : Instr, decode (encode i) = .ok i) ∧ (∀ (w : Word) (i : Instr), decode w = .ok i → encode i = w)

/-- R157: the legal command words are exactly the 17 listed, each with its mnemonic; the reset value of `CMD` is the `NOP`
word, and a reset starts nothing. -/
def Obligations.LegalWordsAreTheSeventeen : Prop :=
  (∀ (w : Word) (i : Instr), decode w = .ok i ↔
    (w, i) ∈ [((0x00000000 : Word), Instr.nop), (0x00000001, .aencFix), (0x00000101, .aencDir), (0x00000201, .aencBig),
      (0x00000002, .adecFix), (0x00000102, .adecDir), (0x00000202, .adecBig), (0x00000003, .mprobeFix),
      (0x00000103, .mprobeDir), (0x00000203, .mprobeBig), (0x00000010, .hcount), (0x00000011, .hbuild),
      (0x00000012, .hload), (0x00000013, .henc), (0x00000014, .hdec), (0x00000020, .pack), (0x00000021, .unpack)]) ∧
  decode State.reset.cmd = .ok .nop ∧ State.reset.status.busy = false ∧
  (∀ s : State, (softReset s).cmd = 0 ∧ (softReset s).status.busy = false ∧
    (hardReset s).cmd = 0 ∧ (hardReset s).status.busy = false)

/-- R156: the completion of an accepted word that meets one of the four conditions raises `E_ILLEGAL_CMD` with
`ERR_POS = 0` and `ERR_SYM` the whole word. `OUT_LEN`, `OUT_BITS`, `RD_BITS` and everything else are unchanged (R151). -/
def Obligations.IllegalWordReported : Prop :=
  ∀ s : State, s.status.busy = true → s.wait = 0 →
    (s.cmd.extractLsb' 11 21 ≠ 0 ∨
      s.cmd.extractLsb' 0 8 ∉ [0x00#8, 0x01#8, 0x02#8, 0x03#8, 0x10#8, 0x11#8, 0x12#8, 0x13#8, 0x14#8, 0x20#8, 0x21#8] ∨
      (s.cmd.extractLsb' 0 8 ∈ [0x01#8, 0x02#8, 0x03#8] ∧ 3 ≤ (s.cmd.extractLsb' 8 3).toNat) ∨
      (s.cmd.extractLsb' 0 8 ∉ [0x01#8, 0x02#8, 0x03#8] ∧ s.cmd.extractLsb' 8 3 ≠ 0)) →
    ∃ t, step s = .next t ∧ t.status.busy = false ∧ t.status.err = true ∧ t.status.done = s.status.done ∧
      t.status.errcode = 0x01 ∧ t.res.errPos = 0 ∧ t.res.errSym = s.cmd ∧ t.res.outLen = s.res.outLen ∧
      t.res.outBits = s.res.outBits ∧ t.res.rdBits = s.res.rdBits ∧ AllElseKept s t

/-! ### Steps -/

/-- R36, R151, R465: a step with a running command whose completion is due executes the command that the word in `CMD`
decodes to, and adds nothing to it. The other two clauses are the model's: that any other step is one service slot of the
port (DESIGN CHOICE, log entry 5), and that the state `withFetchWord` makes is of the first kind (DESIGN CHOICE, log
entry 4). -/
def Obligations.StepRunsTheCommandInCmd : Prop :=
  (∀ (s : State) (i : Instr), s.status.busy = true → s.wait = 0 → decode s.cmd = .ok i → step s = exec i s) ∧
  (∀ s : State, s.status.busy = false ∨ s.wait ≠ 0 → step s = .next (servePort s)) ∧
  (∀ (s : State) (i : Instr), step (s.withFetchWord 32 (encode i).toNat) =
    exec i (s.withFetchWord 32 (encode i).toNat))

/-- R37: a host write of `w` to `CMD` while idle is accepted: `CMD` holds `w`; `DONE`, `ERR`, `ERRCODE`, `ERR_POS` and
`ERR_SYM` are 0; `BUSY` is 1; everything else is unchanged. The time to completion is the open parameter `T_CMD` (log entry
5). When the accepted word completes, `BUSY` is 0 and exactly one of `DONE`, `ERR` is 1. -/
def Obligations.CommandWriteAccepted : Prop :=
  (∀ (s : State) (w : Word) (rest : List PortEvent), s.status.busy = false → s.resetIn = false →
    s.port = .write 0x00C 4 w :: rest →
    step s = .next { s with
      port := rest, cmd := w,
      status := { s.status with busy := true, done := false, err := false, errcode := 0 },
      res := { s.res with errPos := 0, errSym := 0 },
      wait := Config.tCmd s.free, free := s.free + 1 }) ∧
  (∀ s : State, s.status.busy = true → s.status.done = false → s.status.err = false → s.wait = 0 →
    ∃ t, step s = .next t ∧ t.status.busy = false ∧ t.status.done ≠ t.status.err)

/-- R460, R466: `BUSY` always falls again: within the time left to the running command the machine reaches an idle state,
whatever the host does. -/
def Obligations.BusyFalls : Prop :=
  ∀ s : State, s.status.busy = true →
    ∃ k ≤ s.wait + 1, ∃ t : State, Sys2Proof.core.run k s = .next t ∧ t.status.busy = false

/-- R109: an access outside the aperture does not reach AHCC: the machine goes on, and nothing changes but the slot of the
port and, for a read, the data that the platform returns (any value, log entry 7). Nothing the host does stops a run. -/
def Obligations.OutsideAccessesDoNotReach : Prop :=
  (∀ (k : Nat) (s : State), RunSafe k s) ∧
  (∀ (s : State) (a n : Nat) (v : Word) (rest : List PortEvent), s.status.busy = false ∨ s.wait ≠ 0 → 0x60000 ≤ a →
    s.port = .write a n v :: rest → step s = .next { s with port := rest, wait := s.wait - 1 }) ∧
  (∀ (s : State) (a n : Nat) (rest : List PortEvent), s.status.busy = false ∨ s.wait ≠ 0 → 0x60000 ≤ a →
    s.port = .read a n :: rest →
    ∃ d, step s = .next { s with port := rest, wait := s.wait - 1, rdata := d, free := s.free + 1 })

/-! ### What every command does and leaves -/

/-- R405, R406: every command ends in one of two ways. It completes: `BUSY = 0`, `DONE = 1`, `ERRCODE = 0`, and `ERR_POS` and
`ERR_SYM` as acceptance left them. Or it raises: `BUSY = 0`, `ERR = 1`, a listed non-zero code, and
`OUT_LEN = OUT_BITS = RD_BITS = 0`. -/
def Obligations.EveryCommandCompletesOrRaises : Prop :=
  ∀ (i : Instr) (s : State), s.status.done = false → s.status.err = false →
    ∃ t, exec i s = .next t ∧
      ((Completed s t ∧ t.status.err = false) ∨
       (t.status.busy = false ∧ t.status.done = false ∧ t.status.err = true ∧
        t.status.errcode ∈ [0x02#8, 0x03#8, 0x04#8, 0x05#8, 0x06#8, 0x10#8, 0x11#8, 0x12#8, 0x13#8, 0x14#8, 0x20#8,
          0x21#8, 0x30#8, 0x31#8] ∧
        t.res.outLen = 0 ∧ t.res.outBits = 0 ∧ t.res.rdBits = 0))

/-- R105: what the engine writes. No command writes `IN_BUF`, the configuration, `CMD`, `CTRL` or the bus flags. `PROBE_*` is
written by `MPROBE` only, `DIAG_*` by `AENC` and `ADEC` only, the Huffman state by `HCOUNT` (`FREQ`), `HBUILD` (not `FREQ`) and
`HLOAD` (not `FREQ`, not the codeword table) only. `OUT_BUF` is written by output commands only, inside its 65536 bytes, and
after success inside `OUT_LEN`. -/
def Obligations.CommandsWriteOnlyTheirResults : Prop :=
  ∀ (i : Instr) (s t : State), exec i s = .next t →
    SetupKept s t ∧
    (i ∉ [Instr.mprobeFix, .mprobeDir, .mprobeBig] → ProbeKept s t) ∧
    (i ∉ [Instr.aencFix, .aencDir, .aencBig, .adecFix, .adecDir, .adecBig] → DiagKept s t) ∧
    (i ∉ [Instr.hcount, .hbuild, .hload] → HuffKept s t) ∧
    (i = .hcount → t.status.hvalid = s.status.hvalid ∧ t.huff = { s.huff with freq := t.huff.freq }) ∧
    (i = .hbuild → t.huff.freq = s.huff.freq) ∧
    (i = .hload → t.huff.freq = s.huff.freq ∧ t.huff.cwLen = s.huff.cwLen ∧ t.huff.cwBits = s.huff.cwBits) ∧
    (writesOutBuf i = false → OutBufKeptFrom 0 s t) ∧
    OutBufKeptFrom 65536 s t ∧
    (t.status.errcode = 0 → writesOutBuf i = true → OutBufKeptFrom t.res.outLen.toNat s t)

/-- R104: bytes of `IN_BUF` at indices `≥ IN_LEN` never affect a command. -/
def Obligations.InputTailNeverMatters : Prop :=
  ∀ (i : Instr) (s : State) (m : Memory), (∀ j < inLen s, m.read j = s.inBuf.read j) →
    ∃ t, exec i s = .next t ∧ exec i { s with inBuf := m } = .next { t with inBuf := m }

/-- R468: no command reads `OUT_BUF`. With other contents of `OUT_BUF` a command leaves the same state but for `OUT_BUF`,
whose result bytes are the same after success. -/
def Obligations.OutBufNeverRead : Prop :=
  ∀ (i : Instr) (s : State) (m : Memory),
    ∃ t m', exec i s = .next t ∧ exec i { s with outBuf := m } = .next { t with outBuf := m' } ∧
      (t.status.errcode = 0 → writesOutBuf i = true → ∀ j < t.res.outLen.toNat, m'.read j = t.outBuf.read j)

/-- R69: working and model state is never carried over. With other contents of the internal working registers a command
leaves the same state but for those registers. -/
def Obligations.WorkingStateNeverCarriedOver : Prop :=
  ∀ (i : Instr) (s : State) (w : Work),
    ∃ t w', exec i s = .next t ∧ exec i { s with work := w } = .next { t with work := w' }

/-! ### `NOP`, `PACK`, `UNPACK` -/

/-- R384: `NOP` completes with `DONE`, `ERRCODE = 0`, and changes nothing else: not `OUT_LEN`, `OUT_BITS`, `RD_BITS`, no table
and no buffer. Run from reset it leaves `STATUS = 0x00000002`. -/
def Obligations.NopOnlyCompletes : Prop :=
  (∀ s : State,
    exec .nop s = .next { s with status := { s.status with busy := false, done := true, errcode := 0 } }) ∧
  (∃ t : State, step (State.reset.withFetchWord 32 0) = .next t ∧ t.status.word = 0x00000002)

/-- R382: `PACK` raises `E_CFG_LEN` on `IN_LEN > 65536`, and `E_DIGIT` at the first byte that is no binary digit, with that
index and byte; otherwise it completes with bit `i` of the packed output the digit `i`, pad bits 0, `OUT_BITS = IN_LEN`
and `OUT_LEN` the bytes that hold them. -/
def Obligations.PackMeaning : Prop :=
  ∀ s : State,
    (65536 < inLen s → ∃ t, exec .pack s = .next t ∧ Raised 0x02 0 (inLen s) s t ∧ AllElseKept s t) ∧
    (∀ i < inLen s, inLen s ≤ 65536 → (∀ j < i, inByte s j = 0x30 ∨ inByte s j = 0x31) →
      inByte s i ≠ 0x30 → inByte s i ≠ 0x31 →
      ∃ t, exec .pack s = .next t ∧ Raised 0x13 i (symAt s i) s t ∧ SetupKept s t ∧ HuffKept s t ∧ ProbeKept s t ∧
        DiagKept s t ∧ OutBufKeptFrom ((i + 7) / 8) s t) ∧
    (inLen s ≤ 65536 → (∀ i < inLen s, inByte s i = 0x30 ∨ inByte s i = 0x31) →
      ∃ t, exec .pack s = .next t ∧ Completed s t ∧ t.res.outBits = BitVec.ofNat 32 (inLen s) ∧
        t.res.outLen = BitVec.ofNat 32 ((inLen s + 7) / 8) ∧ t.res.rdBits = 0 ∧
        (∀ i < inLen s, (t.outBuf.read (i / 8)).getMsbD (i % 8) = (inByte s i == 0x31)) ∧
        (∀ i, inLen s ≤ i → i < 8 * ((inLen s + 7) / 8) → (t.outBuf.read (i / 8)).getMsbD (i % 8) = false) ∧
        OutBufKeptFrom ((inLen s + 7) / 8) s t ∧ SetupKept s t ∧ HuffKept s t ∧ ProbeKept s t ∧ DiagKept s t)

/-- R383: `UNPACK` raises `E_CFG_LEN` on `IN_LEN > 65536`, and `E_OUT_OVF (IN_LEN, 0)` on `IN_LEN > 8192` with nothing written;
otherwise it completes with output byte `j` the ASCII digit of input bit `j`, and `OUT_LEN = 8·IN_LEN`. -/
def Obligations.UnpackMeaning : Prop :=
  ∀ s : State,
    (65536 < inLen s → ∃ t, exec .unpack s = .next t ∧ Raised 0x02 0 (inLen s) s t ∧ AllElseKept s t) ∧
    (inLen s ≤ 65536 → 8192 < inLen s →
      ∃ t, exec .unpack s = .next t ∧ Raised 0x30 (inLen s) 0 s t ∧ AllElseKept s t) ∧
    (inLen s ≤ 8192 →
      ∃ t, exec .unpack s = .next t ∧ Completed s t ∧ t.res.outBits = 0 ∧ t.res.rdBits = 0 ∧
        t.res.outLen = BitVec.ofNat 32 (8 * inLen s) ∧
        (∀ j < 8 * inLen s, t.outBuf.read j = if (inByte s (j / 8)).getMsbD (j % 8) then 0x31 else 0x30) ∧
        OutBufKeptFrom (8 * inLen s) s t ∧ SetupKept s t ∧ HuffKept s t ∧ ProbeKept s t ∧ DiagKept s t)

/-- R385: `UNPACK` of what `PACK` made of a digit string gives the string, then `'0'` digits up to a multiple of 8; and
`PACK` of `UNPACK(b)`, for `|b| ≤ 8192`, gives `b` with `OUT_BITS = 8·|b|`. -/
def Obligations.PackAndUnpackAreInverse : Prop :=
  (∀ s t u : State, inLen s ≤ 65536 → (∀ i < inLen s, inByte s i = 0x30 ∨ inByte s i = 0x31) →
    exec .pack s = .next t → HoldsOutputOf t u →
    ∃ w, exec .unpack u = .next w ∧ Completed u w ∧
      w.res.outLen = BitVec.ofNat 32 (8 * ((inLen s + 7) / 8)) ∧
      (∀ i < inLen s, w.outBuf.read i = inByte s i) ∧
      (∀ i, inLen s ≤ i → i < 8 * ((inLen s + 7) / 8) → w.outBuf.read i = 0x30)) ∧
  (∀ s t u : State, inLen s ≤ 8192 → exec .unpack s = .next t → HoldsOutputOf t u →
    ∃ w, exec .pack u = .next w ∧ Completed u w ∧ w.res.outBits = BitVec.ofNat 32 (8 * inLen s) ∧
      w.res.outLen = BitVec.ofNat 32 (inLen s) ∧ (∀ i < inLen s, w.outBuf.read i = inByte s i))

/-! ### Probability models -/

/-- R211, with the check of `IN_LEN` before it (R380): the start-time errors of `AENC`, `ADEC` and `MPROBE`, in the rule's
order, each with its code, position and detail. Nothing but the report and the cleared results changes. -/
def Obligations.CoderStartErrors : Prop :=
  ∀ (m : Model) (i : Instr) (s : State), i = aencOf m ∨ i = adecOf m ∨ i = mprobeOf m →
    (65536 < inLen s → ∃ t, exec i s = .next t ∧ Raised 0x02 0 (inLen s) s t ∧ AllElseKept s t) ∧
    (inLen s ≤ 65536 → (s.conf.nsym.toNat = 0 ∨ 128 < s.conf.nsym.toNat) →
      ∃ t, exec i s = .next t ∧ Raised 0x03 0 s.conf.nsym.toNat s t ∧ AllElseKept s t) ∧
    (inLen s ≤ 65536 → 1 ≤ s.conf.nsym.toNat → s.conf.nsym.toNat ≤ 128 → m ≠ .fix → s.conf.alpha = 0 →
      ∃ t, exec i s = .next t ∧ Raised 0x04 0 0 s t ∧ AllElseKept s t) ∧
    (inLen s ≤ 65536 → 1 ≤ s.conf.nsym.toNat → s.conf.nsym.toNat ≤ 128 → m = .fix → 2 ^ 30 < s.conf.fixDen.toNat →
      ∃ t, exec i s = .next t ∧ Raised 0x05 0 1 s t ∧ AllElseKept s t) ∧
    (inLen s ≤ 65536 → 1 ≤ s.conf.nsym.toNat → s.conf.nsym.toNat ≤ 128 → m = .fix → s.conf.fixDen ≠ 0 →
      s.conf.fixDen.toNat ≤ 2 ^ 30 →
      ∀ c < s.conf.nsym.toNat, 1 ≤ c → (tget s.conf.fixCum c).toNat < (tget s.conf.fixCum (c - 1)).toNat →
        (∀ j < c, 1 ≤ j → (tget s.conf.fixCum (j - 1)).toNat ≤ (tget s.conf.fixCum j).toNat) →
        ∃ t, exec i s = .next t ∧ Raised 0x05 c 2 s t ∧ AllElseKept s t) ∧
    (inLen s ≤ 65536 → 1 ≤ s.conf.nsym.toNat → s.conf.nsym.toNat ≤ 128 → m = .fix → s.conf.fixDen ≠ 0 →
      s.conf.fixDen.toNat ≤ 2 ^ 30 →
      (∀ j < s.conf.nsym.toNat, 1 ≤ j → (tget s.conf.fixCum (j - 1)).toNat ≤ (tget s.conf.fixCum j).toNat) →
      s.conf.fixDen.toNat ≤ (tget s.conf.fixCum (s.conf.nsym.toNat - 1)).toNat →
      ∃ t, exec i s = .next t ∧ Raised 0x05 (s.conf.nsym.toNat - 1) 3 s t ∧ AllElseKept s t)

/-- R213 with R203, R204: `MPROBE.FIX` on legal operands completes with the fixed vector: `FIX_CUM` over `FIX_DEN`, or `c + 1`
over `NSYM + 1` if `FIX_DEN = 0`; entries at `NSYM` and above are 0. -/
def Obligations.MprobeFixResult : Prop :=
  ∀ s : State, inLen s ≤ 65536 → ConfigLegal .fix s.conf → (∀ i < inLen s, symAt s i < s.conf.nsym.toNat) →
    ∃ t, exec .mprobeFix s = .next t ∧ Completed s t ∧
      t.probeDen = BitVec.ofNat 32 (if s.conf.fixDen = 0 then s.conf.nsym.toNat + 1 else s.conf.fixDen.toNat) ∧
      (∀ c < 128, tget t.probeCum c =
        if c < s.conf.nsym.toNat then BitVec.ofNat 32 (fixedCum s.conf c) else 0) ∧
      t.res.outLen = 0 ∧ t.res.outBits = 0 ∧ t.res.rdBits = 0 ∧
      SetupKept s t ∧ HuffKept s t ∧ DiagKept s t ∧ OutBufKeptFrom 0 s t

/-- R213 with R205 to R207: `MPROBE.DIR` on legal operands completes with the Dirichlet vector of the input's symbol counts:
`PROBE_CUM[c]` is the sum over `x ≤ c` of `count(x)·256 + α_raw`, `PROBE_DEN` is `IN_LEN·256 + (NSYM + 1)·α_raw`. -/
def Obligations.MprobeDirResult : Prop :=
  ∀ s : State, inLen s ≤ 65536 → ConfigLegal .dir s.conf → (∀ i < inLen s, symAt s i < s.conf.nsym.toNat) →
    ∃ t, exec .mprobeDir s = .next t ∧ Completed s t ∧
      t.probeDen = BitVec.ofNat 32 (inLen s * 256 + (s.conf.nsym.toNat + 1) * s.conf.alpha.toNat) ∧
      (∀ c < 128, tget t.probeCum c =
        if c < s.conf.nsym.toNat then
          BitVec.ofNat 32 (sumBelow (fun x => occurrences (inBytes s) x * 256 + s.conf.alpha.toNat) (c + 1))
        else 0) ∧
      t.res.outLen = 0 ∧ t.res.outBits = 0 ∧ t.res.rdBits = 0 ∧
      SetupKept s t ∧ HuffKept s t ∧ DiagKept s t ∧ OutBufKeptFrom 0 s t

/-- R213 with R208 to R210: `MPROBE.BIG` on legal operands completes with the uniform vector for an empty input, and
otherwise with the Dirichlet vector of the transitions out of the input's last symbol. -/
def Obligations.MprobeBigResult : Prop :=
  ∀ s : State, inLen s ≤ 65536 → ConfigLegal .big s.conf → (∀ i < inLen s, symAt s i < s.conf.nsym.toNat) →
    ∃ t, exec .mprobeBig s = .next t ∧ Completed s t ∧
      t.probeDen = BitVec.ofNat 32 (if inLen s = 0 then s.conf.nsym.toNat + 1
        else ((inBytes s).zip (inBytes s).tail).countP (fun x => x.1.toNat == symAt s (inLen s - 1)) * 256
          + (s.conf.nsym.toNat + 1) * s.conf.alpha.toNat) ∧
      (∀ c < 128, tget t.probeCum c =
        if c < s.conf.nsym.toNat then
          BitVec.ofNat 32 (if inLen s = 0 then c + 1
            else sumBelow (fun x => transitions (inBytes s) (symAt s (inLen s - 1)) x * 256 + s.conf.alpha.toNat) (c + 1))
        else 0) ∧
      t.res.outLen = 0 ∧ t.res.outBits = 0 ∧ t.res.rdBits = 0 ∧
      SetupKept s t ∧ HuffKept s t ∧ DiagKept s t ∧ OutBufKeptFrom 0 s t

/-- R213: `MPROBE.m` raises `E_RANGE` at the first byte `≥ NSYM`, with its index and value, and leaves `PROBE_CUM` and
`PROBE_DEN`, and everything else, unchanged. -/
def Obligations.MprobeRangeError : Prop :=
  ∀ (m : Model) (s : State) (i : Nat), inLen s ≤ 65536 → ConfigLegal m s.conf → i < inLen s →
    (∀ j < i, symAt s j < s.conf.nsym.toNat) → s.conf.nsym.toNat ≤ symAt s i →
    ∃ t, exec (mprobeOf m) s = .next t ∧ Raised 0x10 i (symAt s i) s t ∧ AllElseKept s t

/-- R200, R212: under a legal configuration every vector a command can fetch, after any sequence of at most 65536 updates
with symbols below `NSYM`, is weakly increasing with its last value below `den ≤ DEN_MAX`, so the sentinel's mass is at
least 1; and the updates never raise `E_MODEL_OVF` (R207, R210). -/
def Obligations.ModelVectorsStayLegal : Prop :=
  ∀ (m : Model) (c : Conf) (k : Counts) (syms : List Byte), ConfigLegal m c → syms.length ≤ 65536 →
    (∀ b ∈ syms, b.toNat < c.nsym.toNat) →
    ∃ k', feedModel m c 0 syms (modelInit m k) = .ok k' ∧ VecLegal c.nsym.toNat (modelVec m c k')

/-! ### The numeric datapath -/

/-- R12: `rnd64` of the quotient `n / d` is the nearest multiple of the spacing of binary64 values, the even multiple in a
tie; the spacing is `2^(max(E, 52) - 52)` units of `2^-1074` for `E = floor(log2(n / d))`. -/
def Obligations.RoundingIsNearestEven : Prop := ∀ n d : Nat, 0 < d → NearestEven n d (rnd64 n d)

/-- R252, R253, in both modes: for a legal vector and an interval wider than a quarter the boundary of symbol `j` is the floor
of R252 in `FIXED`; in `FP64` it is made of `w`, `p`, their product and the sum, each rounded once. The boundaries run from
`LOW` to `HIGH` in weakly increasing order, the sentinel's sub-interval is not empty, a positive mass gives a non-empty
sub-interval and a zero mass an empty one. Every boundary is a value of the mode again, and every non-empty sub-interval is
wider than `2^-33`. -/
def Obligations.BoundariesPartition : Prop :=
  ∀ (fmt : NumFmt) (n : Nat) (v : CumVec) (low high : Nat), VecLegal n v → low < high → high ≤ oneOf fmt →
    oneOf fmt / 4 < high - low → ModeValue fmt low → ModeValue fmt high →
    boundary fmt n v low high 0 = low ∧ boundary fmt n v low high (n + 1) = high ∧
    (fmt = .fixed → ∀ j ≤ n, 1 ≤ j → boundary fmt n v low high j = low + (high - low) * v.below j / v.den) ∧
    (fmt = .fp64 → ∀ j ≤ n, 1 ≤ j → ∃ w p x, NearestEven (high - low) 1 w ∧ NearestEven (v.below j * 2 ^ 1074) v.den p ∧
      NearestEven (w * p) (2 ^ 1074) x ∧ NearestEven (low + x) 1 (boundary fmt n v low high j)) ∧
    boundary fmt n v low high n < high ∧
    (∀ c < n, boundary fmt n v low high c ≤ boundary fmt n v low high (c + 1)) ∧
    (∀ c < n, 1 ≤ v.mass c → boundary fmt n v low high c < boundary fmt n v low high (c + 1)) ∧
    (∀ c < n, v.mass c = 0 → boundary fmt n v low high c = boundary fmt n v low high (c + 1)) ∧
    (∀ j ≤ n + 1, ModeValue fmt (boundary fmt n v low high j)) ∧
    (∀ c ≤ n, (c < n → 1 ≤ v.mass c) →
      NarrowedInterval fmt (boundary fmt n v low high c) (boundary fmt n v low high (c + 1)))

/-- R256, R257, R277, in both modes: from a narrowed interval the renormalization loop of the encoder, and that of the
decoder, runs at most 32 steps (R257 allows 33), and when it exits, `LOW < HALF < HIGH`; with the middle case also
`HIGH − LOW > 1/4`. The ends stay values of the mode. The decoder's loop reads one bit per step, keeps `K`, the output and
the model, and leaves the interval that the encoder's loop leaves. -/
def Obligations.RenormalizationBound : Prop :=
  (∀ (fmt : NumFmt) (middle : Bool) (pos sym : Nat) (r : EncRun), NarrowedInterval fmt r.low r.high →
    (∀ fuel, 32 ≤ fuel →
      renormEnc (oneOf fmt) middle pos sym fuel r = renormEnc (oneOf fmt) middle pos sym 32 r) ∧
    (∀ r', renormEnc (oneOf fmt) middle pos sym 32 r = .ok r' →
      Renormalized fmt middle r'.low r'.high ∧
      (ModeValue fmt r.low → ModeValue fmt r.high → ModeValue fmt r'.low ∧ ModeValue fmt r'.high))) ∧
  (∀ (fmt : NumFmt) (src : Nat → Bool) (r r' : DecRun), NarrowedInterval fmt r.low r.high →
    r' = renormDec src (oneOf fmt) 32 r →
    (∀ fuel, 32 ≤ fuel → renormDec src (oneOf fmt) fuel r = r') ∧
    Renormalized fmt true r'.low r'.high ∧
    (ModeValue fmt r.low → ModeValue fmt r.high → ModeValue fmt r'.low ∧ ModeValue fmt r'.high) ∧
    r'.k = r.k ∧ r'.out = r.out ∧ r'.counts = r.counts ∧
    (∃ n ≤ 32, r'.rpos = r.rpos + n ∧ r'.high - r'.low = (r.high - r.low) * 2 ^ n) ∧
    (∀ (pos sym : Nat) (e e' : EncRun), e.low = r.low → e.high = r.high →
      renormEnc (oneOf fmt) true pos sym 32 e = .ok e' → e'.low = r'.low ∧ e'.high = r'.high))

/-- R280, in both modes: after priming the decoder's window `[ENC, U)` lies inside the interval; a lookahead keeps it inside;
and so do the narrowing and renormalization of a confirmed symbol. `ENC` stays below 1. The interval that these leave is
again one of values of the mode that straddles `HALF` and is wider than a quarter; in `FP64` that is what the next narrowing
needs. -/
def Obligations.DecoderWindow : Prop :=
  (∀ (src : Nat → Bool) (fmt : NumFmt) (k : Counts), WindowInside fmt (decStart src fmt k)) ∧
  (∀ (src : Nat → Bool) (fmt : NumFmt) (r : DecRun), WindowInside fmt r → r.k < 192 → WindowInside fmt (widen src r)) ∧
  (∀ (src : Nat → Bool) (c : Conf) (v : CumVec) (r r' : DecRun) (x : Nat) (k : Counts),
    VecLegal c.nsym.toNat v → WindowInside c.numFmt r → r.low < r.high → confirm c v r = some x →
    (c.numFmt = .fp64 → oneOf .fp64 / 4 < r.high - r.low ∧ ModeValue .fp64 r.low ∧ ModeValue .fp64 r.high) →
    r' = acceptSymbol src c v x k r →
    WindowInside c.numFmt r' ∧ r'.enc < 2 ^ 192 ∧ Renormalized c.numFmt true r'.low r'.high ∧
      ModeValue c.numFmt r'.low ∧ ModeValue c.numFmt r'.high)

/-! ### `AENC` and `ADEC` -/

/-- R256, R260 to R262, R381: `AENC.m` on legal operands, told by the registers `r` after the last symbol and `r'` before the
final bit, of the encoder's loops taken as relations without a bound on the stream. If the bits and the final `1` fit, which
they do up to 16382 symbols, it completes: `OUT_BUF` holds them, zero-padded, `OUT_BITS` counts them, `OUT_LEN` is the bytes
that hold them, `DIAG_LOW`, `DIAG_HIGH` and `DIAG_PEND` are the registers before the final bit, and `DIAG_K` and `DIAG_ENC`
are 0. Otherwise it raises `E_OUT_OVF` at the first symbol whose bits do not fit, with that symbol, or at `(IN_LEN, NSYM)`.
Nothing else is written. -/
def Obligations.AencCompletes : Prop :=
  ∀ (m : Model) (s : State), ConfigLegal m s.conf → InputLegal m s →
    ∃ (k : Counts) (r r' : EncRun) (t : State), EncodeReaches m s (inLen s) k r ∧ TerminatesTo m s.conf k r r' ∧
      (inLen s ≤ 16382 → r'.out.length < 524288) ∧
      exec (aencOf m) s = .next t ∧ SetupKept s t ∧ HuffKept s t ∧ ProbeKept s t ∧ t.res.rdBits = 0 ∧
      (r'.out.length < 524288 → Completed s t ∧ t.res.outBits = BitVec.ofNat 32 (r'.out.length + 1) ∧
        t.res.outLen = BitVec.ofNat 32 ((r'.out.length + 8) / 8) ∧
        (∀ i < 8 * ((r'.out.length + 8) / 8),
          (t.outBuf.read (i / 8)).getMsbD (i % 8) = (r'.out ++ [true]).getD i false) ∧
        OutBufKeptFrom ((r'.out.length + 8) / 8) s t ∧
        t.diag.lowH ++ t.diag.lowL = intervalBits s.conf.numFmt r'.low ∧
        t.diag.highH ++ t.diag.highL = intervalBits s.conf.numFmt r'.high ∧
        t.diag.pend = BitVec.ofNat 32 r'.pend ∧ t.diag.k = 0 ∧ (∀ i < 6, tget t.diag.enc i = 0)) ∧
      (524288 ≤ r'.out.length → DiagKept s t ∧ OutBufKeptFrom 65536 s t ∧
        ((∃ pos < inLen s, OverflowsAt m s pos ∧ Raised 0x30 pos (symAt s pos) s t) ∨
         (r.out.length ≤ 524288 ∧ Raised 0x30 (inLen s) s.conf.nsym.toNat s t)))

/-- R260, R403, R404: after `i` legal symbols `AENC.m` raises `E_RANGE` at a byte `≥ NSYM` and `E_ZEROPROB` at a symbol of zero
mass, with that index and byte, and keeps `OUT_BUF` from the bytes that hold the bits written so far, if these fit, which
they do for `i` up to 16384. If they do not, it has raised `E_OUT_OVF` at the earlier symbol whose bits did not fit. -/
def Obligations.AencSymbolErrors : Prop :=
  ∀ (m : Model) (s : State) (i : Nat), ConfigLegal m s.conf → inLen s ≤ 65536 → i < inLen s →
    (∀ j < i, symAt s j < s.conf.nsym.toNat) → (m = .fix → ∀ j < i, FixedMassPositive s.conf (symAt s j)) →
    ∃ (k : Counts) (r : EncRun), EncodeReaches m s i k r ∧ (i ≤ 16384 → r.out.length ≤ 524288) ∧
      (r.out.length ≤ 524288 → s.conf.nsym.toNat ≤ symAt s i →
        ∃ t, exec (aencOf m) s = .next t ∧ Raised 0x10 i (symAt s i) s t ∧ SetupKept s t ∧ HuffKept s t ∧
          ProbeKept s t ∧ DiagKept s t ∧ OutBufKeptFrom ((r.out.length + 7) / 8) s t) ∧
      (r.out.length ≤ 524288 → symAt s i < s.conf.nsym.toNat → m = .fix → ¬ FixedMassPositive s.conf (symAt s i) →
        ∃ t, exec (aencOf m) s = .next t ∧ Raised 0x11 i (symAt s i) s t ∧ SetupKept s t ∧ HuffKept s t ∧
          ProbeKept s t ∧ DiagKept s t ∧ OutBufKeptFrom ((r.out.length + 7) / 8) s t) ∧
      (524288 < r.out.length →
        ∃ pos < i, OverflowsAt m s pos ∧ ∃ t, exec (aencOf m) s = .next t ∧ Raised 0x30 pos (symAt s pos) s t ∧
          SetupKept s t ∧ HuffKept s t ∧ ProbeKept s t ∧ DiagKept s t ∧ OutBufKeptFrom 65536 s t)

/-- R270 to R279: when the decoding loop, taken as a relation, runs from the primed registers to a recognized sentinel,
`ADEC.m` completes, with the decoded symbols in `OUT_BUF`, `OUT_LEN` their count, `RD_BITS` the bits read, `DIAG_*` the final
registers, and nothing else written. -/
def Obligations.AdecCompletes : Prop :=
  ∀ (m : Model) (s : State) (r : DecRun), ConfigLegal m s.conf → inLen s ≤ 65536 →
    DecodeRun (inBitZ s) m s.conf (decStart (inBitZ s) s.conf.numFmt (modelInit m s.work.counts)) r →
    ∃ t, exec (adecOf m) s = .next t ∧ Completed s t ∧
      r.out.length ≤ 65536 ∧ t.res.outLen = BitVec.ofNat 32 r.out.length ∧ t.res.outBits = 0 ∧
      t.res.rdBits = BitVec.ofNat 32 r.rpos ∧
      (∀ i < r.out.length, t.outBuf.read i = r.out.getD i 0) ∧ OutBufKeptFrom r.out.length s t ∧
      t.diag.lowH ++ t.diag.lowL = intervalBits s.conf.numFmt r.low ∧
      t.diag.highH ++ t.diag.highL = intervalBits s.conf.numFmt r.high ∧
      t.diag.pend = 0 ∧ t.diag.k = BitVec.ofNat 32 r.k ∧
      (∀ i < 6, tget t.diag.enc i = (BitVec.ofNat 192 r.enc).extractLsb' (32 * i) 32) ∧
      SetupKept s t ∧ HuffKept s t ∧ ProbeKept s t

/-- R276, R277, R282: `ADEC.m` on a legal configuration ends in one of three ways, each told by the registers `r` that its
loop, taken as a relation, reaches from the primed ones. It recognizes the sentinel and succeeds; or `K = KMAX` and no symbol
is confirmed, and it raises `E_STREAM (RPOS, NOUT)`; or it has filled `OUT_BUF` when a further symbol is confirmed, and raises
`E_OUT_OVF (65536, symbol)`. -/
def Obligations.AdecThreeEndings : Prop :=
  ∀ (m : Model) (s : State), ConfigLegal m s.conf → inLen s ≤ 65536 →
    ∃ (r : DecRun) (t : State),
      DecodeReaches (inBitZ s) m s.conf (decStart (inBitZ s) s.conf.numFmt (modelInit m s.work.counts)) r ∧
      r.out.length ≤ 65536 ∧ exec (adecOf m) s = .next t ∧
      SetupKept s t ∧ HuffKept s t ∧ ProbeKept s t ∧ OutBufKeptFrom r.out.length s t ∧
      ((sentinelSeen s.conf (modelVec m s.conf r.counts) r = true ∧ Completed s t) ∨
       (sentinelSeen s.conf (modelVec m s.conf r.counts) r = false ∧
        confirm s.conf (modelVec m s.conf r.counts) r = none ∧ r.k = 192 ∧
        Raised 0x20 r.rpos r.out.length s t ∧ DiagKept s t) ∨
       (∃ sym < s.conf.nsym.toNat, sentinelSeen s.conf (modelVec m s.conf r.counts) r = false ∧
        confirm s.conf (modelVec m s.conf r.counts) r = some sym ∧ r.out.length = 65536 ∧
        Raised 0x30 65536 sym s t ∧ DiagKept s t))

/-- R281, in `FIXED`: when `AENC.m` of a legal input completes, which it does up to 16382 symbols, `ADEC.m` under the same
configuration, on its output with any trailing zero bytes added or removed, completes with the input. -/
def Obligations.FixedArithmeticRoundTrip : Prop :=
  ∀ (m : Model) (s : State), s.conf.numFmt = .fixed → ConfigLegal m s.conf → InputLegal m s →
    ∃ t, exec (aencOf m) s = .next t ∧ (inLen s ≤ 16382 → Completed s t) ∧
      (Completed s t →
        ∀ u : State, u.conf = { s.conf with inLen := u.conf.inLen } → inLen u ≤ 65536 →
          (∀ j, inBitZ u j =
            (decide (j < 8 * t.res.outLen.toNat) && (t.outBuf.read (j / 8)).getMsbD (j % 8))) →
          ∃ w, exec (adecOf m) u = .next w ∧ Completed u w ∧ w.res.outLen = BitVec.ofNat 32 (inLen s) ∧
            (∀ i < inLen s, w.outBuf.read i = inByte s i))

/-! ### Huffman commands -/

/-- R335: `HCOUNT` raises `E_CFG_LEN` on `IN_LEN > 65536`, and `E_RANGE` at the first byte `≥ 128` with `FREQ` unchanged;
otherwise it completes with `FREQ[s]` the number of input bytes equal to `s`. It does not change `HVALID`. -/
def Obligations.HcountMeaning : Prop :=
  ∀ s : State,
    (65536 < inLen s → ∃ t, exec .hcount s = .next t ∧ Raised 0x02 0 (inLen s) s t ∧ AllElseKept s t) ∧
    (∀ i < inLen s, inLen s ≤ 65536 → (∀ j < i, symAt s j < 128) → 128 ≤ symAt s i →
      ∃ t, exec .hcount s = .next t ∧ Raised 0x10 i (symAt s i) s t ∧ AllElseKept s t) ∧
    (inLen s ≤ 65536 → (∀ i < inLen s, symAt s i < 128) →
      ∃ t, exec .hcount s = .next t ∧ Completed s t ∧
        (∀ x < 128, (tget t.huff.freq x).toNat = ((List.range (inLen s)).filter fun i => symAt s i == x).length) ∧
        freqOf t.huff 128 = 1 ∧ t.huff = { s.huff with freq := t.huff.freq } ∧ t.status.hvalid = s.status.hvalid ∧
        t.res.outLen = 0 ∧ t.res.outBits = 0 ∧ t.res.rdBits = 0 ∧
        SetupKept s t ∧ ProbeKept s t ∧ DiagKept s t ∧ OutBufKeptFrom 0 s t)

/-- R336, R331, R341: `HBUILD` always completes, with `HVALID = 1` and, for `L` used symbols, `HNODES = 2L − 1`. The leaves
stand at nodes `0 .. L − 1` in symbol order, and the nodes above them are those of the greedy merge: the two least groups by
`(freq, id)`, the first extracted on the left, the id of the larger group. The root is the last group's tree, and its
combined frequency is the sum of all frequencies, which after `HCOUNT` of `n` bytes is `n + 1`. A symbol has a codeword
exactly when its frequency is positive; every codeword has at most `L − 1` bits, is the one that the merges gave the symbol
and the path to its leaf, and is padded with zeros. `FREQ` and the nodes from `HNODES` on are unchanged. -/
def Obligations.HbuildResult : Prop :=
  (∀ s : State, ∃ t, exec .hbuild s = .next t ∧ Completed s t ∧ t.status.hvalid = true ∧
    t.huff.hnodes.toNat + 1 = 2 * (usedSymbols s.huff).length ∧
    (∀ j < (usedSymbols s.huff).length, t.huff.arena.read j = leafWord ((usedSymbols s.huff).getD j 0)) ∧
    (∀ n < t.huff.hnodes.toNat, (usedSymbols s.huff).length ≤ n → nodeIsLeaf (t.huff.arena.read n) = false ∧
      ∀ b, (nodeChild (t.huff.arena.read n) b).toNat < n) ∧
    (∃ root : Group, GreedyMerge t.huff.arena.read (usedSymbols s.huff).length (leafGroups s.huff) root ∧
      t.huff.hroot = BitVec.ofNat 15 root.tree ∧ root.freq = sumBelow (freqOf s.huff) 129 ∧
      ∀ x code, (x, code) ∈ root.members ↔ x ∈ usedSymbols s.huff ∧ code = codeOf t.huff x) ∧
    (∀ x < 129, cwValid t.huff x = true ↔ freqOf s.huff x ≠ 0) ∧
    (∀ x < 129, cwValid t.huff x = true → cwLength t.huff x + 1 ≤ (usedSymbols s.huff).length) ∧
    (∀ x < 129, ∀ i < 128, cwLength t.huff x ≤ i → cwBit t.huff x i = false) ∧
    (∀ x < 129, cwValid t.huff x = false → tget t.huff.cwLen x = 0 ∧ ∀ k < 4, tget t.huff.cwBits (4 * x + k) = 0) ∧
    TreeMatchesTable t.huff ∧ t.huff.freq = s.huff.freq ∧
    (∀ n, t.huff.hnodes.toNat ≤ n → t.huff.arena.read n = s.huff.arena.read n) ∧
    t.res.outLen = 0 ∧ t.res.outBits = 0 ∧ t.res.rdBits = 0 ∧
    SetupKept s t ∧ ProbeKept s t ∧ DiagKept s t ∧ OutBufKeptFrom 0 s t) ∧
  (∀ s t : State, exec .hcount s = .next t → t.status.errcode = 0 → sumBelow (freqOf t.huff) 129 = inLen s + 1)

/-- R334, R337: `HLOAD` completes exactly when the codeword table is well formed, with `HROOT = 0`, `HVALID = 1` and the tree of
the table. Its nodes stand in the order of allocation: the root, then the prefixes of the codewords, symbol by symbol and
shortest first, each where it is first met; `HNODES` counts them; a codeword's node is its symbol's leaf, and any other has
the nodes of its two extensions as children, `NIL` where there is none. Otherwise it raises `E_CFG_CODE` and leaves `HVALID = 0`, `HNODES = 0` and `HROOT = 0`. An empty table is
reported as `(0, 129)`. Otherwise the report names the first symbol in ascending order that cannot be added, with its length if that is
above `LMAX`, 0 if an input symbol has the empty codeword, and else the bit index of the conflict: the length of the shorter
of its codeword and the earlier one that conflicts. Either way the codeword table and `FREQ` are unchanged. -/
def Obligations.HloadMeaning : Prop :=
  ∀ s : State,
    (TableLoadable s.huff →
      ∃ t, exec .hload s = .next t ∧ Completed s t ∧ t.status.hvalid = true ∧ t.huff.hroot = 0 ∧
        TreeMatchesTable t.huff ∧ t.huff.hnodes.toNat = (triePaths s.huff).length ∧
        (∀ p ∈ triePaths s.huff,
          (∀ x < 129, cwValid s.huff x = true → codeOf s.huff x = p →
            t.huff.arena.read ((triePaths s.huff).idxOf p) = leafWord x) ∧
          ((∀ x < 129, cwValid s.huff x = true → codeOf s.huff x ≠ p) →
            t.huff.arena.read ((triePaths s.huff).idxOf p) =
              internalWord (trieChild s.huff (p ++ [false])) (trieChild s.huff (p ++ [true])))) ∧
        t.huff.cwLen = s.huff.cwLen ∧ t.huff.cwBits = s.huff.cwBits ∧
        t.huff.freq = s.huff.freq ∧ (∀ n, t.huff.hnodes.toNat ≤ n → t.huff.arena.read n = s.huff.arena.read n) ∧
        t.res.outLen = 0 ∧ t.res.outBits = 0 ∧ t.res.rdBits = 0 ∧
        SetupKept s t ∧ ProbeKept s t ∧ DiagKept s t ∧ OutBufKeptFrom 0 s t) ∧
    (¬ TableLoadable s.huff →
      ∃ t pos sym, exec .hload s = .next t ∧ Raised 0x06 pos sym s t ∧ t.status.hvalid = false ∧ t.huff.hnodes = 0 ∧
        t.huff.hroot = 0 ∧ t.huff.cwLen = s.huff.cwLen ∧ t.huff.cwBits = s.huff.cwBits ∧ t.huff.freq = s.huff.freq ∧
        ((∀ x < 129, cwValid s.huff x = false) → pos = 0 ∧ sym = 129) ∧
        (∀ x < 129, cwValid s.huff x = true → EntriesLoadable s.huff x → ¬ EntriesLoadable s.huff (x + 1) →
          sym = x ∧ (Config.lmax < cwLength s.huff x → pos = cwLength s.huff x) ∧
          (cwLength s.huff x = 0 → x ≠ 128 → pos = 0) ∧
          (cwLength s.huff x ≤ Config.lmax → (cwLength s.huff x = 0 → x = 128) →
            ∀ y < x, cwValid s.huff y = true →
              codeOf s.huff y <+: codeOf s.huff x ∨ codeOf s.huff x <+: codeOf s.huff y →
              pos = min (cwLength s.huff y) (cwLength s.huff x))) ∧
        SetupKept s t ∧ ProbeKept s t ∧ DiagKept s t ∧ OutBufKeptFrom 0 s t)

/-- R340, R341: after a successful `HBUILD` or `HLOAD` no codeword in the table is a prefix of another symbol's, and no two are
equal. The code of `HBUILD` has minimum redundancy: no prefix-free code for the used symbols has a smaller total coded
length under the frequencies. -/
def Obligations.BuiltCodeIsPrefixFreeAndMinimal : Prop :=
  (∀ (i : Instr) (s t : State), i = .hbuild ∨ i = .hload → exec i s = .next t → t.status.errcode = 0 →
    ∀ x < 129, ∀ y < 129, x ≠ y → cwValid t.huff x = true → cwValid t.huff y = true →
      ¬ codeOf t.huff x <+: codeOf t.huff y) ∧
  (∀ (s t : State) (code : Nat → List Bool), exec .hbuild s = .next t →
    (∀ x ∈ usedSymbols s.huff, ∀ y ∈ usedSymbols s.huff, x ≠ y → ¬ code x <+: code y) →
    codedLength s.huff (cwLength t.huff) ≤ codedLength s.huff fun x => (code x).length)

/-- R380: the start-time errors of `HENC` and `HDEC`: `E_CFG_LEN` first, then `E_NOTREE (0, 0)` when `HVALID = 0`; nothing
else changes. -/
def Obligations.HuffmanStartErrors : Prop :=
  ∀ (i : Instr) (s : State), i = .henc ∨ i = .hdec →
    (65536 < inLen s → ∃ t, exec i s = .next t ∧ Raised 0x02 0 (inLen s) s t ∧ AllElseKept s t) ∧
    (inLen s ≤ 65536 → s.status.hvalid = false → ∃ t, exec i s = .next t ∧ Raised 0x14 0 0 s t ∧ AllElseKept s t)

/-- R338, after the start-time checks: `HENC` raises `E_RANGE` or `E_NOCODE` at the first symbol outside 0..127 or without a
codeword, `E_NOCODE (IN_LEN, 128)` if the sentinel has none, and `E_OUT_OVF` at the symbol whose codeword does not fit;
otherwise it completes with the codewords of the input and of the sentinel, packed. -/
def Obligations.HencMeaning : Prop :=
  ∀ (s : State) (bitsTo : Nat → List Bool), inLen s ≤ 65536 → s.status.hvalid = true →
    (∀ i, bitsTo i = (List.range i).flatMap fun j => codeOf s.huff (symAt s j)) →
    (∀ i < inLen s, (∀ j < i, symAt s j < 128 ∧ cwValid s.huff (symAt s j) = true) → (bitsTo i).length ≤ 524288 →
      (128 ≤ symAt s i →
        ∃ t, exec .henc s = .next t ∧ Raised 0x10 i (symAt s i) s t ∧ SetupKept s t ∧ HuffKept s t ∧ ProbeKept s t ∧
          DiagKept s t ∧ OutBufKeptFrom (((bitsTo i).length + 7) / 8) s t) ∧
      (symAt s i < 128 → cwValid s.huff (symAt s i) = false →
        ∃ t, exec .henc s = .next t ∧ Raised 0x12 i (symAt s i) s t ∧ SetupKept s t ∧ HuffKept s t ∧ ProbeKept s t ∧
          DiagKept s t ∧ OutBufKeptFrom (((bitsTo i).length + 7) / 8) s t) ∧
      (symAt s i < 128 → cwValid s.huff (symAt s i) = true → 524288 < (bitsTo (i + 1)).length →
        ∃ t, exec .henc s = .next t ∧ Raised 0x30 i (symAt s i) s t ∧ SetupKept s t ∧ HuffKept s t ∧ ProbeKept s t ∧
          DiagKept s t)) ∧
    ((∀ j < inLen s, symAt s j < 128 ∧ cwValid s.huff (symAt s j) = true) → (bitsTo (inLen s)).length ≤ 524288 →
      (cwValid s.huff 128 = false →
        ∃ t, exec .henc s = .next t ∧ Raised 0x12 (inLen s) 128 s t ∧ SetupKept s t ∧ HuffKept s t ∧ ProbeKept s t ∧
          DiagKept s t ∧ OutBufKeptFrom (((bitsTo (inLen s)).length + 7) / 8) s t) ∧
      (cwValid s.huff 128 = true → 524288 < (bitsTo (inLen s) ++ codeOf s.huff 128).length →
        ∃ t, exec .henc s = .next t ∧ Raised 0x30 (inLen s) 128 s t ∧ SetupKept s t ∧ HuffKept s t ∧ ProbeKept s t ∧
          DiagKept s t) ∧
      (cwValid s.huff 128 = true → (bitsTo (inLen s) ++ codeOf s.huff 128).length ≤ 524288 →
        ∃ t, exec .henc s = .next t ∧ Completed s t ∧
          t.res.outBits = BitVec.ofNat 32 (bitsTo (inLen s) ++ codeOf s.huff 128).length ∧
          t.res.outLen = BitVec.ofNat 32 (((bitsTo (inLen s) ++ codeOf s.huff 128).length + 7) / 8) ∧ t.res.rdBits = 0 ∧
          (∀ i < 8 * (((bitsTo (inLen s) ++ codeOf s.huff 128).length + 7) / 8),
            (t.outBuf.read (i / 8)).getMsbD (i % 8) = (bitsTo (inLen s) ++ codeOf s.huff 128).getD i false) ∧
          OutBufKeptFrom (((bitsTo (inLen s) ++ codeOf s.huff 128).length + 7) / 8) s t ∧
          SetupKept s t ∧ HuffKept s t ∧ ProbeKept s t ∧ DiagKept s t))

/-- R339: on a tree that matches the codeword table, `HDEC` of a stream that begins with the codewords of a symbol sequence and
of the sentinel completes with that sequence, whatever follows, and `RD_BITS` counts the bits of those codewords. -/
def Obligations.HdecDecodesCodewords : Prop :=
  ∀ (s : State) (syms : List Nat) (rest : List Bool), inLen s ≤ 65536 → s.status.hvalid = true →
    TreeMatchesTable s.huff → syms.length ≤ 65536 → (∀ x ∈ syms, x < 128 ∧ cwValid s.huff x = true) →
    cwValid s.huff 128 = true → inBits s = huffStream s.huff syms ++ rest →
    ∃ t, exec .hdec s = .next t ∧ Completed s t ∧ t.res.outLen = BitVec.ofNat 32 syms.length ∧ t.res.outBits = 0 ∧
      t.res.rdBits = BitVec.ofNat 32 (huffStream s.huff syms).length ∧
      (∀ i < syms.length, (t.outBuf.read i).toNat = syms.getD i 0) ∧ OutBufKeptFrom syms.length s t ∧
      SetupKept s t ∧ HuffKept s t ∧ ProbeKept s t ∧ DiagKept s t

/-- R339, R381: the errors of `HDEC` after the codewords of a symbol sequence. `E_STREAM` when the input ends before the
sentinel's leaf: it ends with a proper prefix, the empty one included, of some codeword; at `RPOS = 8·IN_LEN`, with the
count of the symbols decoded. `E_BADCODE` when the next bit asks for an absent child, at that bit's index, with the bit. `E_OUT_OVF` when 65536 symbols are decoded and the codeword of a
further one follows, at `NOUT`, with that symbol. -/
def Obligations.HdecStreamErrors : Prop :=
  ∀ (s : State) (syms : List Nat) (part : List Bool), inLen s ≤ 65536 → s.status.hvalid = true →
    TreeMatchesTable s.huff → syms.length ≤ 65536 → (∀ x ∈ syms, x < 128 ∧ cwValid s.huff x = true) →
    (∀ last < 129, cwValid s.huff last = true → part <+: codeOf s.huff last → part ≠ codeOf s.huff last →
      inBits s = syms.flatMap (codeOf s.huff) ++ part →
      ∃ t, exec .hdec s = .next t ∧ Raised 0x20 (8 * inLen s) syms.length s t ∧ OutBufKeptFrom syms.length s t ∧
        SetupKept s t ∧ HuffKept s t ∧ ProbeKept s t ∧ DiagKept s t) ∧
    (∀ (n : Nat) (b : Bool) (rest : List Bool), followPath s.huff.arena s.huff.hroot.toNat part = some n →
      nodeIsLeaf (s.huff.arena.read n) = false → nodeChild (s.huff.arena.read n) b = Config.nil →
      inBits s = syms.flatMap (codeOf s.huff) ++ part ++ b :: rest →
      ∃ t, exec .hdec s = .next t ∧
        Raised 0x21 ((syms.flatMap (codeOf s.huff)).length + part.length) b.toNat s t ∧ OutBufKeptFrom syms.length s t ∧
        SetupKept s t ∧ HuffKept s t ∧ ProbeKept s t ∧ DiagKept s t) ∧
    (∀ x < 128, cwValid s.huff x = true → ∀ rest : List Bool, syms.length = 65536 →
      inBits s = syms.flatMap (codeOf s.huff) ++ codeOf s.huff x ++ rest →
      ∃ t, exec .hdec s = .next t ∧ Raised 0x30 65536 x s t ∧ OutBufKeptFrom 65536 s t ∧
        SetupKept s t ∧ HuffKept s t ∧ ProbeKept s t ∧ DiagKept s t)

/-- R342: when the tree matches the codeword table and the input and the sentinel have codewords that fit, `HENC` completes, and
`HDEC` with the same tree, on its output with any bytes appended, completes with the input and reads exactly `OUT_BITS`
bits. -/
def Obligations.HuffmanRoundTrip : Prop :=
  ∀ s : State, inLen s ≤ 65536 → s.status.hvalid = true → TreeMatchesTable s.huff →
    (∀ i < inLen s, symAt s i < 128 ∧ cwValid s.huff (symAt s i) = true) → cwValid s.huff 128 = true →
    (huffStream s.huff ((List.range (inLen s)).map (symAt s))).length ≤ 524288 →
    ∃ t, exec .henc s = .next t ∧ Completed s t ∧
      ∀ u : State, u.huff = t.huff → u.status.hvalid = true → t.res.outLen.toNat ≤ inLen u → inLen u ≤ 65536 →
        (∀ i < t.res.outLen.toNat, inByte u i = t.outBuf.read i) →
        ∃ w, exec .hdec u = .next w ∧ Completed u w ∧ w.res.outLen = BitVec.ofNat 32 (inLen s) ∧
          w.res.rdBits = t.res.outBits ∧ (∀ i < inLen s, w.outBuf.read i = inByte s i)

/-! ### Invariants -/

/-- Every step keeps the byte buffers and the node arena in canonical form: strictly rising keys inside the store. The form is
the model's choice (DESIGN CHOICE, log entry 1); R55, R57 and R58 give the bounds of the keys. -/
def Obligations.StepKeepsStoresCanonical : Prop :=
  ∀ s t : State, StoresCanonical s → step s = .next t → StoresCanonical t

/-- R35, R401: every step keeps `STATUS` coherent: at most one of `BUSY`, `DONE`, `ERR`, and a listed `ERRCODE` that is 0 while
busy and after success and not 0 after an error. That an asserted reset input excludes a running command, which the
invariant also holds, is the model's reading of R451 (DEDUCED, log entry 10). -/
def Obligations.StepKeepsStatusCoherent : Prop :=
  ∀ s t : State, StatusCoherent s → step s = .next t → StatusCoherent t

/-- R333: every step keeps the meaning of `HVALID = 1`: the codeword table and the tree hold the same code. -/
def Obligations.StepKeepsTreeCoherent : Prop :=
  ∀ s t : State, TreeCoherent s → step s = .next t → TreeCoherent t

/-- R43, R47, R48: every step keeps `OUT_LEN ≤ OBUF_BYTES`, `HNODES ≤ NODE_CAP`, and `HROOT = 0` while `HNODES = 0`. -/
def Obligations.StepKeepsRegistersBounded : Prop :=
  ∀ s t : State, RegistersBounded s → step s = .next t → RegistersBounded t

/-- The state after power-on reset meets the four invariants. -/
def Obligations.ResetMeetsInvariants : Prop :=
  StoresCanonical State.reset ∧ StatusCoherent State.reset ∧ TreeCoherent State.reset ∧ RegistersBounded State.reset

/-! ### Resets, interrupt, `STATUS` -/

/-- R450: the registers and tables after power-on reset have the values of the table. -/
def Obligations.PowerOnResetValues : Prop :=
  State.reset.irqEn = false ∧ State.reset.status.word = 0 ∧ State.reset.cmd = 0 ∧ State.reset.conf.inLen = 0 ∧
  acfgWord State.reset.conf = 0x00008000 ∧ State.reset.conf.alpha = 0x0100 ∧ State.reset.conf.fixDen = 0 ∧
  (∀ c < 128, tget State.reset.conf.fixCum c = 0) ∧ State.reset.res.outLen = 0 ∧ State.reset.res.outBits = 0 ∧
  State.reset.res.rdBits = 0 ∧ State.reset.res.errPos = 0 ∧ State.reset.res.errSym = 0 ∧ State.reset.huff.hroot = 0 ∧
  State.reset.huff.hnodes = 0 ∧ State.reset.probeDen = 0 ∧ State.reset.diag.lowL = 0 ∧ State.reset.diag.lowH = 0 ∧
  State.reset.diag.highL = 0 ∧ State.reset.diag.highH = 0 ∧ State.reset.diag.pend = 0 ∧ State.reset.diag.k = 0 ∧
  (∀ m < 6, tget State.reset.diag.enc m = 0) ∧ (∀ x < 128, freqOf State.reset.huff x = 0) ∧
  freqOf State.reset.huff 128 = 1 ∧ (∀ x < 129, tget State.reset.huff.cwLen x = 0) ∧
  (∀ i < 516, tget State.reset.huff.cwBits i = 0) ∧ (∀ c < 128, tget State.reset.probeCum c = 0) ∧
  State.reset.phase = .idle ∧ State.reset.irq = false

/-- R452: a write with bit 0 = 1 to `CTRL`, whatever its other bits, busy or not, performs a soft reset: every register and
table takes its reset value, no command runs, `IRQ` is 0, `IN_BUF` is kept, and `OUT_BUF` and `HNODE` are kept unless the
aborted command writes them. `SRST` reads as 0. -/
def Obligations.SoftResetMeaning : Prop :=
  (∀ s : State, (contentOf s 4 .ctrl).getLsbD 0 = false) ∧
  ∀ (s : State) (v : Word) (rest : List PortEvent), s.status.busy = false ∨ s.wait ≠ 0 → s.resetIn = false →
    s.port = .write 0x004 4 v :: rest → v.getLsbD 0 = true →
    ∃ t, step s = .next t ∧ t.port = rest ∧ t.irqEn = false ∧ t.status = Status.reset ∧ t.cmd = 0 ∧ t.conf = Conf.reset ∧
      t.res = Res.reset ∧ t.diag = Diag.reset ∧ t.probeCum = Vector.replicate 128 0 ∧ t.probeDen = 0 ∧
      t.huff.freq = Vector.replicate 128 0 ∧ t.huff.cwLen = Vector.replicate 129 0 ∧
      t.huff.cwBits = Vector.replicate 516 0 ∧ t.huff.hroot = 0 ∧ t.huff.hnodes = 0 ∧ t.phase = .idle ∧
      t.irq = false ∧ t.inBuf = s.inBuf ∧
      (s.status.busy = false ∨
        decode s.cmd ∉ [Except.ok Instr.aencFix, .ok .aencDir, .ok .aencBig, .ok .adecFix, .ok .adecDir, .ok .adecBig,
          .ok .henc, .ok .hdec, .ok .pack, .ok .unpack] → t.outBuf = s.outBuf) ∧
      (s.status.busy = false ∨ decode s.cmd ∉ [Except.ok Instr.hbuild, .ok .hload] → t.huff.arena = s.huff.arena)

/-- R451: asserting the reset input loses a running command and resets `STATUS` (that this happens at the assertion is the
model's reading, log entry 10); while it is asserted a host
write has no effect and a host read changes nothing but the data it returns; when it is released the registers and tables
hold their reset values and the engine is idle. -/
def Obligations.HardResetMeaning : Prop :=
  (∀ (s : State) (rest : List PortEvent), s.status.busy = false ∨ s.wait ≠ 0 → s.port = .resetInput true :: rest →
    ∃ t, step s = .next t ∧ t.port = rest ∧ t.resetIn = true ∧ t.status = Status.reset ∧ t.irq = false) ∧
  (∀ (s : State) (a n : Nat) (v : Word) (rest : List PortEvent), s.status.busy = false → s.resetIn = true →
    s.port = .write a n v :: rest → step s = .next { s with port := rest, wait := s.wait - 1 }) ∧
  (∀ (s : State) (a n : Nat) (rest : List PortEvent), s.status.busy = false → s.resetIn = true →
    s.port = .read a n :: rest →
    ∃ d, step s = .next { s with port := rest, wait := s.wait - 1, rdata := d, free := s.free + 1 }) ∧
  (∀ (s : State) (rest : List PortEvent), s.status.busy = false → s.resetIn = true →
    s.port = .resetInput false :: rest →
    ∃ t, step s = .next t ∧ t.port = rest ∧ t.resetIn = false ∧ t.irqEn = false ∧ t.status = Status.reset ∧ t.cmd = 0 ∧
      t.conf = Conf.reset ∧ t.res = Res.reset ∧ t.diag = Diag.reset ∧ t.probeCum = Vector.replicate 128 0 ∧
      t.probeDen = 0 ∧ t.huff.freq = Vector.replicate 128 0 ∧ t.huff.cwLen = Vector.replicate 129 0 ∧
      t.huff.cwBits = Vector.replicate 516 0 ∧ t.huff.hroot = 0 ∧ t.huff.hnodes = 0 ∧ t.phase = .idle)

/-- R420: `IRQ` is `IRQ_EN` and (`DONE` or `ERR`). With `IRQ_EN = 1` it rises when any command completes, with or without
error, and a step that completes no command never makes `DONE` or `ERR` rise; it is 0 when the set flag is cleared, when a
command is accepted, after a soft or hard reset, and under `IRQ_EN = 0`. The last clause is the model's: `IRQ` drives the
line `IRQ_ROUTE`, an opaque constant, and no other (DESIGN CHOICE, log entry 13). -/
def Obligations.InterruptFollowsCompletion : Prop :=
  (∀ s : State, s.irq = true ↔ s.irqEn = true ∧ (s.status.done = true ∨ s.status.err = true)) ∧
  (∀ (i : Instr) (s t : State), exec i s = .next t → t.irq = s.irqEn) ∧
  (∀ s : State, s.status.busy = true → s.wait = 0 → ∃ t, step s = .next t ∧ t.irq = s.irqEn) ∧
  (∀ s t : State, s.status.busy = false ∨ s.wait ≠ 0 → step s = .next t →
    (t.status.done = true → s.status.done = true) ∧ (t.status.err = true → s.status.err = true)) ∧
  (∀ (s : State) (v : Word), (s.status.done = true → v.getLsbD 1 = true) → (s.status.err = true → v.getLsbD 2 = true) →
    (writeStatus v s).irq = false) ∧
  (∀ (s : State) (w : Word), (acceptCommand w s).irq = false) ∧
  (∀ s : State, (softReset s).irq = false ∧ (hardReset s).irq = false) ∧
  (∀ s : State, s.irqEn = false → s.irq = false) ∧
  (∀ (s : State) (line : Nat), s.irqLine line = true ↔ s.irq = true ∧ line = Config.irqRoute)

/-- R35: a host write to `STATUS`, idle or busy, clears `DONE`, `ERR`, `WBUSY` and `BUSERR` where the written bit 1, 2, 3 or 4 is
1 and keeps them where it is 0; nothing else changes. -/
def Obligations.StatusWriteClears : Prop :=
  ∀ (s : State) (v : Word) (rest : List PortEvent), s.status.busy = false ∨ s.wait ≠ 0 → s.resetIn = false →
    s.port = .write 0x008 4 v :: rest →
    step s = .next { s with
      port := rest, wait := s.wait - 1,
      status := { s.status with
        done := if v.getLsbD 1 then false else s.status.done
        err := if v.getLsbD 2 then false else s.status.err
        wbusy := if v.getLsbD 3 then false else s.status.wbusy
        buserr := if v.getLsbD 4 then false else s.status.buserr } }

/-! ### Host accesses -/

/-- R101: the address map: the registers at their offsets, and the tables and buffers at base plus index. -/
def Obligations.AddressMap : Prop :=
  ((List.range 22).map fun i => locate (4 * i)) =
    [.id, .ctrl, .status, .cmd, .inLen, .outLen, .outBits, .rdBits, .errPos, .errSym, .acfg, .alpha, .fixDen, .hroot,
      .hnodes, .probeDen, .diagLowL, .diagLowH, .diagHighL, .diagHighH, .diagPend, .diagK] ∧
  (∀ m < 6, locate (0x60 + 4 * m) = .diagEnc m) ∧ (∀ c < 128, locate (0x1000 + 4 * c) = .fixCum c) ∧
  (∀ x < 129, locate (0x1400 + 4 * x) = .freq x) ∧ (∀ x < 129, locate (0x1800 + 4 * x) = .cwLen x) ∧
  (∀ x < 129, ∀ m < 4, locate (0x2000 + 16 * x + 4 * m) = .cwBits x m) ∧
  (∀ c < 128, locate (0x3000 + 4 * c) = .probeCum c) ∧ (∀ i < 65536, locate (0x10000 + i) = .inBuf i) ∧
  (∀ i < 65536, locate (0x20000 + i) = .outBuf i) ∧ (∀ n < 32768, locate (0x40000 + 4 * n) = .hnode n)

/-- R108: in the aperture an access is legal in a buffer for 1, 2 or 4 aligned bytes that stay inside it, and elsewhere for
an aligned word. Any other access sets `BUSERR` and does nothing else, idle or busy; a read then returns 0. -/
def Obligations.IllegalAccessOnlySetsBuserr : Prop :=
  ∀ (s : State) (a n : Nat) (v : Word) (rest : List PortEvent), s.status.busy = false ∨ s.wait ≠ 0 → s.resetIn = false →
    a < 0x60000 →
    ¬ ((∃ base, (base = 0x10000 ∨ base = 0x20000) ∧ base ≤ a ∧ a + n ≤ base + 0x10000 ∧ (n = 1 ∨ n = 2 ∨ n = 4) ∧
          a % n = 0) ∨
        ((a < 0x10000 ∨ 0x30000 ≤ a) ∧ n = 4 ∧ a % 4 = 0)) →
    (s.port = .write a n v :: rest → step s = .next { s with
      port := rest, wait := s.wait - 1, status := { s.status with buserr := true } }) ∧
    (s.port = .read a n :: rest → step s = .next { s with
      port := rest, wait := s.wait - 1, status := { s.status with buserr := true }, rdata := 0 })

/-- R109: a word access to an offset that R101 does not list reads 0 and ignores a write, with no flag, idle or busy. -/
def Obligations.HolesReadZeroAndIgnoreWrites : Prop :=
  ∀ (s : State) (a : Nat) (v : Word) (rest : List PortEvent), s.status.busy = false ∨ s.wait ≠ 0 → s.resetIn = false →
    a < 0x60000 → a % 4 = 0 →
    ((0x58 ≤ a ∧ a < 0x60) ∨ (0x78 ≤ a ∧ a < 0x1000) ∨ (0x1200 ≤ a ∧ a < 0x1400) ∨ (0x1604 ≤ a ∧ a < 0x1800) ∨
      (0x1A04 ≤ a ∧ a < 0x2000) ∨ (0x2810 ≤ a ∧ a < 0x3000) ∨ (0x3200 ≤ a ∧ a < 0x10000) ∨
      (0x30000 ≤ a ∧ a < 0x40000)) →
    (s.port = .write a 4 v :: rest → step s = .next { s with port := rest, wait := s.wait - 1 }) ∧
    (s.port = .read a 4 :: rest → step s = .next { s with
      port := rest, wait := s.wait - 1, rdata := 0, free := s.free + 1 })

/-- R461: while busy a legal write to anything but `CTRL`, `STATUS` and a hole, `CMD` and read-only locations included, is
dropped and sets `WBUSY`; nothing else changes, and the running command goes on. -/
def Obligations.WritesWhileBusyDropped : Prop :=
  ∀ (s : State) (a n : Nat) (v : Word) (rest : List PortEvent), s.status.busy = true → s.wait ≠ 0 → s.resetIn = false →
    a < 0x60000 → legalAccess a n = true → a ≠ 0x004 → a ≠ 0x008 → locate a ≠ .hole → s.port = .write a n v :: rest →
    step s = .next { s with port := rest, wait := s.wait - 1, status := { s.status with wbusy := true } }

/-- R107, R31, R51: while idle a legal write to a read-only or hardwired location (`ID`, the result and diagnostic registers,
`HROOT`, `HNODES`, `PROBE_*`, `FREQ[128]`, `OUT_BUF`, `HNODE`) is ignored, with no flag. -/
def Obligations.ReadOnlyLocationsIgnoreWrites : Prop :=
  ∀ (s : State) (a n : Nat) (v : Word) (rest : List PortEvent), s.status.busy = false → s.resetIn = false →
    legalAccess a n = true →
    (a = 0x000 ∨ (0x014 ≤ a ∧ a < 0x028) ∨ (0x034 ≤ a ∧ a < 0x058) ∨ (0x060 ≤ a ∧ a < 0x078) ∨ a = 0x1600 ∨
      (0x3000 ≤ a ∧ a < 0x3200) ∨ (0x20000 ≤ a ∧ a < 0x30000) ∨ (0x40000 ≤ a ∧ a < 0x60000)) →
    s.port = .write a n v :: rest → step s = .next { s with port := rest, wait := s.wait - 1 }

/-- R34, R461: a write to `CTRL` with bit 0 = 0, idle or busy, sets `IRQ_EN` to bit 1 and changes nothing else. R38 to R42, R51
to R54, R107: while idle, a word written to a writable register or table word reads back with its reserved bits 0, and every
other register and table entry is unchanged, but for `HVALID`, which a write to the codeword table clears. -/
def Obligations.WritableWordsReadBack : Prop :=
  (∀ (s : State) (v : Word) (rest : List PortEvent), s.status.busy = false ∨ s.wait ≠ 0 → s.resetIn = false →
    v.getLsbD 0 = false → s.port = .write 0x004 4 v :: rest →
    step s = .next { s with port := rest, wait := s.wait - 1, irqEn := v.getLsbD 1 }) ∧
  (∀ (s : State) (a : Nat) (v mask : Word) (rest : List PortEvent), s.status.busy = false → s.resetIn = false →
    WritableWord a v mask → s.port = .write a 4 v :: .read a 4 :: rest →
    ∃ t u : State, step s = .next t ∧ step t = .next u ∧ u.rdata = v &&& mask ∧ u.port = rest ∧
      t = { s with
        port := .read a 4 :: rest, wait := s.wait - 1, irqEn := t.irqEn, conf := t.conf,
        huff := { s.huff with freq := t.huff.freq, cwLen := t.huff.cwLen, cwBits := t.huff.cwBits },
        status := { s.status with hvalid := s.status.hvalid && decide (a < 0x1800) } } ∧
      ∀ b < 0x60000, b % 4 = 0 → b ≠ a → b ≠ 0x008 → contentOf t 4 (locate b) = contentOf s 4 (locate b))

/-- R102: while idle, a legal write of `n` bytes to `IN_BUF` stores byte `k` of the data at `a + k`, little-endian, and changes
no other byte; a read of the same bytes then returns the `n` low bytes of the data. That the lanes above them read 0 is the
model's choice (log entry 14). -/
def Obligations.InputBufferLanes : Prop :=
  ∀ (s : State) (i n : Nat) (v : Word) (rest : List PortEvent), s.status.busy = false → s.resetIn = false →
    (n = 1 ∨ n = 2 ∨ n = 4) → i % n = 0 → i + n ≤ 65536 →
    s.port = .write (0x10000 + i) n v :: .read (0x10000 + i) n :: rest →
    ∃ t u : State, step s = .next t ∧ step t = .next u ∧
      (∀ k < n, t.inBuf.read (i + k) = v.extractLsb' (8 * k) 8) ∧
      (∀ j, j < i ∨ i + n ≤ j → t.inBuf.read j = s.inBuf.read j) ∧
      t = { s with port := .read (0x10000 + i) n :: rest, wait := s.wait - 1, inBuf := t.inBuf } ∧
      u.rdata = v &&& BitVec.ofNat 32 (2 ^ (8 * n) - 1)

/-- R54: a host write to any `CW_LEN` or `CW_BITS` word clears `HVALID`, even when it writes the old value; then `HENC` and `HDEC`
raise `E_NOTREE` (R469). -/
def Obligations.CodewordWriteDropsTheTree : Prop :=
  ∀ (s : State) (a : Nat) (v : Word) (rest : List PortEvent), s.status.busy = false → s.resetIn = false →
    ((0x1800 ≤ a ∧ a < 0x1A04) ∨ (0x2000 ≤ a ∧ a < 0x2810)) → a % 4 = 0 → s.port = .write a 4 v :: rest →
    ∃ t, step s = .next t ∧ t.status = { s.status with hvalid := false } ∧
      t.huff.freq = s.huff.freq ∧ t.huff.arena = s.huff.arena ∧ t.huff.hroot = s.huff.hroot ∧
      t.huff.hnodes = s.huff.hnodes ∧
      ∀ i, i = Instr.henc ∨ i = Instr.hdec → inLen s ≤ 65536 → ∃ u, exec i t = .next u ∧ Raised 0x14 0 0 t u

/-- R31, R106, R462: a legal read returns the content of its location and changes nothing but the data it returns: always while
idle, and while a command runs wherever R462 does not let it return any value. Reading `STATUS` clears nothing. While a
command runs, `STATUS` reads `BUSY = 1`, `DONE = ERR = 0`, `ERRCODE = 0` and the current `WBUSY` and `BUSERR`. That a running
illegal word makes the first row of R462 volatile is the model's reading (DEDUCED, log entry 6), and that the lanes of read
data above the bytes read are 0 its choice (DESIGN CHOICE, log entry 14). -/
def Obligations.ReadsReturnTheContent : Prop :=
  ∀ (s : State) (a n : Nat) (rest : List PortEvent), s.resetIn = false → a < 0x60000 → legalAccess a n = true →
    s.port = .read a n :: rest →
    ReadsAs s a n (contentOf s n (locate a)) ∧
    (s.status.busy = false ∨ (s.wait ≠ 0 ∧ ¬ VolatileAt s.cmd a) →
      step s = .next { s with
        port := rest, wait := s.wait - 1, rdata := contentOf s n (locate a), free := s.free + 1 }) ∧
    (s.status.busy = true → s.wait ≠ 0 →
      ∃ d, step s = .next { s with port := rest, wait := s.wait - 1, rdata := d, free := s.free + 1 } ∧
        (a = 0x008 → StatusCoherent s → d.getLsbD 0 = true ∧ d.getLsbD 1 = false ∧ d.getLsbD 2 = false ∧
          d.getLsbD 3 = s.status.wbusy ∧ d.getLsbD 4 = s.status.buserr ∧ d.extractLsb' 16 8 = 0 ∧
          d &&& 0xFF00FEE0 = 0))
end

