-- ==== Sys2Proof/Laws/Interval.lean ====
section
/-! SUPPORT. The laws of the numeric datapath: a renormalization step doubles the width of the interval and keeps it inside
`[0, 1)` (R255, R257), so the step bound `Config.renormFuel` never cuts a loop short. -/

namespace Sys2Proof.Machine

theorem oneOf_dvd_four (fmt : NumFmt) : ∃ q, oneOf fmt = 4 * q := by
  cases fmt
  · exact ⟨2 ^ 1072, by unfold oneOf Config.fp64Grid; rw [show (4 : Nat) = 2 ^ 2 from rfl, ← Nat.pow_add]⟩
  · exact ⟨2 ^ 30, rfl⟩

theorem oneOf_pos (fmt : NumFmt) : 0 < oneOf fmt := by
  cases fmt <;> exact Nat.two_pow_pos _

/-- What each case of R254 says of the interval, with `one = 4q`. -/
theorem renormCase_cases {q : Nat} {middle : Bool} {low high : Nat} {k : RCase}
    (h : renormCase (4 * q) middle low high = some k) :
    (k = .lower ∧ high ≤ 2 * q) ∨ (k = .upper ∧ 2 * q < high ∧ 2 * q ≤ low) ∨
    (k = .middle ∧ middle = true ∧ q ≤ low ∧ high ≤ 3 * q) := by
  have e2 : 4 * q / 2 = 2 * q := by omega
  have e4 : 4 * q / 4 = q := by omega
  unfold renormCase at h
  rw [e2, e4] at h
  split at h
  · rename_i h1
    exact .inl ⟨(Option.some.inj h).symm, h1⟩
  · split at h
    · rename_i h1 h2
      exact .inr (.inl ⟨(Option.some.inj h).symm, by omega, h2⟩)
    · split at h
      · rename_i h3
        simp only [Bool.and_eq_true, decide_eq_true_eq] at h3
        exact .inr (.inr ⟨(Option.some.inj h).symm, h3.1.1, h3.1.2, h3.2⟩)
      · exact absurd h (by simp)

/-- When no case applies, the interval straddles the half (R257). -/
theorem renormCase_none {q : Nat} {middle : Bool} {low high : Nat} (h : renormCase (4 * q) middle low high = none) :
    low < 2 * q ∧ 2 * q < high ∧ (middle = true → low < q ∨ 3 * q < high) := by
  have e2 : 4 * q / 2 = 2 * q := by omega
  have e4 : 4 * q / 4 = q := by omega
  unfold renormCase at h
  rw [e2, e4] at h
  split at h
  · exact absurd h (by simp)
  · split at h
    · exact absurd h (by simp)
    · rename_i h1 h2
      refine ⟨by omega, by omega, fun hm => ?_⟩
      subst hm
      by_contra hc
      have : q ≤ low ∧ high ≤ 3 * q := by omega
      simp [this] at h

/-- A rescale doubles the width and keeps the interval inside `[0, one]` (R255). -/
theorem rescale_width {q : Nat} {middle : Bool} {low high : Nat} {k : RCase}
    (h : renormCase (4 * q) middle low high = some k) (hlt : low < high) (hle : high ≤ 4 * q) :
    rescale (4 * q) k high = rescale (4 * q) k low + 2 * (high - low) ∧ rescale (4 * q) k high ≤ 4 * q := by
  have e2 : 4 * q / 2 = 2 * q := by omega
  have e4 : 4 * q / 4 = q := by omega
  rcases renormCase_cases h with ⟨rfl, h1⟩ | ⟨rfl, h1, h2⟩ | ⟨rfl, -, h1, h2⟩
  all_goals simp only [rescale, e2, e4]; omega

/-- One encoder step that succeeds rescales both ends (R256). -/
theorem renormEncStep_ok {one pos sym : Nat} {k : RCase} {r r' : EncRun}
    (h : renormEncStep one pos sym k r = .ok r') :
    r'.low = rescale one k r.low ∧ r'.high = rescale one k r.high := by
  unfold renormEncStep at h
  cases k
  · dsimp only at h
    split at h
    · exact absurd h (by simp)
    · cases h; exact ⟨rfl, rfl⟩
  · dsimp only at h
    split at h
    · exact absurd h (by simp)
    · cases h; exact ⟨rfl, rfl⟩
  · cases h; exact ⟨rfl, rfl⟩

/-- The encoder's loop, with one more step allowed than the number of doublings that fit, ends in the case NONE, with a
non-empty interval inside `[0, one]` (R257). -/
theorem renormEnc_exits {q : Nat} {middle : Bool} {pos sym fuel : Nat} {r r' : EncRun}
    (hlt : r.low < r.high) (hle : r.high ≤ 4 * q) (hfuel : 4 * q < (r.high - r.low) * 2 ^ fuel)
    (h : renormEnc (4 * q) middle pos sym fuel r = .ok r') :
    renormCase (4 * q) middle r'.low r'.high = none ∧ r'.low < r'.high ∧ r'.high ≤ 4 * q := by
  induction fuel generalizing r with
  | zero => simp only [pow_zero, mul_one] at hfuel; omega
  | succ n ih =>
    unfold renormEnc at h
    split at h
    · rename_i hn
      cases h
      exact ⟨hn, hlt, hle⟩
    · rename_i k hk
      split at h
      · exact absurd h (by simp)
      · rename_i r1 hr1
        obtain ⟨h1, h2⟩ := renormEncStep_ok hr1
        obtain ⟨hw, hb⟩ := rescale_width hk hlt hle
        refine ih (r := r1) (by omega) (by omega) ?_ h
        have e : r1.high - r1.low = 2 * (r.high - r.low) := by omega
        rw [e]
        calc 4 * q < (r.high - r.low) * 2 ^ (n + 1) := hfuel
          _ = 2 * (r.high - r.low) * 2 ^ n := by rw [pow_succ]; ring

/-- The decoder's loop ends in the case NONE as well (R257, R277). -/
theorem renormDec_exits {src : Nat → Bool} {q fuel : Nat} {r : DecRun}
    (hlt : r.low < r.high) (hle : r.high ≤ 4 * q) (hfuel : 4 * q < (r.high - r.low) * 2 ^ fuel) :
    renormCase (4 * q) true (renormDec src (4 * q) fuel r).low (renormDec src (4 * q) fuel r).high = none ∧
    (renormDec src (4 * q) fuel r).low < (renormDec src (4 * q) fuel r).high ∧
    (renormDec src (4 * q) fuel r).high ≤ 4 * q := by
  induction fuel generalizing r with
  | zero => simp only [pow_zero, mul_one] at hfuel; omega
  | succ n ih =>
    unfold renormDec
    split
    · rename_i hn
      exact ⟨hn, hlt, hle⟩
    · rename_i k hk
      obtain ⟨hw, hb⟩ := rescale_width hk hlt hle
      apply ih
      · show rescale (4 * q) k r.low < rescale (4 * q) k r.high
        omega
      · exact hb
      · show 4 * q < (rescale (4 * q) k r.high - rescale (4 * q) k r.low) * 2 ^ n
        have e : rescale (4 * q) k r.high - rescale (4 * q) k r.low = 2 * (r.high - r.low) := by omega
        rw [e]
        calc 4 * q < (r.high - r.low) * 2 ^ (n + 1) := hfuel
          _ = 2 * (r.high - r.low) * 2 ^ n := by rw [pow_succ]; ring

/-- `Config.renormFuel` is enough in both modes: a non-empty interval has a width of at least one unit. -/
theorem renormFuel_enough (fmt : NumFmt) {low high : Nat} (h : low < high) :
    oneOf fmt < (high - low) * 2 ^ Config.renormFuel := by
  have h1 : oneOf fmt < 2 ^ Config.renormFuel := by
    cases fmt
    · exact Nat.pow_lt_pow_right (by omega) (by decide)
    · exact Nat.pow_lt_pow_right (by omega) (by decide)
  have h2 : 1 ≤ high - low := by omega
  calc oneOf fmt < 1 * 2 ^ Config.renormFuel := by rw [one_mul]; exact h1
    _ ≤ (high - low) * 2 ^ Config.renormFuel := Nat.mul_le_mul_right _ h2

end Sys2Proof.Machine
end

