-- ==== Sys2Proof/Laws/Memory.lean ====
section
/-! SUPPORT. The laws of the stores: a read after a write gives the value written, a write leaves every other place alone,
and every operation keeps the canonical form. -/

namespace Sys2Proof.Machine

section Cells

variable {α : Type}

theorem Cells.find?_put (l : List (Nat × α)) (a b : Nat) (v : α) :
    Cells.find? (Cells.put l a v) b = if b = a then some v else Cells.find? l b := by
  induction l with
  | nil => simp [Cells.put, Cells.find?, eq_comm]
  | cons x t ih =>
    obtain ⟨k, w⟩ := x
    unfold Cells.put
    split
    · by_cases h : b = a
      · simp [Cells.find?, h]
      · simp [Cells.find?, h, Ne.symm h]
    · split
      · rename_i _ h
        subst h
        by_cases h : b = a
        · simp [Cells.find?, h]
        · simp [Cells.find?, h, Ne.symm h]
      · rename_i _ hk
        by_cases h : k = b
        · subst h
          have : k ≠ a := fun e => hk e.symm
          simp [Cells.find?, this]
        · simp [Cells.find?, h, ih]

theorem Cells.mem_put {l : List (Nat × α)} {a : Nat} {v : α} {c : Nat × α} (h : c ∈ Cells.put l a v) :
    c = (a, v) ∨ c ∈ l := by
  induction l with
  | nil => simpa [Cells.put] using h
  | cons x t ih =>
    unfold Cells.put at h
    split at h
    · simpa using h
    · split at h
      · rcases List.mem_cons.1 h with h | h
        · exact .inl h
        · exact .inr (List.mem_cons_of_mem _ h)
      · rcases List.mem_cons.1 h with h | h
        · exact .inr (h ▸ List.mem_cons_self)
        · exact (ih h).imp id (List.mem_cons_of_mem _)

theorem Cells.rising_put {l : List (Nat × α)} (h : Cells.rising l) (a : Nat) (v : α) :
    Cells.rising (Cells.put l a v) := by
  induction l with
  | nil => simp [Cells.put]
  | cons x t ih =>
    obtain ⟨k, w⟩ := x
    obtain ⟨hx, ht⟩ := List.pairwise_cons.1 h
    unfold Cells.put
    split
    · rename_i hlt
      refine List.pairwise_cons.2 ⟨fun c hc => ?_, h⟩
      rcases List.mem_cons.1 hc with rfl | hc
      · exact hlt
      · exact lt_trans hlt (hx c hc)
    · split
      · rename_i _ he
        subst he
        exact List.pairwise_cons.2 ⟨hx, ht⟩
      · refine List.pairwise_cons.2 ⟨fun c hc => ?_, ih ht⟩
        rcases Cells.mem_put hc with rfl | hc
        · show k < a
          omega
        · exact hx c hc

theorem Cells.find?_none_of_lt {l : List (Nat × α)} {a : Nat} (h : ∀ c ∈ l, a < c.1) : Cells.find? l a = none := by
  induction l with
  | nil => rfl
  | cons x t ih =>
    have hx : x.1 ≠ a := by have := h x List.mem_cons_self; omega
    simp only [Cells.find?, hx, if_false]
    exact ih fun c hc => h c (List.mem_cons_of_mem _ hc)

theorem Cells.mem_indexed {xs : List α} {i : Nat} {c : Nat × α} (h : c ∈ Cells.indexed i xs) :
    i ≤ c.1 ∧ c.1 < i + xs.length := by
  induction xs generalizing i with
  | nil => simp [Cells.indexed] at h
  | cons x t ih =>
    rcases List.mem_cons.1 h with rfl | h
    · simp
    · have := ih h
      simp only [List.length_cons]
      omega

theorem Cells.rising_indexed (xs : List α) (i : Nat) : Cells.rising (Cells.indexed i xs) := by
  induction xs generalizing i with
  | nil => exact List.Pairwise.nil
  | cons x t ih =>
    refine List.pairwise_cons.2 ⟨fun c hc => ?_, ih (i + 1)⟩
    have := Cells.mem_indexed hc
    show i < c.1
    omega

theorem Cells.find?_indexed (xs : List α) (i a : Nat) :
    Cells.find? (Cells.indexed i xs) a = if i ≤ a then xs[a - i]? else none := by
  induction xs generalizing i with
  | nil => simp [Cells.indexed, Cells.find?]
  | cons x t ih =>
    by_cases h : i = a
    · subst h
      simp [Cells.indexed, Cells.find?]
    · simp only [Cells.indexed, Cells.find?, h, if_false, ih]
      by_cases hle : i ≤ a
      · have e : a - i = (a - (i + 1)) + 1 := by omega
        have h1 : i + 1 ≤ a := by omega
        simp [hle, h1, e]
      · have h1 : ¬ i + 1 ≤ a := by omega
        simp [hle, h1]

theorem Cells.find?_append (l₁ l₂ : List (Nat × α)) (a : Nat) :
    Cells.find? (l₁ ++ l₂) a = (Cells.find? l₁ a).or (Cells.find? l₂ a) := by
  induction l₁ with
  | nil => simp [Cells.find?]
  | cons x t ih =>
    by_cases h : x.1 = a <;> simp [Cells.find?, h, ih]

theorem Cells.find?_filter_ge (l : List (Nat × α)) (n a : Nat) (h : n ≤ a) :
    Cells.find? (l.filter fun c => decide (n ≤ c.1)) a = Cells.find? l a := by
  induction l with
  | nil => rfl
  | cons x t ih =>
    by_cases hx : n ≤ x.1
    · by_cases ha : x.1 = a
      · simp [Cells.find?, ha, h]
      · simp [Cells.find?, hx, ha, ih]
    · have ha : x.1 ≠ a := by omega
      simp [Cells.find?, hx, ha, ih]

theorem Cells.find?_overwrite (l : List (Nat × α)) (xs : List α) (a : Nat) :
    Cells.find? (Cells.overwrite l xs) a = if a < xs.length then xs[a]? else Cells.find? l a := by
  rw [Cells.overwrite, Cells.find?_append, Cells.find?_indexed]
  by_cases h : a < xs.length
  · simp [h]
  · have hge : xs.length ≤ a := by omega
    simp [h, Cells.find?_filter_ge l xs.length a hge]

theorem Cells.rising_overwrite {l : List (Nat × α)} (h : Cells.rising l) (xs : List α) :
    Cells.rising (Cells.overwrite l xs) := by
  refine List.pairwise_append.2 ⟨Cells.rising_indexed xs 0, h.filter _, fun c hc d hd => ?_⟩
  have hc := Cells.mem_indexed hc
  have hd := (List.mem_filter.1 hd).2
  simp only [decide_eq_true_eq] at hd
  omega

theorem Cells.mem_overwrite {l : List (Nat × α)} {xs : List α} {c : Nat × α} (h : c ∈ Cells.overwrite l xs) :
    c.1 < xs.length ∨ c ∈ l := by
  rcases List.mem_append.1 h with h | h
  · have := Cells.mem_indexed h
    exact .inl (by omega)
  · exact .inr (List.mem_filter.1 h).1

end Cells

/-! ### Byte buffers -/

@[simp] theorem Memory.read_write (m : Memory) (i j : Nat) (b : Byte) :
    (m.write i b).read j = if j = i then b else m.read j := by
  unfold Memory.read Memory.write
  rw [Cells.find?_put]
  by_cases h : j = i <;> simp [h]

theorem Memory.read_writeMany (m : Memory) (i j : Nat) (bs : List Byte) :
    (m.writeMany i bs).read j = if i ≤ j ∧ j < i + bs.length then bs.getD (j - i) 0 else m.read j := by
  induction bs generalizing m i with
  | nil =>
    simp [Memory.writeMany]
  | cons b t ih =>
    rw [Memory.writeMany, ih, Memory.read_write]
    by_cases h : j = i
    · subst h
      simp
    · by_cases h2 : i + 1 ≤ j ∧ j < i + 1 + t.length
      · have h3 : i ≤ j ∧ j < i + (b :: t).length := by simp only [List.length_cons]; omega
        have e : j - i = (j - (i + 1)) + 1 := by omega
        rw [if_pos h2, if_pos h3, e, List.getD_cons_succ]
      · have h3 : ¬ (i ≤ j ∧ j < i + (b :: t).length) := by simp only [List.length_cons]; omega
        rw [if_neg h2, if_neg h3, if_neg h]

theorem Memory.read_overwrite (m : Memory) (bs : List Byte) (i : Nat) :
    (m.overwrite bs).read i = if h : i < bs.length then bs[i] else m.read i := by
  unfold Memory.read Memory.overwrite
  rw [Cells.find?_overwrite]
  by_cases h : i < bs.length <;> simp [h]

theorem Memory.read_scramble (m : Memory) (e w i : Nat) :
    (m.scramble e w).read i = if i < w then Config.freeByte e i else m.read i := by
  unfold Memory.scramble
  rw [Memory.read_overwrite]
  by_cases h : i < w <;> simp [h]

theorem Memory.wf_fresh (e : Nat) : (Memory.fresh e).wf := ⟨List.Pairwise.nil, fun _ h => nomatch h⟩

theorem Memory.wf_write {m : Memory} (h : m.wf) {i : Nat} (hi : i < Config.ibufBytes) (b : Byte) : (m.write i b).wf := by
  refine ⟨Cells.rising_put h.1 i b, fun c hc => ?_⟩
  rcases Cells.mem_put hc with rfl | hc
  · exact hi
  · exact h.2 c hc

theorem Memory.wf_writeMany {m : Memory} (h : m.wf) {i : Nat} {bs : List Byte}
    (hi : i + bs.length ≤ Config.ibufBytes) : (m.writeMany i bs).wf := by
  induction bs generalizing m i with
  | nil => exact h
  | cons b t ih =>
    simp only [List.length_cons] at hi
    exact ih (Memory.wf_write h (by omega) b) (by omega)

theorem Memory.wf_overwrite {m : Memory} (h : m.wf) {bs : List Byte} (hb : bs.length ≤ Config.ibufBytes) :
    (m.overwrite bs).wf := by
  refine ⟨Cells.rising_overwrite h.1 bs, fun c hc => ?_⟩
  rcases Cells.mem_overwrite hc with hc | hc
  · omega
  · exact h.2 c hc

theorem Memory.wf_scramble {m : Memory} (h : m.wf) (e : Nat) {w : Nat} (hw : w ≤ Config.ibufBytes) :
    (m.scramble e w).wf := Memory.wf_overwrite h (by simpa using hw)

/-! ### The node arena -/

@[simp] theorem Arena.read_write (a : Arena) (n k : Nat) (w : Word) :
    (a.write n w).read k = if k = n then w else a.read k := by
  unfold Arena.read Arena.write
  rw [Cells.find?_put]
  by_cases h : k = n <;> simp [h]

theorem Arena.wf_fresh (e : Nat) : (Arena.fresh e).wf := ⟨List.Pairwise.nil, fun _ h => nomatch h⟩

theorem Arena.wf_write {a : Arena} (h : a.wf) {n : Nat} (hn : n < Config.nodeCap) (w : Word) : (a.write n w).wf := by
  refine ⟨Cells.rising_put h.1 n w, fun c hc => ?_⟩
  rcases Cells.mem_put hc with rfl | hc
  · exact hn
  · exact h.2 c hc

/-! ### Tables and counts -/

@[simp] theorem tget_tset {w n : Nat} (t : Vector (BitVec w) n) (i j : Nat) (v : BitVec w) :
    tget (tset t i v) j = if j = i ∧ j < n then v else tget t j := by
  unfold tget tset
  by_cases hi : i < n
  · by_cases hj : j < n
    · by_cases h : j = i
      · subst h
        simp [hj]
      · simp [hi, hj, h, Ne.symm h]
    · simp [hj]
  · by_cases hj : j < n
    · have h : j ≠ i := by omega
      simp [hi, hj, h]
    · simp [hj]

@[simp] theorem tget_tabulate {w n : Nat} (f : Nat → BitVec w) (i : Nat) :
    tget (tabulate n f) i = if i < n then f i else 0 := by
  unfold tget tabulate
  by_cases h : i < n <;> simp [h]

@[simp] theorem tget_replicate {w n : Nat} (v : BitVec w) (i : Nat) :
    tget (Vector.replicate n v) i = if i < n then v else 0 := by
  unfold tget
  by_cases h : i < n <;> simp [h]

@[simp] theorem countOf_nil (k : Nat) : countOf [] k = 0 := rfl

@[simp] theorem countOf_countUp (l : List (Nat × Nat)) (k j : Nat) :
    countOf (countUp l k) j = if j = k then countOf l k + 1 else countOf l j := by
  unfold countUp
  conv_lhs => unfold countOf
  rw [Cells.find?_put]
  by_cases h : j = k <;> simp [h, countOf]

end Sys2Proof.Machine
end

