-- ==== Sys2Proof/Laws/State.lean ====
section
/-! SUPPORT. One lemma per field per named update of the state, so that no proof unfolds a record update. -/

namespace Sys2Proof.Machine

/-! ### `startCommand` -/

section

variable (s : State)

@[simp] theorem startCommand_irqEn : (startCommand s).irqEn = s.irqEn := rfl
@[simp] theorem startCommand_status : (startCommand s).status = s.status := rfl
@[simp] theorem startCommand_cmd : (startCommand s).cmd = s.cmd := rfl
@[simp] theorem startCommand_conf : (startCommand s).conf = s.conf := rfl
@[simp] theorem startCommand_res : (startCommand s).res = { s.res with outLen := 0, outBits := 0, rdBits := 0 } := rfl
@[simp] theorem startCommand_diag : (startCommand s).diag = s.diag := rfl
@[simp] theorem startCommand_probeCum : (startCommand s).probeCum = s.probeCum := rfl
@[simp] theorem startCommand_probeDen : (startCommand s).probeDen = s.probeDen := rfl
@[simp] theorem startCommand_huff : (startCommand s).huff = s.huff := rfl
@[simp] theorem startCommand_inBuf : (startCommand s).inBuf = s.inBuf := rfl
@[simp] theorem startCommand_outBuf : (startCommand s).outBuf = s.outBuf := rfl
@[simp] theorem startCommand_work :
    (startCommand s).work = { s.work with obits := 0, nout := 0, ipos := 0, rpos := 0 } := rfl
@[simp] theorem startCommand_resetIn : (startCommand s).resetIn = s.resetIn := rfl
@[simp] theorem startCommand_port : (startCommand s).port = s.port := rfl
@[simp] theorem startCommand_rdata : (startCommand s).rdata = s.rdata := rfl
@[simp] theorem startCommand_wait : (startCommand s).wait = s.wait := rfl
@[simp] theorem startCommand_free : (startCommand s).free = s.free := rfl

end

/-! ### `completeDone` -/

section

variable (s : State)

@[simp] theorem completeDone_irqEn : (completeDone s).irqEn = s.irqEn := rfl
@[simp] theorem completeDone_status : (completeDone s).status = s.status.complete := rfl
@[simp] theorem completeDone_cmd : (completeDone s).cmd = s.cmd := rfl
@[simp] theorem completeDone_conf : (completeDone s).conf = s.conf := rfl
@[simp] theorem completeDone_res : (completeDone s).res = s.res := rfl
@[simp] theorem completeDone_diag : (completeDone s).diag = s.diag := rfl
@[simp] theorem completeDone_probeCum : (completeDone s).probeCum = s.probeCum := rfl
@[simp] theorem completeDone_probeDen : (completeDone s).probeDen = s.probeDen := rfl
@[simp] theorem completeDone_huff : (completeDone s).huff = s.huff := rfl
@[simp] theorem completeDone_inBuf : (completeDone s).inBuf = s.inBuf := rfl
@[simp] theorem completeDone_outBuf : (completeDone s).outBuf = s.outBuf := rfl
@[simp] theorem completeDone_work : (completeDone s).work = s.work := rfl
@[simp] theorem completeDone_resetIn : (completeDone s).resetIn = s.resetIn := rfl
@[simp] theorem completeDone_port : (completeDone s).port = s.port := rfl
@[simp] theorem completeDone_rdata : (completeDone s).rdata = s.rdata := rfl
@[simp] theorem completeDone_wait : (completeDone s).wait = s.wait := rfl
@[simp] theorem completeDone_free : (completeDone s).free = s.free := rfl

end

/-! ### `acceptCommand` -/

section

variable (w : Word) (s : State)

@[simp] theorem acceptCommand_irqEn : (acceptCommand w s).irqEn = s.irqEn := rfl
@[simp] theorem acceptCommand_status : (acceptCommand w s).status = s.status.accept := rfl
@[simp] theorem acceptCommand_cmd : (acceptCommand w s).cmd = w := rfl
@[simp] theorem acceptCommand_conf : (acceptCommand w s).conf = s.conf := rfl
@[simp] theorem acceptCommand_res : (acceptCommand w s).res = { s.res with errPos := 0, errSym := 0 } := rfl
@[simp] theorem acceptCommand_diag : (acceptCommand w s).diag = s.diag := rfl
@[simp] theorem acceptCommand_probeCum : (acceptCommand w s).probeCum = s.probeCum := rfl
@[simp] theorem acceptCommand_probeDen : (acceptCommand w s).probeDen = s.probeDen := rfl
@[simp] theorem acceptCommand_huff : (acceptCommand w s).huff = s.huff := rfl
@[simp] theorem acceptCommand_inBuf : (acceptCommand w s).inBuf = s.inBuf := rfl
@[simp] theorem acceptCommand_outBuf : (acceptCommand w s).outBuf = s.outBuf := rfl
@[simp] theorem acceptCommand_work : (acceptCommand w s).work = s.work := rfl
@[simp] theorem acceptCommand_resetIn : (acceptCommand w s).resetIn = s.resetIn := rfl
@[simp] theorem acceptCommand_port : (acceptCommand w s).port = s.port := rfl
@[simp] theorem acceptCommand_rdata : (acceptCommand w s).rdata = s.rdata := rfl
@[simp] theorem acceptCommand_wait : (acceptCommand w s).wait = Config.tCmd s.free := rfl
@[simp] theorem acceptCommand_free : (acceptCommand w s).free = s.free + 1 := rfl

end

/-! ### `raiseErr` -/

section

variable (f : Failure) (s : State)

@[simp] theorem raiseErr_irqEn : (raiseErr f s).irqEn = s.irqEn := by
  unfold raiseErr; dsimp only; split <;> rfl
@[simp] theorem raiseErr_status :
    (raiseErr f s).status = if f.tree then { s.status.raise f.code with hvalid := false } else s.status.raise f.code := by
  unfold raiseErr; dsimp only; split <;> rfl
@[simp] theorem raiseErr_cmd : (raiseErr f s).cmd = s.cmd := by
  unfold raiseErr; dsimp only; split <;> rfl
@[simp] theorem raiseErr_conf : (raiseErr f s).conf = s.conf := by
  unfold raiseErr; dsimp only; split <;> rfl
@[simp] theorem raiseErr_res :
    (raiseErr f s).res = { s.res with errPos := BitVec.ofNat 32 f.pos, errSym := BitVec.ofNat 32 f.sym } := by
  unfold raiseErr; dsimp only; split <;> rfl
@[simp] theorem raiseErr_diag : (raiseErr f s).diag = s.diag := by
  unfold raiseErr; dsimp only; split <;> rfl
@[simp] theorem raiseErr_probeCum :
    (raiseErr f s).probeCum = s.probeCum := by
  unfold raiseErr; dsimp only; split <;> rfl
@[simp] theorem raiseErr_probeDen :
    (raiseErr f s).probeDen = s.probeDen := by
  unfold raiseErr; dsimp only; split <;> rfl
@[simp] theorem raiseErr_huff :
    (raiseErr f s).huff = if f.tree then { s.huff with hnodes := 0, hroot := 0, arena := Arena.fresh (s.free + 1) } else s.huff := by
  unfold raiseErr; dsimp only; split <;> rfl
@[simp] theorem raiseErr_inBuf : (raiseErr f s).inBuf = s.inBuf := by
  unfold raiseErr; dsimp only; split <;> rfl
@[simp] theorem raiseErr_outBuf :
    (raiseErr f s).outBuf = s.outBuf.scramble s.free f.wrote := by
  unfold raiseErr; dsimp only; split <;> rfl
@[simp] theorem raiseErr_work : (raiseErr f s).work = Work.reset := by
  unfold raiseErr; dsimp only; split <;> rfl
@[simp] theorem raiseErr_resetIn :
    (raiseErr f s).resetIn = s.resetIn := by
  unfold raiseErr; dsimp only; split <;> rfl
@[simp] theorem raiseErr_port : (raiseErr f s).port = s.port := by
  unfold raiseErr; dsimp only; split <;> rfl
@[simp] theorem raiseErr_rdata : (raiseErr f s).rdata = s.rdata := by
  unfold raiseErr; dsimp only; split <;> rfl
@[simp] theorem raiseErr_wait : (raiseErr f s).wait = s.wait := by
  unfold raiseErr; dsimp only; split <;> rfl
@[simp] theorem raiseErr_free : (raiseErr f s).free = s.free + 2 := by
  unfold raiseErr; dsimp only; split <;> rfl

end

/-! ### `commitBits` -/

section

variable (out : List Bool) (s : State)

@[simp] theorem commitBits_irqEn : (commitBits out s).irqEn = s.irqEn := rfl
@[simp] theorem commitBits_status : (commitBits out s).status = s.status := rfl
@[simp] theorem commitBits_cmd : (commitBits out s).cmd = s.cmd := rfl
@[simp] theorem commitBits_conf : (commitBits out s).conf = s.conf := rfl
@[simp] theorem commitBits_res :
    (commitBits out s).res = { s.res with outBits := BitVec.ofNat 32 out.length, outLen := BitVec.ofNat 32 (packedLen out.length) } := rfl
@[simp] theorem commitBits_diag : (commitBits out s).diag = s.diag := rfl
@[simp] theorem commitBits_probeCum : (commitBits out s).probeCum = s.probeCum := rfl
@[simp] theorem commitBits_probeDen : (commitBits out s).probeDen = s.probeDen := rfl
@[simp] theorem commitBits_huff : (commitBits out s).huff = s.huff := rfl
@[simp] theorem commitBits_inBuf : (commitBits out s).inBuf = s.inBuf := rfl
@[simp] theorem commitBits_outBuf : (commitBits out s).outBuf = s.outBuf.overwrite (packBits out) := rfl
@[simp] theorem commitBits_work : (commitBits out s).work = { s.work with obits := out.length } := rfl
@[simp] theorem commitBits_resetIn : (commitBits out s).resetIn = s.resetIn := rfl
@[simp] theorem commitBits_port : (commitBits out s).port = s.port := rfl
@[simp] theorem commitBits_rdata : (commitBits out s).rdata = s.rdata := rfl
@[simp] theorem commitBits_wait : (commitBits out s).wait = s.wait := rfl
@[simp] theorem commitBits_free : (commitBits out s).free = s.free := rfl

end

/-! ### `commitBytes` -/

section

variable (out : List Byte) (s : State)

@[simp] theorem commitBytes_irqEn : (commitBytes out s).irqEn = s.irqEn := rfl
@[simp] theorem commitBytes_status : (commitBytes out s).status = s.status := rfl
@[simp] theorem commitBytes_cmd : (commitBytes out s).cmd = s.cmd := rfl
@[simp] theorem commitBytes_conf : (commitBytes out s).conf = s.conf := rfl
@[simp] theorem commitBytes_res :
    (commitBytes out s).res = { s.res with outBits := 0, outLen := BitVec.ofNat 32 out.length } := rfl
@[simp] theorem commitBytes_diag : (commitBytes out s).diag = s.diag := rfl
@[simp] theorem commitBytes_probeCum : (commitBytes out s).probeCum = s.probeCum := rfl
@[simp] theorem commitBytes_probeDen : (commitBytes out s).probeDen = s.probeDen := rfl
@[simp] theorem commitBytes_huff : (commitBytes out s).huff = s.huff := rfl
@[simp] theorem commitBytes_inBuf : (commitBytes out s).inBuf = s.inBuf := rfl
@[simp] theorem commitBytes_outBuf : (commitBytes out s).outBuf = s.outBuf.overwrite out := rfl
@[simp] theorem commitBytes_work : (commitBytes out s).work = { s.work with nout := out.length } := rfl
@[simp] theorem commitBytes_resetIn : (commitBytes out s).resetIn = s.resetIn := rfl
@[simp] theorem commitBytes_port : (commitBytes out s).port = s.port := rfl
@[simp] theorem commitBytes_rdata : (commitBytes out s).rdata = s.rdata := rfl
@[simp] theorem commitBytes_wait : (commitBytes out s).wait = s.wait := rfl
@[simp] theorem commitBytes_free : (commitBytes out s).free = s.free := rfl

end

/-! ### `busError` -/

section

variable (s : State)

@[simp] theorem busError_irqEn : (busError s).irqEn = s.irqEn := rfl
@[simp] theorem busError_status : (busError s).status = { s.status with buserr := true } := rfl
@[simp] theorem busError_cmd : (busError s).cmd = s.cmd := rfl
@[simp] theorem busError_conf : (busError s).conf = s.conf := rfl
@[simp] theorem busError_res : (busError s).res = s.res := rfl
@[simp] theorem busError_diag : (busError s).diag = s.diag := rfl
@[simp] theorem busError_probeCum : (busError s).probeCum = s.probeCum := rfl
@[simp] theorem busError_probeDen : (busError s).probeDen = s.probeDen := rfl
@[simp] theorem busError_huff : (busError s).huff = s.huff := rfl
@[simp] theorem busError_inBuf : (busError s).inBuf = s.inBuf := rfl
@[simp] theorem busError_outBuf : (busError s).outBuf = s.outBuf := rfl
@[simp] theorem busError_work : (busError s).work = s.work := rfl
@[simp] theorem busError_resetIn : (busError s).resetIn = s.resetIn := rfl
@[simp] theorem busError_port : (busError s).port = s.port := rfl
@[simp] theorem busError_rdata : (busError s).rdata = s.rdata := rfl
@[simp] theorem busError_wait : (busError s).wait = s.wait := rfl
@[simp] theorem busError_free : (busError s).free = s.free := rfl

end

/-! ### `dropTree` -/

section

variable (s : State)

@[simp] theorem dropTree_irqEn : (dropTree s).irqEn = s.irqEn := rfl
@[simp] theorem dropTree_status : (dropTree s).status = { s.status with hvalid := false } := rfl
@[simp] theorem dropTree_cmd : (dropTree s).cmd = s.cmd := rfl
@[simp] theorem dropTree_conf : (dropTree s).conf = s.conf := rfl
@[simp] theorem dropTree_res : (dropTree s).res = s.res := rfl
@[simp] theorem dropTree_diag : (dropTree s).diag = s.diag := rfl
@[simp] theorem dropTree_probeCum : (dropTree s).probeCum = s.probeCum := rfl
@[simp] theorem dropTree_probeDen : (dropTree s).probeDen = s.probeDen := rfl
@[simp] theorem dropTree_huff : (dropTree s).huff = s.huff := rfl
@[simp] theorem dropTree_inBuf : (dropTree s).inBuf = s.inBuf := rfl
@[simp] theorem dropTree_outBuf : (dropTree s).outBuf = s.outBuf := rfl
@[simp] theorem dropTree_work : (dropTree s).work = s.work := rfl
@[simp] theorem dropTree_resetIn : (dropTree s).resetIn = s.resetIn := rfl
@[simp] theorem dropTree_port : (dropTree s).port = s.port := rfl
@[simp] theorem dropTree_rdata : (dropTree s).rdata = s.rdata := rfl
@[simp] theorem dropTree_wait : (dropTree s).wait = s.wait := rfl
@[simp] theorem dropTree_free : (dropTree s).free = s.free := rfl

end

/-! ### `passSlot` -/

section

variable (s : State)

@[simp] theorem passSlot_irqEn : (passSlot s).irqEn = s.irqEn := rfl
@[simp] theorem passSlot_status : (passSlot s).status = s.status := rfl
@[simp] theorem passSlot_cmd : (passSlot s).cmd = s.cmd := rfl
@[simp] theorem passSlot_conf : (passSlot s).conf = s.conf := rfl
@[simp] theorem passSlot_res : (passSlot s).res = s.res := rfl
@[simp] theorem passSlot_diag : (passSlot s).diag = s.diag := rfl
@[simp] theorem passSlot_probeCum : (passSlot s).probeCum = s.probeCum := rfl
@[simp] theorem passSlot_probeDen : (passSlot s).probeDen = s.probeDen := rfl
@[simp] theorem passSlot_huff : (passSlot s).huff = s.huff := rfl
@[simp] theorem passSlot_inBuf : (passSlot s).inBuf = s.inBuf := rfl
@[simp] theorem passSlot_outBuf : (passSlot s).outBuf = s.outBuf := rfl
@[simp] theorem passSlot_work : (passSlot s).work = s.work := rfl
@[simp] theorem passSlot_resetIn : (passSlot s).resetIn = s.resetIn := rfl
@[simp] theorem passSlot_port : (passSlot s).port = s.port := rfl
@[simp] theorem passSlot_rdata : (passSlot s).rdata = s.rdata := rfl
@[simp] theorem passSlot_wait : (passSlot s).wait = s.wait - 1 := rfl
@[simp] theorem passSlot_free : (passSlot s).free = s.free := rfl

end

/-! ### `writeStatus` -/

section

variable (v : Word) (s : State)

@[simp] theorem writeStatus_irqEn : (writeStatus v s).irqEn = s.irqEn := rfl
@[simp] theorem writeStatus_status : (writeStatus v s).status = s.status.writeOneToClear v := rfl
@[simp] theorem writeStatus_cmd : (writeStatus v s).cmd = s.cmd := rfl
@[simp] theorem writeStatus_conf : (writeStatus v s).conf = s.conf := rfl
@[simp] theorem writeStatus_res : (writeStatus v s).res = s.res := rfl
@[simp] theorem writeStatus_diag : (writeStatus v s).diag = s.diag := rfl
@[simp] theorem writeStatus_probeCum : (writeStatus v s).probeCum = s.probeCum := rfl
@[simp] theorem writeStatus_probeDen : (writeStatus v s).probeDen = s.probeDen := rfl
@[simp] theorem writeStatus_huff : (writeStatus v s).huff = s.huff := rfl
@[simp] theorem writeStatus_inBuf : (writeStatus v s).inBuf = s.inBuf := rfl
@[simp] theorem writeStatus_outBuf : (writeStatus v s).outBuf = s.outBuf := rfl
@[simp] theorem writeStatus_work : (writeStatus v s).work = s.work := rfl
@[simp] theorem writeStatus_resetIn : (writeStatus v s).resetIn = s.resetIn := rfl
@[simp] theorem writeStatus_port : (writeStatus v s).port = s.port := rfl
@[simp] theorem writeStatus_rdata : (writeStatus v s).rdata = s.rdata := rfl
@[simp] theorem writeStatus_wait : (writeStatus v s).wait = s.wait := rfl
@[simp] theorem writeStatus_free : (writeStatus v s).free = s.free := rfl

end

/-! ### `softReset` -/

section

variable (s : State)

@[simp] theorem softReset_irqEn : (softReset s).irqEn = false := rfl
@[simp] theorem softReset_status : (softReset s).status = Status.reset := rfl
@[simp] theorem softReset_cmd : (softReset s).cmd = 0 := rfl
@[simp] theorem softReset_conf : (softReset s).conf = Conf.reset := rfl
@[simp] theorem softReset_res : (softReset s).res = Res.reset := rfl
@[simp] theorem softReset_diag : (softReset s).diag = Diag.reset := rfl
@[simp] theorem softReset_probeCum : (softReset s).probeCum = Vector.replicate 128 0 := rfl
@[simp] theorem softReset_probeDen : (softReset s).probeDen = 0 := rfl
@[simp] theorem softReset_huff :
    (softReset s).huff = Huff.reset (if aborts writesArena s then Arena.fresh (s.free + 1) else s.huff.arena) := rfl
@[simp] theorem softReset_inBuf : (softReset s).inBuf = s.inBuf := rfl
@[simp] theorem softReset_outBuf :
    (softReset s).outBuf = if aborts writesOutBuf s then Memory.fresh s.free else s.outBuf := rfl
@[simp] theorem softReset_work : (softReset s).work = Work.reset := rfl
@[simp] theorem softReset_resetIn : (softReset s).resetIn = s.resetIn := rfl
@[simp] theorem softReset_port : (softReset s).port = s.port := rfl
@[simp] theorem softReset_rdata : (softReset s).rdata = s.rdata := rfl
@[simp] theorem softReset_wait : (softReset s).wait = 0 := rfl
@[simp] theorem softReset_free : (softReset s).free = s.free + 2 := rfl

end

/-! ### `hardReset` -/

section

variable (s : State)

@[simp] theorem hardReset_irqEn : (hardReset s).irqEn = false := rfl
@[simp] theorem hardReset_status : (hardReset s).status = Status.reset := rfl
@[simp] theorem hardReset_cmd : (hardReset s).cmd = 0 := rfl
@[simp] theorem hardReset_conf : (hardReset s).conf = Conf.reset := rfl
@[simp] theorem hardReset_res : (hardReset s).res = Res.reset := rfl
@[simp] theorem hardReset_diag : (hardReset s).diag = Diag.reset := rfl
@[simp] theorem hardReset_probeCum : (hardReset s).probeCum = Vector.replicate 128 0 := rfl
@[simp] theorem hardReset_probeDen : (hardReset s).probeDen = 0 := rfl
@[simp] theorem hardReset_huff : (hardReset s).huff = Huff.reset (Arena.fresh (s.free + 2)) := rfl
@[simp] theorem hardReset_inBuf : (hardReset s).inBuf = Memory.fresh s.free := rfl
@[simp] theorem hardReset_outBuf : (hardReset s).outBuf = Memory.fresh (s.free + 1) := rfl
@[simp] theorem hardReset_work : (hardReset s).work = Work.reset := rfl
@[simp] theorem hardReset_resetIn : (hardReset s).resetIn = s.resetIn := rfl
@[simp] theorem hardReset_port : (hardReset s).port = s.port := rfl
@[simp] theorem hardReset_rdata : (hardReset s).rdata = s.rdata := rfl
@[simp] theorem hardReset_wait : (hardReset s).wait = 0 := rfl
@[simp] theorem hardReset_free : (hardReset s).free = s.free + 3 := rfl

end

/-! ### `outsideRead` -/

section

variable (s : State)

@[simp] theorem outsideRead_irqEn : (outsideRead s).irqEn = s.irqEn := rfl
@[simp] theorem outsideRead_status : (outsideRead s).status = s.status := rfl
@[simp] theorem outsideRead_cmd : (outsideRead s).cmd = s.cmd := rfl
@[simp] theorem outsideRead_conf : (outsideRead s).conf = s.conf := rfl
@[simp] theorem outsideRead_res : (outsideRead s).res = s.res := rfl
@[simp] theorem outsideRead_diag : (outsideRead s).diag = s.diag := rfl
@[simp] theorem outsideRead_probeCum : (outsideRead s).probeCum = s.probeCum := rfl
@[simp] theorem outsideRead_probeDen : (outsideRead s).probeDen = s.probeDen := rfl
@[simp] theorem outsideRead_huff : (outsideRead s).huff = s.huff := rfl
@[simp] theorem outsideRead_inBuf : (outsideRead s).inBuf = s.inBuf := rfl
@[simp] theorem outsideRead_outBuf : (outsideRead s).outBuf = s.outBuf := rfl
@[simp] theorem outsideRead_work : (outsideRead s).work = s.work := rfl
@[simp] theorem outsideRead_resetIn : (outsideRead s).resetIn = s.resetIn := rfl
@[simp] theorem outsideRead_port : (outsideRead s).port = s.port := rfl
@[simp] theorem outsideRead_rdata : (outsideRead s).rdata = Config.freeWord s.free := rfl
@[simp] theorem outsideRead_wait : (outsideRead s).wait = s.wait := rfl
@[simp] theorem outsideRead_free : (outsideRead s).free = s.free + 1 := rfl

end

/-! ### `Status.accept` -/

section

variable (st : Status)

@[simp] theorem Status.accept_busy : (st.accept).busy = true := rfl
@[simp] theorem Status.accept_done : (st.accept).done = false := rfl
@[simp] theorem Status.accept_err : (st.accept).err = false := rfl
@[simp] theorem Status.accept_wbusy : (st.accept).wbusy = st.wbusy := rfl
@[simp] theorem Status.accept_buserr : (st.accept).buserr = st.buserr := rfl
@[simp] theorem Status.accept_hvalid : (st.accept).hvalid = st.hvalid := rfl
@[simp] theorem Status.accept_errcode : (st.accept).errcode = 0 := rfl

end

/-! ### `Status.complete` -/

section

variable (st : Status)

@[simp] theorem Status.complete_busy : (st.complete).busy = false := rfl
@[simp] theorem Status.complete_done : (st.complete).done = true := rfl
@[simp] theorem Status.complete_err : (st.complete).err = st.err := rfl
@[simp] theorem Status.complete_wbusy : (st.complete).wbusy = st.wbusy := rfl
@[simp] theorem Status.complete_buserr : (st.complete).buserr = st.buserr := rfl
@[simp] theorem Status.complete_hvalid : (st.complete).hvalid = st.hvalid := rfl
@[simp] theorem Status.complete_errcode : (st.complete).errcode = 0 := rfl

end

/-! ### `Status.raise` -/

section

variable (st : Status) (c : ErrCode)

@[simp] theorem Status.raise_busy : (st.raise c).busy = false := rfl
@[simp] theorem Status.raise_done : (st.raise c).done = st.done := rfl
@[simp] theorem Status.raise_err : (st.raise c).err = true := rfl
@[simp] theorem Status.raise_wbusy : (st.raise c).wbusy = st.wbusy := rfl
@[simp] theorem Status.raise_buserr : (st.raise c).buserr = st.buserr := rfl
@[simp] theorem Status.raise_hvalid : (st.raise c).hvalid = st.hvalid := rfl
@[simp] theorem Status.raise_errcode : (st.raise c).errcode = c.toByte := rfl

end

/-! ### `Status.writeOneToClear` -/

section

variable (st : Status) (v : Word)

@[simp] theorem Status.writeOneToClear_busy : (st.writeOneToClear v).busy = st.busy := rfl
@[simp] theorem Status.writeOneToClear_done : (st.writeOneToClear v).done = (st.done && !v.getLsbD 1) := rfl
@[simp] theorem Status.writeOneToClear_err : (st.writeOneToClear v).err = (st.err && !v.getLsbD 2) := rfl
@[simp] theorem Status.writeOneToClear_wbusy : (st.writeOneToClear v).wbusy = (st.wbusy && !v.getLsbD 3) := rfl
@[simp] theorem Status.writeOneToClear_buserr : (st.writeOneToClear v).buserr = (st.buserr && !v.getLsbD 4) := rfl
@[simp] theorem Status.writeOneToClear_hvalid : (st.writeOneToClear v).hvalid = st.hvalid := rfl
@[simp] theorem Status.writeOneToClear_errcode : (st.writeOneToClear v).errcode = st.errcode := rfl

end

end Sys2Proof.Machine
end

