-- ==== Sys2Proof/Laws/Operands.lean ====
section
/-! SUPPORT. The laws of the operand and output forms: packed bits (R103), `OutBit` (R381), node words (R55). -/

namespace Sys2Proof.Machine

/-! ### Packed bits -/

theorem bitsValue_lt (bits : List Bool) (k w : Nat) : bitsValue bits k w < 2 ^ w := by
  induction w with
  | zero => simp [bitsValue]
  | succ n ih =>
    have : (bits.getD (k + n) false).toNat ≤ 1 := Bool.toNat_le _
    rw [bitsValue, pow_succ]
    omega

/-- Bit `q`, counted from the least significant, of the value of `w` bits is the bit at position `w - 1 - q`. -/
theorem bitsValue_testBit (bits : List Bool) (k w q : Nat) (h : q < w) :
    (bitsValue bits k w).testBit q = bits.getD (k + (w - 1 - q)) false := by
  induction w generalizing q with
  | zero => omega
  | succ n ih =>
    rw [bitsValue]
    cases q with
    | zero =>
      rw [Nat.testBit_zero]
      have : n + 1 - 1 - 0 = n := by omega
      rw [this]
      cases bits.getD (k + n) false <;> simp [Nat.add_mod]
    | succ p =>
      rw [Nat.testBit_succ]
      have hb : (bits.getD (k + n) false).toNat ≤ 1 := Bool.toNat_le _
      have e : (2 * bitsValue bits k n + (bits.getD (k + n) false).toNat) / 2 = bitsValue bits k n := by omega
      have e2 : n + 1 - 1 - (p + 1) = n - 1 - p := by omega
      rw [e, e2, ih p (by omega)]

/-- Bit `q` of unit `j`, counted from the most significant, is bit `w·j + q` of the string, or 0 past its end (R53,
R103). -/
theorem packUnit_getMsbD (w : Nat) (bits : List Bool) (j q : Nat) (h : q < w) :
    (packUnit w bits j).getMsbD q = bits.getD (w * j + q) false := by
  have h1 : w - 1 - q < w := by omega
  have h2 : w - 1 - (w - 1 - q) = q := by omega
  rw [packUnit, BitVec.getMsbD_eq_getLsbD, BitVec.getLsbD_ofNat, bitsValue_testBit _ _ _ _ h1, h2]
  simp [h, h1]

@[simp] theorem packBits_length (bits : List Bool) : (packBits bits).length = packedLen bits.length := by
  simp [packBits]

theorem packBits_getElem (bits : List Bool) (j : Nat) (h : j < (packBits bits).length) :
    (packBits bits)[j] = packUnit 8 bits j := by
  simp [packBits]

/-- After the writes of R381 bit `i` of the stream stands at bit `7 − (i mod 8)` of byte `i / 8` (R103), and the pad bits
are 0. -/
theorem read_packBits (m : Memory) (bits : List Bool) (i : Nat) (h : i < 8 * packedLen bits.length) :
    ((m.overwrite (packBits bits)).read (i / 8)).getMsbD (i % 8) = bits.getD i false := by
  have h1 : i / 8 < (packBits bits).length := by rw [packBits_length]; omega
  rw [Memory.read_overwrite, dif_pos h1, packBits_getElem, packUnit_getMsbD _ _ _ _ (Nat.mod_lt _ (by omega)),
    Nat.div_add_mod]

/-! ### `OutBit` -/

/-- `OutBit` of several bits in turn: all of them are appended if they fit, and otherwise `E_OUT_OVF` is raised with a full
`OUT_BUF` (R381). -/
theorem outBits_eq (pos sym : Nat) (out bs : List Bool) (h : out.length ≤ 8 * Config.obufBytes) :
    outBits pos sym out bs =
      if out.length + bs.length ≤ 8 * Config.obufBytes then .ok (out ++ bs)
      else .error { code := .outOvf, pos := pos, sym := sym, wrote := Config.obufBytes } := by
  induction bs generalizing out with
  | nil => simp [outBits, h]
  | cons b t ih =>
    unfold outBits outBit
    by_cases hf : out.length = 8 * Config.obufBytes
    · have hn : ¬ out.length + (b :: t).length ≤ 8 * Config.obufBytes := by simp only [List.length_cons]; omega
      rw [if_neg hn]
      simp [hf, packedLen, Config.obufBytes]
    · have hl : (out ++ [b]).length ≤ 8 * Config.obufBytes := by
        simp only [List.length_append, List.length_singleton]; omega
      simp only [hf, if_false]
      rw [ih _ hl]
      simp only [List.length_append, List.length_cons, List.length_nil, List.append_assoc, List.singleton_append]
      have e : out.length + (0 + 1) + t.length = out.length + (t.length + 1) := by omega
      rw [e]

theorem outBit_eq (pos sym : Nat) (out : List Bool) (b : Bool) (h : out.length < 8 * Config.obufBytes) :
    outBit pos sym out b = .ok (out ++ [b]) := by
  have : out.length ≠ 8 * Config.obufBytes := by omega
  simp [outBit, this]

/-! ### Node words (R55) -/

theorem nodeIsLeaf_leafWord (sym : Nat) : nodeIsLeaf (leafWord sym) = true := by
  unfold nodeIsLeaf leafWord
  rw [BitVec.getLsbD_append, BitVec.getLsbD_append]
  rfl

theorem nodeSym_leafWord (sym : Nat) (h : sym < 256) : nodeSym (leafWord sym) = sym := by
  unfold nodeSym leafWord
  rw [BitVec.setWidth_append]
  simp [Nat.mod_eq_of_lt h]

theorem nodeIsLeaf_internalWord (l r : BitVec 15) : nodeIsLeaf (internalWord l r) = false := by
  unfold nodeIsLeaf internalWord
  rw [BitVec.getLsbD_append, BitVec.getLsbD_append]
  rfl

theorem internalWord_getLsbD (l r : BitVec 15) (i : Nat) :
    (internalWord l r).getLsbD i =
      if i < 15 then r.getLsbD i else if i - 15 < 15 then l.getLsbD (i - 15) else (0#2).getLsbD (i - 15 - 15) := by
  unfold internalWord
  rw [BitVec.getLsbD_append, BitVec.getLsbD_append]

theorem nodeChild_internalWord (l r : BitVec 15) (b : Bool) :
    nodeChild (internalWord l r) b = if b then r else l := by
  apply BitVec.eq_of_getLsbD_eq
  intro i hi
  cases b
  · have h1 : ¬ (15 + i < 15) := by omega
    have h2 : 15 + i - 15 = i := by omega
    simp only [nodeChild, Bool.false_eq_true, if_false, BitVec.getLsbD_extractLsb', internalWord_getLsbD, h1, h2]
    simp [hi]
  · simp only [nodeChild, if_true, BitVec.getLsbD_extractLsb', internalWord_getLsbD, Nat.zero_add]
    simp [hi]

theorem nodeChild_setChild (w : Word) (b c : Bool) (n : BitVec 15) :
    nodeChild (setChild w b n) c = if c = b then n else nodeChild w c := by
  cases b <;> cases c <;> simp [setChild, nodeChild_internalWord]

theorem nodeIsLeaf_setChild (w : Word) (b : Bool) (n : BitVec 15) : nodeIsLeaf (setChild w b n) = false := by
  cases b <;> simp [setChild, nodeIsLeaf_internalWord]

end Sys2Proof.Machine
end

