-- ==== Sys2Proof/Laws/Ops.lean ====
section
/-! SUPPORT. What a command and a step can do, said once: every command answers a next state; it completes with what its body
left, or raises from the state after its prologue; a step is the completion of a command or one service slot of the port. -/

namespace Sys2Proof.Machine

/-- The body of a command, from the state after the writes of the prologue; `NOP` has no prologue and is not here. -/
def bodyOf : Instr → State → Except Failure State
  | .nop, s => .ok s
  | .aencFix, s => encodeBody .fix s
  | .aencDir, s => encodeBody .dir s
  | .aencBig, s => encodeBody .big s
  | .adecFix, s => decodeBody .fix s
  | .adecDir, s => decodeBody .dir s
  | .adecBig, s => decodeBody .big s
  | .mprobeFix, s => probeBody .fix s
  | .mprobeDir, s => probeBody .dir s
  | .mprobeBig, s => probeBody .big s
  | .hcount, s => countBody s
  | .hbuild, s => .ok (buildBody s)
  | .hload, s => loadBody s
  | .henc, s => huffEncodeBody s
  | .hdec, s => huffDecodeBody s
  | .pack, s => packBody s
  | .unpack, s => unpackBody s

/-- The state a command's body starts from: `NOP` skips the prologue (R380). -/
def entryOf : Instr → State → State
  | .nop, s => s
  | .aencFix, s | .aencDir, s | .aencBig, s | .adecFix, s | .adecDir, s | .adecBig, s | .mprobeFix, s | .mprobeDir, s
  | .mprobeBig, s | .hcount, s | .hbuild, s | .hload, s | .henc, s | .hdec, s | .pack, s | .unpack, s => startCommand s

/-- Every command is its body, settled (R400). -/
theorem exec_eq_settle (i : Instr) (s : State) : exec i s = settle (entryOf i s) (bodyOf i (entryOf i s)) := by
  cases i <;> rfl

@[simp] theorem settle_ok (s b : State) : settle s (.ok b) = .next (completeDone b) := rfl

@[simp] theorem settle_error (s : State) (f : Failure) : settle s (.error f) = .next (raiseErr f s) := rfl

theorem exec_of_body_ok {i : Instr} {s b : State} (h : bodyOf i (entryOf i s) = .ok b) :
    exec i s = .next (completeDone b) := by
  rw [exec_eq_settle, h, settle_ok]

theorem exec_of_body_error {i : Instr} {s : State} {f : Failure} (h : bodyOf i (entryOf i s) = .error f) :
    exec i s = .next (raiseErr f (entryOf i s)) := by
  rw [exec_eq_settle, h, settle_error]

/-- The two ends of a command (R400): it completes (R405) or it raises (R404). -/
theorem exec_cases {i : Instr} {s t : State} (h : exec i s = .next t) :
    (∃ b, bodyOf i (entryOf i s) = .ok b ∧ t = completeDone b) ∨
    (∃ f, bodyOf i (entryOf i s) = .error f ∧ t = raiseErr f (entryOf i s)) := by
  cases hb : bodyOf i (entryOf i s) with
  | ok b =>
    rw [exec_of_body_ok hb] at h
    exact .inl ⟨b, rfl, (Host.Outcome.next.inj h).symm⟩
  | error f =>
    rw [exec_of_body_error hb] at h
    exact .inr ⟨f, rfl, (Host.Outcome.next.inj h).symm⟩

/-- No command stops the machine. -/
theorem exec_next (i : Instr) (s : State) : ∃ t, exec i s = .next t := by
  rw [exec_eq_settle]
  exact ⟨_, rfl⟩

/-! ### The checks of the prologue (R380) -/

theorem checkInLen_ok {s : State} (h : inLen s ≤ Config.ibufBytes) : checkInLen s = .ok () := by
  have : ¬ Config.ibufBytes < s.conf.inLen.toNat := by unfold inLen at h; omega
  simp [checkInLen, this]

theorem checkInLen_error {s : State} (h : Config.ibufBytes < inLen s) :
    checkInLen s = .error { code := .cfgLen, pos := 0, sym := inLen s } := by
  unfold inLen at h
  simp [checkInLen, h, inLen]

theorem checkTree_ok {s : State} (h : s.status.hvalid = true) : checkTree s = .ok () := by simp [checkTree, h]

theorem checkTree_error {s : State} (h : s.status.hvalid = false) :
    checkTree s = .error { code := .noTree, pos := 0, sym := 0 } := by simp [checkTree, h]

/-! ### Steps -/

/-- What a step can do: run the due command, report an illegal word, wait, or serve the next arrival. -/
theorem step_cases {s t : State} (h : step s = .next t) :
    (∃ i, s.status.busy = true ∧ s.wait = 0 ∧ decode s.cmd = .ok i ∧ exec i s = .next t) ∨
    (∃ e, s.status.busy = true ∧ s.wait = 0 ∧ decode s.cmd = .error e ∧ t = illegalCommand s) ∨
    ((s.status.busy = false ∨ s.wait ≠ 0) ∧ s.port = [] ∧ t = passSlot s) ∨
    (∃ e rest, (s.status.busy = false ∨ s.wait ≠ 0) ∧ s.port = e :: rest ∧
      t = serve e { passSlot s with port := rest }) := by
  unfold step dueCommand at h
  by_cases hd : (s.status.busy && s.wait == 0) = true
  · rw [if_pos hd] at h
    simp only [Bool.and_eq_true, beq_iff_eq] at hd
    dsimp only at h
    split at h
    · rename_i i hi
      exact .inl ⟨i, hd.1, hd.2, hi, h⟩
    · rename_i e he
      exact .inr (.inl ⟨e, hd.1, hd.2, he, (Host.Outcome.next.inj h).symm⟩)
  · rw [if_neg hd] at h
    have hw : s.status.busy = false ∨ s.wait ≠ 0 := by
      by_cases hb : s.status.busy = true
      · right
        intro h0
        exact hd (by simp [hb, h0])
      · left
        simpa using hb
    have h := (Host.Outcome.next.inj h).symm
    unfold servePort at h
    split at h
    · rename_i hp
      exact .inr (.inr (.inl ⟨hw, hp, h⟩))
    · rename_i e rest hp
      exact .inr (.inr (.inr ⟨e, rest, hw, hp, h⟩))

/-- A step with a due command that decodes runs it. -/
theorem step_of_due {s : State} {i : Instr} (hb : s.status.busy = true) (hw : s.wait = 0)
    (hi : decode s.cmd = .ok i) : step s = exec i s := by
  simp [step, dueCommand, hb, hw, hi]

/-- A step with no due command serves the port. -/
theorem step_of_not_due {s : State} (h : s.status.busy = false ∨ s.wait ≠ 0) : step s = .next (servePort s) := by
  have hd : ¬ (s.status.busy && s.wait == 0) = true := by
    rcases h with h | h <;> simp [h]
  rw [step, dueCommand, if_neg hd]

/-- No step stops the machine. -/
theorem step_next (s : State) : ∃ t, step s = .next t := by
  unfold step
  split
  · split
    · exact exec_next _ _
    · exact ⟨_, rfl⟩
  · exact ⟨_, rfl⟩

/-- What an arrival can do: an access that reaches the block, an access outside the aperture (R109), a change of the reset
input. -/
theorem serve_cases (e : PortEvent) (s : State) :
    (∃ a n, e = .read a n ∧ a < Config.apertureBytes ∧ serve e s = portRead a n s) ∨
    (∃ a n v, e = .write a n v ∧ a < Config.apertureBytes ∧ serve e s = portWrite a n v s) ∨
    (∃ a n, e = .read a n ∧ Config.apertureBytes ≤ a ∧ serve e s = outsideRead s) ∨
    (∃ a n v, e = .write a n v ∧ Config.apertureBytes ≤ a ∧ serve e s = s) ∨
    (∃ level, e = .resetInput level ∧ serve e s = setResetInput level s) := by
  cases e with
  | read a n =>
    rcases Nat.lt_or_ge a Config.apertureBytes with h | h
    · exact .inl ⟨a, n, rfl, h, if_pos h⟩
    · exact .inr (.inr (.inl ⟨a, n, rfl, h, if_neg (by omega)⟩))
  | write a n v =>
    rcases Nat.lt_or_ge a Config.apertureBytes with h | h
    · exact .inr (.inl ⟨a, n, v, rfl, h, if_pos h⟩)
    · exact .inr (.inr (.inr (.inl ⟨a, n, v, rfl, h, if_neg (by omega)⟩)))
  | resetInput level => exact .inr (.inr (.inr (.inr ⟨level, rfl, rfl⟩)))

/-- What a host write can do (R107). -/
theorem memWrite_cases (a n : Nat) (v : Word) (s : State) :
    memWrite a n v s = busError s ∨ memWrite a n v s = s ∨ memWrite a n v s = writeCtrl v s ∨
    memWrite a n v s = writeStatus v s ∨ memWrite a n v s = writeIdle (locate a) n v s := by
  unfold memWrite
  split
  · split
    · exact .inr (.inl rfl)
    · exact .inr (.inr (.inl rfl))
    · exact .inr (.inr (.inr (.inl rfl)))
    · exact .inr (.inr (.inr (.inr rfl)))
  · exact .inl rfl

end Sys2Proof.Machine
end

