-- ==== Sys2Proof/Laws/PerInstr.lean ====
section
/-! SUPPORT. Facts about commands as syntax, one lemma per constructor. -/

/-- R156, R157: the word of the command is legal, the decoder reads the command back from it, and its fields are the
opcode and the model of the command. -/
def Sys2Proof.Laws.EncodedWord.Statement (i : Sys2Proof.Instr) : Prop :=
  (Sys2Proof.CmdWord.ofWord (Sys2Proof.encode i)).wellFormed = true ∧
  Sys2Proof.CmdWord.ofWord (Sys2Proof.encode i) =
    { opcode := i.opcode, model := i.model, rsv := 0 } ∧
  (match Sys2Proof.decode (Sys2Proof.encode i) with
    | .ok j => j = i
    | .error _ => False)

namespace Sys2Proof.Laws.EncodedWord

theorem nop : Statement .nop := ⟨rfl, rfl, rfl⟩
theorem aencFix : Statement .aencFix := ⟨rfl, rfl, rfl⟩
theorem aencDir : Statement .aencDir := ⟨rfl, rfl, rfl⟩
theorem aencBig : Statement .aencBig := ⟨rfl, rfl, rfl⟩
theorem adecFix : Statement .adecFix := ⟨rfl, rfl, rfl⟩
theorem adecDir : Statement .adecDir := ⟨rfl, rfl, rfl⟩
theorem adecBig : Statement .adecBig := ⟨rfl, rfl, rfl⟩
theorem mprobeFix : Statement .mprobeFix := ⟨rfl, rfl, rfl⟩
theorem mprobeDir : Statement .mprobeDir := ⟨rfl, rfl, rfl⟩
theorem mprobeBig : Statement .mprobeBig := ⟨rfl, rfl, rfl⟩
theorem hcount : Statement .hcount := ⟨rfl, rfl, rfl⟩
theorem hbuild : Statement .hbuild := ⟨rfl, rfl, rfl⟩
theorem hload : Statement .hload := ⟨rfl, rfl, rfl⟩
theorem henc : Statement .henc := ⟨rfl, rfl, rfl⟩
theorem hdec : Statement .hdec := ⟨rfl, rfl, rfl⟩
theorem pack : Statement .pack := ⟨rfl, rfl, rfl⟩
theorem unpack : Statement .unpack := ⟨rfl, rfl, rfl⟩

end Sys2Proof.Laws.EncodedWord
end

