-- ==== Sys2Proof/Tests/Slice0.lean ====
section
/-! SUPPORT. Tests of single steps, and one witness per hypothesis of the statements. Every expected value of a test comes
from the spec: the row of 95_test_vectors.md, or the rule, that its docstring names. -/

namespace Sys2Proof.Tests

set_option Elab.async false

open Sys2Proof Sys2Proof.Machine

/-! ### Small states -/

/-- A buffer that begins with these bytes. -/
def buf (bs : List Byte) : Memory := { cells := Cells.indexed 0 bs, epoch := 0 }

/-- The reset state with these bytes as input. -/
def withInput (bs : List Byte) : State :=
  { State.reset with conf := { Conf.reset with inLen := BitVec.ofNat 17 bs.length }, inBuf := buf bs }

/-- The reset state with another `IN_LEN`. -/
def withLength (n : BitVec 17) : State := { State.reset with conf := { Conf.reset with inLen := n } }

/-- A state configured for the coder. -/
def coder (fmt : NumFmt) (nsym : BitVec 8) (alpha : BitVec 16) (den : BitVec 31) (cum : List (BitVec 31))
    (bs : List Byte) : State :=
  { withInput bs with
    conf := { inLen := BitVec.ofNat 17 bs.length, numFmt := fmt, nsym := nsym, alpha := alpha, fixDen := den,
              fixCum := tabulate 128 fun c => cum.getD c 0 } }

/-- The source's model of §8: `NSYM = 3`, `FIX_DEN = 10`, `FIX_CUM = 3, 7, 9`. -/
def source8 (fmt : NumFmt) (bs : List Byte) : State := coder fmt 3 0x100 10 [3, 7, 9] bs

/-- The state after one step, when there is one. -/
def after (o : Host.Outcome State Fault Refusal) : State :=
  match o with
  | .next t => t
  | .fault _ => State.reset
  | .refused _ => State.reset

/-- One step that runs a command, from its acceptance with its completion due. -/
def runCommand (i : Instr) (s : State) : State := after (step (s.withFetchWord 32 (encode i).toNat))

/-- The output bytes. -/
def outBytes (t : State) : List Byte := (List.range t.res.outLen.toNat).map t.outBuf.read

/-- The bytes of an ASCII string. -/
def ascii (s : String) : List Byte := s.toList.map fun c => BitVec.ofNat 8 c.toNat

theorem exec_after (i : Instr) (s : State) : exec i s = .next (after (exec i s)) := by
  obtain ⟨t, h⟩ := exec_next i s
  rw [h]
  rfl

/-! ### Decoding: words written out bit by bit from R150 to R153, one per family -/

theorem test_decode_nop : decode 0b00000000000000000000000000000000#32 = .ok .nop := by rfl
theorem test_decode_aenc : decode 0b00000000000000000000000100000001#32 = .ok .aencDir := by rfl
theorem test_decode_adec : decode 0b00000000000000000000001000000010#32 = .ok .adecBig := by rfl
theorem test_decode_mprobe : decode 0b00000000000000000000000100000011#32 = .ok .mprobeDir := by rfl
theorem test_decode_hcount : decode 0b00000000000000000000000000010000#32 = .ok .hcount := by rfl
theorem test_decode_hbuild : decode 0b00000000000000000000000000010001#32 = .ok .hbuild := by rfl
theorem test_decode_henc : decode 0b00000000000000000000000000010011#32 = .ok .henc := by rfl
theorem test_decode_hdec : decode 0b00000000000000000000000000010100#32 = .ok .hdec := by rfl
theorem test_decode_pack : decode 0b00000000000000000000000000100000#32 = .ok .pack := by rfl

/-- Every row of the opcode table (R157), through the host's entry. -/
theorem test_decode_table :
    [0x000, 0x001, 0x101, 0x201, 0x002, 0x102, 0x202, 0x003, 0x103, 0x203, 0x010, 0x011, 0x012, 0x013, 0x014, 0x020,
      0x021].map (decodeTableWord 32) =
    [some .nop, some .aencFix, some .aencDir, some .aencBig, some .adecFix, some .adecDir, some .adecBig,
      some .mprobeFix, some .mprobeDir, some .mprobeBig, some .hcount, some .hbuild, some .hload, some .henc,
      some .hdec, some .pack, some .unpack] := by rfl

/-- C-1 to C-5: the words the decoder refuses, each under its own name. -/
theorem test_decode_refuses :
    decode 0x00000004 = .error .unknownOpcode ∧ decode 0x00000301 = .error .reservedModel ∧
    decode 0x00000110 = .error .modelNotAllowed ∧ decode 0x00000800 = .error .reservedBits ∧
    decode 0x00000022 = .error .unknownOpcode := by refine ⟨?_, ?_, ?_, ?_, ?_⟩ <;> rfl

/-! ### Well-formedness: one ill-formed term for each check (R156) -/

theorem test_wf_reserved : CmdWord.wellFormed { opcode := 0x01, model := 0, rsv := 1 } = false := by decide
theorem test_wf_opcode : CmdWord.wellFormed { opcode := 0x15, model := 0, rsv := 0 } = false := by decide
theorem test_wf_model_range : CmdWord.wellFormed { opcode := 0x02, model := 3, rsv := 0 } = false := by decide
theorem test_wf_model_absent : CmdWord.wellFormed { opcode := 0x20, model := 1, rsv := 0 } = false := by decide
theorem test_wf_accepts : CmdWord.wellFormed { opcode := 0x03, model := 2, rsv := 0 } = true := by decide

/-! ### One step per command -/

/-- P-10. -/
theorem test_nop : (runCommand .nop State.reset).status.word = 0x00000002 := by decide +kernel

/-- C-1. -/
theorem test_illegal :
    (after (step (State.reset.withFetchWord 32 4))).status.word = 0x00010004 ∧
    (after (step (State.reset.withFetchWord 32 4))).res.errSym = 4 := by decide +kernel

/-- E4, `FIXED`, with its final interval. Then, by hand from R252 to R262, a bit that stays deferred: the symbol `[17/64, 33/64)`
takes the middle case once, to `[2/64, 34/64)`, and the sentinel's `[37/128, 34/64)` straddles `HALF`. -/
theorem test_aencFix_fixed :
    (let t := runCommand .aencFix (source8 .fixed [2, 2, 1, 0]);
      outBytes t = [0xDB, 0x40] ∧ t.res.outBits = 10 ∧ t.diag.lowL = 0x6F933480 ∧ t.diag.highL = 0xAE7D5520 ∧
        t.diag.pend = 0) ∧
    (let t := runCommand .aencFix (coder .fixed 2 0 64 [17, 33] [1]);
      outBytes t = [0x80] ∧ t.res.outBits = 1 ∧ t.diag.lowL = 0x4A000000 ∧ t.diag.highL = 0x88000000 ∧
        t.diag.pend = 1) := by
  decide +kernel

/-- E5, `FP64`, with its final interval: long runs of the middle case. -/
theorem test_aencFix_fp64 :
    let t := runCommand .aencFix (source8 .fp64 [1, 1, 1, 1, 1, 1, 1, 1])
    outBytes t = [0x80, 0x14] ∧ t.res.outBits = 14 ∧ t.diag.lowH = 0x3FC2E0BE ∧ t.diag.lowL = 0x826D4640 ∧
      t.diag.highH = 0x3FE5E63B ∧ t.diag.highL = 0x88C22820 := by decide +kernel

/-- E11. -/
theorem test_aencDir :
    let t := runCommand .aencDir (coder .fp64 3 0x100 0 [] [0, 0, 0, 1])
    outBytes t = [0x09] ∧ t.res.outBits = 8 := by decide +kernel

/-- E9: `FP64`. -/
theorem test_aencBig_fp64 :
    let t := runCommand .aencBig (coder .fp64 128 0x100 0 [] (ascii "abab"))
    outBytes t = [0xC2, 0x03, 0xF0, 0x46, 0x40] ∧ t.res.outBits = 34 := by decide +kernel

/-- E10: `FIXED`, where the modes differ. -/
theorem test_aencBig_fixed :
    let t := runCommand .aencBig (coder .fixed 128 0x100 0 [] (ascii "abab"))
    outBytes t = [0xC2, 0x03, 0xF0, 0x46] ∧ t.res.outBits = 31 := by decide +kernel

/-- D3, `FIXED`, with its final registers. -/
theorem test_adecFix :
    let t := runCommand .adecFix (source8 .fixed [0x34])
    outBytes t = [0, 1] ∧ t.res.rdBits = 18 ∧ t.diag.lowL = 0x5C28F5C0 ∧ t.diag.highL = 0xD70A3D6E ∧ t.diag.k = 16 ∧
      tget t.diag.enc 5 = 0xD0000000 := by decide +kernel

/-- DC5: one symbol needs more than `KMAX` bits of lookahead. -/
theorem test_adecFix_stream :
    let t := runCommand .adecFix (source8 .fixed ([0x4C, 0xCC, 0xCC, 0xCB] ++ List.replicate 20 0xFF))
    t.status.word = 0x00200004 ∧ t.res.errPos = 192 ∧ t.res.errSym = 0 := by decide +kernel

/-- D11. -/
theorem test_adecDir :
    let t := runCommand .adecDir (coder .fp64 3 0x100 0 [] [0x09])
    outBytes t = [0, 0, 0, 1] ∧ t.res.rdBits = 22 := by decide +kernel

/-- D12. -/
theorem test_adecBig :
    let t := runCommand .adecBig (coder .fixed 3 0x100 0 [] [0x12, 0x40])
    outBytes t = [0, 1, 0, 1] ∧ t.res.rdBits = 22 := by decide +kernel

/-- M7. -/
theorem test_mprobeFix :
    let t := runCommand .mprobeFix (source8 .fp64 [2, 0])
    (List.range 4).map (tget t.probeCum) = [3, 7, 9, 0] ∧ t.probeDen = 10 := by decide +kernel

/-- M1. -/
theorem test_mprobeDir :
    let t := runCommand .mprobeDir (coder .fp64 3 0x100 0 [] [0, 0, 1])
    (List.range 4).map (tget t.probeCum) = [768, 1280, 1536, 0] ∧ t.probeDen = 1792 := by decide +kernel

/-- M8. -/
theorem test_mprobeDir_range :
    let t := runCommand .mprobeDir (coder .fp64 3 0x100 0 [] [1, 3])
    t.status.word = 0x00100004 ∧ t.res.errPos = 1 ∧ t.res.errSym = 3 := by decide +kernel

/-- M3. -/
theorem test_mprobeBig :
    let t := runCommand .mprobeBig (coder .fp64 3 0x100 0 [] [0, 1, 0])
    (List.range 4).map (tget t.probeCum) = [256, 768, 1024, 0] ∧ t.probeDen = 1280 := by decide +kernel

/-- H1: the frequencies of `"ACBACCBC"`. -/
theorem test_hcount :
    let t := runCommand .hcount (withInput (ascii "ACBACCBC"))
    [0x40, 0x41, 0x42, 0x43, 128].map (freqOf t.huff) = [0, 2, 2, 4, 1] := by decide +kernel

/-- V-H: `"ab" C8`. -/
theorem test_hcount_range :
    let t := runCommand .hcount (withInput [0x61, 0x62, 0xC8])
    t.status.word = 0x00100004 ∧ t.res.errPos = 2 ∧ t.res.errSym = 200 := by decide +kernel

/-- H1: a state that holds the frequencies of the text. -/
def counted : State :=
  { State.reset with
    huff := { State.reset.huff with
      freq := tabulate 128 fun x => if x = 0x41 then 2 else if x = 0x42 then 2 else if x = 0x43 then 4 else 0 } }

/-- H1: the nodes and the codewords. -/
theorem test_hbuild :
    let t := runCommand .hbuild counted
    (List.range 7).map t.huff.arena.read =
      [0x80000041, 0x80000042, 0x80000043, 0x80000080, 0x00018000, 0x00008004, 0x00010005] ∧
    t.huff.hnodes = 7 ∧ t.huff.hroot = 6 ∧
    [0x41, 0x42, 0x43, 128].map (tget t.huff.cwLen) = [0x103, 0x102, 0x101, 0x103] ∧
    tget t.huff.cwBits (4 * 0x41) = 0xE0000000 ∧ tget t.huff.cwBits (4 * 128) = 0xC0000000 := by decide +kernel

/-- A codeword table: (symbol, `CW_LEN`, first word of `CW_BITS`). -/
def table (rows : List (Nat × BitVec 9 × Word)) : Huff :=
  { State.reset.huff with
    cwLen := tabulate 129 fun x => ((rows.find? fun r => r.1 == x).map fun r => r.2.1).getD 0
    cwBits := tabulate 516 fun k =>
      if k % 4 = 0 then ((rows.find? fun r => r.1 == k / 4).map fun r => r.2.2).getD 0 else 0 }

/-- L3: `A "0"`, the sentinel `"10"`. -/
def tableL3 : Huff := table [(0x41, 0x101, 0), (128, 0x102, 0x80000000)]

/-- L3. -/
theorem test_hload :
    let t := runCommand .hload { State.reset with huff := tableL3 }
    (List.range 4).map t.huff.arena.read = [0x00008002, 0x80000041, 0x0001FFFF, 0x80000080] ∧
    t.huff.hnodes = 4 ∧ t.huff.hroot = 0 ∧ t.status.word = 0x00000102 := by decide +kernel

/-- LE1: `A "1"` is a prefix of `B "10"`. -/
theorem test_hload_conflict :
    let t := runCommand .hload
      { State.reset with huff := table [(0x41, 0x101, 0x80000000), (0x42, 0x102, 0x80000000)] }
    t.status.word = 0x00060004 ∧ t.res.errPos = 1 ∧ t.res.errSym = 0x42 := by decide +kernel

/-- The source's table of §8 (V-A4). -/
def tableA4 : Huff :=
  table [(0x41, 0x102, 0x80000000), (0x42, 0x102, 0x40000000), (0x43, 0x102, 0xC0000000), (128, 0x102, 0)]

/-- V-A4. -/
theorem test_henc :
    let t := runCommand .henc
      { withInput (ascii "ACBACCBC") with huff := tableA4, status := { Status.reset with hvalid := true } }
    outBytes t = [0xB6, 0xF7, 0x00] ∧ t.res.outBits = 18 := by decide +kernel

/-- L3 with its tree, as `HLOAD` leaves it. -/
def loadedL3 : Huff :=
  { tableL3 with
    hnodes := 4
    arena := { cells := [(0, 0x00008002), (1, 0x80000041), (2, 0x0001FFFF), (3, 0x80000080)], epoch := 2 } }

/-- A state with that tree and these bytes as input. -/
def treeL3 (bs : List Byte) : State :=
  { withInput bs with huff := loadedL3, status := { Status.reset with hvalid := true } }

/-- T2. -/
theorem test_hdec :
    let t := runCommand .hdec (treeL3 [0x20])
    outBytes t = ascii "AA" ∧ t.res.rdBits = 4 := by decide +kernel

/-- T3: bit 1 takes the absent right child of node 2. -/
theorem test_hdec_badcode :
    let t := runCommand .hdec (treeL3 [0xC0])
    t.status.word = 0x00210104 ∧ t.res.errPos = 1 ∧ t.res.errSym = 1 := by decide +kernel

/-- P-1. -/
theorem test_pack :
    let t := runCommand .pack (withInput (ascii "101101101111011100"))
    outBytes t = [0xB6, 0xF7, 0x00] ∧ t.res.outBits = 18 := by decide +kernel

/-- P-4. -/
theorem test_pack_digit :
    let t := runCommand .pack (withInput (ascii "10a"))
    t.status.word = 0x00130004 ∧ t.res.errPos = 2 ∧ t.res.errSym = 0x61 := by decide +kernel

/-- P-6: the pad bits come back as digits. -/
theorem test_unpack :
    outBytes (runCommand .unpack (withInput [0xB6, 0xF7, 0x00])) = ascii "101101101111011100000000" := by
  decide +kernel

/-- P-9. -/
theorem test_unpack_overflow :
    let t := runCommand .unpack (withLength 8193)
    t.status.word = 0x00300004 ∧ t.res.errPos = 8193 ∧ t.res.errSym = 0 := by decide +kernel

/-! ### Host accesses -/

/-- R109: a write outside the aperture does not reach the block. -/
theorem test_outside_write : step { State.reset with port := [.write 0x60000 4 1] } = .next State.reset := rfl

/-- R109: nor does a read, of whatever width and alignment. -/
theorem test_outside_read :
    (after (step { State.reset with port := [.read 0x60002 4] })).status.word = 0 := by decide +kernel

/-- B-5: little-endian lanes. -/
theorem test_write_inBuf :
    let t := after (step { State.reset with port := [.write 0x10000 4 0x34333231] })
    (List.range 4).map t.inBuf.read = ascii "1234" := by decide +kernel

/-- B-1 and B-4. -/
theorem test_read_registers :
    (after (step { State.reset with port := [.read 0x000 4] })).rdata = 0x41484307 ∧
    (after (step { State.reset with port := [.read 0x008 2] })).status.word = 0x00000010 := by decide +kernel

/-! ### Witnesses: for every statement with hypotheses, a state and operands that meet all of them, clause by clause -/

/-- A state in which the word `w` is running and its completion is due. -/
def running (w : Word) (s : State) : State := { s with cmd := w, status := s.status.accept }

/-- A state in which the word `w` is running and one service slot is left to it. -/
def waiting (w : Word) (s : State) : State := { running w s with wait := 1 }

/-- A state with these arrivals at the port. -/
def withPort (es : List PortEvent) (s : State) : State := { s with port := es }

theorem witness_DecodeInvertsEncode : decode 0x00000201 = .ok .aencBig := by rfl

theorem witness_IllegalWordReported :
    ∀ n ∈ [0x80000000, 0x00000800, 0x00000004, 0x000000FF, 0x00000301, 0x00000703, 0x00000100, 0x00000721],
      let w : Word := BitVec.ofNat 32 n
      (running w State.reset).status.busy = true ∧ (running w State.reset).wait = 0 ∧
      (w.extractLsb' 11 21 ≠ 0 ∨
        w.extractLsb' 0 8 ∉ [0x00#8, 0x01#8, 0x02#8, 0x03#8, 0x10#8, 0x11#8, 0x12#8, 0x13#8, 0x14#8, 0x20#8, 0x21#8] ∨
        (w.extractLsb' 0 8 ∈ [0x01#8, 0x02#8, 0x03#8] ∧ 3 ≤ (w.extractLsb' 8 3).toNat) ∨
        (w.extractLsb' 0 8 ∉ [0x01#8, 0x02#8, 0x03#8] ∧ w.extractLsb' 8 3 ≠ 0)) := by decide +kernel

theorem witness_StepRunsTheCommandInCmd :
    ((running 0x10 State.reset).status.busy = true ∧ (running 0x10 State.reset).wait = 0 ∧
      decode (running 0x10 State.reset).cmd = .ok .hcount) ∧
    State.reset.status.busy = false ∧ (waiting 0x10 State.reset).wait ≠ 0 := by
  refine ⟨⟨rfl, rfl, rfl⟩, rfl, by decide +kernel⟩

theorem witness_CommandWriteAccepted :
    (let s := withPort [.write 0x00C 4 0xFFFFFFFF] State.reset;
      s.status.busy = false ∧ s.resetIn = false ∧ s.port = .write 0x00C 4 0xFFFFFFFF :: []) ∧
    (let s := running 0x20 State.reset;
      s.status.busy = true ∧ s.status.done = false ∧ s.status.err = false ∧ s.wait = 0) := by
  refine ⟨⟨rfl, rfl, rfl⟩, rfl, rfl, rfl, rfl⟩

theorem witness_BusyFalls : (withPort [.read 0x5FFFC 4, .write 0x60000 4 0] (waiting 0x20 State.reset)).status.busy = true :=
  rfl

/-- The first offset outside the aperture, idle and busy, by a write and a read. -/
theorem witness_OutsideAccessesDoNotReach :
    (let s := withPort [.write 0x60000 4 0] (waiting 0x20 State.reset);
      s.wait ≠ 0 ∧ 0x60000 ≤ 0x60000 ∧ s.port = .write 0x60000 4 0 :: []) ∧
    (let s := withPort [.read 0x60000 4] State.reset;
      s.status.busy = false ∧ s.port = .read 0x60000 4 :: []) := by decide +kernel

theorem witness_EveryCommandCompletesOrRaises :
    State.reset.status.done = false ∧ State.reset.status.err = false := by decide +kernel

/-- Every premise of the statement, for the commands it names. -/
theorem witness_CommandsWriteOnlyTheirResults :
    (∀ i ∈ [Instr.nop, .aencFix, .mprobeDir, .hcount, .hbuild, .hload, .pack, .unpack],
      exec i State.reset = .next (after (exec i State.reset))) ∧
    writesOutBuf .nop = false ∧ writesOutBuf .pack = true ∧
    (after (exec .pack (withInput (ascii "1")))).status.errcode = 0 := by
  refine ⟨fun i _ => exec_after i _, rfl, rfl, by decide +kernel⟩

theorem witness_InputTailNeverMatters :
    ∀ j < inLen (withInput [7]), (buf [7, 9]).read j = (withInput [7]).inBuf.read j := by decide +kernel

theorem witness_OutBufNeverRead :
    (after (exec .pack (withInput (ascii "1")))).status.errcode = 0 ∧ writesOutBuf .pack = true := by decide +kernel

theorem witness_PackMeaning :
    65536 < inLen (withLength 65537) ∧ 65536 < inLen (withLength 131071) ∧
    (let s := withInput (ascii "10a");
      2 < inLen s ∧ inLen s ≤ 65536 ∧ (∀ j < 2, inByte s j = 0x30 ∨ inByte s j = 0x31) ∧ inByte s 2 ≠ 0x30 ∧
      inByte s 2 ≠ 0x31) ∧
    (let s := withInput [];
      inLen s ≤ 65536 ∧ ∀ i < inLen s, inByte s i = 0x30 ∨ inByte s i = 0x31) ∧
    (let s := withInput (ascii "101101101111011100");
      inLen s ≤ 65536 ∧ ∀ i < inLen s, inByte s i = 0x30 ∨ inByte s i = 0x31) := by decide +kernel

theorem witness_UnpackMeaning :
    65536 < inLen (withLength 65537) ∧
    (inLen (withLength 65536) ≤ 65536 ∧ 8192 < inLen (withLength 65536)) ∧
    (inLen (withLength 8193) ≤ 65536 ∧ 8192 < inLen (withLength 8193)) ∧
    inLen (withLength 8192) ≤ 8192 ∧ inLen (withLength 0) ≤ 8192 := by decide +kernel

/-- The host's copy of the output of `t` into the input of `s` (R468). -/
def copyOutput (s t : State) : State :=
  { s with conf := { s.conf with inLen := t.res.outLen.setWidth 17 }, inBuf := t.outBuf }

theorem copyOutput_holds (s t : State) (h : inLen (copyOutput s t) = t.res.outLen.toNat) :
    HoldsOutputOf t (copyOutput s t) := ⟨h, fun _ _ => rfl⟩

theorem witness_PackAndUnpackAreInverse :
    (let s := withInput (ascii "10110");
      let t := after (exec .pack s);
      inLen s ≤ 65536 ∧ (∀ i < inLen s, inByte s i = 0x30 ∨ inByte s i = 0x31) ∧ exec .pack s = .next t ∧
        HoldsOutputOf t (copyOutput s t)) ∧
    (let s := withInput [0xB6];
      let t := after (exec .unpack s);
      inLen s ≤ 8192 ∧ exec .unpack s = .next t ∧ HoldsOutputOf t (copyOutput s t)) := by
  refine ⟨⟨by decide +kernel, by decide +kernel, exec_after _ _, copyOutput_holds _ _ ?_⟩,
    by decide +kernel, exec_after _ _, copyOutput_holds _ _ ?_⟩ <;> decide +kernel

theorem witness_CoderStartErrors :
    Instr.aencFix = aencOf .fix ∧ Instr.adecDir = adecOf .dir ∧ Instr.mprobeBig = mprobeOf .big ∧
    65536 < inLen (withLength 65537) ∧
    (∀ n ∈ [0#8, 129, 255], (coder .fixed n 1 0 [] []).conf.nsym.toNat = 0 ∨
      128 < (coder .fixed n 1 0 [] []).conf.nsym.toNat) ∧
    (∀ n ∈ [1#8, 128], (coder .fixed n 0 0 [] []).conf.alpha = 0 ∧ 1 ≤ n.toNat ∧ n.toNat ≤ 128) ∧
    2 ^ 30 < (coder .fixed 3 0 0x40000001 [] []).conf.fixDen.toNat ∧
    (let c := (coder .fixed 3 0 0x40000000 [3, 3, 2] []).conf;
      c.fixDen ≠ 0 ∧ c.fixDen.toNat ≤ 2 ^ 30 ∧ 2 < c.nsym.toNat ∧
      (tget c.fixCum 2).toNat < (tget c.fixCum 1).toNat ∧
      ∀ j < 2, 1 ≤ j → (tget c.fixCum (j - 1)).toNat ≤ (tget c.fixCum j).toNat) ∧
    (let c := (coder .fixed 3 0 10 [3, 7, 10] []).conf;
      c.fixDen ≠ 0 ∧ c.fixDen.toNat ≤ 2 ^ 30 ∧
      (∀ j < c.nsym.toNat, 1 ≤ j → (tget c.fixCum (j - 1)).toNat ≤ (tget c.fixCum j).toNat) ∧
      c.fixDen.toNat ≤ (tget c.fixCum (c.nsym.toNat - 1)).toNat) := by decide +kernel

theorem witness_MprobeFixResult :
    ∀ s ∈ [source8 .fixed [2, 0], coder .fp64 128 0 0 [] [127], coder .fp64 1 0 0 [] []],
      inLen s ≤ 65536 ∧ ConfigLegal .fix s.conf ∧ ∀ i < inLen s, symAt s i < s.conf.nsym.toNat := by decide +kernel

theorem witness_MprobeDirResult :
    ∀ s ∈ [coder .fixed 3 1 0 [] [2, 0], coder .fp64 128 0xFFFF 0 [] []],
      inLen s ≤ 65536 ∧ ConfigLegal .dir s.conf ∧ ∀ i < inLen s, symAt s i < s.conf.nsym.toNat := by decide +kernel

theorem witness_MprobeBigResult :
    ∀ s ∈ [coder .fixed 3 1 0 [] [2, 0, 2], coder .fp64 128 0xFFFF 0 [] []],
      inLen s ≤ 65536 ∧ ConfigLegal .big s.conf ∧ ∀ i < inLen s, symAt s i < s.conf.nsym.toNat := by decide +kernel

theorem witness_MprobeRangeError :
    let s := source8 .fixed [2, 3]
    inLen s ≤ 65536 ∧ ConfigLegal .fix s.conf ∧ 1 < inLen s ∧ (∀ j < 1, symAt s j < s.conf.nsym.toNat) ∧
      s.conf.nsym.toNat ≤ symAt s 1 := by decide +kernel

theorem witness_ModelVectorsStayLegal :
    ∀ m ∈ [Model.fix, .dir, .big], ConfigLegal m (source8 .fixed []).conf ∧
      ([0, 2, 1] : List Byte).length ≤ 65536 ∧
      ∀ b ∈ ([0, 2, 1] : List Byte), b.toNat < (source8 .fixed []).conf.nsym.toNat := by decide +kernel

/-- A positive divisor, and a tie. -/
theorem witness_RoundingIsNearestEven :
    0 < 10 ∧
    2 * ((rnd64 (2 ^ 54 + 2) 1 * 1 : Nat) - (2 ^ 54 + 2 : Nat) : Int).natAbs = 1 * ulp64 ((2 ^ 54 + 2) / 1) := by
  decide +kernel

/-- The vector of the source's model of §8. -/
def vec8 : CumVec := { cum := [3, 7, 9], den := 10 }

/-- Both modes, at the least width in `FIXED` and on the whole interval in `FP64`; and the masses the clauses name. -/
theorem witness_BoundariesPartition :
    VecLegal 3 vec8 ∧
    (0 < 2 ^ 30 + 1 ∧ 2 ^ 30 + 1 ≤ oneOf .fixed ∧ oneOf .fixed / 4 < 2 ^ 30 + 1 - 0 ∧ ModeValue .fixed 0) ∧
    (0 < oneOf .fp64 ∧ oneOf .fp64 / 4 < oneOf .fp64 - 0 ∧ ModeValue .fp64 0 ∧ ModeValue .fp64 (oneOf .fp64)) ∧
    1 ≤ vec8.mass 2 ∧
    VecLegal 3 { cum := [3, 3, 9], den := 2 ^ 30 } ∧ CumVec.mass { cum := [3, 3, 9], den := 2 ^ 30 } 1 = 0 := by
  refine ⟨by decide +kernel, ⟨by decide +kernel, by decide +kernel, by decide +kernel, trivial⟩, ?_, by decide +kernel,
    by decide +kernel, by decide +kernel⟩
  refine ⟨by decide +kernel, by decide +kernel, ?_, ?_⟩ <;> exact Nat.dvd_of_mod_eq_zero (by decide +kernel)

/-- The encoder's registers with an interval one unit wide: its renormalization takes 32 steps. -/
def narrowest : EncRun := { low := 5, high := 6, pend := 0, out := [] }

/-- The decoder's registers with that interval. -/
def narrowestDec : DecRun := { low := 5, high := 6, enc := 5 * 2 ^ 160, k := 32, rpos := 32, out := [], counts := Counts.zero }

/-- The least width in `FIXED`, for both loops, and an interval of `2^-32` in `FP64`. -/
theorem witness_RenormalizationBound :
    NarrowedInterval .fixed narrowest.low narrowest.high ∧ NarrowedInterval .fixed narrowestDec.low narrowestDec.high ∧
    NarrowedInterval .fp64 0 (2 ^ 1042) ∧ ModeValue .fp64 0 ∧ ModeValue .fp64 (2 ^ 1042) ∧
    ∃ r', renormEnc (oneOf .fixed) true 0 0 32 narrowest = .ok r' := by
  refine ⟨by decide +kernel, by decide +kernel, by decide +kernel, Nat.dvd_of_mod_eq_zero (by decide +kernel),
    Nat.dvd_of_mod_eq_zero (by decide +kernel), ?_⟩
  have h : (match renormEnc (oneOf .fixed) true 0 0 32 narrowest with
      | .ok _ => true
      | .error _ => false) = true := by decide +kernel
  revert h
  cases renormEnc (oneOf .fixed) true 0 0 32 narrowest with
  | ok r => exact fun _ => ⟨r, rfl⟩
  | error f => exact fun h => nomatch h

/-- The decoder after priming on the stream of D2. -/
def primed8 (fmt : NumFmt) : DecRun := decStart (inBitZ (source8 fmt [0x48])) fmt Counts.zero

theorem witness_DecoderWindow :
    VecLegal (source8 .fixed []).conf.nsym.toNat vec8 ∧
    (∀ fmt ∈ [NumFmt.fixed, .fp64],
      WindowInside fmt (primed8 fmt) ∧ (primed8 fmt).k < 192 ∧ (source8 fmt []).conf.numFmt = fmt ∧
      (primed8 fmt).low < (primed8 fmt).high ∧ confirm (source8 fmt []).conf vec8 (primed8 fmt) = some 0 ∧
      oneOf fmt / 4 < (primed8 fmt).high - (primed8 fmt).low) ∧
    ulp64 (primed8 .fp64).low ∣ (primed8 .fp64).low ∧ ulp64 (primed8 .fp64).high ∣ (primed8 .fp64).high := by
  refine ⟨by decide +kernel, by decide +kernel, ?_, ?_⟩ <;> exact Nat.dvd_of_mod_eq_zero (by decide +kernel)

/-- A model in which symbol 0 has the mass `2^-16`, and an input of `n` times that symbol, then `tail`. -/
def sixteen (n : Nat) (tail : List Byte) : State := coder .fixed 1 0 0x10000 [1] (List.replicate n 0 ++ tail)

theorem sixteen_legal (n : Nat) (tail : List Byte) : ConfigLegal .fix (sixteen n tail).conf := by
  have h : ConfigLegal .fix (coder .fixed 1 0 0x10000 [1] []).conf := by decide +kernel
  exact h

theorem sixteen_mass (n : Nat) (tail : List Byte) : FixedMassPositive (sixteen n tail).conf 0 := by
  have h : FixedMassPositive (coder .fixed 1 0 0x10000 [1] []).conf 0 := by decide +kernel
  exact h

theorem sixteen_inLen (n : Nat) (tail : List Byte) (h : n + tail.length < 2 ^ 17) :
    inLen (sixteen n tail) = n + tail.length := by
  show (BitVec.ofNat 17 (List.replicate n (0 : Byte) ++ tail).length).toNat = _
  rw [List.length_append, List.length_replicate, BitVec.toNat_ofNat, Nat.mod_eq_of_lt h]

theorem sixteen_sym (n : Nat) (tail : List Byte) (j : Nat) (h : j < n) : symAt (sixteen n tail) j = 0 := by
  have hf : Cells.find? (Cells.indexed 0 (List.replicate n (0 : Byte) ++ tail)) j = some 0 := by
    rw [Cells.find?_indexed]
    simp [List.getElem?_append_left, h]
  simp only [symAt, inByte, sixteen, coder, withInput, Memory.read, buf, hf]
  rfl

/-- From `[0, 2^-j)` the loop appends `j` zeros and ends at `[0, 1)`. -/
theorem renorm_zeros (j : Nat) (h : j ≤ 31) (out : List Bool) :
    RenormTo .fixed true { low := 0, high := 2 ^ (32 - j), pend := 0, out := out }
      { low := 0, high := 2 ^ 32, pend := 0, out := out ++ List.replicate j false } := by
  induction j generalizing out with
  | zero =>
    rw [List.replicate_zero, List.append_nil]
    have hn : renormCase (2 ^ 32) true 0 (2 ^ 32) = none := by decide +kernel
    exact .exit _ hn
  | succ j ih =>
    have e : 2 ^ (32 - j) = 2 * 2 ^ (32 - (j + 1)) := by
      rw [← pow_succ', show 32 - (j + 1) + 1 = 32 - j by omega]
    have hle : 2 ^ (32 - (j + 1)) ≤ 2 ^ 32 / 2 :=
      Nat.le_trans (Nat.pow_le_pow_right (by decide) (by omega : 32 - (j + 1) ≤ 31)) (by decide)
    refine .step _ _ .lower ?_ ?_
    · show renormCase (2 ^ 32) true 0 (2 ^ (32 - (j + 1))) = some .lower
      rw [renormCase, if_pos hle]
    · have := ih (by omega) (out ++ [false])
      rw [e, List.append_assoc, List.singleton_append, ← List.replicate_succ] at this
      exact this

/-- After `i` symbols the interval is whole again and 16 zeros a symbol are written. -/
theorem sixteen_reaches (n : Nat) (tail : List Byte) (hl : n + tail.length < 2 ^ 17) (i : Nat) (h : i ≤ n) :
    EncodeReaches .fix (sixteen n tail) i (sixteen n tail).work.counts
      { low := 0, high := 2 ^ 32, pend := 0, out := List.replicate (16 * i) false } := by
  have hv : modelVec .fix (sixteen n tail).conf (sixteen n tail).work.counts = { cum := [1], den := 2 ^ 16 } := by
    have h : modelVec .fix (coder .fixed 1 0 0x10000 [1] []).conf Work.reset.counts = { cum := [1], den := 2 ^ 16 } := by
      decide +kernel
    exact h
  induction i with
  | zero => exact .start
  | succ i ih =>
    have hs := sixteen_sym n tail i (by omega)
    refine .symbol i _ _ _ _ (ih (by omega)) (by rw [sixteen_inLen _ _ hl]; omega) ?_ ?_ rfl ?_
    · rw [hs]; exact Nat.one_pos
    · rw [hs, hv]; decide
    · have hb : boundary .fixed 1 { cum := [1], den := 2 ^ 16 } 0 (2 ^ 32) 1 = 2 ^ (32 - 16) := by decide +kernel
      have h := renorm_zeros 16 (by decide) (List.replicate (16 * i) false)
      rw [← hb, ← List.replicate_add] at h
      rw [hs, hv]
      exact h

theorem witness_AencCompletes :
    ∀ m ∈ [Model.fix, .dir, .big], ∀ s ∈ [source8 .fp64 [0, 2, 1], source8 .fixed []],
      ConfigLegal m s.conf ∧ InputLegal m s ∧ inLen s ≤ 16382 := by decide +kernel

theorem sixteen_inputLegal (n : Nat) (h : n ≤ 65536) : InputLegal .fix (sixteen n []) := by
  have hl := sixteen_inLen n [] (by simp; omega)
  rw [List.length_nil, Nat.add_zero] at hl
  refine ⟨by rw [hl]; exact h, fun i hi => ?_, fun _ i hi => ?_⟩ <;> rw [hl] at hi <;> rw [sixteen_sym n [] i hi]
  · exact Nat.one_pos
  · exact sixteen_mass n []

/-- The bits overflow at symbol 32768 of 32769; and after 32768 symbols they just fit, so the final `1` does not. -/
theorem witness_AencCompletes_overflow :
    (ConfigLegal .fix (sixteen 32769 []).conf ∧ InputLegal .fix (sixteen 32769 []) ∧
      inLen (sixteen 32769 []) = 32769 ∧ OverflowsAt .fix (sixteen 32769 []) 32768) ∧
    (InputLegal .fix (sixteen 32768 []) ∧ inLen (sixteen 32768 []) = 32768 ∧
      ∃ k r r', EncodeReaches .fix (sixteen 32768 []) 32768 k r ∧ r.out.length ≤ 524288 ∧
        TerminatesTo .fix (sixteen 32768 []).conf k r r' ∧ 524288 ≤ r'.out.length) := by
  refine ⟨⟨sixteen_legal _ _, sixteen_inputLegal _ (by decide), sixteen_inLen _ _ (by decide), _, _, _, _,
      sixteen_reaches 32769 [] (by decide) 32768 (by decide), ?_,
      sixteen_reaches 32769 [] (by decide) 32769 (by decide), ?_⟩,
    sixteen_inputLegal _ (by decide), sixteen_inLen _ _ (by decide), _, _, _,
      sixteen_reaches 32768 [] (by decide) 32768 (by decide), ?_, .exit _ ?_, ?_⟩
  · rw [List.length_replicate]
  · rw [List.length_replicate]; decide
  · rw [List.length_replicate]
  · have h : renormCase (2 ^ 32) false (boundary .fixed 1 { cum := [1], den := 2 ^ 16 } 0 (2 ^ 32) 1) (2 ^ 32) = none := by
      decide +kernel
    exact h
  · rw [List.length_replicate]

theorem witness_AencSymbolErrors :
    (let s := source8 .fp64 [0, 3];
      ConfigLegal .fix s.conf ∧ inLen s ≤ 65536 ∧ 1 < inLen s ∧ (∀ j < 1, symAt s j < s.conf.nsym.toNat) ∧
      (∀ j < 1, FixedMassPositive s.conf (symAt s j)) ∧ s.conf.nsym.toNat ≤ symAt s 1) ∧
    (let s := coder .fixed 3 0 10 [0, 5, 9] [1, 0];
      ConfigLegal .fix s.conf ∧ inLen s ≤ 65536 ∧ 1 < inLen s ∧ (∀ j < 1, symAt s j < s.conf.nsym.toNat) ∧
      (∀ j < 1, FixedMassPositive s.conf (symAt s j)) ∧ symAt s 1 < s.conf.nsym.toNat ∧
      ¬ FixedMassPositive s.conf (symAt s 1)) := by decide +kernel

/-- 32769 symbols of 16 bits do not fit, and a byte outside the alphabet follows. -/
theorem witness_AencSymbolErrors_overflow :
    ConfigLegal .fix (sixteen 32769 [1]).conf ∧ inLen (sixteen 32769 [1]) = 32770 ∧
    (∀ j < 32769, symAt (sixteen 32769 [1]) j = 0) ∧ FixedMassPositive (sixteen 32769 [1]).conf 0 ∧
    ∃ k r, EncodeReaches .fix (sixteen 32769 [1]) 32769 k r ∧ 524288 < r.out.length := by
  have hl : 32769 + ([1] : List Byte).length = 32770 := by simp
  have hi := sixteen_inLen 32769 [1] (by rw [hl]; decide)
  refine ⟨sixteen_legal _ _, hi.trans hl, fun j hj => sixteen_sym _ _ j hj, sixteen_mass _ _, _, _,
    sixteen_reaches 32769 [1] (by rw [hl]; decide) 32769 (by decide), ?_⟩
  rw [List.length_replicate]
  decide

/-- DC1: the value of the stream `FF` lies in the sentinel's sub-interval at once. -/
theorem witness_AdecCompletes :
    let s := source8 .fp64 [0xFF]
    let r := decStart (inBitZ s) s.conf.numFmt (modelInit .fix s.work.counts)
    ConfigLegal .fix s.conf ∧ inLen s ≤ 65536 ∧ DecodeRun (inBitZ s) .fix s.conf r r :=
  ⟨by decide +kernel, by decide +kernel, .here _, by decide +kernel⟩

theorem witness_AdecThreeEndings :
    ∀ m ∈ [Model.fix, .dir, .big], ConfigLegal m (source8 .fp64 []).conf ∧ inLen (source8 .fp64 []) ≤ 65536 := by
  decide +kernel

theorem witness_FixedArithmeticRoundTrip :
    let s := source8 .fixed [0, 1]
    let t := after (exec .aencFix s)
    let u := copyOutput s t
    s.conf.numFmt = .fixed ∧ ConfigLegal .fix s.conf ∧ InputLegal .fix s ∧ inLen s ≤ 16382 ∧
    exec (aencOf .fix) s = .next t ∧ Completed s t ∧ u.conf = { s.conf with inLen := u.conf.inLen } ∧ inLen u ≤ 65536 ∧
    ∀ j, inBitZ u j = (decide (j < 8 * t.res.outLen.toNat) && (t.outBuf.read (j / 8)).getMsbD (j % 8)) := by
  intro s t u
  have hu : inLen u = t.res.outLen.toNat := by decide +kernel
  refine ⟨by decide +kernel, by decide +kernel, by decide +kernel, by decide +kernel, exec_after _ _, by decide +kernel, rfl,
    by decide +kernel, ?_⟩
  intro j
  show (decide (j < 8 * inLen u) && _) = _
  rw [hu]
  rfl

theorem witness_HcountMeaning :
    65536 < inLen (withLength 65537) ∧
    (let s := withInput [127, 128];
      1 < inLen s ∧ inLen s ≤ 65536 ∧ (∀ j < 1, symAt s j < 128) ∧ 128 ≤ symAt s 1) ∧
    (let s := withInput [0, 127];
      inLen s ≤ 65536 ∧ ∀ i < inLen s, symAt s i < 128) := by decide +kernel

/-- The premises inside the statement: a leaf, an internal node, a symbol with and one without a codeword; and a text counted. -/
theorem witness_HbuildResult :
    (let t := after (exec .hbuild counted);
      0 < (usedSymbols counted.huff).length ∧ (4 < t.huff.hnodes.toNat ∧ (usedSymbols counted.huff).length ≤ 4) ∧
      cwValid t.huff 0x41 = true ∧ cwLength t.huff 0x41 ≤ 3 ∧ cwValid t.huff 0x40 = false) ∧
    (let s := withInput (ascii "ACBACCBC");
      exec .hcount s = .next (after (exec .hcount s)) ∧ (after (exec .hcount s)).status.errcode = 0) :=
  ⟨by decide +kernel, exec_after _ _, by decide +kernel⟩

/-- A table is loadable below `k` when its valid symbols below `k` are among `x` and `y`, and these two can stand together. -/
theorem entriesLoadable_pair {h : Huff} {k x y : Nat} (hv : ∀ z < k, cwValid h z = true → z = x ∨ z = y)
    (hl : ∀ z ∈ [x, y], cwLength h z ≤ Config.lmax ∧ (cwLength h z = 0 → z = Config.sentH))
    (hxy : x ≠ y → ¬ codeOf h x <+: codeOf h y ∧ ¬ codeOf h y <+: codeOf h x) : EntriesLoadable h k := by
  refine ⟨fun z hz vz => hl z (by rcases hv z hz vz with rfl | rfl <;> simp), fun a ha b hb hne va vb => ?_⟩
  rcases hv a ha va with rfl | rfl <;> rcases hv b hb vb with rfl | rfl
  · exact absurd rfl hne
  · exact (hxy hne).1
  · exact (hxy (Ne.symm hne)).2
  · exact absurd rfl hne

/-- LE1: `A "1"` is a prefix of `B "10"`. -/
def tableLE1 : Huff := table [(0x41, 0x101, 0x80000000), (0x42, 0x102, 0x80000000)]

/-- A codeword of 129 bits for `A`; an empty codeword for `A`. -/
def tableTooLong : Huff := table [(0x41, 0x181, 0)]

def tableEmptyCode : Huff := table [(0x41, 0x100, 0)]

/-- L3: the paths of the nodes in the order of the test above, two of them codewords. -/
theorem triePaths_L3 : triePaths tableL3 = [[], [false], [true], [true, false]] := by decide +kernel

/-- A loadable table, an empty one, and one for each report: a conflict at bit 1, a codeword above `LMAX`, an empty one. -/
theorem witness_HloadMeaning :
    TableLoadable tableL3 ∧
    (¬ TableLoadable State.reset.huff ∧ ∀ x < 129, cwValid State.reset.huff x = false) ∧
    (¬ TableLoadable tableLE1 ∧ cwValid tableLE1 0x42 = true ∧ EntriesLoadable tableLE1 0x42 ∧
      ¬ EntriesLoadable tableLE1 0x43 ∧ cwLength tableLE1 0x42 ≤ Config.lmax ∧ cwLength tableLE1 0x42 ≠ 0 ∧
      cwValid tableLE1 0x41 = true ∧ codeOf tableLE1 0x41 <+: codeOf tableLE1 0x42) ∧
    (cwValid tableTooLong 0x41 = true ∧ EntriesLoadable tableTooLong 0x41 ∧ ¬ EntriesLoadable tableTooLong 0x42 ∧
      Config.lmax < cwLength tableTooLong 0x41) ∧
    (cwValid tableEmptyCode 0x41 = true ∧ EntriesLoadable tableEmptyCode 0x41 ∧
      ¬ EntriesLoadable tableEmptyCode 0x42 ∧ cwLength tableEmptyCode 0x41 = 0) := by
  have h : ∀ x < 129, cwValid State.reset.huff x = false := by decide +kernel
  have hp : codeOf tableLE1 0x41 <+: codeOf tableLE1 0x42 := by decide +kernel
  have hc : ∀ k, 0x43 ≤ k → ¬ EntriesLoadable tableLE1 k := fun k hk l =>
    l.2 0x41 (by omega) 0x42 (by omega) (by decide) (by decide +kernel) (by decide +kernel) hp
  have hL : ∀ x < 129, cwValid tableL3 x = true → x = 0x41 ∨ x = 128 := by decide +kernel
  have hE : ∀ x < 0x42, cwValid tableLE1 x = true → x = 0x41 ∨ x = 0x41 := by decide +kernel
  have hT : ∀ x < 0x41, cwValid tableTooLong x = true → x = 128 ∨ x = 128 := by decide +kernel
  have h0 : ∀ x < 0x41, cwValid tableEmptyCode x = true → x = 128 ∨ x = 128 := by decide +kernel
  refine ⟨⟨⟨0x41, by decide, by decide +kernel⟩, entriesLoadable_pair hL (by decide +kernel) (by decide +kernel)⟩,
    ⟨fun l => ?_, h⟩, ⟨fun l => hc 129 (by decide) l.2, by decide +kernel,
      entriesLoadable_pair hE (by decide +kernel) (fun hne => absurd rfl hne), hc 0x43 (by decide), by decide +kernel,
      by decide +kernel, by decide +kernel, hp⟩,
    ⟨by decide +kernel, entriesLoadable_pair hT (by decide +kernel) (fun hne => absurd rfl hne), fun l => ?_,
      by decide +kernel⟩,
    ⟨by decide +kernel, entriesLoadable_pair h0 (by decide +kernel) (fun hne => absurd rfl hne), fun l => ?_,
      by decide +kernel⟩⟩
  · obtain ⟨x, hx, hv⟩ := l.1
    rw [h x hx] at hv
    exact nomatch hv
  · exact absurd (l.1 0x41 (by decide) (by decide +kernel)).1 (by decide +kernel)
  · exact absurd ((l.1 0x41 (by decide) (by decide +kernel)).2 (by decide +kernel)) (by decide)

theorem witness_BuiltCodeIsPrefixFreeAndMinimal :
    let t := after (exec .hbuild counted)
    exec .hbuild counted = .next t ∧ t.status.errcode = 0 ∧ cwValid t.huff 0x41 = true ∧ cwValid t.huff 128 = true ∧
    ∀ x ∈ usedSymbols counted.huff, ∀ y ∈ usedSymbols counted.huff, x ≠ y → ¬ codeOf t.huff x <+: codeOf t.huff y :=
  ⟨exec_after _ _, by decide +kernel, by decide +kernel, by decide +kernel, by decide +kernel⟩

theorem witness_HuffmanStartErrors :
    65536 < inLen (withLength 65537) ∧ inLen (withLength 65536) ≤ 65536 ∧ State.reset.status.hvalid = false := by decide +kernel

/-- The codewords of the first `i` input symbols. -/
def bitsBefore (s : State) (i : Nat) : List Bool := (List.range i).flatMap fun j => codeOf s.huff (symAt s j)

/-- A state of `HENC` with this table and input. -/
def encodable (h : Huff) (bs : List Byte) : State :=
  { withInput bs with huff := h, status := { Status.reset with hvalid := true } }

/-- A table without a codeword for the sentinel (L4). -/
def tableL4 : Huff := table [(0x41, 0x101, 0), (0x42, 0x101, 0x80000000)]

theorem witness_HencMeaning :
    (let s := encodable tableL3 [0x41, 128];
      inLen s ≤ 65536 ∧ s.status.hvalid = true ∧ 1 < inLen s ∧
      (∀ j < 1, symAt s j < 128 ∧ cwValid s.huff (symAt s j) = true) ∧ (bitsBefore s 1).length ≤ 524288 ∧
      128 ≤ symAt s 1) ∧
    (let s := encodable tableL3 [0x41, 127];
      1 < inLen s ∧ (∀ j < 1, symAt s j < 128 ∧ cwValid s.huff (symAt s j) = true) ∧
      (bitsBefore s 1).length ≤ 524288 ∧ symAt s 1 < 128 ∧ cwValid s.huff (symAt s 1) = false) ∧
    (let s := encodable tableL4 [0x41, 0x42];
      (∀ j < inLen s, symAt s j < 128 ∧ cwValid s.huff (symAt s j) = true) ∧
      (bitsBefore s (inLen s)).length ≤ 524288 ∧ cwValid s.huff 128 = false) ∧
    (let s := encodable tableL3 [0x41, 0x41];
      (∀ j < inLen s, symAt s j < 128 ∧ cwValid s.huff (symAt s j) = true) ∧ cwValid s.huff 128 = true ∧
      (bitsBefore s (inLen s) ++ codeOf s.huff 128).length ≤ 524288) := by decide +kernel

/-- A codeword of 128 bits for `A` and one of one bit for the sentinel. -/
def longTable : Huff := table [(0x41, 0x180, 0), (128, 0x101, 0x80000000)]

/-- An input of `n` bytes `A` under that table. -/
def longInput (n : Nat) : State :=
  { encodable longTable [] with
    conf := { Conf.reset with inLen := BitVec.ofNat 17 n }, inBuf := buf (List.replicate n 0x41) }

theorem longInput_sym (n j : Nat) (h : j < n) : symAt (longInput n) j = 0x41 := by
  have hf : Cells.find? (Cells.indexed 0 (List.replicate n (0x41 : Byte))) j = some 0x41 := by
    rw [Cells.find?_indexed]
    simp [h]
  simp only [symAt, inByte, longInput, Memory.read, buf, hf]
  rfl

theorem longInput_bits (n i : Nat) (h : i ≤ n) : (bitsBefore (longInput n) i).length = 128 * i := by
  have hl : (codeOf longTable 0x41).length = 128 := by decide +kernel
  simp only [bitsBefore, List.length_flatMap]
  have hm : (List.range i).map (fun j => (codeOf (longInput n).huff (symAt (longInput n) j)).length) =
      (List.range i).map fun _ => 128 := by
    apply List.map_congr_left
    intro j hj
    rw [longInput_sym n j (by have := List.mem_range.mp hj; omega)]
    exact hl
  rw [hm]
  simp [Nat.mul_comm]

/-- The overflow clauses: the 4097th codeword of 128 bits does not fit, and after 4096 of them the sentinel's does not. -/
theorem witness_HencMeaning_overflow :
    (let s := longInput 4097;
      4096 < inLen s ∧ (bitsBefore s 4096).length ≤ 524288 ∧ 524288 < (bitsBefore s 4097).length ∧
      (∀ j < 4097, symAt s j < 128 ∧ cwValid s.huff (symAt s j) = true)) ∧
    (let s := longInput 4096;
      inLen s = 4096 ∧ (bitsBefore s 4096).length ≤ 524288 ∧ cwValid s.huff 128 = true ∧
      524288 < (bitsBefore s 4096 ++ codeOf s.huff 128).length ∧
      (∀ j < 4096, symAt s j < 128 ∧ cwValid s.huff (symAt s j) = true)) := by
  have hv : cwValid longTable 0x41 = true := by decide +kernel
  have hs : (codeOf longTable 128).length = 1 := by decide +kernel
  refine ⟨⟨by decide +kernel, ?_, ?_, ?_⟩, by decide +kernel, ?_, by decide +kernel, ?_, ?_⟩
  · rw [longInput_bits _ _ (by omega)]
  · rw [longInput_bits _ _ (by omega)]
    decide
  · intro j hj; rw [longInput_sym _ _ hj]; exact ⟨by omega, hv⟩
  · rw [longInput_bits _ _ (by omega)]
  · rw [List.length_append, longInput_bits _ _ (by omega)]
    show 524288 < 128 * 4096 + (codeOf longTable 128).length
    omega
  · intro j hj; rw [longInput_sym _ _ hj]; exact ⟨by omega, hv⟩

/-- T2: `"AA"` on the tree of L3. -/
theorem witness_HdecDecodesCodewords :
    let s := treeL3 [0x20]
    inLen s ≤ 65536 ∧ s.status.hvalid = true ∧ TreeMatchesTable s.huff ∧ ([0x41, 0x41] : List Nat).length ≤ 65536 ∧
    (∀ x ∈ ([0x41, 0x41] : List Nat), x < 128 ∧ cwValid s.huff x = true) ∧ cwValid s.huff 128 = true ∧
    inBits s = huffStream s.huff [0x41, 0x41] ++ [false, false, false, false] := by decide +kernel

/-- Seven `A` and the first bit of the sentinel's codeword; an empty input; and T3, where an absent child is asked for. -/
theorem witness_HdecStreamErrors :
    (let s := treeL3 [0x01];
      inLen s ≤ 65536 ∧ s.status.hvalid = true ∧ TreeMatchesTable s.huff ∧
      (∀ x ∈ List.replicate 7 0x41, x < 128 ∧ cwValid s.huff x = true) ∧ cwValid s.huff 128 = true ∧
      [true] <+: codeOf s.huff 128 ∧ [true] ≠ codeOf s.huff 128 ∧
      inBits s = (List.replicate 7 0x41).flatMap (codeOf s.huff) ++ [true]) ∧
    (let s := treeL3 [];
      inLen s ≤ 65536 ∧ [] <+: codeOf s.huff 128 ∧ [] ≠ codeOf s.huff 128 ∧
      inBits s = ([] : List Nat).flatMap (codeOf s.huff) ++ []) ∧
    (let s := treeL3 [0xC0];
      followPath s.huff.arena s.huff.hroot.toNat [true] = some 2 ∧ nodeIsLeaf (s.huff.arena.read 2) = false ∧
      nodeChild (s.huff.arena.read 2) true = Config.nil ∧
      inBits s = ([] : List Nat).flatMap (codeOf s.huff) ++ [true] ++ true :: List.replicate 6 false) := by
  decide +kernel

/-- An input of `n` zero bytes on the tree of L3: `8n` times `A`, of one bit each. -/
def zeros (n : Nat) : State := treeL3 (List.replicate n 0)

theorem zeros_huff (n : Nat) : (zeros n).huff = loadedL3 := rfl

theorem zeros_inLen (n : Nat) (h : n < 2 ^ 17) : inLen (zeros n) = n := by
  show (BitVec.ofNat 17 (List.replicate n (0 : Byte)).length).toNat = n
  rw [List.length_replicate, BitVec.toNat_ofNat, Nat.mod_eq_of_lt h]

theorem zeros_inBits (n : Nat) (h : n < 2 ^ 17) : inBits (zeros n) = List.replicate (8 * n) false := by
  have hb : ∀ i < n, inByte (zeros n) i = 0 := fun i hi => by
    have hf : Cells.find? (Cells.indexed 0 (List.replicate n (0 : Byte))) i = some 0 := by
      rw [Cells.find?_indexed]
      simp [hi]
    simp only [inByte, zeros, treeL3, withInput, Memory.read, buf, hf]
  rw [inBits, zeros_inLen n h]
  refine List.eq_replicate_iff.mpr ⟨by rw [List.length_map, List.length_range], fun b hm => ?_⟩
  obtain ⟨j, hj, rfl⟩ := List.mem_map.mp hm
  have hj8 := List.mem_range.mp hj
  rw [inBit, hb (j / 8) (by omega)]
  exact BitVec.getMsbD_zero

theorem flatMap_A (n : Nat) : (List.replicate n 0x41).flatMap (codeOf loadedL3) = List.replicate n false := by
  have hc : codeOf loadedL3 0x41 = [false] := by decide +kernel
  induction n with
  | zero => rfl
  | succ n ih => rw [List.replicate_succ, List.flatMap_cons, ih, hc, List.replicate_succ, List.singleton_append]

theorem zeros_split (n : Nat) (h : n + 1 < 2 ^ 17) :
    inBits (zeros (n + 1)) =
      (List.replicate (8 * n) 0x41).flatMap (codeOf loadedL3) ++ codeOf loadedL3 0x41 ++ List.replicate 7 false := by
  have hc : codeOf loadedL3 0x41 = List.replicate 1 false := by decide +kernel
  rw [zeros_inBits _ h, flatMap_A, hc, ← List.replicate_add, ← List.replicate_add]
  rfl

/-- A further symbol after 65536. -/
theorem witness_HdecStreamErrors_overflow :
    inLen (zeros 8193) ≤ 65536 ∧ (zeros 8193).status.hvalid = true ∧ TreeMatchesTable loadedL3 ∧
    (zeros 8193).huff = loadedL3 ∧ (List.replicate (8 * 8192) 0x41).length = 65536 ∧
    (∀ x ∈ List.replicate (8 * 8192) 0x41, x < 128 ∧ cwValid loadedL3 x = true) ∧ cwValid loadedL3 0x41 = true ∧
    inBits (zeros 8193) =
      (List.replicate (8 * 8192) 0x41).flatMap (codeOf loadedL3) ++ codeOf loadedL3 0x41 ++ List.replicate 7 false := by
  have hv : cwValid loadedL3 0x41 = true := by decide +kernel
  refine ⟨?_, rfl, by decide +kernel, zeros_huff _, List.length_replicate, fun x hx => ?_, hv,
    zeros_split 8192 (by decide)⟩
  · rw [zeros_inLen 8193 (by decide)]
    decide
  · rw [List.eq_of_mem_replicate hx]
    exact ⟨by decide, hv⟩

theorem witness_HuffmanRoundTrip :
    let s := treeL3 (ascii "AA")
    let t := after (exec .henc s)
    let u := copyOutput t t
    inLen s ≤ 65536 ∧ s.status.hvalid = true ∧ TreeMatchesTable s.huff ∧
    (∀ i < inLen s, symAt s i < 128 ∧ cwValid s.huff (symAt s i) = true) ∧ cwValid s.huff 128 = true ∧
    (huffStream s.huff ((List.range (inLen s)).map (symAt s))).length ≤ 524288 ∧
    exec .henc s = .next t ∧ u.huff = t.huff ∧ u.status.hvalid = true ∧ t.res.outLen.toNat ≤ inLen u ∧
    inLen u ≤ 65536 ∧ ∀ i < t.res.outLen.toNat, inByte u i = t.outBuf.read i :=
  ⟨by decide, rfl, by decide +kernel, by decide +kernel, by decide +kernel, by decide +kernel, exec_after _ _, rfl,
    by decide +kernel, by decide +kernel, by decide +kernel, fun _ _ => rfl⟩

/-- The four invariants and a step, from a state in which `HBUILD` is due. -/
theorem witness_StepKeepsInvariants :
    let s := running 0x11 State.reset
    StoresCanonical s ∧ StatusCoherent s ∧ TreeCoherent s ∧ RegistersBounded s ∧ step s = .next (after (step s)) := by
  refine ⟨by decide +kernel, by decide +kernel, fun h => absurd h (by decide +kernel), by decide +kernel, rfl⟩

/-- The premise of `TreeCoherent` holds on a loaded tree. -/
theorem witness_StepKeepsTreeCoherent : TreeCoherent (treeL3 [0x20]) ∧ (treeL3 [0x20]).status.hvalid = true :=
  ⟨fun _ => by decide +kernel, rfl⟩

theorem witness_SoftResetMeaning :
    (let s := withPort [.write 0x004 4 0x00000003] (waiting 0x10 State.reset);
      s.wait ≠ 0 ∧ s.resetIn = false ∧ s.port = .write 0x004 4 0x00000003 :: [] ∧
      (0x00000003 : Word).getLsbD 0 = true) ∧
    decode 0x10 ∉ [Except.ok Instr.aencFix, .ok .aencDir, .ok .aencBig, .ok .adecFix, .ok .adecDir, .ok .adecBig,
      .ok .henc, .ok .hdec, .ok .pack, .ok .unpack] ∧
    decode 0x10 ∉ [Except.ok Instr.hbuild, .ok .hload] := by
  have h : decode 0x10 = .ok .hcount := rfl
  rw [h]
  refine ⟨⟨by decide +kernel, rfl, rfl, by decide +kernel⟩, by simp, by simp⟩

theorem witness_HardResetMeaning :
    (let s := withPort [.resetInput true] (waiting 0x20 State.reset);
      s.wait ≠ 0 ∧ s.port = .resetInput true :: []) ∧
    (∀ e ∈ [PortEvent.write 0x00C 4 0x20, .read 0x5FFFF 1, .resetInput false],
      let s := withPort [e] { State.reset with resetIn := true }
      s.status.busy = false ∧ s.resetIn = true ∧ 0x5FFFF < 0x60000 ∧ s.port = e :: []) := by decide +kernel

theorem witness_InterruptFollowsCompletion :
    exec .nop State.reset = .next (after (exec .nop State.reset)) ∧
    ((running 0x00 State.reset).status.busy = true ∧ (running 0x00 State.reset).wait = 0) ∧
    (let s := after (exec .nop { State.reset with irqEn := true });
      s.irq = true ∧ (s.status.done = true → (0x00000002 : Word).getLsbD 1 = true) ∧
      (s.status.err = true → (0x00000002 : Word).getLsbD 2 = true)) ∧
    State.reset.irqEn = false ∧
    (let s := { after (exec .nop State.reset) with port := [.write 0x004 4 2] };
      s.status.busy = false ∧ step s = .next (after (step s)) ∧ (after (step s)).status.done = true) :=
  ⟨rfl, ⟨rfl, rfl⟩, by decide +kernel, rfl, rfl, rfl, by decide +kernel⟩

theorem witness_StatusWriteClears :
    let s := withPort [.write 0x008 4 0x0000000A] (waiting 0x20 State.reset)
    s.wait ≠ 0 ∧ s.resetIn = false ∧ s.port = .write 0x008 4 0x0000000A :: [] := by decide +kernel

/-- A misaligned word, a half word at a register, the last byte of `IN_BUF` as a half word, no byte at all. -/
theorem witness_IllegalAccessOnlySetsBuserr :
    ∀ an ∈ [(0x002, 4), (0x008, 2), (0x1FFFF, 2), (0x10001, 2), (0x20002, 4), (0x10000, 8), (0x5FFFE, 4), (0x10000, 0)],
      an.1 < 0x60000 ∧
      ¬ ((∃ base, (base = 0x10000 ∨ base = 0x20000) ∧ base ≤ an.1 ∧ an.1 + an.2 ≤ base + 0x10000 ∧
            (an.2 = 1 ∨ an.2 = 2 ∨ an.2 = 4) ∧ an.1 % an.2 = 0) ∨
          ((an.1 < 0x10000 ∨ 0x30000 ≤ an.1) ∧ an.2 = 4 ∧ an.1 % 4 = 0)) := by
  simp only [List.mem_cons, List.not_mem_nil, or_false]
  rintro an (rfl | rfl | rfl | rfl | rfl | rfl | rfl | rfl) <;> refine ⟨by decide +kernel, ?_⟩ <;>
    rintro (⟨base, rfl | rfl, h⟩ | h) <;> first | omega | exact absurd h (by decide)

/-- The first and last word of holes. -/
theorem witness_HolesReadZeroAndIgnoreWrites :
    ∀ a ∈ [0x58, 0x5C, 0x78, 0xFFC, 0x1200, 0x1604, 0x1A04, 0x2810, 0x3200, 0xFFFC, 0x30000, 0x3FFFC],
      a < 0x60000 ∧ a % 4 = 0 ∧ locate a = .hole ∧
      ((0x58 ≤ a ∧ a < 0x60) ∨ (0x78 ≤ a ∧ a < 0x1000) ∨ (0x1200 ≤ a ∧ a < 0x1400) ∨ (0x1604 ≤ a ∧ a < 0x1800) ∨
        (0x1A04 ≤ a ∧ a < 0x2000) ∨ (0x2810 ≤ a ∧ a < 0x3000) ∨ (0x3200 ≤ a ∧ a < 0x10000) ∨
        (0x30000 ≤ a ∧ a < 0x40000)) := by decide +kernel

theorem witness_WritesWhileBusyDropped :
    ∀ an ∈ [(0x000, 4), (0x00C, 4), (0x028, 4), (0x10000, 1), (0x2FFFF, 1), (0x5FFFC, 4)],
      let s := withPort [.write an.1 an.2 0] (waiting 0x20 State.reset)
      s.status.busy = true ∧ s.wait ≠ 0 ∧ s.resetIn = false ∧ an.1 < 0x60000 ∧ legalAccess an.1 an.2 = true ∧
      an.1 ≠ 0x004 ∧ an.1 ≠ 0x008 ∧ locate an.1 ≠ .hole ∧ s.port = .write an.1 an.2 0 :: [] := by decide +kernel

theorem witness_ReadOnlyLocationsIgnoreWrites :
    ∀ an ∈ [(0x000, 4), (0x014, 4), (0x024, 4), (0x034, 4), (0x054, 4), (0x060, 4), (0x074, 4), (0x1600, 4), (0x3000, 4),
        (0x31FC, 4), (0x20000, 1), (0x2FFFE, 2), (0x40000, 4), (0x5FFFC, 4)],
      legalAccess an.1 an.2 = true ∧
      (an.1 = 0x000 ∨ (0x014 ≤ an.1 ∧ an.1 < 0x028) ∨ (0x034 ≤ an.1 ∧ an.1 < 0x058) ∨ (0x060 ≤ an.1 ∧ an.1 < 0x078) ∨
        an.1 = 0x1600 ∨ (0x3000 ≤ an.1 ∧ an.1 < 0x3200) ∨ (0x20000 ≤ an.1 ∧ an.1 < 0x30000) ∨
        (0x40000 ≤ an.1 ∧ an.1 < 0x60000)) := by decide +kernel

theorem witness_WritableWordsReadBack :
    (let s := withPort [.write 0x004 4 2] (waiting 0x20 State.reset);
      s.wait ≠ 0 ∧ s.resetIn = false ∧ (2 : Word).getLsbD 0 = false ∧ s.port = .write 0x004 4 2 :: []) ∧
    ∀ am ∈ [(0x004, 0x00000002), (0x010, 0x0001FFFF), (0x028, 0x0000FF01), (0x02C, 0x0000FFFF), (0x030, 0x7FFFFFFF),
        (0x1000, 0x7FFFFFFF), (0x11FC, 0x7FFFFFFF), (0x1400, 0xFFFFFFFF), (0x15FC, 0xFFFFFFFF), (0x1800, 0x000001FF),
        (0x1A00, 0x000001FF), (0x2000, 0xFFFFFFFF), ((0x280C : Nat), (0xFFFFFFFF : Word))],
      WritableWord am.1 0xFFFFFFFE am.2 := by decide +kernel

theorem witness_InputBufferLanes :
    ∀ an ∈ [(0, 4), (1, 1), (65532, 4), (65534, 2), (65535, 1)],
      (an.2 = 1 ∨ an.2 = 2 ∨ an.2 = 4) ∧ an.1 % an.2 = 0 ∧ an.1 + an.2 ≤ 65536 ∧
      State.reset.status.busy = false ∧ State.reset.resetIn = false := by decide +kernel

theorem witness_CodewordWriteDropsTheTree :
    ∀ a ∈ [0x1800, 0x1A00, 0x2000, 0x280C],
      let s := withPort [.write a 4 0] (treeL3 [0x20])
      s.status.busy = false ∧ s.resetIn = false ∧ ((0x1800 ≤ a ∧ a < 0x1A04) ∨ (0x2000 ≤ a ∧ a < 0x2810)) ∧ a % 4 = 0 ∧
      s.port = .write a 4 0 :: [] ∧ inLen s ≤ 65536 := by decide +kernel

/-- Idle reads at both ends of the map; reads that stay stable while `HBUILD`, `HLOAD`, `HDEC` and `NOP` run; `STATUS`. -/
theorem witness_ReadsReturnTheContent :
    (∀ an ∈ [(0x000, 4), (0x008, 4), (0x014, 4), (0x060, 4), (0x1600, 4), (0x2FFFF, 1), (0x5FFFC, 4)],
      let s := withPort [.read an.1 an.2] State.reset
      s.resetIn = false ∧ an.1 < 0x60000 ∧ legalAccess an.1 an.2 = true ∧ s.port = .read an.1 an.2 :: [] ∧
        s.status.busy = false) ∧
    (∀ n ∈ [0x11, 0x12, 0x14, 0x00],
      StatusCoherent (waiting (BitVec.ofNat 32 n) State.reset) ∧ (waiting (BitVec.ofNat 32 n) State.reset).wait ≠ 0) ∧
    ¬ VolatileAt 0x11 0x1400 ∧ ¬ VolatileAt 0x12 0x280C ∧ ¬ VolatileAt 0x14 0x40000 ∧ ¬ VolatileAt 0x14 0x008 ∧
    ¬ VolatileAt 0x00 0x014 ∧ legalAccess 0x008 4 = true := by
  have h1 : decode 0x11 = .ok .hbuild := rfl
  have h2 : decode 0x12 = .ok .hload := rfl
  have h3 : decode 0x14 = .ok .hdec := rfl
  have h4 : decode 0x00 = .ok .nop := rfl
  refine ⟨by decide +kernel, by decide +kernel, ?_, ?_, ?_, ?_, ?_, rfl⟩ <;> unfold VolatileAt <;>
    first | rw [h1] | rw [h2] | rw [h3] | rw [h4]
  all_goals simp

end Sys2Proof.Tests
end

section
/-! Proofs about binary64 rounding (R12). A multiple of the spacing is counted by its index, so rounding to nearest, ties to
even, is rounding of one quotient to a natural number. -/

namespace Sys2Proof.Machine

/-- The integer nearest to `n / b`, the even one in a tie. -/
def roundHalfEven (n b : Nat) : Nat :=
  if 2 * (n % b) < b then n / b else if b < 2 * (n % b) then n / b + 1 else n / b + n / b % 2

/-- `rnd64` chooses its multiple of the spacing by rounding the quotient in units of the spacing. -/
theorem rnd64_eq_roundHalfEven_mul (n d : Nat) :
    rnd64 n d = roundHalfEven n (d * ulp64 (n / d)) * ulp64 (n / d) := rfl

theorem ulp64_pos (x : Nat) : 0 < ulp64 x := Nat.two_pow_pos _

/-- The distance of `roundHalfEven n b * b` from `n` is `n % b` after rounding down and `b - n % b` after rounding up; both
are `b / 2` in a tie. -/
theorem roundHalfEven_nearest (n : Nat) {b : Nat} (hb : 0 < b) :
    2 * ((roundHalfEven n b * b : Nat) - n : Int).natAbs ≤ b ∧
      (2 * ((roundHalfEven n b * b : Nat) - n : Int).natAbs = b → roundHalfEven n b % 2 = 0) := by
  have hn : n / b * b + n % b = n := Nat.div_add_mod' n b
  have hr : n % b < b := Nat.mod_lt n hb
  unfold roundHalfEven
  split_ifs with hdown hup
  · omega
  · rw [Nat.succ_mul (n / b)]
    omega
  · obtain heven | hodd := Nat.mod_two_eq_zero_or_one (n / b)
    · rw [heven, Nat.add_zero]
      omega
    · rw [hodd, Nat.succ_mul (n / b)]
      omega

/-- Settles O24, by rounding `n` in units of the divisor times the spacing. -/
theorem roundingIsNearestEven : Obligations.RoundingIsNearestEven := by
  intro n d hd
  refine ⟨roundHalfEven n (d * ulp64 (n / d)), rnd64_eq_roundHalfEven_mul n d, ?_⟩
  rw [Nat.mul_assoc, Nat.mul_comm (ulp64 (n / d)) d]
  exact roundHalfEven_nearest n (Nat.mul_pos hd (ulp64_pos _))

end Sys2Proof.Machine
end

section
/-! What a command's body can do, said once: the result it leaves, and the count `W` of bytes a failure reports (R404). The
bounds come from the loops that fill `OUT_BUF` and the node arena. -/

namespace Sys2Proof.Machine

/-- A part of a command answers a value with `P`, or fails with `W` inside `OUT_BUF` (R404). -/
def EndsWith {α : Type} (P : α → Prop) : Except Failure α → Prop
  | .ok a => P a
  | .error f => f.wrote ≤ Config.obufBytes

@[simp] theorem endsWith_ok {α : Type} (P : α → Prop) (a : α) : EndsWith P (.ok a) ↔ P a := Iff.rfl

@[simp] theorem endsWith_error {α : Type} (P : α → Prop) (f : Failure) :
    EndsWith P (.error f) ↔ f.wrote ≤ Config.obufBytes := Iff.rfl

theorem EndsWith.value {α : Type} {P : α → Prop} {r : Except Failure α} (h : EndsWith P r) {a : α} (hr : r = .ok a) :
    P a := by
  subst hr; exact h

theorem EndsWith.wrote_le {α : Type} {P : α → Prop} {r : Except Failure α} (h : EndsWith P r) {f : Failure}
    (hr : r = .error f) : f.wrote ≤ Config.obufBytes := by
  subst hr; exact h

/-! ### The start-time checks write nothing -/

theorem checkInLen_endsWith (s : State) : EndsWith (fun _ => True) (checkInLen s) := by
  unfold checkInLen
  split <;> simp

theorem checkModel_endsWith (m : Model) (c : Conf) : EndsWith (fun _ => True) (checkModel m c) := by
  unfold checkModel
  split
  · simp
  · cases m with
    | fix =>
      dsimp only
      split_ifs
      · simp
      · simp
      · split
        · simp
        · simp
      · split <;> simp
    | dir => dsimp only; split <;> simp
    | big => dsimp only; split <;> simp

theorem checkCoder_endsWith (m : Model) (s : State) : EndsWith (fun _ => True) (checkCoder m s) := by
  unfold checkCoder
  split
  · next hf => exact (checkInLen_endsWith s).wrote_le hf
  · exact checkModel_endsWith m s.conf

theorem checkHuffman_endsWith (s : State) : EndsWith (fun _ => True) (checkHuffman s) := by
  unfold checkHuffman
  split
  · next hf => exact (checkInLen_endsWith s).wrote_le hf
  · unfold checkTree
    split <;> simp

/-- The model reads symbols and writes no output (R213). -/
theorem feedModel_endsWith (m : Model) (c : Conf) (bs : List Byte) (i : Nat) (k : Counts) :
    EndsWith (fun _ => True) (feedModel m c i bs k) := by
  induction bs generalizing i k with
  | nil => trivial
  | cons b bs ih =>
    unfold feedModel
    split
    · simp
    · split
      · simp
      · exact ih _ _

/-! ### Bit streams stay inside `OUT_BUF` (R381) -/

/-- The bits fit into the 65536 bytes of `OUT_BUF`. -/
abbrev BitsFit (out : List Bool) : Prop := out.length ≤ 8 * Config.obufBytes

theorem packedLen_le {n : Nat} (h : n ≤ 8 * Config.obufBytes) : packedLen n ≤ Config.obufBytes := by
  unfold packedLen
  omega

theorem outBits_endsWith (pos sym : Nat) {out : List Bool} (h : BitsFit out) (bs : List Bool) :
    EndsWith BitsFit (outBits pos sym out bs) := by
  rw [outBits_eq pos sym out bs h]
  split
  · next hfit => simpa using hfit
  · simp

theorem outBit_endsWith (pos sym : Nat) {out : List Bool} (h : BitsFit out) (b : Bool) :
    EndsWith BitsFit (outBit pos sym out b) := by
  unfold outBit
  split
  · simpa using packedLen_le h
  · simp only [endsWith_ok, BitsFit, List.length_append, List.length_singleton]
    omega

theorem renormEncStep_endsWith (one pos sym : Nat) (k : RCase) {r : EncRun} (h : BitsFit r.out) :
    EndsWith (fun r' => BitsFit r'.out) (renormEncStep one pos sym k r) := by
  unfold renormEncStep
  cases k <;> dsimp only
  case middle => exact h
  all_goals
    split
    · next hf => exact (outBits_endsWith pos sym h _).wrote_le hf
    · next hok => exact (outBits_endsWith pos sym h _).value hok

theorem renormEnc_endsWith (one : Nat) (middle : Bool) (pos sym fuel : Nat) {r : EncRun} (h : BitsFit r.out) :
    EndsWith (fun r' => BitsFit r'.out) (renormEnc one middle pos sym fuel r) := by
  induction fuel generalizing r with
  | zero => exact h
  | succ fuel ih =>
    unfold renormEnc
    split
    · exact h
    · split
      · next hf => exact (renormEncStep_endsWith one pos sym _ h).wrote_le hf
      · next hok => exact ih ((renormEncStep_endsWith one pos sym _ h).value hok)

theorem encodeSymbols_endsWith (m : Model) (c : Conf) (bs : List Byte) (i : Nat) (k : Counts) {r : EncRun}
    (h : BitsFit r.out) : EndsWith (fun p => BitsFit p.2.out) (encodeSymbols m c i bs k r) := by
  induction bs generalizing i k r with
  | nil => exact h
  | cons b bs ih =>
    unfold encodeSymbols
    dsimp only
    split_ifs
    · exact packedLen_le h
    · exact packedLen_le h
    · split
      · exact packedLen_le h
      · have hrenorm := fun low high =>
          renormEnc_endsWith (oneOf c.numFmt) true i b.toNat Config.renormFuel (r := { r with low := low, high := high }) h
        split
        · next hf => exact (hrenorm _ _).wrote_le hf
        · next hok => exact ih _ _ ((hrenorm _ _).value hok)

theorem narrowSentinel_endsWith (m : Model) (c : Conf) (pos : Nat) (k : Counts) {r : EncRun} (h : BitsFit r.out) :
    EndsWith (fun r' => BitsFit r'.out) (narrowSentinel m c pos k r) :=
  renormEnc_endsWith _ _ _ _ _ h

theorem packDigits_endsWith (ds : List Byte) (i : Nat) {out : List Bool} (h : BitsFit out) :
    EndsWith BitsFit (packDigits i ds out) := by
  induction ds generalizing i out with
  | nil => exact h
  | cons d ds ih =>
    unfold packDigits
    split
    · split
      · next hf => exact (outBit_endsWith i d.toNat h _).wrote_le hf
      · next hok => exact ih _ ((outBit_endsWith i d.toNat h _).value hok)
    · exact packedLen_le h

theorem emitCode_endsWith (t : Huff) (pos sym : Nat) {out : List Bool} (h : BitsFit out) :
    EndsWith BitsFit (emitCode t pos sym out) := by
  unfold emitCode
  split
  · exact outBits_endsWith pos sym h _
  · exact packedLen_le h

theorem huffEncode_endsWith (t : Huff) (bs : List Byte) (i : Nat) {out : List Bool} (h : BitsFit out) :
    EndsWith BitsFit (huffEncode t i bs out) := by
  induction bs generalizing i out with
  | nil => exact h
  | cons b bs ih =>
    unfold huffEncode
    split
    · exact packedLen_le h
    · split
      · next hf => exact (emitCode_endsWith t i b.toNat h).wrote_le hf
      · next hok => exact ih _ ((emitCode_endsWith t i b.toNat h).value hok)

/-! ### Decoded bytes stay inside `OUT_BUF` (R381) -/

/-- The bytes fit into `OUT_BUF`. -/
abbrev BytesFit (out : List Byte) : Prop := out.length ≤ Config.obufBytes

/-- The search for a symbol appends nothing. -/
theorem findSymbol_out (src : Nat → Bool) (c : Conf) (v : CumVec) (n : Nat) {r : DecRun} (h : BytesFit r.out) :
    EndsWith (fun p => p.2.out = r.out) (findSymbol src c v n r) := by
  induction n generalizing r with
  | zero =>
    unfold findSymbol
    split
    · rfl
    · split
      · rfl
      · exact h
  | succ n ih =>
    unfold findSymbol
    split
    · rfl
    · split
      · rfl
      · exact ih (r := widen src r) h

theorem renormDec_out (src : Nat → Bool) (one fuel : Nat) (r : DecRun) : (renormDec src one fuel r).out = r.out := by
  induction fuel generalizing r with
  | zero => rfl
  | succ fuel ih =>
    unfold renormDec
    split
    · rfl
    · rw [ih]
      rfl

theorem acceptSymbol_out (src : Nat → Bool) (c : Conf) (v : CumVec) (x : Nat) (k : Counts) (r : DecRun) :
    (acceptSymbol src c v x k r).out = r.out ++ [BitVec.ofNat 8 x] :=
  renormDec_out _ _ _ _

theorem decodeSymbols_endsWith (src : Nat → Bool) (m : Model) (c : Conf) (room : Nat) {r : DecRun}
    (h : r.out.length + room ≤ Config.obufBytes) :
    EndsWith (fun r' => BytesFit r'.out) (decodeSymbols src m c room r) := by
  induction room generalizing r with
  | zero =>
    have hfind := findSymbol_out src c (modelVec m c r.counts) (Config.kmax - r.k) h
    unfold decodeSymbols
    split
    · next hf => exact hfind.wrote_le hf
    · next hok => exact (congrArg List.length (hfind.value hok)).trans_le h
    · next hok => exact (congrArg List.length (hfind.value hok)).trans_le h
  | succ room ih =>
    have hfind := findSymbol_out src c (modelVec m c r.counts) (Config.kmax - r.k) (r := r) (by unfold BytesFit; omega)
    unfold decodeSymbols
    split
    · next hf => exact hfind.wrote_le hf
    · next r' hok =>
      have hout : r'.out = r.out := hfind.value hok
      simp only [endsWith_ok, BytesFit, hout]
      omega
    · next x r' hok =>
      have hout : r'.out = r.out := hfind.value hok
      dsimp only
      split
      · simp only [endsWith_error, hout]
        omega
      · apply ih
        simp only [acceptSymbol_out, hout, List.length_append, List.length_singleton]
        omega

theorem prime_out (src : Nat → Bool) (n : Nat) (r : DecRun) : (prime src n r).out = r.out := by
  induction n generalizing r with
  | zero => rfl
  | succ n ih => exact ih _

theorem huffDecode_endsWith (a : Arena) (root room rpos : Nat) (bits : List Bool) {out : List Byte}
    (h : out.length + room ≤ Config.obufBytes) :
    EndsWith (fun p => BytesFit p.2) (huffDecode a root room rpos bits out) := by
  have hfit : BytesFit out := by unfold BytesFit; omega
  induction room generalizing rpos bits out with
  | zero =>
    unfold huffDecode
    split
    · exact hfit
    · exact hfit
    · split <;> exact hfit
  | succ room ih =>
    unfold huffDecode
    split
    · exact hfit
    · exact hfit
    · next sym p rest hleaf =>
      split
      · exact hfit
      · have hnext : (out ++ [BitVec.ofNat 8 sym]).length + room ≤ Config.obufBytes := by
          simp only [List.length_append, List.length_singleton]
          omega
        exact ih _ _ hnext (Nat.le_of_add_right_le hnext)

end Sys2Proof.Machine
end

section
/-! The node arena while a builder runs (R334): every node written lies below `NODE_CAP`, since no builder allocates more
nodes than the codewords need. -/

namespace Sys2Proof.Machine

/-- A builder goes from `t` to `t'` with at most `k` allocations (R334) and no write outside the arena. -/
structure Trie.Grows (k : Nat) (t t' : Trie) : Prop where
  count_ge : t.count ≤ t'.count
  count_le : t'.count ≤ t.count + k
  wf : t.arena.wf → t'.arena.wf

theorem Trie.Grows.refl (k : Nat) (t : Trie) : Trie.Grows k t t :=
  ⟨Nat.le_refl _, Nat.le_add_right _ _, id⟩

theorem Trie.Grows.trans {j k : Nat} {t t' t'' : Trie} (h : Trie.Grows j t t') (h' : Trie.Grows k t' t'') :
    Trie.Grows (j + k) t t'' where
  count_ge := h.count_ge.trans h'.count_ge
  count_le := by have := h.count_le; have := h'.count_le; omega
  wf := h'.wf ∘ h.wf

theorem Trie.Grows.mono {j k : Nat} {t t' : Trie} (h : Trie.Grows j t t') (hjk : j ≤ k) : Trie.Grows k t t' :=
  ⟨h.count_ge, h.count_le.trans (by omega), h.wf⟩

theorem Trie.grows_alloc {t : Trie} (h : t.count < Config.nodeCap) (w : Word) : Trie.Grows 1 t (t.alloc w) :=
  ⟨Nat.le_succ _, Nat.le_refl _, fun hwf => Arena.wf_write hwf h w⟩

theorem Trie.grows_setNode (t : Trie) {n : Nat} (h : n < Config.nodeCap) (w : Word) : Trie.Grows 0 t (t.setNode n w) :=
  ⟨Nat.le_refl _, Nat.le_refl _, fun hwf => Arena.wf_write hwf h w⟩

/-- A node index of 15 bits names a node of the arena (R55). -/
theorem toNat_lt_nodeCap (n : BitVec 15) : n.toNat < Config.nodeCap := n.isLt

/-! ### `HBUILD` (R336) -/

/-- `makeLeaves` allocates one node for each group. -/
theorem makeLeaves_grows (h : Huff) (syms : List Nat) {t : Trie} (ht : t.count + syms.length ≤ Config.nodeCap) :
    Trie.Grows syms.length t (makeLeaves h syms t).2 ∧
      (makeLeaves h syms t).2.count = t.count + (makeLeaves h syms t).1.length := by
  induction syms generalizing t with
  | nil => exact ⟨Trie.Grows.refl _ _, rfl⟩
  | cons sym rest ih =>
    simp only [List.length_cons] at ht
    unfold makeLeaves
    split
    · obtain ⟨hgrows, hcount⟩ := ih (t := t) (by omega)
      exact ⟨hgrows.mono (by simp), hcount⟩
    · have halloc := Trie.grows_alloc (t := t) (by omega) (leafWord sym)
      obtain ⟨hgrows, hcount⟩ := ih (t := t.alloc (leafWord sym)) (by show t.count + 1 + _ ≤ _; omega)
      refine ⟨(halloc.trans hgrows).mono (by simp only [List.length_cons]; omega), hcount.trans ?_⟩
      show t.count + 1 + _ = _
      simp only [List.length_cons]
      omega

theorem makeLeaves_ne_nil {h : Huff} {syms : List Nat} {sym : Nat} (hmem : sym ∈ syms) (hfreq : freqOf h sym ≠ 0)
    (t : Trie) : (makeLeaves h syms t).1 ≠ [] := by
  induction syms generalizing t with
  | nil => exact absurd hmem List.not_mem_nil
  | cons x rest ih =>
    unfold makeLeaves
    split
    · next hzero =>
      have hne : sym ≠ x := fun e => hfreq (e ▸ hzero)
      exact ih (List.mem_of_ne_of_mem hne hmem) t
    · exact List.cons_ne_nil _ _

theorem mergeAll_grows (fuel : Nat) (gs : List Group) {t : Trie} (ht : t.count + fuel ≤ Config.nodeCap) :
    Trie.Grows fuel t (mergeAll fuel gs t).2 := by
  induction fuel generalizing gs t with
  | zero => exact Trie.Grows.refl 0 t
  | succ fuel ih =>
    unfold mergeAll
    split
    · exact Trie.Grows.refl _ t
    · split
      · exact Trie.Grows.refl _ t
      · have halloc := Trie.grows_alloc (t := t) (by omega)
        have hroom : t.count + 1 + fuel ≤ Config.nodeCap := by omega
        exact ((halloc _).trans (ih _ hroom)).mono (by omega)

/-- The tree a builder leaves: some nodes, all below `NODE_CAP`, in a canonical arena if it started from one. -/
structure Trie.Built (s : State) (t : Trie) : Prop where
  count_pos : 0 < t.count
  count_le : t.count ≤ Config.nodeCap
  wf : s.huff.arena.wf → t.arena.wf

/-- `HBUILD` allocates at most 129 leaves and 129 merge nodes, and one leaf at least, since `FREQ[128] = 1` (R51). -/
theorem buildBody_eq_commitBuild (s : State) : ∃ g t, Trie.Built s t ∧ buildBody s = commitBuild g t s := by
  refine ⟨_, _, ?_, rfl⟩
  have hsent : (makeLeaves s.huff (List.range 129) (trieStart s)).1 ≠ [] :=
    makeLeaves_ne_nil (sym := Config.sentH) (by decide) (by simp [freqOf]) _
  obtain ⟨hleaves, hcount⟩ := makeLeaves_grows s.huff (List.range 129) (t := trieStart s)
    (by simp [trieStart, Config.nodeCap])
  have hstart : (trieStart s).count = 0 := rfl
  have hle := hleaves.count_le
  simp only [List.length_range] at hle
  have hpos := List.length_pos_iff.2 hsent
  have hmerge := mergeAll_grows (makeLeaves s.huff (List.range 129) (trieStart s)).1.length
    (makeLeaves s.huff (List.range 129) (trieStart s)).1 (t := (makeLeaves s.huff (List.range 129) (trieStart s)).2)
    (by unfold Config.nodeCap; omega)
  have hge := hmerge.count_ge
  have hle' := hmerge.count_le
  exact ⟨by omega, by unfold Config.nodeCap; omega, hmerge.wf ∘ hleaves.wf⟩

/-! ### `HLOAD` (R337) -/

theorem descend_grows {t : Trie} (ht : t.count < Config.nodeCap) {n : Nat} (hn : n < Config.nodeCap) (b : Bool) :
    Trie.Grows 1 t (descend t n b).2 ∧ (descend t n b).1 < Config.nodeCap := by
  unfold descend
  split
  · exact ⟨(Trie.grows_alloc ht emptyNode).trans (Trie.grows_setNode _ hn _), ht⟩
  · exact ⟨Trie.Grows.refl 1 t, toNat_lt_nodeCap _⟩

theorem insertCode_grows (sym : Nat) (bs : List Bool) (i : Nat) {n : Nat} {t : Trie} (hn : n < Config.nodeCap)
    (ht : t.count + bs.length ≤ Config.nodeCap) :
    EndsWith (Trie.Grows bs.length t) (insertCode sym n i bs t) := by
  induction bs generalizing i n t with
  | nil =>
    unfold insertCode
    split
    · exact Trie.grows_setNode t hn _
    · exact Nat.zero_le _
  | cons b bs ih =>
    simp only [List.length_cons] at ht
    unfold insertCode
    split
    · exact Nat.zero_le _
    · obtain ⟨hdescend, hnode⟩ := descend_grows (t := t) (by omega) hn b
      have hrest := ih (i + 1) hnode (t := (descend t n b).2) (by have := hdescend.count_le; omega)
      cases hr : insertCode sym (descend t n b).1 (i + 1) bs (descend t n b).2 with
      | error f => exact hrest.wrote_le hr
      | ok t' =>
        exact (hdescend.trans (hrest.value hr)).mono (by simp only [List.length_cons]; omega)

theorem codeOf_length (h : Huff) (sym : Nat) : (codeOf h sym).length = cwLength h sym := by simp [codeOf]

/-- Each codeword that is inserted needs at most `LMAX` nodes. -/
theorem insertAll_grows (h : Huff) (syms : List Nat) {t : Trie}
    (ht : t.count + Config.lmax * syms.length ≤ Config.nodeCap) :
    EndsWith (Trie.Grows (Config.lmax * syms.length) t) (insertAll h syms t) := by
  induction syms generalizing t with
  | nil => exact Trie.Grows.refl 0 t
  | cons sym rest ih =>
    simp only [List.length_cons, Nat.mul_succ] at ht ⊢
    unfold insertAll
    split
    · exact Nat.zero_le _
    · next hlen =>
      split
      · exact Nat.zero_le _
      · have hcode := insertCode_grows sym (codeOf h sym) 0 (n := 0) (t := t) (by decide)
          (by rw [codeOf_length]; omega)
        split
        · next hr => exact hcode.wrote_le hr
        · next t' hr =>
          have hfirst : Trie.Grows Config.lmax t t' := (hcode.value hr).mono (by rw [codeOf_length]; omega)
          have hrest := ih (t := t') (by have := hfirst.count_le; omega)
          cases hr' : insertAll h rest t' with
          | error f => exact hrest.wrote_le hr'
          | ok t'' => exact (hfirst.trans (hrest.value hr')).mono (by omega)

/-- `HLOAD` allocates the root and at most `LMAX` nodes for each of the 129 symbols. -/
theorem loadBody_endsWith (s : State) :
    EndsWith (fun b => ∃ t, Trie.Built s t ∧ b = { s with
      status := { s.status with hvalid := true }
      huff := { s.huff with hroot := 0, hnodes := BitVec.ofNat 16 t.count, arena := t.arena } }) (loadBody s) := by
  have hsyms : (validSymbols s.huff).length ≤ 129 := 
    (List.length_filter_le _ _).trans_eq List.length_range
  have hroot : Trie.Grows 1 (trieStart s) ((trieStart s).alloc emptyNode) := 
    Trie.grows_alloc (Nat.two_pow_pos 15) emptyNode
  have hcount : ((trieStart s).alloc emptyNode).count = 1 := rfl
  have hall := insertAll_grows s.huff (validSymbols s.huff) (t := (trieStart s).alloc emptyNode)
    (by unfold Config.lmax Config.nodeCap; omega)
  unfold loadBody
  split
  · exact Nat.zero_le _
  · split
    · next hr => exact hall.wrote_le hr
    · next t hr =>
      have hgrows := hall.value hr
      have hge := hgrows.count_ge
      have hle := hgrows.count_le
      unfold Config.lmax at hle
      exact ⟨t, ⟨by omega, by unfold Config.nodeCap; omega, hgrows.wf ∘ hroot.wf⟩, rfl⟩

end Sys2Proof.Machine
end

section
/-! What a body leaves of the state it starts from, per command: the writes of its completion, and nothing else. -/

namespace Sys2Proof.Machine

theorem probeBody_endsWith (m : Model) (s : State) :
    EndsWith (fun b => ∃ v k, b = commitProbe v k s) (probeBody m s) := by
  unfold probeBody
  split
  · next hf => exact (checkCoder_endsWith m s).wrote_le hf
  · split
    · next hf => exact (feedModel_endsWith m s.conf (inBytes s) 0 _).wrote_le hf
    · exact ⟨_, _, rfl⟩

theorem encodeBody_endsWith (m : Model) (s : State) :
    EndsWith (fun b => ∃ k r out, BitsFit out ∧ b = commitEncode k r out s) (encodeBody m s) := by
  have hsyms := encodeSymbols_endsWith m s.conf (inBytes s) 0 (modelInit m s.work.counts)
    (r := encStart s.conf.numFmt) (Nat.zero_le _)
  unfold encodeBody
  split
  · next hf => exact (checkCoder_endsWith m s).wrote_le hf
  · split
    · next hf => exact hsyms.wrote_le hf
    · next k r hr =>
      have hsent := narrowSentinel_endsWith m s.conf (inLen s) k (hsyms.value hr)
      split
      · next hf => exact hsent.wrote_le hf
      · next r' hr' =>
        have hlast := outBit_endsWith (inLen s) (nsymOf s.conf) (hsent.value hr') true
        split
        · next hf => exact hlast.wrote_le hf
        · next out hout => exact ⟨k, r', out, hlast.value hout, rfl⟩

theorem decStart_out (src : Nat → Bool) (fmt : NumFmt) (k : Counts) : (decStart src fmt k).out = [] :=
  prime_out _ _ _

/-- `ADEC` through its two partial answers (R270). Later proofs take the answer of the loop from here and never compare the
matches of `decodeBody`, which would make the kernel evaluate a loop of 65536 rounds. -/
theorem decodeBody_eq_bind (m : Model) (s : State) :
    decodeBody m s = (checkCoder m s).bind fun _ =>
      (decodeSymbols (inBitZ s) m s.conf Config.obufBytes
        (decStart (inBitZ s) s.conf.numFmt (modelInit m s.work.counts))).map fun r => commitDecode r s := by
  unfold decodeBody
  generalize decodeSymbols (inBitZ s) m s.conf Config.obufBytes
    (decStart (inBitZ s) s.conf.numFmt (modelInit m s.work.counts)) = run
  generalize checkCoder m s = check
  cases check <;> cases run <;> rfl

theorem decodeBody_endsWith (m : Model) (s : State) :
    EndsWith (fun b => ∃ r, BytesFit r.out ∧ b = commitDecode r s) (decodeBody m s) := by
  have hcheck := checkCoder_endsWith m s
  have hsyms := decodeSymbols_endsWith (inBitZ s) m s.conf Config.obufBytes
    (r := decStart (inBitZ s) s.conf.numFmt (modelInit m s.work.counts)) (by rw [decStart_out]; simp)
  rw [decodeBody_eq_bind]
  generalize decodeSymbols (inBitZ s) m s.conf Config.obufBytes
    (decStart (inBitZ s) s.conf.numFmt (modelInit m s.work.counts)) = run at hsyms ⊢
  cases hc : checkCoder m s with
  | error f => exact hcheck.wrote_le hc
  | ok _ =>
    cases run with
    | error f => exact hsyms
    | ok r => exact ⟨r, hsyms, rfl⟩

theorem countBody_endsWith (s : State) :
    EndsWith (fun b => ∃ freq work, b = { s with huff := { s.huff with freq := freq }, work := work }) (countBody s) := by
  unfold countBody
  split
  · next hf => exact (checkInLen_endsWith s).wrote_le hf
  · split
    · exact Nat.zero_le _
    · exact ⟨_, _, rfl⟩

theorem huffEncodeBody_endsWith (s : State) :
    EndsWith (fun b => ∃ out work, BitsFit out ∧ b = commitBits out { s with work := work }) (huffEncodeBody s) := by
  have hsyms := huffEncode_endsWith s.huff (inBytes s) 0 (out := []) (Nat.zero_le _)
  unfold huffEncodeBody
  split
  · next hf => exact (checkHuffman_endsWith s).wrote_le hf
  · split
    · next hf => exact hsyms.wrote_le hf
    · next out hout =>
      have hsent := emitCode_endsWith s.huff (inLen s) Config.sentH (hsyms.value hout)
      split
      · next hf => exact hsent.wrote_le hf
      · next out' hout' => exact ⟨out', _, hsent.value hout', rfl⟩

theorem huffDecodeBody_endsWith (s : State) :
    EndsWith (fun b => ∃ out rpos, BytesFit out ∧ b = { commitBytes out s with
      res := { (commitBytes out s).res with rdBits := BitVec.ofNat 32 rpos }
      work := { (commitBytes out s).work with rpos := rpos } }) (huffDecodeBody s) := by
  have hwalk := huffDecode_endsWith s.huff.arena s.huff.hroot.toNat Config.obufBytes 0 (inBits s) (out := [])
    (by simp)
  unfold huffDecodeBody
  split
  · next hf => exact (checkHuffman_endsWith s).wrote_le hf
  · split
    · next hf => exact hwalk.wrote_le hf
    · next rpos out hout => exact ⟨out, rpos, hwalk.value hout, rfl⟩

theorem packBody_endsWith (s : State) :
    EndsWith (fun b => ∃ out work, BitsFit out ∧ b = commitBits out { s with work := work }) (packBody s) := by
  have hdigits := packDigits_endsWith (inBytes s) 0 (out := []) (Nat.zero_le _)
  unfold packBody
  split
  · next hf => exact (checkInLen_endsWith s).wrote_le hf
  · split
    · next hf => exact hdigits.wrote_le hf
    · next out hout => exact ⟨out, _, hdigits.value hout, rfl⟩

theorem unpackBody_endsWith (s : State) :
    EndsWith (fun b => ∃ out work, BytesFit out ∧ b = commitBytes out { s with work := work }) (unpackBody s) := by
  unfold unpackBody
  split
  · next hf => exact (checkInLen_endsWith s).wrote_le hf
  · split
    · exact Nat.zero_le _
    · next hroom =>
      refine ⟨_, _, ?_, rfl⟩
      simp only [BytesFit, inBits, List.length_map, List.length_range]
      omega

/-! ### The frame of a body -/

@[simp] theorem Memory.overwrite_nil (m : Memory) : m.overwrite [] = m := by
  simp [Memory.overwrite, Cells.overwrite, Cells.indexed]

/-- The state `b` that a body leaves from `s`, as far as the invariants see it: the setup is kept (R105), `STATUS` but for
`HVALID`, and `OUT_BUF` but for bytes that fit; `OUT_LEN` counts such bytes; the tree is kept or a new one (R334). -/
structure BodyFrame (s b : State) : Prop where
  inBuf : b.inBuf = s.inBuf
  resetIn : b.resetIn = s.resetIn
  status : b.status = { s.status with hvalid := b.status.hvalid }
  outBuf : ∃ out, BytesFit out ∧ b.outBuf = s.outBuf.overwrite out
  outLen : b.res.outLen = s.res.outLen ∨ b.res.outLen.toNat ≤ Config.obufBytes
  arena : s.huff.arena.wf → b.huff.arena.wf
  nodes : (b.huff.hnodes = s.huff.hnodes ∧ b.huff.hroot = s.huff.hroot) ∨
    (b.huff.hnodes.toNat ≤ Config.nodeCap ∧ b.huff.hnodes ≠ 0)

theorem BodyFrame.refl (s : State) : BodyFrame s s where
  inBuf := rfl
  resetIn := rfl
  status := rfl
  outBuf := ⟨[], Nat.zero_le _, (Memory.overwrite_nil _).symm⟩
  outLen := .inl rfl
  arena := id
  nodes := .inl ⟨rfl, rfl⟩

/-- A byte count that fits into `OUT_BUF` fits into `OUT_LEN` (R43). -/
theorem toNat_ofNat_le_obufBytes {n : Nat} (h : n ≤ Config.obufBytes) :
    (BitVec.ofNat 32 n).toNat ≤ Config.obufBytes := by
  rw [BitVec.toNat_ofNat]
  exact (Nat.mod_le _ _).trans h

theorem bodyFrame_commitBits {out : List Bool} (h : BitsFit out) (s : State) : BodyFrame s (commitBits out s) :=
  { BodyFrame.refl s with
    outBuf := ⟨packBits out, by simpa using packedLen_le h, rfl⟩
    outLen := .inr (toNat_ofNat_le_obufBytes (packedLen_le h)) }

theorem bodyFrame_commitBytes {out : List Byte} (h : BytesFit out) (s : State) : BodyFrame s (commitBytes out s) :=
  { BodyFrame.refl s with
    outBuf := ⟨out, h, rfl⟩
    outLen := .inr (toNat_ofNat_le_obufBytes h) }

/-- `HNODES` of a built tree is its node count, which is not 0 (R48). -/
theorem Trie.Built.hnodes {s : State} {t : Trie} (h : Trie.Built s t) :
    (BitVec.ofNat 16 t.count).toNat ≤ Config.nodeCap ∧ BitVec.ofNat 16 t.count ≠ 0 := by
  have hpos := h.count_pos
  have hle := h.count_le
  unfold Config.nodeCap at *
  have hval : (BitVec.ofNat 16 t.count).toNat = t.count := by
    rw [BitVec.toNat_ofNat]
    exact Nat.mod_eq_of_lt (by omega)
  refine ⟨by omega, fun hzero => ?_⟩
  rw [hzero] at hval
  simp at hval
  omega

theorem EndsWith.mono {α : Type} {P Q : α → Prop} {r : Except Failure α} (h : EndsWith P r) (hPQ : ∀ a, P a → Q a) :
    EndsWith Q r := by
  cases r with
  | ok a => exact hPQ a h
  | error f => exact h

theorem encodeBody_frame (m : Model) (s : State) : EndsWith (BodyFrame s) (encodeBody m s) :=
  (encodeBody_endsWith m s).mono fun _ ⟨_, _, _, hfit, hb⟩ => hb ▸ { bodyFrame_commitBits hfit s with }

theorem decodeBody_frame (m : Model) (s : State) : EndsWith (BodyFrame s) (decodeBody m s) :=
  (decodeBody_endsWith m s).mono fun _ ⟨_, hfit, hb⟩ => hb ▸ { bodyFrame_commitBytes hfit s with }

theorem probeBody_frame (m : Model) (s : State) : EndsWith (BodyFrame s) (probeBody m s) :=
  (probeBody_endsWith m s).mono fun _ ⟨_, _, hb⟩ => hb ▸ { BodyFrame.refl s with }

theorem countBody_frame (s : State) : EndsWith (BodyFrame s) (countBody s) :=
  (countBody_endsWith s).mono fun _ ⟨_, _, hb⟩ => hb ▸ { BodyFrame.refl s with }

theorem buildBody_frame (s : State) : BodyFrame s (buildBody s) := by
  obtain ⟨g, t, hbuilt, hb⟩ := buildBody_eq_commitBuild s
  exact hb ▸ { BodyFrame.refl s with arena := hbuilt.wf, nodes := .inr hbuilt.hnodes, status := rfl }

theorem loadBody_frame (s : State) : EndsWith (BodyFrame s) (loadBody s) :=
  (loadBody_endsWith s).mono fun _ ⟨_, hbuilt, hb⟩ =>
    hb ▸ { BodyFrame.refl s with arena := hbuilt.wf, nodes := .inr hbuilt.hnodes, status := rfl }

theorem huffEncodeBody_frame (s : State) : EndsWith (BodyFrame s) (huffEncodeBody s) :=
  (huffEncodeBody_endsWith s).mono fun _ ⟨_, _, hfit, hb⟩ => hb ▸ { bodyFrame_commitBits hfit s with }

theorem huffDecodeBody_frame (s : State) : EndsWith (BodyFrame s) (huffDecodeBody s) :=
  (huffDecodeBody_endsWith s).mono fun _ ⟨_, _, hfit, hb⟩ => hb ▸ { bodyFrame_commitBytes hfit s with }

theorem packBody_frame (s : State) : EndsWith (BodyFrame s) (packBody s) :=
  (packBody_endsWith s).mono fun _ ⟨_, _, hfit, hb⟩ => hb ▸ { bodyFrame_commitBits hfit s with }

theorem unpackBody_frame (s : State) : EndsWith (BodyFrame s) (unpackBody s) :=
  (unpackBody_endsWith s).mono fun _ ⟨_, _, hfit, hb⟩ => hb ▸ { bodyFrame_commitBytes hfit s with }

theorem bodyOf_frame (i : Instr) (s : State) : EndsWith (BodyFrame s) (bodyOf i s) := by
  cases i with
  | nop => exact BodyFrame.refl s
  | aencFix | aencDir | aencBig => exact encodeBody_frame _ s
  | adecFix | adecDir | adecBig => exact decodeBody_frame _ s
  | mprobeFix | mprobeDir | mprobeBig => exact probeBody_frame _ s
  | hcount => exact countBody_frame s
  | hbuild => exact buildBody_frame s
  | hload => exact loadBody_frame s
  | henc => exact huffEncodeBody_frame s
  | hdec => exact huffDecodeBody_frame s
  | pack => exact packBody_frame s
  | unpack => exact unpackBody_frame s

end Sys2Proof.Machine
end

section
/-! The address map by regions (R101), and read backwards. -/

namespace Sys2Proof.Machine

/-! ### The regions -/

section

variable {a : Nat}

theorem locate_register (h : a < 0x58) : locate a = registerMap.getD (a / 4) .hole := if_pos h

theorem locate_diagEnc (h : 0x60 ≤ a) (h' : a < 0x78) : locate a = .diagEnc ((a - 0x60) / 4) := by
  unfold locate
  repeat rw [if_neg (by omega)]
  exact if_pos ⟨h, h'⟩

theorem locate_fixCum (h : 0x1000 ≤ a) (h' : a < 0x1200) : locate a = .fixCum ((a - 0x1000) / 4) := by
  unfold locate
  repeat rw [if_neg (by omega)]
  exact if_pos ⟨h, h'⟩

theorem locate_freq (h : 0x1400 ≤ a) (h' : a < 0x1604) : locate a = .freq ((a - 0x1400) / 4) := by
  unfold locate
  repeat rw [if_neg (by omega)]
  exact if_pos ⟨h, h'⟩

theorem locate_cwLen (h : 0x1800 ≤ a) (h' : a < 0x1A04) : locate a = .cwLen ((a - 0x1800) / 4) := by
  unfold locate
  repeat rw [if_neg (by omega)]
  exact if_pos ⟨h, h'⟩

theorem locate_cwBits (h : 0x2000 ≤ a) (h' : a < 0x2810) :
    locate a = .cwBits ((a - 0x2000) / 16) ((a - 0x2000) / 4 % 4) := by
  unfold locate
  repeat rw [if_neg (by omega)]
  exact if_pos ⟨h, h'⟩

theorem locate_probeCum (h : 0x3000 ≤ a) (h' : a < 0x3200) : locate a = .probeCum ((a - 0x3000) / 4) := by
  unfold locate
  repeat rw [if_neg (by omega)]
  exact if_pos ⟨h, h'⟩

theorem locate_inBuf (h : 0x10000 ≤ a) (h' : a < 0x20000) : locate a = .inBuf (a - 0x10000) := by
  unfold locate
  repeat rw [if_neg (by omega)]
  exact if_pos ⟨h, h'⟩

theorem locate_outBuf (h : 0x20000 ≤ a) (h' : a < 0x30000) : locate a = .outBuf (a - 0x20000) := by
  unfold locate
  repeat rw [if_neg (by omega)]
  exact if_pos ⟨h, h'⟩

theorem locate_hnode (h : 0x40000 ≤ a) (h' : a < 0x60000) : locate a = .hnode ((a - 0x40000) / 4) := by
  unfold locate
  repeat rw [if_neg (by omega)]
  exact if_pos ⟨h, h'⟩

end

/-- Every offset that is no hole lies in one of the regions of R101. -/
theorem region_of_ne_hole {a : Nat} (h : locate a ≠ .hole) :
    a < 0x58 ∨ (0x60 ≤ a ∧ a < 0x78) ∨ (0x1000 ≤ a ∧ a < 0x1200) ∨ (0x1400 ≤ a ∧ a < 0x1604) ∨
      (0x1800 ≤ a ∧ a < 0x1A04) ∨ (0x2000 ≤ a ∧ a < 0x2810) ∨ (0x3000 ≤ a ∧ a < 0x3200) ∨
      (0x10000 ≤ a ∧ a < 0x20000) ∨ (0x20000 ≤ a ∧ a < 0x30000) ∨ (0x40000 ≤ a ∧ a < 0x60000) := by
  by_contra hno
  refine h ?_
  unfold locate
  repeat rw [if_neg (by omega)]

/-! ### Legal accesses (R108) -/

theorem legalAccess_word {a : Nat} (halign : a % 4 = 0) : legalAccess a 4 = true := by
  simp [legalAccess, halign]

theorem legalAccess_size {a n : Nat} (h : legalAccess a n = true) : n ≤ 4 := by
  unfold legalAccess at h
  split at h <;> simp only [Bool.and_eq_true, Bool.or_eq_true, beq_iff_eq] at h <;> omega

theorem legalAccess_aligned {a n : Nat} (h : legalAccess a n = true) (ha : a < 0x10000 ∨ 0x30000 ≤ a) : a % 4 = 0 := by
  have hbuf : inByteBuffer a = false := by
    simp only [inByteBuffer, Bool.and_eq_false_iff, decide_eq_false_iff_not]
    omega
  simp only [legalAccess, hbuf, Bool.false_eq_true, if_false, Bool.and_eq_true, beq_iff_eq] at h
  exact h.2

theorem legalAccess_buffer {a n : Nat} (h : legalAccess a n = true) (ha : 0x10000 ≤ a) (ha' : a < 0x30000) :
    (n = 1 ∨ n = 2 ∨ n = 4) ∧ a % n = 0 := by
  have hbuf : inByteBuffer a = true := by simp [inByteBuffer, ha, ha']
  simpa [legalAccess, hbuf, or_assoc] using h

/-! ### The map read backwards -/

/-- The offset of a location, the address map read backwards; a hole stands outside the aperture. -/
def offsetOf : Loc → Nat
  | .id => 0x00
  | .ctrl => 0x04
  | .status => 0x08
  | .cmd => 0x0C
  | .inLen => 0x10
  | .outLen => 0x14
  | .outBits => 0x18
  | .rdBits => 0x1C
  | .errPos => 0x20
  | .errSym => 0x24
  | .acfg => 0x28
  | .alpha => 0x2C
  | .fixDen => 0x30
  | .hroot => 0x34
  | .hnodes => 0x38
  | .probeDen => 0x3C
  | .diagLowL => 0x40
  | .diagLowH => 0x44
  | .diagHighL => 0x48
  | .diagHighH => 0x4C
  | .diagPend => 0x50
  | .diagK => 0x54
  | .diagEnc m => 0x60 + 4 * m
  | .fixCum c => 0x1000 + 4 * c
  | .freq x => 0x1400 + 4 * x
  | .cwLen x => 0x1800 + 4 * x
  | .cwBits x m => 0x2000 + 16 * x + 4 * m
  | .probeCum c => 0x3000 + 4 * c
  | .inBuf i => 0x10000 + i
  | .outBuf i => 0x20000 + i
  | .hnode n => 0x40000 + 4 * n
  | .hole => 0x60000

theorem offsetOf_registerMap : ∀ j < 22, offsetOf (registerMap.getD j .hole) = 4 * j := by decide

/-- A legal access names its location by offset: a word by its aligned offset, a buffer by the byte. -/
theorem offsetOf_locate {a n : Nat} (hlegal : legalAccess a n = true) (hhole : locate a ≠ .hole) :
    offsetOf (locate a) = a := by
  have halign := legalAccess_aligned hlegal
  obtain h | ⟨h, h'⟩ | ⟨h, h'⟩ | ⟨h, h'⟩ | ⟨h, h'⟩ | ⟨h, h'⟩ | ⟨h, h'⟩ | ⟨h, h'⟩ | ⟨h, h'⟩ | ⟨h, h'⟩ :=
    region_of_ne_hole hhole
  · rw [locate_register h, offsetOf_registerMap _ (by omega)]
    omega
  · rw [locate_diagEnc h h', offsetOf]
    omega
  · rw [locate_fixCum h h', offsetOf]
    omega
  · rw [locate_freq h h', offsetOf]
    omega
  · rw [locate_cwLen h h', offsetOf]
    omega
  · rw [locate_cwBits h h', offsetOf]
    omega
  · rw [locate_probeCum h h', offsetOf]
    omega
  · rw [locate_inBuf h h', offsetOf]
    omega
  · rw [locate_outBuf h h', offsetOf]
    omega
  · rw [locate_hnode h h', offsetOf]
    omega

/-- Two word offsets in the aperture name different locations, unless both are holes. -/
theorem offsetOf_locate_ne {a b : Nat} (ha : a % 4 = 0) (hhole : locate a ≠ .hole) (hlt : a < 0x60000) (hb : b % 4 = 0)
    (hne : b ≠ a) : offsetOf (locate b) ≠ offsetOf (locate a) := by
  rw [offsetOf_locate (legalAccess_word ha) hhole]
  by_cases hholeb : locate b = .hole
  · rw [hholeb, offsetOf]
    omega
  · rwa [offsetOf_locate (legalAccess_word hb) hholeb]

theorem locate_ne_of_ne_offsetOf {b : Nat} {loc : Loc} (hb : b % 4 = 0) (hhole : loc ≠ .hole) (hne : b ≠ offsetOf loc) :
    locate b ≠ loc := by
  rintro rfl
  exact hne (offsetOf_locate (legalAccess_word hb) hhole).symm

/-- A legal access to `IN_BUF` stays inside it (R108). -/
theorem legalAccess_inBuf {a n i : Nat} (hlegal : legalAccess a n = true) (hloc : locate a = .inBuf i) :
    i + n ≤ 0x10000 := by
  have hhole : locate a ≠ .hole := by
    rw [hloc]
    nofun
  have ha := offsetOf_locate hlegal hhole
  rw [hloc, offsetOf] at ha
  have hlt : a < 0x20000 := by
    by_contra hge
    have hregion := region_of_ne_hole hhole
    obtain h | h : a < 0x30000 ∨ 0x40000 ≤ a ∧ a < 0x60000 := by omega
    · exact absurd ((locate_outBuf (by omega) h).symm.trans hloc) nofun
    · exact absurd ((locate_hnode h.1 h.2).symm.trans hloc) nofun
  obtain ⟨rfl | rfl | rfl, halign⟩ := legalAccess_buffer hlegal (by omega) (by omega) <;> omega

end Sys2Proof.Machine
end

section
/-! What a step can do, said once, and the invariants of the stores, of `STATUS` and of the registers derived from it. -/

namespace Sys2Proof.Machine

/-! ### The port -/

/-- What one arrival at the port can do to the state (R106 to R109, R451, R461). -/
inductive PortEffect (s : State) : State → Prop
  | kept : PortEffect s s
  | dataRead (d : Word) : PortEffect s { s with rdata := d, free := s.free + 1 }
  | illegalRead : PortEffect s { busError s with rdata := 0 }
  | illegalWrite : PortEffect s (busError s)
  | softReset : PortEffect s (softReset s)
  | irqEnable (b : Bool) : PortEffect s { s with irqEn := b }
  | statusWrite (v : Word) : PortEffect s (writeStatus v s)
  | dropped : PortEffect s { s with status := { s.status with wbusy := true } }
  | accepted (w : Word) (hreset : s.resetIn = false) (hidle : s.status.busy = false) : PortEffect s (acceptCommand w s)
  | stored (a n : Nat) (v : Word) (hlegal : legalAccess a n = true) : PortEffect s (storeWord (locate a) n v s)
  | hardReset (level : Bool) : PortEffect s { hardReset s with resetIn := level }

theorem writeCtrl_portEffect (v : Word) (s : State) : PortEffect s (writeCtrl v s) := by
  unfold writeCtrl
  split
  · exact .softReset
  · exact .irqEnable _

theorem writeIdle_portEffect {a n : Nat} (hlegal : legalAccess a n = true) (v : Word) {s : State}
    (hreset : s.resetIn = false) : PortEffect s (writeIdle (locate a) n v s) := by
  unfold writeIdle
  split
  · exact .dropped
  · next hidle =>
    split
    · exact .accepted v hreset (by simpa using hidle)
    · exact .stored a n v hlegal

theorem memWrite_of_illegal {a n : Nat} (h : legalAccess a n = false) (v : Word) (s : State) :
    memWrite a n v s = busError s := by
  simp [memWrite, h]

theorem portWrite_portEffect (a n : Nat) (v : Word) (s : State) : PortEffect s (portWrite a n v s) := by
  unfold portWrite
  split
  · exact .kept
  · next hreset =>
    cases hlegal : legalAccess a n with
    | false => exact memWrite_of_illegal hlegal v s ▸ .illegalWrite
    | true =>
      obtain h | h | h | h | h := memWrite_cases a n v s <;> rw [h]
      · exact .illegalWrite
      · exact .kept
      · exact writeCtrl_portEffect v s
      · exact .statusWrite v
      · exact writeIdle_portEffect hlegal v (by simpa using hreset)

theorem portRead_portEffect (a n : Nat) (s : State) : PortEffect s (portRead a n s) := by
  unfold portRead memRead
  split
  · exact .dataRead _
  · split
    · exact .dataRead _
    · exact .illegalRead

theorem setResetInput_portEffect (level : Bool) (s : State) : PortEffect s (setResetInput level s) := by
  unfold setResetInput
  split
  · exact .hardReset true
  · split
    · exact .hardReset false
    · exact .kept

theorem serve_portEffect (e : PortEvent) (s : State) : PortEffect s (serve e s) := by
  obtain ⟨a, n, -, -, h⟩ | ⟨a, n, v, -, -, h⟩ | ⟨a, n, -, -, h⟩ | ⟨a, n, v, -, -, h⟩ | ⟨level, -, h⟩ :=
    serve_cases e s <;> rw [h]
  · exact portRead_portEffect a n s
  · exact portWrite_portEffect a n v s
  · exact .dataRead _
  · exact .kept
  · exact setResetInput_portEffect level s

/-! ### Commands -/

/-- The two ends of a running command (R400), from the state `s` after its prologue. -/
inductive CommandEffect (s : State) : State → Prop
  | completed (b : State) (hframe : BodyFrame s b) : CommandEffect s (completeDone b)
  | raised (f : Failure) (hwrote : f.wrote ≤ Config.obufBytes) : CommandEffect s (raiseErr f s)

theorem exec_commandEffect {i : Instr} {s t : State} (h : exec i s = .next t) : CommandEffect (entryOf i s) t := by
  have hbody := bodyOf_frame i (entryOf i s)
  obtain ⟨b, hb, rfl⟩ | ⟨f, hf, rfl⟩ := exec_cases h
  · exact .completed b (hbody.value hb)
  · exact .raised f (hbody.wrote_le hf)

theorem illegalCommand_commandEffect (s : State) : CommandEffect s (illegalCommand s) :=
  .raised _ (Nat.zero_le _)

theorem entryOf_cases (i : Instr) (s : State) : entryOf i s = s ∨ entryOf i s = startCommand s := by
  cases i with
  | nop => exact .inl rfl
  | _ => exact .inr rfl

/-! ### Steps -/

/-- A step is the end of the running command or one slot of the port. -/
theorem step_effect {s t : State} (h : step s = .next t) :
    (s.status.busy = true ∧ ∃ u, (u = s ∨ u = startCommand s) ∧ CommandEffect u t) ∨
    ∃ port, PortEffect { passSlot s with port := port } t := by
  obtain ⟨i, hbusy, -, -, ht⟩ | ⟨_, hbusy, -, -, rfl⟩ | ⟨-, -, rfl⟩ | ⟨e, rest, -, -, rfl⟩ := step_cases h
  · exact .inl ⟨hbusy, entryOf i s, entryOf_cases i s, exec_commandEffect ht⟩
  · exact .inl ⟨hbusy, s, .inl rfl, illegalCommand_commandEffect s⟩
  · exact .inr ⟨s.port, .kept⟩
  · exact .inr ⟨rest, serve_portEffect e _⟩

/-- An invariant that the prologue, the end of a command, a slot of the port and every arrival keep is kept by every step. -/
theorem step_keeps {Inv : State → Prop} (hstart : ∀ s, Inv s → Inv (startCommand s))
    (hcommand : ∀ s t, s.status.busy = true → Inv s → CommandEffect s t → Inv t)
    (hslot : ∀ s port, Inv s → Inv { passSlot s with port := port })
    (hport : ∀ s t, Inv s → PortEffect s t → Inv t) (s t : State) (hs : Inv s) (h : step s = .next t) : Inv t := by
  obtain ⟨hbusy, u, rfl | rfl, heffect⟩ | ⟨port, heffect⟩ := step_effect h
  · exact hcommand u t hbusy hs heffect
  · exact hcommand (startCommand s) t hbusy (hstart s hs) heffect
  · exact hport _ t (hslot s port hs) heffect

/-! ### The stores -/

theorem storesCanonical_storeWord {a n : Nat} (hlegal : legalAccess a n = true) (v : Word) {s : State}
    (hs : StoresCanonical s) : StoresCanonical (storeWord (locate a) n v s) := by
  cases hloc : locate a with
  | inBuf i =>
    obtain ⟨hin, hout, harena⟩ := hs
    have hlen : (lanes v n).length = n := by simp [lanes]
    exact ⟨Memory.wf_writeMany hin (hlen.symm ▸ legalAccess_inBuf hlegal hloc), hout, harena⟩
  | _ => exact hs

theorem storesCanonical_softReset {s : State} (hs : StoresCanonical s) : StoresCanonical (softReset s) := by
  obtain ⟨hin, hout, harena⟩ := hs
  refine ⟨hin, ?_, ?_⟩
  · rw [softReset_outBuf]
    split
    · exact Memory.wf_fresh _
    · exact hout
  · show Arena.wf (ite _ _ _)
    split
    · exact Arena.wf_fresh _
    · exact harena

theorem storesCanonical_of_portEffect (s t : State) (hs : StoresCanonical s) (h : PortEffect s t) :
    StoresCanonical t := by
  cases h with
  | softReset => exact storesCanonical_softReset hs
  | stored a n v hlegal => exact storesCanonical_storeWord hlegal v hs
  | hardReset level => exact ⟨Memory.wf_fresh _, Memory.wf_fresh _, Arena.wf_fresh _⟩
  | _ => exact hs

theorem storesCanonical_of_commandEffect (s t : State) (hs : StoresCanonical s) (h : CommandEffect s t) :
    StoresCanonical t := by
  obtain ⟨hin, hout, harena⟩ := hs
  cases h with
  | completed b hframe =>
    obtain ⟨out, hfit, hb⟩ := hframe.outBuf
    exact ⟨hframe.inBuf ▸ hin, hb ▸ Memory.wf_overwrite hout hfit, hframe.arena harena⟩
  | raised f hwrote =>
    refine ⟨(raiseErr_inBuf f s).symm ▸ hin, (raiseErr_outBuf f s).symm ▸ Memory.wf_scramble hout _ hwrote, ?_⟩
    rw [raiseErr_huff]
    split
    · exact Arena.wf_fresh _
    · exact harena

/-- Settles O42: the bytes a command writes fit into `OUT_BUF`, the nodes a builder allocates fit into the arena, and a legal
write to `IN_BUF` stays inside it. -/
theorem stepKeepsStoresCanonical : Obligations.StepKeepsStoresCanonical :=
  step_keeps (fun _ hs => hs) (fun s t _ => storesCanonical_of_commandEffect s t) (fun _ _ hs => hs)
    storesCanonical_of_portEffect

/-! ### `STATUS` -/

theorem ErrCode.toByte_listed (c : ErrCode) : c.toByte ∈ errCodeValues ∧ c.toByte ≠ 0 := by
  cases c <;> decide

theorem zero_mem_errCodeValues : 0 ∈ errCodeValues := by decide

/-- No store changes `STATUS` but for `HVALID` (R54), and none the reset input. -/
theorem storeWord_status (loc : Loc) (n : Nat) (v : Word) (s : State) :
    (storeWord loc n v s).status = { s.status with hvalid := (storeWord loc n v s).status.hvalid } ∧
      (storeWord loc n v s).resetIn = s.resetIn := by
  cases loc <;> exact ⟨rfl, rfl⟩

/-- `HVALID` plays no part in the coherence of `STATUS`. -/
theorem statusCoherent_of_status_eq {s t : State} (hs : StatusCoherent s)
    (hstatus : t.status = { s.status with hvalid := t.status.hvalid }) (hreset : t.resetIn = s.resetIn) :
    StatusCoherent t := by
  unfold StatusCoherent
  rw [hstatus, hreset]
  exact hs

/-- `STATUS` after reset, with the reset input at any level. -/
theorem statusCoherent_reset {s : State} (h : s.status = Status.reset) : StatusCoherent s := by
  unfold StatusCoherent
  rw [h]
  exact ⟨rfl, rfl, rfl, zero_mem_errCodeValues, fun _ => rfl, fun _ => rfl, nofun, fun _ => rfl⟩

theorem statusCoherent_writeStatus (v : Word) {s : State} (hs : StatusCoherent s) :
    StatusCoherent (writeStatus v s) := by
  obtain ⟨hbd, hbe, hde, hlisted, hbusy, hdone, herr, hreset⟩ := hs
  rw [Bool.and_eq_false_imp] at hbd hbe hde
  refine ⟨?_, ?_, ?_, hlisted, hbusy, fun h => hdone (Bool.and_elim_left h), fun h => herr (Bool.and_elim_left h), hreset⟩
  all_goals rw [Bool.and_eq_false_imp]
  · exact fun h => Bool.and_eq_false_imp.2 fun h' => absurd h' (by simp [hbd h])
  · exact fun h => Bool.and_eq_false_imp.2 fun h' => absurd h' (by simp [hbe h])
  · exact fun h => Bool.and_eq_false_imp.2 fun h' => absurd h' (by simp [hde (Bool.and_elim_left h)])

theorem statusCoherent_of_portEffect (s t : State) (hs : StatusCoherent s) (h : PortEffect s t) :
    StatusCoherent t := by
  cases h with
  | softReset => exact statusCoherent_reset rfl
  | hardReset level => exact statusCoherent_reset rfl
  | statusWrite v => exact statusCoherent_writeStatus v hs
  | accepted w hreset =>
    exact ⟨rfl, rfl, rfl, zero_mem_errCodeValues, fun _ => rfl, nofun, nofun,
      fun h => absurd (hreset.symm.trans h) Bool.false_ne_true⟩
  | stored a n v =>
    obtain ⟨hstatus, hreset⟩ := storeWord_status (locate a) n v s
    exact statusCoherent_of_status_eq hs hstatus hreset
  | _ => exact hs

/-- A running command has no ending to show yet (R37). -/
theorem StatusCoherent.of_busy {s : State} (hs : StatusCoherent s) (hbusy : s.status.busy = true) :
    s.status.done = false ∧ s.status.err = false := by
  obtain ⟨hbd, hbe, -⟩ := hs
  simpa [hbusy] using And.intro hbd hbe

/-- The end of a command that ran with `DONE = ERR = 0`: `BUSY` falls and one of the two rises, with a fitting `ERRCODE`
(R404, R405). -/
theorem CommandEffect.status {s t : State} (h : CommandEffect s t) (hdone : s.status.done = false)
    (herr : s.status.err = false) :
    t.status.busy = false ∧
      ((t.status.done = true ∧ t.status.err = false ∧ t.status.errcode = 0) ∨
        (t.status.done = false ∧ t.status.err = true ∧ t.status.errcode ∈ errCodeValues ∧ t.status.errcode ≠ 0)) := by
  cases h with
  | completed b hframe =>
    refine ⟨rfl, .inl ⟨rfl, ?_, rfl⟩⟩
    rw [completeDone_status, Status.complete_err, hframe.status]
    exact herr
  | raised f =>
    obtain ⟨hlisted, hnonzero⟩ := f.code.toByte_listed
    rw [raiseErr_status]
    split <;> exact ⟨rfl, .inr ⟨hdone, rfl, hlisted, hnonzero⟩⟩

theorem statusCoherent_of_commandEffect (s t : State) (hbusy : s.status.busy = true) (hs : StatusCoherent s)
    (h : CommandEffect s t) : StatusCoherent t := by
  obtain ⟨hdone, herr⟩ := hs.of_busy hbusy
  obtain ⟨hidle, ⟨hd, he, hcode⟩ | ⟨hd, he, hlisted, hcode⟩⟩ := h.status hdone herr <;>
    simp only [StatusCoherent, hidle, hd, he]
  · rw [hcode]
    exact ⟨rfl, rfl, rfl, zero_mem_errCodeValues, fun _ => rfl, fun _ => rfl, nofun, fun _ => trivial⟩
  · exact ⟨rfl, rfl, rfl, hlisted, nofun, nofun, fun _ => hcode, fun _ => trivial⟩

/-- Settles O43: a command ends from `DONE = ERR = 0`, and a command is accepted only while the reset input is released. -/
theorem stepKeepsStatusCoherent : Obligations.StepKeepsStatusCoherent :=
  step_keeps (fun _ hs => hs) statusCoherent_of_commandEffect (fun _ _ hs => hs) statusCoherent_of_portEffect

/-! ### `OUT_LEN`, `HNODES` and `HROOT` -/

theorem storeWord_registers (loc : Loc) (n : Nat) (v : Word) (s : State) :
    (storeWord loc n v s).res = s.res ∧ (storeWord loc n v s).huff.hnodes = s.huff.hnodes ∧
      (storeWord loc n v s).huff.hroot = s.huff.hroot := by
  cases loc <;> exact ⟨rfl, rfl, rfl⟩

theorem registersBounded_of_eq {s t : State} (hs : RegistersBounded s) (hlen : t.res.outLen = s.res.outLen)
    (hnodes : t.huff.hnodes = s.huff.hnodes) (hroot : t.huff.hroot = s.huff.hroot) : RegistersBounded t := by
  unfold RegistersBounded
  rw [hlen, hnodes, hroot]
  exact hs

/-- With the three registers 0, as every reset leaves them (R450), the bounds hold. -/
theorem registersBounded_of_zero {s : State} (hlen : s.res.outLen = 0) (hnodes : s.huff.hnodes = 0)
    (hroot : s.huff.hroot = 0) : RegistersBounded s := by
  simp [RegistersBounded, hlen, hnodes, hroot]

theorem registersBounded_startCommand (s : State) (hs : RegistersBounded s) : RegistersBounded (startCommand s) := by
  obtain ⟨-, hnodes⟩ := hs
  exact ⟨Nat.zero_le _, hnodes⟩

theorem registersBounded_of_portEffect (s t : State) (hs : RegistersBounded s) (h : PortEffect s t) :
    RegistersBounded t := by
  cases h with
  | softReset => exact registersBounded_of_zero rfl rfl rfl
  | hardReset level => exact registersBounded_of_zero rfl rfl rfl
  | stored a n v =>
    obtain ⟨hres, hnodes, hroot⟩ := storeWord_registers (locate a) n v s
    exact registersBounded_of_eq hs (congrArg Res.outLen hres) hnodes hroot
  | _ => exact hs

theorem registersBounded_of_commandEffect (s t : State) (hs : RegistersBounded s) (h : CommandEffect s t) :
    RegistersBounded t := by
  obtain ⟨hlen, hnodes, hroot⟩ := hs
  cases h with
  | completed b hframe =>
    refine ⟨?_, ?_⟩
    · obtain hb | hb := hframe.outLen
      · exact hb ▸ hlen
      · exact hb
    · obtain ⟨hn, hr⟩ | ⟨hn, hne⟩ := hframe.nodes
      · exact ⟨hn ▸ hnodes, fun h0 => hr.trans (hroot (hn.symm.trans h0))⟩
      · exact ⟨hn, fun h0 => absurd h0 hne⟩
  | raised f =>
    unfold RegistersBounded
    rw [raiseErr_res, raiseErr_huff]
    split
    · exact ⟨hlen, Nat.zero_le _, fun _ => rfl⟩
    · exact ⟨hlen, hnodes, hroot⟩

/-- Settles O45: a result that fits into `OUT_BUF` is counted in `OUT_LEN`, and a tree that is built has from 1 to `NODE_CAP`
nodes. -/
theorem stepKeepsRegistersBounded : Obligations.StepKeepsRegistersBounded :=
  step_keeps registersBounded_startCommand (fun s t _ => registersBounded_of_commandEffect s t) (fun _ _ hs => hs)
    registersBounded_of_portEffect

end Sys2Proof.Machine
end

section
/-! No command reads what another left in the working registers (R69, R470). The prologue and `Init` set every working register
that the command uses, except for the model registers of the models that are not selected; those are carried along unread. -/

namespace Sys2Proof.Machine

/-- The model registers of `k` that the model `m` uses (R202, R205, R208), and the others from `k₀`. -/
def Counts.onto (m : Model) (k₀ k : Counts) : Counts :=
  match m with
  | .fix => k₀
  | .dir => { k₀ with cnt := k.cnt, tot := k.tot }
  | .big => { k₀ with bcnt := k.bcnt, btot := k.btot, prev := k.prev }

theorem modelInit_eq_onto (m : Model) (k₀ k : Counts) : modelInit m k₀ = Counts.onto m k₀ (modelInit m k) := by
  cases m <;> rfl

theorem modelVec_onto (m : Model) (c : Conf) (k₀ k : Counts) : modelVec m c (Counts.onto m k₀ k) = modelVec m c k := by
  cases m <;> rfl

theorem modelUpdate_onto (m : Model) (c : Conf) (k₀ k : Counts) (x : Nat) :
    modelUpdate m c (Counts.onto m k₀ k) x = (modelUpdate m c k x).map (Counts.onto m k₀) := by
  cases m with
  | fix => rfl
  | dir =>
    cases hfull : modelFull c k.tot <;> simp [modelUpdate, Counts.onto, hfull]
  | big =>
    cases hprev : k.prev with
    | none => simp [modelUpdate, Counts.onto, hprev]
    | some p => cases hfull : modelFull c (countOf k.btot p) <;> simp [modelUpdate, Counts.onto, hprev, hfull]

theorem feedModel_onto (m : Model) (c : Conf) (k₀ : Counts) (bs : List Byte) (i : Nat) (k : Counts) :
    feedModel m c i bs (Counts.onto m k₀ k) = (feedModel m c i bs k).map (Counts.onto m k₀) := by
  induction bs generalizing i k with
  | nil => rfl
  | cons b bs ih =>
    unfold feedModel
    split
    · rfl
    · rw [modelUpdate_onto]
      cases modelUpdate m c k b.toNat with
      | none => rfl
      | some k' => exact ih (i + 1) k'

theorem encodeSymbols_onto (m : Model) (c : Conf) (k₀ : Counts) (bs : List Byte) (i : Nat) (k : Counts) (r : EncRun) :
    encodeSymbols m c i bs (Counts.onto m k₀ k) r = (encodeSymbols m c i bs k r).map (Prod.map (Counts.onto m k₀) id) := by
  induction bs generalizing i k r with
  | nil => rfl
  | cons b bs ih =>
    unfold encodeSymbols
    simp only [modelVec_onto, modelUpdate_onto]
    split
    · rfl
    · split
      · rfl
      · cases modelUpdate m c k b.toNat with
        | none => rfl
        | some k' =>
          dsimp only [Option.map_some]
          split
          · rfl
          · exact ih (i + 1) k' _

theorem narrowSentinel_onto (m : Model) (c : Conf) (pos : Nat) (k₀ k : Counts) (r : EncRun) :
    narrowSentinel m c pos (Counts.onto m k₀ k) r = narrowSentinel m c pos k r := by
  unfold narrowSentinel
  rw [modelVec_onto]

/-- A decoder run with the unused model registers from `k₀`. -/
def DecRun.onto (m : Model) (k₀ : Counts) (r : DecRun) : DecRun := { r with counts := Counts.onto m k₀ r.counts }

theorem prime_onto (m : Model) (k₀ : Counts) (src : Nat → Bool) (n : Nat) (r : DecRun) :
    prime src n (r.onto m k₀) = (prime src n r).onto m k₀ := by
  induction n generalizing r with
  | zero => rfl
  | succ n ih => exact ih (widen src r)

theorem decStart_onto (m : Model) (k₀ k : Counts) (src : Nat → Bool) (fmt : NumFmt) :
    decStart src fmt (Counts.onto m k₀ k) = (decStart src fmt k).onto m k₀ :=
  prime_onto m k₀ src Config.primeBits
    { low := 0, high := oneOf fmt, enc := 0, k := 0, rpos := 0, out := [], counts := k }

theorem findSymbol_onto (m : Model) (k₀ : Counts) (src : Nat → Bool) (c : Conf) (v : CumVec) (n : Nat) (r : DecRun) :
    findSymbol src c v n (r.onto m k₀) = (findSymbol src c v n r).map (Prod.map id (DecRun.onto m k₀)) := by
  have hseen : ∀ r : DecRun, sentinelSeen c v (r.onto m k₀) = sentinelSeen c v r := fun _ => rfl
  have hconfirm : ∀ r : DecRun, confirm c v (r.onto m k₀) = confirm c v r := fun _ => rfl
  induction n generalizing r with
  | zero =>
    unfold findSymbol
    rw [hseen, hconfirm]
    split
    · rfl
    · split <;> rfl
  | succ n ih =>
    unfold findSymbol
    rw [hseen, hconfirm]
    split
    · rfl
    · split
      · rfl
      · exact ih (widen src r)

theorem renormDec_onto (m : Model) (k₀ : Counts) (src : Nat → Bool) (one fuel : Nat) (r : DecRun) :
    renormDec src one fuel (r.onto m k₀) = (renormDec src one fuel r).onto m k₀ := by
  induction fuel generalizing r with
  | zero => rfl
  | succ fuel ih =>
    have hlow : (r.onto m k₀).low = r.low := rfl
    have hhigh : (r.onto m k₀).high = r.high := rfl
    unfold renormDec
    rw [hlow, hhigh]
    split
    · rfl
    · next k _ =>
      exact ih (takeBit src
        { r with low := rescale one k r.low, high := rescale one k r.high, enc := rescale (2 ^ Config.kmax) k r.enc })

theorem acceptSymbol_onto (m : Model) (k₀ : Counts) (src : Nat → Bool) (c : Conf) (v : CumVec) (x : Nat) (k : Counts)
    (r : DecRun) :
    acceptSymbol src c v x (Counts.onto m k₀ k) (r.onto m k₀) = (acceptSymbol src c v x k r).onto m k₀ :=
  renormDec_onto m k₀ src (oneOf c.numFmt) Config.renormFuel
    { r with
      low := boundary c.numFmt (nsymOf c) v r.low r.high x
      high := boundary c.numFmt (nsymOf c) v r.low r.high (x + 1)
      out := r.out ++ [BitVec.ofNat 8 x]
      counts := k }

theorem decodeSymbols_onto (m : Model) (k₀ : Counts) (src : Nat → Bool) (c : Conf) (room : Nat) (r : DecRun) :
    decodeSymbols src m c room (r.onto m k₀) = (decodeSymbols src m c room r).map (DecRun.onto m k₀) := by
  have hvec : ∀ r : DecRun, modelVec m c (r.onto m k₀).counts = modelVec m c r.counts :=
    fun r => modelVec_onto m c k₀ r.counts
  have hk : ∀ r : DecRun, (r.onto m k₀).k = r.k := fun _ => rfl
  induction room generalizing r with
  | zero =>
    unfold decodeSymbols
    rw [hvec, hk, findSymbol_onto]
    cases findSymbol src c (modelVec m c r.counts) (Config.kmax - r.k) r with
    | error f => rfl
    | ok p =>
      obtain ⟨found, r'⟩ := p
      cases found <;> rfl
  | succ room ih =>
    unfold decodeSymbols
    rw [hvec, hk, findSymbol_onto]
    cases findSymbol src c (modelVec m c r.counts) (Config.kmax - r.k) r with
    | error f => rfl
    | ok p =>
      obtain ⟨found, r'⟩ := p
      cases found with
      | none => rfl
      | some x =>
        have hupdate : modelUpdate m c (r'.onto m k₀).counts x = _ := modelUpdate_onto m c k₀ r'.counts x
        dsimp only [Except.map, Prod.map, id]
        rw [hupdate]
        cases modelUpdate m c r'.counts x with
        | none => rfl
        | some k =>
          dsimp only [Option.map_some]
          rw [acceptSymbol_onto, ih]
          rfl

/-! ### Bodies -/

/-- Two answers of a body that differ in the working registers only. -/
def SameButWork : Except Failure State → Except Failure State → Prop
  | .ok b, .ok b' => b' = { b with work := b'.work }
  | .error f, .error f' => f' = f
  | _, _ => False

theorem probeBody_sameButWork (m : Model) (s : State) (w : Work) :
    SameButWork (probeBody m s) (probeBody m { s with work := w }) := by
  have hcheck : checkCoder m { s with work := w } = checkCoder m s := rfl
  have hbytes : inBytes { s with work := w } = inBytes s := rfl
  unfold probeBody
  rw [hcheck, hbytes, modelInit_eq_onto m w.counts s.work.counts, feedModel_onto]
  cases checkCoder m s with
  | error f => rfl
  | ok _ =>
    cases feedModel m s.conf 0 (inBytes s) (modelInit m s.work.counts) with
    | error f => rfl
    | ok k =>
      dsimp only [Except.map]
      rw [modelVec_onto]
      rfl

theorem encodeBody_sameButWork (m : Model) (s : State) (w : Work) :
    SameButWork (encodeBody m s) (encodeBody m { s with work := w }) := by
  have hcheck : checkCoder m { s with work := w } = checkCoder m s := rfl
  have hbytes : inBytes { s with work := w } = inBytes s := rfl
  have hlen : inLen { s with work := w } = inLen s := rfl
  unfold encodeBody
  rw [hcheck, hbytes, hlen, modelInit_eq_onto m w.counts s.work.counts, encodeSymbols_onto]
  cases checkCoder m s with
  | error f => rfl
  | ok _ =>
    cases encodeSymbols m s.conf 0 (inBytes s) (modelInit m s.work.counts) (encStart s.conf.numFmt) with
    | error f => rfl
    | ok p =>
      obtain ⟨k, r⟩ := p
      dsimp only [Except.map, Prod.map, id]
      rw [narrowSentinel_onto]
      cases narrowSentinel m s.conf (inLen s) k r with
      | error f => rfl
      | ok r' =>
        dsimp only
        cases outBit (inLen s) (nsymOf s.conf) r'.out true <;> rfl

theorem decodeBody_sameButWork (m : Model) (s : State) (w : Work) :
    SameButWork (decodeBody m s) (decodeBody m { s with work := w }) := by
  have hcheck : checkCoder m { s with work := w } = checkCoder m s := rfl
  have hbits : inBitZ { s with work := w } = inBitZ s := rfl
  rw [decodeBody_eq_bind, decodeBody_eq_bind, hcheck, hbits, modelInit_eq_onto m w.counts s.work.counts, decStart_onto,
    decodeSymbols_onto]
  generalize decodeSymbols (inBitZ s) m s.conf Config.obufBytes
    (decStart (inBitZ s) s.conf.numFmt (modelInit m s.work.counts)) = run
  cases checkCoder m s with
  | error f => rfl
  | ok _ => cases run <;> rfl

theorem countBody_sameButWork (s : State) (w : Work) : SameButWork (countBody s) (countBody { s with work := w }) := by
  have hcheck : checkInLen { s with work := w } = checkInLen s := rfl
  have hbytes : inBytes { s with work := w } = inBytes s := rfl
  unfold countBody
  rw [hcheck, hbytes]
  cases checkInLen s with
  | error f => rfl
  | ok _ => cases firstOutside 0 (inBytes s) <;> rfl

theorem loadBody_sameButWork (s : State) (w : Work) : SameButWork (loadBody s) (loadBody { s with work := w }) := by
  have hstart : trieStart { s with work := w } = trieStart s := rfl
  unfold loadBody
  rw [hstart]
  dsimp only
  split
  · rfl
  · cases insertAll s.huff (validSymbols s.huff) ((trieStart s).alloc emptyNode) <;> rfl

theorem huffEncodeBody_sameButWork (s : State) (w : Work) :
    SameButWork (huffEncodeBody s) (huffEncodeBody { s with work := w }) := by
  have hcheck : checkHuffman { s with work := w } = checkHuffman s := rfl
  have hbytes : inBytes { s with work := w } = inBytes s := rfl
  have hlen : inLen { s with work := w } = inLen s := rfl
  unfold huffEncodeBody
  rw [hcheck, hbytes, hlen]
  cases checkHuffman s with
  | error f => rfl
  | ok _ =>
    dsimp only
    cases huffEncode s.huff 0 (inBytes s) [] with
    | error f => rfl
    | ok out =>
      dsimp only
      cases emitCode s.huff (inLen s) Config.sentH out <;> rfl

theorem huffDecodeBody_sameButWork (s : State) (w : Work) :
    SameButWork (huffDecodeBody s) (huffDecodeBody { s with work := w }) := by
  have hcheck : checkHuffman { s with work := w } = checkHuffman s := rfl
  have hbits : inBits { s with work := w } = inBits s := rfl
  unfold huffDecodeBody
  rw [hcheck, hbits]
  generalize checkHuffman s = check
  generalize huffDecode s.huff.arena s.huff.hroot.toNat Config.obufBytes 0 (inBits s) [] = run
  cases check with
  | error f => rfl
  | ok _ => cases run <;> rfl

theorem packBody_sameButWork (s : State) (w : Work) : SameButWork (packBody s) (packBody { s with work := w }) := by
  have hcheck : checkInLen { s with work := w } = checkInLen s := rfl
  have hbytes : inBytes { s with work := w } = inBytes s := rfl
  unfold packBody
  rw [hcheck, hbytes]
  cases checkInLen s with
  | error f => rfl
  | ok _ => dsimp only; cases packDigits 0 (inBytes s) [] <;> rfl

theorem unpackBody_sameButWork (s : State) (w : Work) :
    SameButWork (unpackBody s) (unpackBody { s with work := w }) := by
  have hcheck : checkInLen { s with work := w } = checkInLen s := rfl
  have hlen : inLen { s with work := w } = inLen s := rfl
  unfold unpackBody
  rw [hcheck, hlen]
  cases checkInLen s with
  | error f => rfl
  | ok _ => dsimp only; split <;> rfl

theorem bodyOf_sameButWork (i : Instr) (s : State) (w : Work) :
    SameButWork (bodyOf i s) (bodyOf i { s with work := w }) := by
  cases i with
  | nop | hbuild => rfl
  | aencFix | aencDir | aencBig => exact encodeBody_sameButWork _ s w
  | adecFix | adecDir | adecBig => exact decodeBody_sameButWork _ s w
  | mprobeFix | mprobeDir | mprobeBig => exact probeBody_sameButWork _ s w
  | hcount => exact countBody_sameButWork s w
  | hload => exact loadBody_sameButWork s w
  | henc => exact huffEncodeBody_sameButWork s w
  | hdec => exact huffDecodeBody_sameButWork s w
  | pack => exact packBody_sameButWork s w
  | unpack => exact unpackBody_sameButWork s w

/-- An error discards the working registers (R404). -/
theorem raiseErr_work_irrelevant (f : Failure) (s : State) (w : Work) : raiseErr f { s with work := w } = raiseErr f s := rfl

theorem entryOf_work (i : Instr) (s : State) (w : Work) :
    ∃ w', entryOf i { s with work := w } = { entryOf i s with work := w' } := by
  cases i with
  | nop => exact ⟨w, rfl⟩
  | _ => exact ⟨{ w with obits := 0, nout := 0, ipos := 0, rpos := 0 }, rfl⟩

/-- Settles O13: a body reads no working register but through `Init`, and both ends of a command set the rest alike. -/
theorem workingStateNeverCarriedOver : Obligations.WorkingStateNeverCarriedOver := by
  intro i s w
  obtain ⟨w', hentry⟩ := entryOf_work i s w
  have hsame := bodyOf_sameButWork i (entryOf i s) w'
  rw [exec_eq_settle, exec_eq_settle, hentry]
  generalize bodyOf i (entryOf i s) = r at hsame ⊢
  generalize bodyOf i { entryOf i s with work := w' } = r' at hsame ⊢
  cases r with
  | ok b =>
    cases r' with
    | ok b' =>
      refine ⟨completeDone b, b'.work, rfl, ?_⟩
      rw [settle_ok, show b' = _ from hsame]
      rfl
    | error f' => exact hsame.elim
  | error f =>
    cases r' with
    | ok b' => exact hsame.elim
    | error f' =>
      refine ⟨raiseErr f (entryOf i s), Work.reset, rfl, ?_⟩
      rw [settle_error, raiseErr_work_irrelevant, show f' = f from hsame, ← raiseErr_work f (entryOf i s)]

end Sys2Proof.Machine
end

section
/-! One slot of the port that serves one access (R106, R107), and the words `CMD` and `STATUS` (R35 to R37). -/

namespace Sys2Proof.Machine

/-! ### One slot -/

theorem step_of_arrival {s : State} {e : PortEvent} {rest : List PortEvent} (h : s.status.busy = false ∨ s.wait ≠ 0)
    (hport : s.port = e :: rest) : step s = .next (serve e { passSlot s with port := rest }) := by
  rw [step_of_not_due h]
  simp [servePort, hport]

theorem step_of_write {s : State} {a n : Nat} {v : Word} {rest : List PortEvent}
    (h : s.status.busy = false ∨ s.wait ≠ 0) (hreset : s.resetIn = false) (ha : a < 0x60000)
    (hport : s.port = .write a n v :: rest) : step s = .next (memWrite a n v { passSlot s with port := rest }) := by
  rw [step_of_arrival h hport]
  simp [serve, portWrite, Config.apertureBytes, ha, hreset]

theorem step_of_legal_read {s : State} {a n : Nat} {rest : List PortEvent}
    (h : s.status.busy = false ∨ s.wait ≠ 0) (hreset : s.resetIn = false) (ha : a < 0x60000)
    (hlegal : legalAccess a n = true) (hport : s.port = .read a n :: rest) :
    step s = .next { passSlot s with
      port := rest, rdata := readData { passSlot s with port := rest } a n, free := s.free + 1 } := by
  rw [step_of_arrival h hport]
  simp [serve, portRead, memRead, Config.apertureBytes, ha, hreset, hlegal]

/-- A legal write while idle to anything but `CTRL`, `STATUS` and `CMD` is a store; a hole ignores it (R107). -/
theorem memWrite_eq_storeWord {s : State} {a n : Nat} (hidle : s.status.busy = false) (hlegal : legalAccess a n = true)
    (hctrl : locate a ≠ .ctrl) (hstatus : locate a ≠ .status) (hcmd : locate a ≠ .cmd) (v : Word) :
    memWrite a n v s = storeWord (locate a) n v s := by
  unfold memWrite writeIdle
  simp only [hlegal, if_true, hidle, Bool.false_eq_true, if_false]
  generalize locate a = loc at hctrl hstatus hcmd ⊢
  cases loc with
  | ctrl => exact absurd rfl hctrl
  | status => exact absurd rfl hstatus
  | cmd => exact absurd rfl hcmd
  | _ => rfl

/-! ### The command word -/

theorem decode_encode (i : Instr) : decode (encode i) = .ok i := by
  cases i <;> rfl

theorem tableWord_toNat (w : Word) : tableWord 32 w.toNat = w := by
  unfold tableWord
  rw [Nat.mod_eq_of_lt w.isLt, BitVec.ofNat_toNat, BitVec.setWidth_eq]

/-- Settles O5. -/
theorem stepRunsTheCommandInCmd : Obligations.StepRunsTheCommandInCmd := by
  refine ⟨fun s i hbusy hwait hi => step_of_due hbusy hwait hi, fun s h => step_of_not_due h, fun s i => ?_⟩
  refine step_of_due rfl rfl ?_
  show decode (tableWord 32 (encode i).toNat) = .ok i
  rw [tableWord_toNat, decode_encode]

theorem memWrite_cmd {s : State} (hidle : s.status.busy = false) (w : Word) :
    memWrite 0x00C 4 w s = acceptCommand w s := by
  show writeIdle .cmd 4 w s = _
  simp [writeIdle, hidle]

/-- The step of a due command is the end of a command, from a state with the same `STATUS` (R380). -/
theorem step_of_due_effect {s : State} (hbusy : s.status.busy = true) (hwait : s.wait = 0) :
    ∃ t u, step s = .next t ∧ u.status = s.status ∧ CommandEffect u t := by
  obtain ⟨t, ht⟩ := step_next s
  obtain ⟨i, -, -, -, hexec⟩ | ⟨_, -, -, -, rfl⟩ | ⟨h, -⟩ | ⟨_, _, h, -⟩ := step_cases ht
  · refine ⟨t, entryOf i s, ht, ?_, exec_commandEffect hexec⟩
    cases i <;> rfl
  · exact ⟨_, s, ht, rfl, illegalCommand_commandEffect s⟩
  · simp [hbusy, hwait] at h
  · simp [hbusy, hwait] at h

/-- Settles O6: acceptance is `acceptCommand`, and the completion is the end of a command that ran with `DONE = ERR = 0`. -/
theorem commandWriteAccepted : Obligations.CommandWriteAccepted := by
  refine ⟨fun s w rest hidle hreset hport => ?_, fun s hbusy hdone herr hwait => ?_⟩
  · rw [step_of_write (.inl hidle) hreset (by decide) hport, memWrite_cmd (s := { passSlot s with port := rest }) hidle]
    rfl
  · obtain ⟨t, u, ht, hstatus, heffect⟩ := step_of_due_effect hbusy hwait
    obtain ⟨hidle, ⟨hd, he, -⟩ | ⟨hd, he, -⟩⟩ := heffect.status (hstatus ▸ hdone) (hstatus ▸ herr)
    · exact ⟨t, ht, hidle, by simp [hd, he]⟩
    · exact ⟨t, ht, hidle, by simp [hd, he]⟩

/-! ### `STATUS` -/

theorem memWrite_status (v : Word) (s : State) : memWrite 0x008 4 v s = writeStatus v s := rfl

theorem Status.writeOneToClear_eq_ite (st : Status) (v : Word) :
    st.writeOneToClear v = { st with
      done := if v.getLsbD 1 then false else st.done
      err := if v.getLsbD 2 then false else st.err
      wbusy := if v.getLsbD 3 then false else st.wbusy
      buserr := if v.getLsbD 4 then false else st.buserr } := by
  have hbit : ∀ b c : Bool, (b && !c) = if c then false else b := by decide
  simp only [Status.writeOneToClear, hbit]

/-- Settles O51. -/
theorem statusWriteClears : Obligations.StatusWriteClears := by
  intro s v rest h hreset hport
  rw [step_of_write h hreset (by decide) hport, memWrite_status, ← Status.writeOneToClear_eq_ite]
  rfl

end Sys2Proof.Machine
end

section
/-! What a store to a writable word does to the content of every word (R34 to R54, R107). -/

namespace Sys2Proof.Machine

/-! ### What a store changes -/

/-- No content depends on the port, the time left to a command, or the read data. -/
theorem contentOf_slot (s : State) (rest : List PortEvent) (n : Nat) (loc : Loc) :
    contentOf { passSlot s with port := rest } n loc = contentOf s n loc := by
  cases loc <;> rfl

theorem tget_tset_ne {w n : Nat} (t : Vector (BitVec w) n) {i j : Nat} (h : j ≠ i) (v : BitVec w) :
    tget (tset t i v) j = tget t j := by
  simp [h]

theorem freqOf_tset_ne (t : Huff) {x y : Nat} (h : y ≠ x) (v : Word) :
    freqOf { t with freq := tset t.freq x v } y = freqOf t y := by
  simp [freqOf, h]

/-- A store to a word leaves the content of every other word but `STATUS`, whose `HVALID` it may clear (R54). -/
theorem contentOf_storeWord_of_ne {loc loc' : Loc} (hne : offsetOf loc' ≠ offsetOf loc) (hbuf : ∀ i, loc ≠ .inBuf i)
    (hstatus : loc' ≠ .status) (k n : Nat) (v : Word) (s : State) :
    contentOf (storeWord loc k v s) n loc' = contentOf s n loc' := by
  cases loc with
  | inBuf i => exact absurd rfl (hbuf i)
  | inLen =>
    cases loc' with
    | inLen => exact absurd rfl hne
    | _ => rfl
  | acfg =>
    cases loc' with
    | acfg => exact absurd rfl hne
    | _ => rfl
  | alpha =>
    cases loc' with
    | alpha => exact absurd rfl hne
    | _ => rfl
  | fixDen =>
    cases loc' with
    | fixDen => exact absurd rfl hne
    | _ => rfl
  | fixCum c =>
    cases loc' with
    | fixCum d =>
      have hidx : d ≠ c := by simp only [offsetOf] at hne; omega
      exact congrArg (BitVec.setWidth 32) (tget_tset_ne _ hidx _)
    | _ => rfl
  | freq x =>
    cases loc' with
    | freq y =>
      have hidx : y ≠ x := by simp only [offsetOf] at hne; omega
      exact congrArg (BitVec.ofNat 32) (freqOf_tset_ne _ hidx _)
    | _ => rfl
  | cwLen x =>
    cases loc' with
    | status => exact absurd rfl hstatus
    | cwLen y =>
      have hidx : y ≠ x := by simp only [offsetOf] at hne; omega
      exact congrArg (BitVec.setWidth 32) (tget_tset_ne _ hidx _)
    | _ => rfl
  | cwBits x m =>
    cases loc' with
    | status => exact absurd rfl hstatus
    | cwBits y l =>
      have hidx : 4 * y + l ≠ 4 * x + m := by simp only [offsetOf] at hne; omega
      exact tget_tset_ne _ hidx _
    | _ => rfl
  | _ => rfl

/-- A store outside `IN_BUF` changes only the configuration, `FREQ`, the codeword table and `HVALID`. -/
theorem storeWord_frame {loc : Loc} (hbuf : ∀ i, loc ≠ .inBuf i) (n : Nat) (v : Word) (s : State) :
    storeWord loc n v s = { s with
      conf := (storeWord loc n v s).conf
      huff := { s.huff with
        freq := (storeWord loc n v s).huff.freq
        cwLen := (storeWord loc n v s).huff.cwLen
        cwBits := (storeWord loc n v s).huff.cwBits }
      status := { s.status with hvalid := (storeWord loc n v s).status.hvalid } } := by
  cases loc with
  | inBuf i => exact absurd rfl (hbuf i)
  | _ => rfl

/-! ### The writable words -/

/-- The low `k` bits of a word, as a word. -/
theorem setWidth_setWidth_eq_and (v : Word) {k : Nat} (hk : k ≤ 32) :
    (v.setWidth k).setWidth 32 = v &&& BitVec.ofNat 32 (2 ^ k - 1) := by
  apply BitVec.eq_of_toNat_eq
  have hmask : 2 ^ k - 1 < 2 ^ 32 := by
    have := Nat.pow_le_pow_right (n := 2) (by omega) hk
    have := Nat.two_pow_pos k
    omega
  rw [BitVec.toNat_and, BitVec.toNat_ofNat, Nat.mod_eq_of_lt hmask, Nat.and_two_pow_sub_one_eq_mod,
    BitVec.toNat_setWidth, BitVec.toNat_setWidth]
  exact Nat.mod_eq_of_lt (lt_of_le_of_lt (Nat.mod_le _ _) v.isLt)

theorem acfgWord_eq_append (c : Conf) :
    acfgWord c = 0#16 ++ c.nsym ++ 0#7 ++ BitVec.ofBool (decide (c.numFmt = .fixed)) := by
  unfold acfgWord
  cases c.numFmt <;> rfl

/-- `ACFG` reads back its two fields (R39). -/
theorem acfgWord_store (c : Conf) (v : Word) :
    acfgWord { c with numFmt := if v.getLsbD 0 then .fixed else .fp64, nsym := v.extractLsb' 8 8 } =
      v &&& 0x0000FF01 := by
  have hfmt : ∀ b : Bool, decide ((if b then NumFmt.fixed else .fp64) = .fixed) = b := by decide
  rw [acfgWord_eq_append]
  simp only [hfmt]
  ext i hi
  simp only [BitVec.getElem_append, BitVec.getElem_and]
  interval_cases i <;> simp

/-- The location of each writable word but `CTRL`, with its mask; a word of the codeword table lies at `0x1800` or above. -/
theorem writableWord_cases {a : Nat} {v mask : Word} (h : WritableWord a v mask) (hctrl : a ≠ 0x004) :
    (a < 0x1800 ∧
      ((locate a = .inLen ∧ mask = 0x0001FFFF) ∨ (locate a = .acfg ∧ mask = 0x0000FF01) ∨
        (locate a = .alpha ∧ mask = 0x0000FFFF) ∨ (locate a = .fixDen ∧ mask = 0x7FFFFFFF) ∨
        (∃ c < 128, locate a = .fixCum c ∧ mask = 0x7FFFFFFF) ∨ (∃ x < 128, locate a = .freq x ∧ mask = 0xFFFFFFFF))) ∨
    (0x1800 ≤ a ∧
      ((∃ x < 129, locate a = .cwLen x ∧ mask = 0x000001FF) ∨
        (∃ x m, 4 * x + m < 516 ∧ locate a = .cwBits x m ∧ mask = 0xFFFFFFFF))) := by
  obtain ⟨h, -⟩ | ⟨rfl, hm⟩ | ⟨rfl, hm⟩ | ⟨rfl, hm⟩ | ⟨rfl, hm⟩ | ⟨h, h', -, hm⟩ | ⟨h, h', -, hm⟩ | ⟨h, h', -, hm⟩ |
    ⟨h, h', -, hm⟩ := h
  · exact absurd h hctrl
  · exact .inl ⟨by decide, .inl ⟨rfl, hm⟩⟩
  · exact .inl ⟨by decide, .inr (.inl ⟨rfl, hm⟩)⟩
  · exact .inl ⟨by decide, .inr (.inr (.inl ⟨rfl, hm⟩))⟩
  · exact .inl ⟨by decide, .inr (.inr (.inr (.inl ⟨rfl, hm⟩)))⟩
  · exact .inl ⟨by omega, .inr (.inr (.inr (.inr (.inl ⟨_, by omega, locate_fixCum h h', hm⟩))))⟩
  · exact .inl ⟨by omega, .inr (.inr (.inr (.inr (.inr ⟨_, by omega, locate_freq h (by omega), hm⟩))))⟩
  · exact .inr ⟨h, .inl ⟨_, by omega, locate_cwLen h h', hm⟩⟩
  · exact .inr ⟨by omega, .inr ⟨_, _, by omega, locate_cwBits h h', hm⟩⟩

theorem tget_tset_same {w n : Nat} (t : Vector (BitVec w) n) {i : Nat} (h : i < n) (v : BitVec w) :
    tget (tset t i v) i = v := by
  simp [h]

/-- A writable word reads back with its reserved bits 0 (R107). -/
theorem contentOf_storeWord_same {a : Nat} {v mask : Word} (h : WritableWord a v mask) (hctrl : a ≠ 0x004) (s : State) :
    contentOf (storeWord (locate a) 4 v s) 4 (locate a) = v &&& mask := by
  have hall : v &&& 0xFFFFFFFF = v := BitVec.and_allOnes
  obtain ⟨-, ⟨ha, rfl⟩ | ⟨ha, rfl⟩ | ⟨ha, rfl⟩ | ⟨ha, rfl⟩ | ⟨c, hc, ha, rfl⟩ | ⟨x, hx, ha, rfl⟩⟩ |
    ⟨-, ⟨x, hx, ha, rfl⟩ | ⟨x, m, hx, ha, rfl⟩⟩ := writableWord_cases h hctrl
  all_goals rw [ha]
  · exact setWidth_setWidth_eq_and v (k := 17) (by decide)
  · exact acfgWord_store s.conf v
  · exact setWidth_setWidth_eq_and v (k := 16) (by decide)
  · exact setWidth_setWidth_eq_and v (k := 31) (by decide)
  · exact (congrArg (BitVec.setWidth 32) (tget_tset_same _ hc _)).trans (setWidth_setWidth_eq_and v (k := 31) (by decide))
  · have hx' : x ≠ 128 := by omega
    show BitVec.ofNat 32 (if x = 128 then 1 else (tget (tset s.huff.freq x v) x).toNat) = _
    rw [if_neg hx', tget_tset_same _ hx, BitVec.ofNat_toNat, BitVec.setWidth_eq, hall]
  · exact (congrArg (BitVec.setWidth 32) (tget_tset_same _ hx _)).trans (setWidth_setWidth_eq_and v (k := 9) (by decide))
  · exact (tget_tset_same _ hx _).trans hall.symm

/-- Of the writable words those of the codeword table clear `HVALID` (R54). -/
theorem storeWord_hvalid {a : Nat} {v mask : Word} (h : WritableWord a v mask) (hctrl : a ≠ 0x004) (s : State) :
    (storeWord (locate a) 4 v s).status.hvalid = (s.status.hvalid && decide (a < 0x1800)) := by
  obtain ⟨hlt, hloc⟩ | ⟨hge, hloc⟩ := writableWord_cases h hctrl
  · rw [decide_eq_true hlt, Bool.and_true]
    obtain ⟨ha, -⟩ | ⟨ha, -⟩ | ⟨ha, -⟩ | ⟨ha, -⟩ | ⟨c, -, ha, -⟩ | ⟨x, -, ha, -⟩ := hloc <;> rw [ha] <;> rfl
  · rw [decide_eq_false (by omega), Bool.and_false]
    obtain ⟨x, -, ha, -⟩ | ⟨x, m, -, ha, -⟩ := hloc <;> rw [ha] <;> rfl

/-- What kind of location a writable word is: no byte of `IN_BUF`, no hole, and none of the three words with a rule of
their own (R107). -/
theorem writableWord_loc {a : Nat} {v mask : Word} (h : WritableWord a v mask) (hctrl : a ≠ 0x004) :
    (∀ i, locate a ≠ .inBuf i) ∧ locate a ≠ .hole ∧ locate a ≠ .ctrl ∧ locate a ≠ .status ∧ locate a ≠ .cmd := by
  obtain ⟨-, ⟨ha, -⟩ | ⟨ha, -⟩ | ⟨ha, -⟩ | ⟨ha, -⟩ | ⟨c, -, ha, -⟩ | ⟨x, -, ha, -⟩⟩ |
    ⟨-, ⟨x, -, ha, -⟩ | ⟨x, m, -, ha, -⟩⟩ := writableWord_cases h hctrl
  all_goals rw [ha]; exact ⟨nofun, nofun, nofun, nofun, nofun⟩

/-- A store to a writable word changes only the configuration, `FREQ`, the codeword table and `HVALID`. -/
theorem storeWord_writable_frame {a : Nat} {v mask : Word} (h : WritableWord a v mask) (hctrl : a ≠ 0x004) (s : State) :
    storeWord (locate a) 4 v s = { s with
      irqEn := (storeWord (locate a) 4 v s).irqEn
      conf := (storeWord (locate a) 4 v s).conf
      huff := { s.huff with
        freq := (storeWord (locate a) 4 v s).huff.freq
        cwLen := (storeWord (locate a) 4 v s).huff.cwLen
        cwBits := (storeWord (locate a) 4 v s).huff.cwBits }
      status := { s.status with hvalid := s.status.hvalid && decide (a < 0x1800) } } := by
  have hframe := storeWord_frame (writableWord_loc h hctrl).1 4 v s
  rw [← storeWord_hvalid h hctrl s, congrArg State.irqEn hframe]
  exact hframe

theorem writableWord_aligned {a : Nat} {v mask : Word} (h : WritableWord a v mask) : a < 0x10000 ∧ a % 4 = 0 := by
  unfold WritableWord at h
  omega

/-! ### `CTRL` (R34) -/

theorem memWrite_ctrl {v : Word} (h : v.getLsbD 0 = false) (s : State) :
    memWrite 0x004 4 v s = { s with irqEn := v.getLsbD 1 } := by
  show writeCtrl v s = _
  exact if_neg (by rw [h]; decide)

/-- `CTRL` reads back `IRQ_EN` (R34). -/
theorem ctrlWord_store (v : Word) : (0#30 ++ BitVec.ofBool (v.getLsbD 1) ++ 0#1 : Word) = v &&& 0x00000002 := by
  ext i hi
  simp only [BitVec.getElem_append, BitVec.getElem_and]
  interval_cases i <;> simp

theorem contentOf_irqEn {loc : Loc} (h : loc ≠ .ctrl) (s : State) (b : Bool) (n : Nat) :
    contentOf { s with irqEn := b } n loc = contentOf s n loc := by
  cases loc with
  | ctrl => exact absurd rfl h
  | _ => rfl

/-! ### The statements -/

/-- While idle a read returns the content (R106). -/
theorem readData_of_idle {s : State} (hidle : s.status.busy = false) (a n : Nat) :
    readData s a n = contentOf s n (locate a) := by
  simp [readData, hidle]

theorem step_of_idle_word_read {s : State} {a : Nat} {rest : List PortEvent} (hidle : s.status.busy = false)
    (hreset : s.resetIn = false) (ha : a < 0x10000) (halign : a % 4 = 0) (hport : s.port = .read a 4 :: rest) :
    ∃ u, step s = .next u ∧ u.rdata = contentOf s 4 (locate a) ∧ u.port = rest :=
  ⟨_, step_of_legal_read (.inl hidle) hreset (by omega) (legalAccess_word halign) hport,
    (readData_of_idle (s := { passSlot s with port := rest }) hidle a 4).trans (contentOf_slot s rest 4 (locate a)), rfl⟩

/-- While idle a write to a writable word is a store (R107). -/
theorem step_of_writable_write {s : State} {a : Nat} {v mask : Word} {rest : List PortEvent}
    (hidle : s.status.busy = false) (hreset : s.resetIn = false) (hword : WritableWord a v mask) (hctrl : a ≠ 0x004)
    (hport : s.port = .write a 4 v :: rest) :
    step s = .next (storeWord (locate a) 4 v { passSlot s with port := rest }) := by
  obtain ⟨ha, halign⟩ := writableWord_aligned hword
  obtain ⟨-, -, hne, hne', hne''⟩ := writableWord_loc hword hctrl
  rw [step_of_write (.inl hidle) hreset (by omega) hport,
    memWrite_eq_storeWord (s := { passSlot s with port := rest }) hidle (legalAccess_word halign) hne hne' hne'']

/-- Settles O57: a write to `CTRL` sets `IRQ_EN`; every other writable word is stored by `storeWord`, which keeps the content of
each other offset, since two offsets never name one location. -/
theorem writableWordsReadBack : Obligations.WritableWordsReadBack := by
  refine ⟨fun s v rest h hreset hbit hport => ?_, fun s a v mask rest hidle hreset hword hport => ?_⟩
  · rw [step_of_write h hreset (by decide) hport, memWrite_ctrl hbit]
    rfl
  · obtain ⟨ha, halign⟩ := writableWord_aligned hword
    by_cases hctrl : a = 0x004
    · subst hctrl
      obtain ⟨hbit, rfl⟩ : v.getLsbD 0 = false ∧ mask = 0x00000002 := by simpa [WritableWord] using hword
      have hstep := step_of_write (.inl hidle) hreset (by decide) hport
      rw [memWrite_ctrl hbit] at hstep
      obtain ⟨u, hu, hdata, hrest⟩ := step_of_idle_word_read
        (s := { passSlot s with port := .read 0x004 4 :: rest, irqEn := v.getLsbD 1 }) hidle hreset ha halign rfl
      refine ⟨_, u, hstep, hu, hdata.trans (ctrlWord_store v), hrest, ?_, fun b hb halignb hne _ => ?_⟩
      · rw [show (s.status.hvalid && decide (0x004 < 0x1800)) = s.status.hvalid from Bool.and_true _]
        rfl
      · exact (contentOf_irqEn (locate_ne_of_ne_offsetOf halignb nofun hne) _ _ 4).trans (contentOf_slot s _ 4 _)
    · have hstep := step_of_writable_write hidle hreset hword hctrl hport
      have hframe := storeWord_writable_frame hword hctrl { passSlot s with port := .read a 4 :: rest }
      obtain ⟨hbuf, hhole, -⟩ := writableWord_loc hword hctrl
      obtain ⟨u, hu, hdata, hrest⟩ := step_of_idle_word_read
        (s := storeWord (locate a) 4 v { passSlot s with port := .read a 4 :: rest })
        (by rw [hframe]; exact hidle) (by rw [hframe]; exact hreset) ha halign (by rw [hframe])
      refine ⟨_, u, hstep, hu, hdata.trans (contentOf_storeWord_same hword hctrl _), hrest, hframe,
        fun b hb halignb hne hstatus => ?_⟩
      exact (contentOf_storeWord_of_ne (offsetOf_locate_ne halign hhole (by omega) halignb hne) hbuf
        (locate_ne_of_ne_offsetOf halignb nofun hstatus) 4 4 v _).trans (contentOf_slot s _ 4 _)

/-! ### The codeword table and the tree (R54, R469) -/

theorem checkHuffman_error_of_no_tree {s : State} (hlen : inLen s ≤ Config.ibufBytes) (htree : s.status.hvalid = false) :
    checkHuffman s = .error { code := .noTree, pos := 0, sym := 0 } := by
  simp [checkHuffman, checkInLen_ok hlen, checkTree_error htree]

/-- Without a tree `HENC` and `HDEC` raise `E_NOTREE` (R380, R469). -/
theorem exec_huffman_raises_noTree {i : Instr} (hi : i = .henc ∨ i = .hdec) {s : State}
    (hlen : inLen s ≤ Config.ibufBytes) (htree : s.status.hvalid = false) :
    ∃ u, exec i s = .next u ∧ Raised 0x14 0 0 s u := by
  have hcheck := checkHuffman_error_of_no_tree (s := startCommand s) hlen htree
  have hbody : bodyOf i (startCommand s) = .error { code := .noTree, pos := 0, sym := 0 } := by
    obtain rfl | rfl := hi
    · simp [bodyOf, huffEncodeBody, hcheck]
    · simp [bodyOf, huffDecodeBody, hcheck]
  have hentry : entryOf i s = startCommand s := by obtain rfl | rfl := hi <;> rfl
  exact ⟨_, exec_of_body_error (hentry ▸ hbody), by simp [hentry, Raised, ErrCode.toByte]⟩

/-- A store to the codeword table keeps `FREQ`, the tree and the rest of `STATUS` (R54). -/
theorem storeWord_codeword {a : Nat} (h : (0x1800 ≤ a ∧ a < 0x1A04) ∨ (0x2000 ≤ a ∧ a < 0x2810)) (v : Word) (s : State) :
    ∃ len bits, storeWord (locate a) 4 v s = { s with
      status := { s.status with hvalid := false }, huff := { s.huff with cwLen := len, cwBits := bits } } := by
  obtain ⟨h, h'⟩ | ⟨h, h'⟩ := h
  · rw [locate_cwLen h h']
    exact ⟨_, s.huff.cwBits, rfl⟩
  · rw [locate_cwBits h h']
    exact ⟨s.huff.cwLen, _, rfl⟩

/-- Settles O59. -/
theorem codewordWriteDropsTheTree : Obligations.CodewordWriteDropsTheTree := by
  intro s a v rest hidle hreset hrange halign hport
  have hword : ∃ mask, WritableWord a v mask := by
    obtain ⟨h, h'⟩ | ⟨h, h'⟩ := hrange
    · exact ⟨0x000001FF, by simp [WritableWord, h, h', halign]⟩
    · exact ⟨0xFFFFFFFF, by simp [WritableWord, h, h', halign]⟩
  obtain ⟨mask, hword⟩ := hword
  obtain ⟨len, bits, hstore⟩ := storeWord_codeword hrange v { passSlot s with port := rest }
  refine ⟨_, step_of_writable_write hidle hreset hword (by omega) hport, ?_⟩
  rw [hstore]
  exact ⟨rfl, rfl, rfl, rfl, rfl, fun i hi hlen => exec_huffman_raises_noTree hi hlen rfl⟩

end Sys2Proof.Machine
end

section
/-! What a host read returns (R31, R106, R462): the content by offset, and which bits a running command leaves free. -/

namespace Sys2Proof.Machine

/-! ### The bytes of a buffer by lane (R102) -/

theorem readLanes_getLsbD (m : Memory) (i n : Nat) (hn : n ≤ 4) (j : Nat) :
    (readLanes m i n).getLsbD j = (decide (j < 8 * n) && (m.read (i + j / 8)).getLsbD (j % 8)) := by
  induction n with
  | zero => simp [readLanes]
  | succ n ih =>
    rw [readLanes, BitVec.getLsbD_or, ih (by omega), BitVec.getLsbD_shiftLeft, BitVec.getLsbD_setWidth]
    rcases Nat.lt_or_ge j (8 * n) with hlow | hhigh
    · have hlt : j < 8 * (n + 1) := by omega
      simp [hlow, hlt]
    · rcases Nat.lt_or_ge j (8 * (n + 1)) with hlane | hpast
      · have hdiv : j / 8 = n := by omega
        have hmod : j - 8 * n = j % 8 := by omega
        have hword : j < 32 := by omega
        have hrest : j % 8 < 32 := by omega
        simp [Nat.not_lt.2 hhigh, hlane, hdiv, hmod, hword, hrest]
      · have hbyte : 8 ≤ j - 8 * n := by omega
        simp [Nat.not_lt.2 hhigh, Nat.not_lt.2 hpast, BitVec.getLsbD_of_ge _ _ hbyte]

theorem readLanes_lane (m : Memory) (i : Nat) {n k : Nat} (hn : n ≤ 4) (hk : k < n) :
    (readLanes m i n).extractLsb' (8 * k) 8 = m.read (i + k) := by
  apply BitVec.eq_of_getLsbD_eq
  intro j hj
  have hlane : 8 * k + j < 8 * n := by omega
  have hdiv : (8 * k + j) / 8 = k := by omega
  have hmod : (8 * k + j) % 8 = j := by omega
  rw [BitVec.getLsbD_extractLsb', readLanes_getLsbD m i n hn, hdiv, hmod]
  simp [hj, hlane]

/-! ### The content by offset -/

/-- The word that a read of `STATUS` returns shows the fields at the bits of R35. -/
theorem statusReads_word (st : Status) : StatusReads st st.word where
  busy := by simp only [Status.word, BitVec.getLsbD_append]; simp
  done := by simp only [Status.word, BitVec.getLsbD_append]; simp
  err := by simp only [Status.word, BitVec.getLsbD_append]; simp
  wbusy := by simp only [Status.word, BitVec.getLsbD_append]; simp
  buserr := by simp only [Status.word, BitVec.getLsbD_append]; simp
  hvalid := by simp only [Status.word, BitVec.getLsbD_append]; simp
  errcode := by
    apply BitVec.eq_of_getLsbD_eq
    intro i hi
    simp only [Status.word, BitVec.getLsbD_extractLsb', BitVec.getLsbD_append]
    interval_cases i <;> rfl
  reserved := by
    rw [BitVec.and_comm]
    apply BitVec.eq_of_getLsbD_eq
    intro i hi
    simp only [Status.word, BitVec.getLsbD_and, BitVec.getLsbD_append]
    interval_cases i <;> rfl

theorem acfgWord_toNat (c : Conf) :
    (acfgWord c).toNat = 256 * c.nsym.toNat + if c.numFmt = .fixed then 1 else 0 := by
  have hnsym := c.nsym.isLt
  rw [acfgWord_eq_append]
  simp only [BitVec.toNat_append, BitVec.toNat_ofNat, BitVec.toNat_ofBool]
  rw [← Nat.shiftLeft_add_eq_or_of_lt hnsym, ← Nat.shiftLeft_add_eq_or_of_lt (Bool.toNat_lt _),
    ← Nat.shiftLeft_add_eq_or_of_lt (by decide)]
  by_cases hfixed : c.numFmt = .fixed <;> simp [hfixed, Nat.shiftLeft_eq] <;> omega

theorem toNat_setWidth_word {k : Nat} (hk : k ≤ 32) (x : BitVec k) : (x.setWidth 32).toNat = x.toNat :=
  BitVec.toNat_setWidth_of_le hk

theorem contentOf_readsAs {s : State} {a n : Nat} (hlegal : legalAccess a n = true) :
    ReadsAs s a n (contentOf s n (locate a)) where
  id := by rintro rfl; rfl
  ctrl := by rintro rfl; cases h : s.irqEn <;> simp [locate, registerMap, contentOf, h]
  status := by rintro rfl; exact statusReads_word s.status
  cmd := by rintro rfl; rfl
  inLen := by rintro rfl; exact toNat_setWidth_word (by decide) s.conf.inLen
  outLen := by rintro rfl; rfl
  outBits := by rintro rfl; rfl
  rdBits := by rintro rfl; rfl
  errPos := by rintro rfl; rfl
  errSym := by rintro rfl; rfl
  acfg := by rintro rfl; exact acfgWord_toNat s.conf
  alpha := by rintro rfl; exact toNat_setWidth_word (by decide) s.conf.alpha
  fixDen := by rintro rfl; exact toNat_setWidth_word (by decide) s.conf.fixDen
  hroot := by rintro rfl; exact toNat_setWidth_word (by decide) s.huff.hroot
  hnodes := by rintro rfl; exact toNat_setWidth_word (by decide) s.huff.hnodes
  probeDen := by rintro rfl; rfl
  diagLowL := by rintro rfl; rfl
  diagLowH := by rintro rfl; rfl
  diagHighL := by rintro rfl; rfl
  diagHighH := by rintro rfl; rfl
  diagPend := by rintro rfl; rfl
  diagK := by rintro rfl; rfl
  diagEnc := by
    rintro m hm rfl
    rw [locate_diagEnc (by omega) (by omega), show (0x60 + 4 * m - 0x60) / 4 = m by omega]
    rfl
  fixCum := by
    rintro c hc rfl
    rw [locate_fixCum (by omega) (by omega), show (0x1000 + 4 * c - 0x1000) / 4 = c by omega]
    exact toNat_setWidth_word (by decide) _
  freq := by
    rintro x hx rfl
    rw [locate_freq (by omega) (by omega), show (0x1400 + 4 * x - 0x1400) / 4 = x by omega]
    have hx' : x ≠ Config.sentH := by unfold Config.sentH; omega
    simp [contentOf, freqOf, hx']
  freqSentinel := by rintro rfl; rfl
  cwLen := by
    rintro x hx rfl
    rw [locate_cwLen (by omega) (by omega), show (0x1800 + 4 * x - 0x1800) / 4 = x by omega]
    exact toNat_setWidth_word (by decide) _
  cwBits := by
    rintro x hx m hm rfl
    rw [locate_cwBits (by omega) (by omega), show (0x2000 + 16 * x + 4 * m - 0x2000) / 16 = x by omega,
      show (0x2000 + 16 * x + 4 * m - 0x2000) / 4 % 4 = m by omega]
    rfl
  probeCum := by
    rintro c hc rfl
    rw [locate_probeCum (by omega) (by omega), show (0x3000 + 4 * c - 0x3000) / 4 = c by omega]
    rfl
  inBuf := by
    intro h h' k hk
    rw [locate_inBuf h h']
    exact readLanes_lane _ _ (legalAccess_size hlegal) hk
  outBuf := by
    intro h h' k hk
    rw [locate_outBuf h h']
    exact readLanes_lane _ _ (legalAccess_size hlegal) hk
  hnode := by
    rintro j hj rfl
    rw [locate_hnode (by omega) (by omega), show (0x40000 + 4 * j - 0x40000) / 4 = j by omega]
    rfl

/-! ### What a running command leaves free (R462) -/

/-- The first row of the table of R462. -/
def Loc.isResult : Loc → Bool
  | .outLen | .outBits | .rdBits | .errPos | .errSym => true
  | _ => false

/-- The other rows of the table of R462: the commands during which a location may read as any value. -/
def volatileDuring : Loc → List Instr
  | .outBuf _ =>
    [.aencFix, .aencDir, .aencBig, .adecFix, .adecDir, .adecBig] ++ [.henc, .hdec, .pack, .unpack]
  | .diagLowL | .diagLowH | .diagHighL | .diagHighH | .diagPend | .diagK | .diagEnc _ =>
    [.aencFix, .aencDir, .aencBig, .adecFix, .adecDir, .adecBig]
  | .probeCum _ | .probeDen => [.mprobeFix, .mprobeDir, .mprobeBig]
  | .freq x => if x < 128 then [.hcount] else []
  | .cwLen _ | .cwBits _ _ => [.hbuild]
  | .hnode _ | .hroot | .hnodes | .status => [.hbuild, .hload]
  | .id | .ctrl | .cmd | .inLen | .acfg | .alpha | .fixDen | .fixCum _ | .inBuf _ | .hole
  | .outLen | .outBits | .rdBits | .errPos | .errSym => []

/-- No bit of a location is free while a command runs that no row names. -/
theorem volatileBits_eq_zero {s : State} {loc : Loc} (hresult : loc.isResult = true → decode s.cmd = .ok .nop)
    (hrows : ∀ i ∈ volatileDuring loc, decode s.cmd ≠ .ok i) : volatileBits (runningCommand s) loc = 0 := by
  unfold runningCommand
  cases hd : decode s.cmd with
  | error e =>
    cases loc with
    | outLen | outBits | rdBits | errPos | errSym => exact absurd (hd ▸ hresult rfl) nofun
    | _ => rfl
  | ok i =>
    have hi : i ∉ volatileDuring loc := fun hmem => hrows i hmem hd
    cases loc with
    | outLen | outBits | rdBits | errPos | errSym =>
      obtain rfl : i = .nop := Except.ok.inj (hd.symm.trans (hresult rfl))
      rfl
    | id | ctrl | cmd | inLen | acfg | alpha | fixDen | fixCum | inBuf | hole => rfl
    | freq x =>
      by_cases hx : x < 128
      · have hne : i ≠ .hcount := by simpa [volatileDuring, hx] using hi
        cases i with
        | hcount => exact absurd rfl hne
        | _ => rfl
      · simp [volatileBits, hx]
    | diagLowL | diagLowH | diagHighL | diagHighH | diagPend | diagK | diagEnc =>
      cases i with
      | aencFix | aencDir | aencBig | adecFix | adecDir | adecBig => exact absurd (List.mem_of_elem_eq_true rfl) hi
      | _ => rfl
    | outBuf =>
      cases i with
      | aencFix | aencDir | aencBig | adecFix | adecDir | adecBig | henc | hdec | pack | unpack =>
        exact absurd (List.mem_of_elem_eq_true rfl) hi
      | _ => rfl
    | probeCum | probeDen =>
      cases i with
      | mprobeFix | mprobeDir | mprobeBig => exact absurd (List.mem_of_elem_eq_true rfl) hi
      | _ => rfl
    | cwLen | cwBits =>
      cases i with
      | hbuild => exact absurd (List.mem_of_elem_eq_true rfl) hi
      | _ => rfl
    | hnode | hroot | hnodes | status =>
      cases i with
      | hbuild | hload => exact absurd (List.mem_of_elem_eq_true rfl) hi
      | _ => rfl

/-- The rows of R462 that name one of the first 22 registers. -/
theorem volatileDuring_registerMap : ∀ j < 22,
    ((registerMap.getD j .hole).isResult = true → 5 ≤ j ∧ j < 10) ∧
    (volatileDuring (registerMap.getD j .hole) = [] ∨
      ((j = 2 ∨ j = 13 ∨ j = 14) ∧ volatileDuring (registerMap.getD j .hole) = [.hbuild, .hload]) ∨
      (j = 15 ∧ volatileDuring (registerMap.getD j .hole) = [.mprobeFix, .mprobeDir, .mprobeBig]) ∨
      (16 ≤ j ∧ volatileDuring (registerMap.getD j .hole) =
        [.aencFix, .aencDir, .aencBig, .adecFix, .adecDir, .adecBig])) := by
  decide

/-- The offsets of the rows of R462 after the first. -/
theorem volatileAt_of_mem_volatileDuring {cmd : Word} {a n : Nat} (hlegal : legalAccess a n = true)
    (h : decode cmd ∈ (volatileDuring (locate a)).map Except.ok) : VolatileAt cmd a := by
  have hhole : locate a ≠ .hole := by
    intro hhole
    simp [hhole, volatileDuring] at h
  obtain ha | ⟨ha, ha'⟩ | ⟨ha, ha'⟩ | ⟨ha, ha'⟩ | ⟨ha, ha'⟩ | ⟨ha, ha'⟩ | ⟨ha, ha'⟩ | ⟨ha, ha'⟩ | ⟨ha, ha'⟩ | ⟨ha, ha'⟩ :=
    region_of_ne_hole hhole
  · have hword := legalAccess_aligned hlegal (.inl (by omega))
    rw [locate_register ha] at h
    obtain ⟨-, hrow | ⟨hj, hrow⟩ | ⟨hj, hrow⟩ | ⟨hj, hrow⟩⟩ := volatileDuring_registerMap (a / 4) (by omega) <;>
      rw [hrow] at h
    · exact absurd h List.not_mem_nil
    · exact .inr (.inr (.inr (.inr (.inr (.inl ⟨h, by omega⟩)))))
    · exact .inr (.inr (.inl ⟨h, by omega⟩))
    · exact .inr (.inl ⟨h, by omega⟩)
  · rw [locate_diagEnc ha ha'] at h
    exact .inr (.inl ⟨h, .inr (.inr ⟨ha, ha'⟩)⟩)
  · rw [locate_fixCum ha ha'] at h
    exact absurd h List.not_mem_nil
  · rw [locate_freq ha ha', volatileDuring] at h
    split at h
    · exact .inr (.inr (.inr (.inl ⟨List.mem_singleton.1 h, ha, by omega⟩)))
    · exact absurd h List.not_mem_nil
  · rw [locate_cwLen ha ha'] at h
    exact .inr (.inr (.inr (.inr (.inl ⟨List.mem_singleton.1 h, .inl ⟨ha, ha'⟩⟩))))
  · rw [locate_cwBits ha ha'] at h
    exact .inr (.inr (.inr (.inr (.inl ⟨List.mem_singleton.1 h, .inr ⟨ha, ha'⟩⟩))))
  · rw [locate_probeCum ha ha'] at h
    exact .inr (.inr (.inl ⟨h, .inl ⟨ha, ha'⟩⟩))
  · rw [locate_inBuf ha ha'] at h
    exact absurd h List.not_mem_nil
  · rw [locate_outBuf ha ha', volatileDuring, List.map_append, List.mem_append] at h
    obtain h | h := h
    · exact .inr (.inl ⟨h, .inl ⟨ha, ha'⟩⟩)
    · exact .inr (.inr (.inr (.inr (.inr (.inr ⟨h, ha, ha'⟩)))))
  · rw [locate_hnode ha ha'] at h
    exact .inr (.inr (.inr (.inr (.inr (.inl ⟨h, .inl ⟨ha, ha'⟩⟩)))))

/-- The result registers are five of the first 22 (R43 to R46). -/
theorem result_offset {a n : Nat} (hlegal : legalAccess a n = true) (h : (locate a).isResult = true) :
    0x14 ≤ a ∧ a < 0x28 := by
  have hoff : (locate a ≠ .hole) ∧ 0x14 ≤ offsetOf (locate a) ∧ offsetOf (locate a) < 0x28 := by
    cases hloc : locate a with
    | outLen | outBits | rdBits | errPos | errSym => exact ⟨nofun, by decide, by decide⟩
    | _ => rw [hloc] at h; cases h
  rw [← offsetOf_locate hlegal hoff.1]
  exact hoff.2

/-- A location that R462 does not name for the running command has no free bit. -/
theorem volatileBits_of_not_volatileAt {s : State} {a n : Nat} (hlegal : legalAccess a n = true) (h : ¬ VolatileAt s.cmd a) :
    volatileBits (runningCommand s) (locate a) = 0 := by
  refine volatileBits_eq_zero (fun hresult => ?_) fun i hmem hi => ?_
  · by_contra hnop
    exact h (.inl ⟨hnop, result_offset hlegal hresult⟩)
  · exact h (volatileAt_of_mem_volatileDuring hlegal (hi ▸ List.mem_map_of_mem hmem))

/-- Of `STATUS` only `HVALID` can be free (R462). -/
theorem volatileBits_status (i : Option Instr) : volatileBits i .status = 0 ∨ volatileBits i .status = 0x100 := by
  cases i with
  | none => exact .inl rfl
  | some i =>
    cases i with
    | hbuild | hload => exact .inr rfl
    | _ => exact .inl rfl

/-! ### The data of a read -/

/-- While busy a read of a location without free bits returns its content (R462). -/
theorem readData_of_not_volatile {s : State} {a n : Nat}
    (h : volatileBits (runningCommand s) (locate a) = 0) : readData s a n = contentOf s n (locate a) := by
  simp [readData, h]

/-- Outside the free bits a read returns the content (R462). -/
theorem readData_getLsbD (s : State) (a n : Nat) {j : Nat}
    (h : (volatileBits (runningCommand s) (locate a)).getLsbD j = false) :
    (readData s a n).getLsbD j = (contentOf s n (locate a)).getLsbD j := by
  unfold readData
  dsimp only
  have hfree : (if s.status.busy then volatileBits (runningCommand s) (locate a) &&& laneMask n else 0).getLsbD j = false := by
    split
    · rw [BitVec.getLsbD_and, h, Bool.false_and]
    · exact BitVec.getLsbD_zero
  generalize (if s.status.busy then _ else _ : Word) = free at hfree ⊢
  split
  · rfl
  · rw [BitVec.getLsbD_or, BitVec.getLsbD_and, BitVec.getLsbD_and, BitVec.getLsbD_not, hfree]
    rcases Nat.lt_or_ge j 32 with hj | hj
    · simp [hj]
    · simp [BitVec.getLsbD_of_ge _ _ hj]

/-- A read of `STATUS` shows every field but `HVALID` (R35, R462). -/
theorem readData_status_getLsbD (s : State) (n : Nat) {j : Nat} (hj : j ≠ 8) :
    (readData s 0x008 n).getLsbD j = s.status.word.getLsbD j := by
  refine readData_getLsbD s 0x008 n ?_
  obtain h | h := volatileBits_status (runningCommand s)
  · show (volatileBits (runningCommand s) .status).getLsbD j = false
    rw [h]
    exact BitVec.getLsbD_zero
  · show (volatileBits (runningCommand s) .status).getLsbD j = false
    rw [h, show (0x100 : Word) = BitVec.twoPow 32 8 from rfl, BitVec.getLsbD_twoPow]
    simp [Ne.symm hj]

/-- `STATUS` as a read shows it while a command runs (R462). -/
theorem readData_status_busy {s : State} (hs : StatusCoherent s) (hbusy : s.status.busy = true) (n : Nat) :
    (readData s 0x008 n).getLsbD 0 = true ∧ (readData s 0x008 n).getLsbD 1 = false ∧
      (readData s 0x008 n).getLsbD 2 = false ∧ (readData s 0x008 n).getLsbD 3 = s.status.wbusy ∧
      (readData s 0x008 n).getLsbD 4 = s.status.buserr ∧ (readData s 0x008 n).extractLsb' 16 8 = 0 ∧
      readData s 0x008 n &&& 0xFF00FEE0 = 0 := by
  obtain ⟨hdone, herr⟩ := hs.of_busy hbusy
  obtain ⟨-, -, -, -, hcode, -⟩ := hs
  have hword := statusReads_word s.status
  have hbit := fun j => readData_status_getLsbD s n (j := j)
  refine ⟨?_, ?_, ?_, ?_, ?_, ?_, ?_⟩
  · rw [hbit 0 (by decide), hword.busy, hbusy]
  · rw [hbit 1 (by decide), hword.done, hdone]
  · rw [hbit 2 (by decide), hword.err, herr]
  · rw [hbit 3 (by decide), hword.wbusy]
  · rw [hbit 4 (by decide), hword.buserr]
  · apply BitVec.eq_of_getLsbD_eq
    intro j hj
    rw [← hcode hbusy, ← hword.errcode, BitVec.getLsbD_extractLsb', BitVec.getLsbD_extractLsb', hbit (16 + j) (by omega)]
  · apply BitVec.eq_of_getLsbD_eq
    intro j hj
    rw [← hword.reserved, BitVec.getLsbD_and, BitVec.getLsbD_and]
    by_cases h8 : j = 8
    · subst h8
      simp
    · rw [hbit j h8]

/-- Settles O60. -/
theorem readsReturnTheContent : Obligations.ReadsReturnTheContent := by
  intro s a n rest hreset ha hlegal hport
  have hcontent := contentOf_slot s rest n (locate a)
  refine ⟨contentOf_readsAs hlegal, fun h => ?_, fun hbusy hwait => ?_⟩
  · have hdata : readData { passSlot s with port := rest } a n = contentOf s n (locate a) := by
      obtain hidle | ⟨-, hfixed⟩ := h
      · exact (readData_of_idle hidle a n).trans hcontent
      · exact (readData_of_not_volatile (volatileBits_of_not_volatileAt hlegal hfixed)).trans hcontent
    rw [step_of_legal_read (h.imp id And.left) hreset ha hlegal hport, hdata]
    rfl
  · refine ⟨_, step_of_legal_read (.inr hwait) hreset ha hlegal hport, ?_⟩
    rintro rfl hcoherent
    exact readData_status_busy hcoherent hbusy n

end Sys2Proof.Machine
end

section
/-! Accesses that store nothing (R107 to R109): outside the aperture, illegal, to a hole, or to a read-only location. -/

namespace Sys2Proof.Machine

/-! ### Outside the aperture (R109) -/

theorem run_succ_of_step (M : Host.Core) {s t : M.State} (h : M.step s = .next t) (k : Nat) :
    M.run (k + 1) s = M.run k t := by
  rw [Host.Core.run, h]

/-- No run stops, since no step does. -/
theorem runSafe (k : Nat) (s : State) : RunSafe k s := by
  induction k generalizing s with
  | zero => exact ⟨s, rfl⟩
  | succ k ih =>
    obtain ⟨t, ht⟩ := step_next s
    obtain ⟨u, hu⟩ := ih t
    exact ⟨u, (run_succ_of_step Sys2Proof.core ht k).trans hu⟩

theorem serve_read_outside {a : Nat} (h : 0x60000 ≤ a) (n : Nat) (s : State) : serve (.read a n) s = outsideRead s :=
  if_neg (Nat.not_lt.2 h)

theorem serve_write_outside {a : Nat} (h : 0x60000 ≤ a) (n : Nat) (v : Word) (s : State) : serve (.write a n v) s = s :=
  if_neg (Nat.not_lt.2 h)

/-- Settles O8. -/
theorem outsideAccessesDoNotReach : Obligations.OutsideAccessesDoNotReach := by
  refine ⟨runSafe, fun s a n v rest h ha hport => ?_, fun s a n rest h ha hport => ⟨Config.freeWord s.free, ?_⟩⟩
  · rw [step_of_arrival h hport, serve_write_outside ha]
    rfl
  · rw [step_of_arrival h hport, serve_read_outside ha]
    rfl

/-! ### Illegal accesses (R108) -/

theorem legalAccess_word_size {a n : Nat} (h : legalAccess a n = true) (ha : a < 0x10000 ∨ 0x30000 ≤ a) : n = 4 := by
  have hbuf : inByteBuffer a = false := by
    simp only [inByteBuffer, Bool.and_eq_false_iff, decide_eq_false_iff_not]
    omega
  simp only [legalAccess, hbuf, Bool.false_eq_true, if_false, Bool.and_eq_true, beq_iff_eq] at h
  exact h.1

/-- An aligned access of 1, 2 or 4 bytes stays inside the buffer it starts in. -/
theorem legalAccess_stays_in_buffer {a n base : Nat} (h : legalAccess a n = true)
    (hbase : base = 0x10000 ∨ base = 0x20000) (ha : base ≤ a) (ha' : a < base + 0x10000) : a + n ≤ base + 0x10000 := by
  obtain ⟨rfl | rfl | rfl, halign⟩ := legalAccess_buffer h (by omega) (by omega) <;> omega

/-- Every access that passes `legalAccess` is listed by R108. -/
theorem legalAccess_listed {a n : Nat} (h : legalAccess a n = true) :
    (∃ base, (base = 0x10000 ∨ base = 0x20000) ∧ base ≤ a ∧ a + n ≤ base + 0x10000 ∧ (n = 1 ∨ n = 2 ∨ n = 4) ∧ a % n = 0) ∨
      ((a < 0x10000 ∨ 0x30000 ≤ a) ∧ n = 4 ∧ a % 4 = 0) := by
  by_cases hout : a < 0x10000 ∨ 0x30000 ≤ a
  · exact .inr ⟨hout, legalAccess_word_size h hout, legalAccess_aligned h hout⟩
  · have hbuffer := legalAccess_buffer h (by omega) (by omega)
    obtain hin | hin : a < 0x20000 ∨ 0x20000 ≤ a := by omega
    · exact .inl ⟨0x10000, .inl rfl, by omega, legalAccess_stays_in_buffer h (.inl rfl) (by omega) hin, hbuffer⟩
    · exact .inl ⟨0x20000, .inr rfl, hin, legalAccess_stays_in_buffer h (.inr rfl) hin (by omega), hbuffer⟩

theorem step_of_illegal_read {s : State} {a n : Nat} {rest : List PortEvent}
    (h : s.status.busy = false ∨ s.wait ≠ 0) (hreset : s.resetIn = false) (ha : a < 0x60000)
    (hillegal : legalAccess a n = false) (hport : s.port = .read a n :: rest) :
    step s = .next { busError { passSlot s with port := rest } with rdata := 0 } := by
  rw [step_of_arrival h hport]
  simp [serve, portRead, memRead, Config.apertureBytes, ha, hreset, hillegal]

/-- Settles O53. -/
theorem illegalAccessOnlySetsBuserr : Obligations.IllegalAccessOnlySetsBuserr := by
  intro s a n v rest h hreset ha hunlisted
  have hillegal : legalAccess a n = false := Bool.eq_false_iff.2 (mt legalAccess_listed hunlisted)
  refine ⟨fun hport => ?_, fun hport => ?_⟩
  · rw [step_of_write h hreset ha hport, memWrite_of_illegal hillegal]
    rfl
  · rw [step_of_illegal_read h hreset ha hillegal hport]
    rfl

/-! ### Holes (R109) -/

/-- The offsets between the regions of R101 are holes. -/
theorem locate_hole {a : Nat}
    (h : (0x58 ≤ a ∧ a < 0x60) ∨ (0x78 ≤ a ∧ a < 0x1000) ∨ (0x1200 ≤ a ∧ a < 0x1400) ∨ (0x1604 ≤ a ∧ a < 0x1800) ∨
      (0x1A04 ≤ a ∧ a < 0x2000) ∨ (0x2810 ≤ a ∧ a < 0x3000) ∨ (0x3200 ≤ a ∧ a < 0x10000) ∨
      (0x30000 ≤ a ∧ a < 0x40000)) : locate a = .hole := by
  by_contra hhole
  have hregion := region_of_ne_hole hhole
  omega

theorem memWrite_hole {a n : Nat} (hlegal : legalAccess a n = true) (hhole : locate a = .hole) (v : Word) (s : State) :
    memWrite a n v s = s := by
  simp [memWrite, hlegal, hhole]

/-- A hole holds no bit, free or not. -/
theorem readData_hole {a : Nat} (hhole : locate a = .hole) (s : State) (n : Nat) : readData s a n = 0 := by
  rw [readData_of_not_volatile (by rw [hhole]; rfl), hhole]
  rfl

/-- Settles O54. -/
theorem holesReadZeroAndIgnoreWrites : Obligations.HolesReadZeroAndIgnoreWrites := by
  intro s a v rest h hreset ha halign hrange
  have hhole := locate_hole hrange
  have hlegal := legalAccess_word halign
  refine ⟨fun hport => ?_, fun hport => ?_⟩
  · rw [step_of_write h hreset ha hport, memWrite_hole hlegal hhole]
    rfl
  · rw [step_of_legal_read h hreset ha hlegal hport, readData_hole hhole]
    rfl

/-! ### Read-only locations (R31, R51, R107) -/

/-- The read-only and hardwired locations: a store changes none of them. -/
def Loc.isReadOnly : Loc → Bool
  | .id | .outLen | .outBits | .rdBits | .errPos | .errSym | .hroot | .hnodes | .probeDen | .diagLowL | .diagLowH
  | .diagHighL | .diagHighH | .diagPend | .diagK | .diagEnc _ | .probeCum _ | .outBuf _ | .hnode _ => true
  | .freq x => x == 128
  | .ctrl | .status | .cmd | .inLen | .acfg | .alpha | .fixDen | .fixCum _ | .cwLen _ | .cwBits _ _ | .inBuf _
  | .hole => false

/-- A store to entry 128 of `FREQ` falls off the table; every other read-only location has no storage arm (R107). -/
theorem storeWord_of_isReadOnly {loc : Loc} (h : loc.isReadOnly = true) (n : Nat) (v : Word) (s : State) :
    storeWord loc n v s = s := by
  cases loc with
  | freq x =>
    obtain rfl : x = 128 := by simpa [Loc.isReadOnly] using h
    rfl
  | inLen | acfg | alpha | fixDen | fixCum | cwLen | cwBits | inBuf => exact absurd h nofun
  | _ => rfl

theorem isReadOnly_registerMap : ∀ j < 22, j = 0 ∨ (5 ≤ j ∧ j < 10) ∨ 13 ≤ j →
    (registerMap.getD j .hole).isReadOnly = true := by decide

theorem locate_isReadOnly {a : Nat}
    (h : a = 0x000 ∨ (0x014 ≤ a ∧ a < 0x028) ∨ (0x034 ≤ a ∧ a < 0x058) ∨ (0x060 ≤ a ∧ a < 0x078) ∨ a = 0x1600 ∨
      (0x3000 ≤ a ∧ a < 0x3200) ∨ (0x20000 ≤ a ∧ a < 0x30000) ∨ (0x40000 ≤ a ∧ a < 0x60000)) :
    (locate a).isReadOnly = true := by
  obtain h | h | h | ⟨h, h'⟩ | rfl | ⟨h, h'⟩ | ⟨h, h'⟩ | ⟨h, h'⟩ := h
  · rw [locate_register (by omega), isReadOnly_registerMap _ (by omega) (by omega)]
  · rw [locate_register (by omega), isReadOnly_registerMap _ (by omega) (by omega)]
  · rw [locate_register (by omega), isReadOnly_registerMap _ (by omega) (by omega)]
  · rw [locate_diagEnc h h', Loc.isReadOnly]
  · rfl
  · rw [locate_probeCum h h', Loc.isReadOnly]
  · rw [locate_outBuf h h', Loc.isReadOnly]
  · rw [locate_hnode h h', Loc.isReadOnly]

theorem memWrite_of_isReadOnly {s : State} {a n : Nat} (hidle : s.status.busy = false) (hlegal : legalAccess a n = true)
    (h : (locate a).isReadOnly = true) (v : Word) : memWrite a n v s = s := by
  have hne : ∀ loc : Loc, loc.isReadOnly = false → locate a ≠ loc := fun loc hloc heq =>
    Bool.noConfusion (hloc.symm.trans (heq ▸ h))
  rw [memWrite_eq_storeWord hidle hlegal (hne _ rfl) (hne _ rfl) (hne _ rfl), storeWord_of_isReadOnly h]

/-- Settles O56. -/
theorem readOnlyLocationsIgnoreWrites : Obligations.ReadOnlyLocationsIgnoreWrites := by
  intro s a n v rest hidle hreset hlegal hrange hport
  rw [step_of_write (.inl hidle) hreset (by omega) hport,
    memWrite_of_isReadOnly (s := { passSlot s with port := rest }) hidle hlegal (locate_isReadOnly hrange)]
  rfl

end Sys2Proof.Machine
end

section
/-! The address map forwards (R101), and the byte lanes of `IN_BUF` (R102). -/

namespace Sys2Proof.Machine

/-- Settles O52: each offset lies in its region, and the index is the distance from the base. -/
theorem addressMap : Obligations.AddressMap := by
  refine ⟨rfl, fun m hm => ?_, fun c hc => ?_, fun x hx => ?_, fun x hx => ?_, fun x hx m hm => ?_, fun c hc => ?_,
    fun i hi => ?_, fun i hi => ?_, fun n hn => ?_⟩
  · rw [locate_diagEnc (by omega) (by omega)]
    congr 1
    omega
  · rw [locate_fixCum (by omega) (by omega)]
    congr 1
    omega
  · rw [locate_freq (by omega) (by omega)]
    congr 1
    omega
  · rw [locate_cwLen (by omega) (by omega)]
    congr 1
    omega
  · rw [locate_cwBits (by omega) (by omega)]
    congr 1 <;> omega
  · rw [locate_probeCum (by omega) (by omega)]
    congr 1
    omega
  · rw [locate_inBuf (by omega) (by omega), Nat.add_sub_cancel_left]
  · rw [locate_outBuf (by omega) (by omega), Nat.add_sub_cancel_left]
  · rw [locate_hnode (by omega) (by omega)]
    congr 1
    omega

theorem lanes_length (v : Word) (n : Nat) : (lanes v n).length = n := by simp [lanes]

/-- A store of `n` bytes puts lane `k` of the data at byte `i + k` and changes no other byte (R102). -/
theorem read_writeMany_lanes (m : Memory) (i n : Nat) (v : Word) :
    (∀ k < n, (m.writeMany i (lanes v n)).read (i + k) = v.extractLsb' (8 * k) 8) ∧
      ∀ j, j < i ∨ i + n ≤ j → (m.writeMany i (lanes v n)).read j = m.read j := by
  refine ⟨fun k hk => ?_, fun j hj => ?_⟩
  · rw [Memory.read_writeMany, lanes_length, if_pos (by omega), Nat.add_sub_cancel_left]
    simp [lanes, hk]
  · rw [Memory.read_writeMany, lanes_length, if_neg (by omega)]

/-- Bytes that hold the `n` low lanes of a word read back as these lanes, with 0 above them. -/
theorem readLanes_eq_and {m : Memory} {i n : Nat} (hn : n ≤ 4) {v : Word}
    (h : ∀ k < n, m.read (i + k) = v.extractLsb' (8 * k) 8) :
    readLanes m i n = v &&& BitVec.ofNat 32 (2 ^ (8 * n) - 1) := by
  rw [← setWidth_setWidth_eq_and v (k := 8 * n) (by omega)]
  apply BitVec.eq_of_getLsbD_eq
  intro j hj
  rw [readLanes_getLsbD m i n hn, BitVec.getLsbD_setWidth, BitVec.getLsbD_setWidth]
  by_cases hlane : j < 8 * n
  · have hbit : 8 * (j / 8) + j % 8 = j := Nat.div_add_mod j 8
    rw [h (j / 8) (by omega), BitVec.getLsbD_extractLsb', hbit]
    simp [hj, hlane, Nat.mod_lt]
  · simp [hlane]

theorem legalAccess_of_inBuf {i n : Nat} (hn : n = 1 ∨ n = 2 ∨ n = 4) (halign : i % n = 0) (hfits : i + n ≤ 65536) :
    legalAccess (0x10000 + i) n = true := by
  have hbuf : inByteBuffer (0x10000 + i) = true := by
    simp only [inByteBuffer, Bool.and_eq_true, decide_eq_true_eq]
    omega
  have halign' : (0x10000 + i) % n = 0 := by obtain rfl | rfl | rfl := hn <;> omega
  simpa [legalAccess, hbuf, halign', or_assoc] using hn

/-- While idle a legal read returns the content (R106). -/
theorem step_of_idle_read {s : State} {a n : Nat} {rest : List PortEvent} (hidle : s.status.busy = false)
    (hreset : s.resetIn = false) (ha : a < 0x60000) (hlegal : legalAccess a n = true) (hport : s.port = .read a n :: rest) :
    ∃ u, step s = .next u ∧ u.rdata = contentOf s n (locate a) :=
  ⟨_, step_of_legal_read (.inl hidle) hreset ha hlegal hport,
    (readData_of_idle (s := { passSlot s with port := rest }) hidle a n).trans (contentOf_slot s rest n (locate a))⟩

/-- Settles O58: the write is a store of the lanes, and the read gives the lanes back. -/
theorem inputBufferLanes : Obligations.InputBufferLanes := by
  intro s i n v rest hidle hreset hn halign hfits hport
  have ha : 0x10000 + i < 0x60000 := by omega
  have hlegal := legalAccess_of_inBuf hn halign hfits
  have hloc : locate (0x10000 + i) = .inBuf i := by
    rw [locate_inBuf (by omega) (by omega), Nat.add_sub_cancel_left]
  have hwrite := step_of_write (.inl hidle) hreset ha hport
  rw [memWrite_eq_storeWord (s := { passSlot s with port := .read (0x10000 + i) n :: rest }) hidle hlegal
    (by rw [hloc]; nofun) (by rw [hloc]; nofun) (by rw [hloc]; nofun), hloc] at hwrite
  obtain ⟨u, hread, hdata⟩ := step_of_idle_read
    (s := storeWord (.inBuf i) n v { passSlot s with port := .read (0x10000 + i) n :: rest }) hidle hreset ha hlegal rfl
  obtain ⟨hlanes, hkept⟩ := read_writeMany_lanes s.inBuf i n v
  refine ⟨_, u, hwrite, hread, hlanes, hkept, rfl, ?_⟩
  rw [hdata, hloc]
  exact readLanes_eq_and (by omega) hlanes

end Sys2Proof.Machine
end

section
/-! What an error reports (R404), per loop: only `HLOAD` loses the tree, and only an output command has written bytes. -/

namespace Sys2Proof.Machine

/-- A part of a command fails, if it does, with a failure that has `P`. -/
def FailsWith {α : Type} (P : Failure → Prop) : Except Failure α → Prop
  | .ok _ => True
  | .error f => P f

theorem FailsWith.failure {α : Type} {P : Failure → Prop} {r : Except Failure α} (h : FailsWith P r) {f : Failure}
    (hr : r = .error f) : P f := by
  subst hr; exact h

theorem FailsWith.mono {α : Type} {P Q : Failure → Prop} {r : Except Failure α} (h : FailsWith P r)
    (hPQ : ∀ f, P f → Q f) : FailsWith Q r := by
  cases r with
  | ok _ => trivial
  | error f => exact hPQ f h

/-- The failure leaves the tree, unlike one of `HLOAD`. -/
abbrev Failure.KeepsTree (f : Failure) : Prop := f.tree = false

/-- The command had written no byte of `OUT_BUF` when it failed. -/
abbrev Failure.WroteNothing (f : Failure) : Prop := f.wrote = 0

/-- The failure changes neither the tree nor `OUT_BUF`. -/
abbrev Failure.OnlyReports (f : Failure) : Prop := f.KeepsTree ∧ f.WroteNothing

/-! ### Checks and models -/

theorem checkInLen_fails (s : State) : FailsWith Failure.OnlyReports (checkInLen s) := by
  unfold checkInLen
  split
  · exact ⟨rfl, rfl⟩
  · trivial

theorem checkModel_fails (m : Model) (c : Conf) : FailsWith Failure.OnlyReports (checkModel m c) := by
  unfold checkModel
  split
  · exact ⟨rfl, rfl⟩
  · cases m with
    | fix =>
      dsimp only
      split_ifs
      · trivial
      · exact ⟨rfl, rfl⟩
      · split
        · exact ⟨rfl, rfl⟩
        · exact ⟨rfl, rfl⟩
      · split
        · exact ⟨rfl, rfl⟩
        · trivial
    | dir | big =>
      dsimp only
      split
      · exact ⟨rfl, rfl⟩
      · trivial

theorem checkCoder_fails (m : Model) (s : State) : FailsWith Failure.OnlyReports (checkCoder m s) := by
  unfold checkCoder
  split
  · next hf => exact (checkInLen_fails s).failure hf
  · exact checkModel_fails m s.conf

theorem checkHuffman_fails (s : State) : FailsWith Failure.OnlyReports (checkHuffman s) := by
  unfold checkHuffman
  split
  · next hf => exact (checkInLen_fails s).failure hf
  · unfold checkTree
    split
    · trivial
    · exact ⟨rfl, rfl⟩

theorem feedModel_fails (m : Model) (c : Conf) (bs : List Byte) (i : Nat) (k : Counts) :
    FailsWith Failure.OnlyReports (feedModel m c i bs k) := by
  induction bs generalizing i k with
  | nil => trivial
  | cons b bs ih =>
    unfold feedModel
    split
    · exact ⟨rfl, rfl⟩
    · split
      · exact ⟨rfl, rfl⟩
      · exact ih _ _

/-! ### Bit streams -/

theorem outBit_fails (pos sym : Nat) (out : List Bool) (b : Bool) :
    FailsWith Failure.KeepsTree (outBit pos sym out b) := by
  unfold outBit
  split
  · rfl
  · trivial

theorem outBits_fails (pos sym : Nat) (bs out : List Bool) : FailsWith Failure.KeepsTree (outBits pos sym out bs) := by
  induction bs generalizing out with
  | nil => trivial
  | cons b bs ih =>
    unfold outBits
    split
    · next hf => exact (outBit_fails pos sym out b).failure hf
    · exact ih _

theorem renormEncStep_fails (one pos sym : Nat) (k : RCase) (r : EncRun) :
    FailsWith Failure.KeepsTree (renormEncStep one pos sym k r) := by
  unfold renormEncStep
  cases k with
  | middle => trivial
  | lower | upper =>
    dsimp only
    split
    · next hf => exact (outBits_fails pos sym _ _).failure hf
    · trivial

theorem renormEnc_fails (one : Nat) (middle : Bool) (pos sym fuel : Nat) (r : EncRun) :
    FailsWith Failure.KeepsTree (renormEnc one middle pos sym fuel r) := by
  induction fuel generalizing r with
  | zero => trivial
  | succ fuel ih =>
    unfold renormEnc
    split
    · trivial
    · split
      · next hf => exact (renormEncStep_fails one pos sym _ r).failure hf
      · exact ih _

theorem encodeSymbols_fails (m : Model) (c : Conf) (bs : List Byte) (i : Nat) (k : Counts) (r : EncRun) :
    FailsWith Failure.KeepsTree (encodeSymbols m c i bs k r) := by
  induction bs generalizing i k r with
  | nil => trivial
  | cons b bs ih =>
    unfold encodeSymbols
    dsimp only
    split_ifs
    · rfl
    · rfl
    · split
      · rfl
      · split
        · next hf => exact (renormEnc_fails _ true i b.toNat _ _).failure hf
        · exact ih _ _ _

theorem packDigits_fails (ds : List Byte) (i : Nat) (out : List Bool) :
    FailsWith Failure.KeepsTree (packDigits i ds out) := by
  induction ds generalizing i out with
  | nil => trivial
  | cons d ds ih =>
    unfold packDigits
    split
    · split
      · next hf => exact (outBit_fails i d.toNat out _).failure hf
      · exact ih _ _
    · rfl

theorem emitCode_fails (t : Huff) (pos sym : Nat) (out : List Bool) :
    FailsWith Failure.KeepsTree (emitCode t pos sym out) := by
  unfold emitCode
  split
  · exact outBits_fails pos sym _ out
  · rfl

theorem huffEncode_fails (t : Huff) (bs : List Byte) (i : Nat) (out : List Bool) :
    FailsWith Failure.KeepsTree (huffEncode t i bs out) := by
  induction bs generalizing i out with
  | nil => trivial
  | cons b bs ih =>
    unfold huffEncode
    split
    · rfl
    · split
      · next hf => exact (emitCode_fails t i b.toNat out).failure hf
      · exact ih _ _

/-! ### Decoders -/

theorem findSymbol_fails (src : Nat → Bool) (c : Conf) (v : CumVec) (n : Nat) (r : DecRun) :
    FailsWith Failure.KeepsTree (findSymbol src c v n r) := by
  induction n generalizing r with
  | zero =>
    unfold findSymbol
    split
    · trivial
    · split
      · trivial
      · rfl
  | succ n ih =>
    unfold findSymbol
    split
    · trivial
    · split
      · trivial
      · exact ih _

theorem decodeSymbols_fails (src : Nat → Bool) (m : Model) (c : Conf) (room : Nat) (r : DecRun) :
    FailsWith Failure.KeepsTree (decodeSymbols src m c room r) := by
  induction room generalizing r with
  | zero =>
    unfold decodeSymbols
    split
    · next hf => exact (findSymbol_fails src c _ _ r).failure hf
    · trivial
    · rfl
  | succ room ih =>
    unfold decodeSymbols
    split
    · next hf => exact (findSymbol_fails src c _ _ r).failure hf
    · trivial
    · dsimp only
      split
      · rfl
      · exact ih _

theorem huffDecode_fails (a : Arena) (root room rpos : Nat) (bits : List Bool) (out : List Byte) :
    FailsWith Failure.KeepsTree (huffDecode a root room rpos bits out) := by
  induction room generalizing rpos bits out with
  | zero =>
    unfold huffDecode
    split
    · rfl
    · rfl
    · split
      · trivial
      · rfl
  | succ room ih =>
    unfold huffDecode
    split
    · rfl
    · rfl
    · split
      · trivial
      · exact ih _ _ _

/-! ### The tree builder of `HLOAD` -/

theorem insertCode_fails (sym : Nat) (bs : List Bool) (n i : Nat) (t : Trie) :
    FailsWith Failure.WroteNothing (insertCode sym n i bs t) := by
  induction bs generalizing n i t with
  | nil =>
    unfold insertCode
    split
    · trivial
    · rfl
  | cons b bs ih =>
    unfold insertCode
    split
    · rfl
    · exact ih _ _ _

theorem insertAll_fails (h : Huff) (syms : List Nat) (t : Trie) :
    FailsWith Failure.WroteNothing (insertAll h syms t) := by
  induction syms generalizing t with
  | nil => trivial
  | cons sym rest ih =>
    unfold insertAll
    split_ifs
    · rfl
    · rfl
    · split
      · next hf => exact (insertCode_fails sym _ 0 0 t).failure hf
      · exact ih _

/-! ### Bodies -/

theorem probeBody_fails (m : Model) (s : State) : FailsWith Failure.OnlyReports (probeBody m s) := by
  unfold probeBody
  split
  · next hf => exact (checkCoder_fails m s).failure hf
  · split
    · next hf => exact (feedModel_fails m s.conf _ 0 _).failure hf
    · trivial

theorem countBody_fails (s : State) : FailsWith Failure.OnlyReports (countBody s) := by
  unfold countBody
  split
  · next hf => exact (checkInLen_fails s).failure hf
  · split
    · exact ⟨rfl, rfl⟩
    · trivial

theorem encodeBody_fails (m : Model) (s : State) : FailsWith Failure.KeepsTree (encodeBody m s) := by
  unfold encodeBody
  split
  · next hf => exact ((checkCoder_fails m s).failure hf).1
  · split
    · next hf => exact (encodeSymbols_fails m s.conf _ 0 _ _).failure hf
    · split
      · next hf => exact (renormEnc_fails _ false _ _ _ _).failure hf
      · split
        · next hf => exact (outBit_fails _ _ _ true).failure hf
        · trivial

theorem decodeBody_fails (m : Model) (s : State) : FailsWith Failure.KeepsTree (decodeBody m s) := by
  have hsyms := decodeSymbols_fails (inBitZ s) m s.conf Config.obufBytes
    (decStart (inBitZ s) s.conf.numFmt (modelInit m s.work.counts))
  rw [decodeBody_eq_bind]
  generalize decodeSymbols (inBitZ s) m s.conf Config.obufBytes
    (decStart (inBitZ s) s.conf.numFmt (modelInit m s.work.counts)) = run at hsyms ⊢
  cases hc : checkCoder m s with
  | error f => exact ((checkCoder_fails m s).failure hc).1
  | ok _ =>
    cases run with
    | error f => exact hsyms
    | ok r => trivial

theorem loadBody_fails (s : State) : FailsWith Failure.WroteNothing (loadBody s) := by
  unfold loadBody
  split
  · rfl
  · split
    · next hf => exact (insertAll_fails s.huff _ _).failure hf
    · trivial

theorem huffEncodeBody_fails (s : State) : FailsWith Failure.KeepsTree (huffEncodeBody s) := by
  unfold huffEncodeBody
  split
  · next hf => exact ((checkHuffman_fails s).failure hf).1
  · split
    · next hf => exact (huffEncode_fails s.huff _ 0 []).failure hf
    · split
      · next hf => exact (emitCode_fails s.huff _ _ _).failure hf
      · trivial

theorem huffDecodeBody_fails (s : State) : FailsWith Failure.KeepsTree (huffDecodeBody s) := by
  unfold huffDecodeBody
  split
  · next hf => exact ((checkHuffman_fails s).failure hf).1
  · split
    · next hf => exact (huffDecode_fails s.huff.arena _ _ 0 _ []).failure hf
    · trivial

theorem packBody_fails (s : State) : FailsWith Failure.KeepsTree (packBody s) := by
  unfold packBody
  split
  · next hf => exact ((checkInLen_fails s).failure hf).1
  · split
    · next hf => exact (packDigits_fails _ 0 []).failure hf
    · trivial

theorem unpackBody_fails (s : State) : FailsWith Failure.KeepsTree (unpackBody s) := by
  unfold unpackBody
  split
  · next hf => exact ((checkInLen_fails s).failure hf).1
  · split
    · rfl
    · trivial

/-- Only `HLOAD` loses the tree on an error, and only an output command leaves bytes of `OUT_BUF` unspecified (R404). -/
abbrev Failure.FitsCommand (i : Instr) (f : Failure) : Prop :=
  (i ≠ .hload → f.KeepsTree) ∧ (writesOutBuf i = false → f.WroteNothing)

theorem Failure.KeepsTree.fitsCommand {i : Instr} (hout : writesOutBuf i = true) (f : Failure) (h : f.KeepsTree) :
    f.FitsCommand i :=
  ⟨fun _ => h, fun hnot => absurd hout (by simp [hnot])⟩

theorem Failure.OnlyReports.fitsCommand (i : Instr) (f : Failure) (h : f.OnlyReports) : f.FitsCommand i :=
  ⟨fun _ => h.1, fun _ => h.2⟩

theorem bodyOf_fails (i : Instr) (s : State) : FailsWith (Failure.FitsCommand i) (bodyOf i s) := by
  cases i with
  | nop | hbuild => trivial
  | aencFix | aencDir | aencBig => exact (encodeBody_fails _ s).mono (Failure.KeepsTree.fitsCommand rfl)
  | adecFix | adecDir | adecBig => exact (decodeBody_fails _ s).mono (Failure.KeepsTree.fitsCommand rfl)
  | mprobeFix | mprobeDir | mprobeBig => exact (probeBody_fails _ s).mono (Failure.OnlyReports.fitsCommand _)
  | hcount => exact (countBody_fails s).mono (Failure.OnlyReports.fitsCommand _)
  | hload => exact (loadBody_fails s).mono fun _ h => ⟨fun hne => absurd rfl hne, fun _ => h⟩
  | henc => exact (huffEncodeBody_fails s).mono (Failure.KeepsTree.fitsCommand rfl)
  | hdec => exact (huffDecodeBody_fails s).mono (Failure.KeepsTree.fitsCommand rfl)
  | pack => exact (packBody_fails s).mono (Failure.KeepsTree.fitsCommand rfl)
  | unpack => exact (unpackBody_fails s).mono (Failure.KeepsTree.fitsCommand rfl)

end Sys2Proof.Machine
end

section
/-! What each command may write (R105, R155): the frame of every command, for both of its ends. -/

namespace Sys2Proof.Machine

/-- The command `i` takes `s` to `t` and writes only its results (R105). -/
structure WritesOnlyResults (i : Instr) (s t : State) : Prop where
  setup : SetupKept s t
  probe : i ∉ [Instr.mprobeFix, .mprobeDir, .mprobeBig] → ProbeKept s t
  diag : i ∉ [Instr.aencFix, .aencDir, .aencBig, .adecFix, .adecDir, .adecBig] → DiagKept s t
  huff : i ∉ [Instr.hcount, .hbuild, .hload] → HuffKept s t
  hcount : i = .hcount → t.status.hvalid = s.status.hvalid ∧ t.huff = { s.huff with freq := t.huff.freq }
  hbuild : i = .hbuild → t.huff.freq = s.huff.freq
  hload : i = .hload → t.huff.freq = s.huff.freq ∧ t.huff.cwLen = s.huff.cwLen ∧ t.huff.cwBits = s.huff.cwBits
  outBuf : writesOutBuf i = false → OutBufKeptFrom 0 s t
  outBufEnd : OutBufKeptFrom 65536 s t
  outLen : t.status.errcode = 0 → writesOutBuf i = true → OutBufKeptFrom t.res.outLen.toNat s t

/-- The prologue clears result registers and working registers only (R380). -/
theorem WritesOnlyResults.of_startCommand {i : Instr} {s t : State} (h : WritesOnlyResults i (startCommand s) t) :
    WritesOnlyResults i s t := { h with }

/-! ### Completion (R405) -/

theorem writesOnlyResults_refl (i : Instr) (s : State) : WritesOnlyResults i s (completeDone s) where
  setup := ⟨rfl, rfl, rfl, rfl, rfl, rfl, rfl, rfl, rfl, rfl⟩
  probe _ := ⟨rfl, rfl⟩
  diag _ := rfl
  huff _ := ⟨rfl, rfl⟩
  hcount _ := ⟨rfl, rfl⟩
  hbuild _ := rfl
  hload _ := ⟨rfl, rfl, rfl⟩
  outBuf _ _ _ := rfl
  outBufEnd _ _ := rfl
  outLen _ _ _ _ := rfl

theorem Memory.read_overwrite_of_le {m : Memory} {bs : List Byte} {i : Nat} (h : bs.length ≤ i) :
    (m.overwrite bs).read i = m.read i := by
  rw [Memory.read_overwrite, dif_neg (Nat.not_lt.2 h)]

theorem toNat_ofNat_of_le_obufBytes {n : Nat} (h : n ≤ Config.obufBytes) : (BitVec.ofNat 32 n).toNat = n := by
  rw [BitVec.toNat_ofNat]
  exact Nat.mod_eq_of_lt (lt_of_le_of_lt h (by decide))

/-- The bytes of a result that fit are all the bytes that change, and `OUT_LEN` counts them (R43). -/
theorem outBufKeptFrom_overwrite {s t : State} {bs : List Byte} (hfit : BytesFit bs)
    (ht : t.outBuf = s.outBuf.overwrite bs) (hlen : t.res.outLen = BitVec.ofNat 32 bs.length) :
    OutBufKeptFrom 65536 s t ∧ OutBufKeptFrom t.res.outLen.toNat s t := by
  rw [hlen, toNat_ofNat_of_le_obufBytes hfit]
  refine ⟨fun i hi => ?_, fun i hi => ?_⟩
  · rw [ht, Memory.read_overwrite_of_le (le_trans hfit hi)]
  · rw [ht, Memory.read_overwrite_of_le hi]

section

variable {i : Instr} (hout : writesOutBuf i = true)

include hout

theorem writesOnlyResults_commitBytes {out : List Byte} (hfit : BytesFit out) (s : State) :
    WritesOnlyResults i s (completeDone (commitBytes out s)) :=
  have hkept := outBufKeptFrom_overwrite (s := s) (t := completeDone (commitBytes out s)) hfit rfl rfl
  { writesOnlyResults_refl i s with
    outBuf := fun h => absurd hout (by simp [h])
    outBufEnd := hkept.1
    outLen := fun _ _ => hkept.2 }

theorem writesOnlyResults_commitBits {out : List Bool} (hfit : BitsFit out) (s : State) :
    WritesOnlyResults i s (completeDone (commitBits out s)) :=
  have hkept := outBufKeptFrom_overwrite (s := s) (t := completeDone (commitBits out s)) (bs := packBits out)
    (by simpa using packedLen_le hfit) rfl (by simp)
  { writesOnlyResults_refl i s with
    outBuf := fun h => absurd hout (by simp [h])
    outBufEnd := hkept.1
    outLen := fun _ _ => hkept.2 }

end

/-- A body that completes has written only the results of its command. -/
theorem bodyOf_writesOnlyResults (i : Instr) (s : State) :
    EndsWith (fun b => WritesOnlyResults i s (completeDone b)) (bodyOf i s) := by
  cases i with
  | nop => exact writesOnlyResults_refl .nop s
  | aencFix | aencDir | aencBig =>
    exact (encodeBody_endsWith _ s).mono fun _ ⟨_, _, _, hfit, hb⟩ =>
      hb ▸ { writesOnlyResults_commitBits rfl hfit s with diag := fun h => absurd (by simp) h }
  | adecFix | adecDir | adecBig =>
    exact (decodeBody_endsWith _ s).mono fun _ ⟨_, hfit, hb⟩ =>
      hb ▸ { writesOnlyResults_commitBytes rfl hfit s with diag := fun h => absurd (by simp) h }
  | mprobeFix | mprobeDir | mprobeBig =>
    exact (probeBody_endsWith _ s).mono fun _ ⟨_, _, hb⟩ =>
      hb ▸ { writesOnlyResults_refl _ s with probe := fun h => absurd (by simp) h }
  | hcount =>
    exact (countBody_endsWith s).mono fun _ ⟨_, _, hb⟩ =>
      hb ▸ { writesOnlyResults_refl _ s with
        huff := fun h => absurd (by simp) h, hcount := fun _ => ⟨rfl, rfl⟩, hbuild := nofun, hload := nofun }
  | hbuild =>
    obtain ⟨g, t, -, hb⟩ := buildBody_eq_commitBuild s
    show WritesOnlyResults .hbuild s (completeDone (buildBody s))
    exact hb ▸ { writesOnlyResults_refl _ s with huff := fun h => absurd (by simp) h, hcount := nofun, hload := nofun }
  | hload =>
    exact (loadBody_endsWith s).mono fun _ ⟨_, _, hb⟩ =>
      hb ▸ { writesOnlyResults_refl _ s with huff := fun h => absurd (by simp) h, hcount := nofun }
  | henc =>
    exact (huffEncodeBody_endsWith s).mono fun _ ⟨_, _, hfit, hb⟩ => hb ▸ { writesOnlyResults_commitBits rfl hfit s with }
  | hdec =>
    exact (huffDecodeBody_endsWith s).mono fun _ ⟨_, _, hfit, hb⟩ => hb ▸ { writesOnlyResults_commitBytes rfl hfit s with }
  | pack =>
    exact (packBody_endsWith s).mono fun _ ⟨_, _, hfit, hb⟩ => hb ▸ { writesOnlyResults_commitBits rfl hfit s with }
  | unpack =>
    exact (unpackBody_endsWith s).mono fun _ ⟨_, _, hfit, hb⟩ => hb ▸ { writesOnlyResults_commitBytes rfl hfit s with }

/-! ### Errors (R404) -/

theorem raiseErr_setupKept (f : Failure) (s : State) : SetupKept s (raiseErr f s) := by
  cases htree : f.tree <;> simp [SetupKept, htree]

theorem raiseErr_huffKept {f : Failure} (h : f.KeepsTree) (s : State) : HuffKept s (raiseErr f s) := by
  simp [HuffKept, show f.tree = false from h]

/-- An error never writes the frequencies or the codeword table, not even one of `HLOAD`. -/
theorem raiseErr_tablesKept (f : Failure) (s : State) :
    (raiseErr f s).huff.freq = s.huff.freq ∧ (raiseErr f s).huff.cwLen = s.huff.cwLen ∧
      (raiseErr f s).huff.cwBits = s.huff.cwBits := by
  cases htree : f.tree <;> simp [htree]

theorem raiseErr_outBufKeptFrom {f : Failure} {n : Nat} (h : f.wrote ≤ n) (s : State) :
    OutBufKeptFrom n s (raiseErr f s) := by
  intro i hi
  rw [raiseErr_outBuf, Memory.read_scramble, if_neg (by omega)]

theorem raiseErr_errcode_ne_zero (f : Failure) (s : State) : (raiseErr f s).status.errcode ≠ 0 := by
  have hcode := (ErrCode.toByte_listed f.code).2
  cases htree : f.tree <;> simpa [htree] using hcode

theorem writesOnlyResults_raiseErr {i : Instr} {f : Failure} (hfits : f.FitsCommand i) (hwrote : f.wrote ≤ Config.obufBytes)
    (s : State) : WritesOnlyResults i s (raiseErr f s) where
  setup := raiseErr_setupKept f s
  probe _ := ⟨raiseErr_probeCum f s, raiseErr_probeDen f s⟩
  diag _ := raiseErr_diag f s
  huff h := raiseErr_huffKept (hfits.1 fun hi => h (by simp [hi])) s
  hcount h := by
    obtain ⟨hhuff, hvalid⟩ := raiseErr_huffKept (hfits.1 (by simp [h])) s
    exact ⟨hvalid, by rw [hhuff]⟩
  hbuild _ := (raiseErr_tablesKept f s).1
  hload _ := raiseErr_tablesKept f s
  outBuf h := raiseErr_outBufKeptFrom (hfits.2 h).le s
  outBufEnd := raiseErr_outBufKeptFrom hwrote s
  outLen h := absurd h (raiseErr_errcode_ne_zero f s)

/-! ### Commands -/

theorem exec_writesOnlyResults_from_entry {i : Instr} {s t : State} (h : exec i s = .next t) :
    WritesOnlyResults i (entryOf i s) t := by
  obtain ⟨b, hb, rfl⟩ | ⟨f, hf, rfl⟩ := exec_cases h
  · exact (bodyOf_writesOnlyResults i (entryOf i s)).value hb
  · exact writesOnlyResults_raiseErr ((bodyOf_fails i _).failure hf) ((bodyOf_frame i _).wrote_le hf) _

theorem exec_writesOnlyResults {i : Instr} {s t : State} (h : exec i s = .next t) : WritesOnlyResults i s t := by
  have hframe := exec_writesOnlyResults_from_entry h
  obtain hentry | hentry := entryOf_cases i s <;> rw [hentry] at hframe
  · exact hframe
  · exact hframe.of_startCommand

/-- Settles O10. -/
theorem commandsWriteOnlyTheirResults : Obligations.CommandsWriteOnlyTheirResults := by
  intro i s t h
  obtain ⟨hsetup, hprobe, hdiag, hhuff, hcount, hbuild, hload, houtBuf, hend, hlen⟩ := exec_writesOnlyResults h
  exact ⟨hsetup, hprobe, hdiag, hhuff, hcount, hbuild, hload, houtBuf, hend, hlen⟩

end Sys2Proof.Machine
end

section
/-! A command reads `IN_BUF` below `IN_LEN` only (R104): its body answers alike for two buffers that agree there. -/

namespace Sys2Proof.Machine

/-- The state with other contents of `IN_BUF`. -/
def withInBuf (m : Memory) (s : State) : State := { s with inBuf := m }

/-- The buffer `m` holds the input of `s`: its bytes below `IN_LEN`. -/
abbrev HoldsInput (m : Memory) (s : State) : Prop := ∀ j < inLen s, m.read j = s.inBuf.read j

/-! ### What does not look at `IN_BUF` -/

section

variable (m : Memory) (s : State)

@[simp] theorem withInBuf_conf : (withInBuf m s).conf = s.conf := rfl
@[simp] theorem withInBuf_huff : (withInBuf m s).huff = s.huff := rfl
@[simp] theorem withInBuf_work : (withInBuf m s).work = s.work := rfl
@[simp] theorem inLen_withInBuf : inLen (withInBuf m s) = inLen s := rfl
@[simp] theorem checkInLen_withInBuf : checkInLen (withInBuf m s) = checkInLen s := rfl
@[simp] theorem checkCoder_withInBuf (md : Model) : checkCoder md (withInBuf m s) = checkCoder md s := rfl
@[simp] theorem checkHuffman_withInBuf : checkHuffman (withInBuf m s) = checkHuffman s := rfl
@[simp] theorem trieStart_withInBuf : trieStart (withInBuf m s) = trieStart s := rfl

theorem buildBody_withInBuf : buildBody (withInBuf m s) = withInBuf m (buildBody s) := rfl

theorem loadBody_withInBuf : loadBody (withInBuf m s) = (loadBody s).map (withInBuf m) := by
  rw [loadBody, loadBody, withInBuf_huff, trieStart_withInBuf]
  split
  · rfl
  · cases insertAll s.huff (validSymbols s.huff) ((trieStart s).alloc emptyNode) <;> rfl

theorem completeDone_withInBuf : completeDone (withInBuf m s) = withInBuf m (completeDone s) := rfl

theorem raiseErr_withInBuf (f : Failure) : raiseErr f (withInBuf m s) = withInBuf m (raiseErr f s) := by
  unfold raiseErr
  cases f.tree <;> rfl

theorem entryOf_withInBuf (i : Instr) : entryOf i (withInBuf m s) = withInBuf m (entryOf i s) := by
  cases i <;> rfl

theorem inLen_entryOf (i : Instr) : inLen (entryOf i s) = inLen s := by
  cases i <;> rfl

theorem inBuf_entryOf (i : Instr) : (entryOf i s).inBuf = s.inBuf := by
  cases i <;> rfl

end

/-! ### The forms of the input (R103, R104) -/

section

variable {m : Memory} {s : State} (h : HoldsInput m s)

include h

theorem inBytes_withInBuf : inBytes (withInBuf m s) = inBytes s :=
  List.map_congr_left fun j hj => h j (List.mem_range.1 hj)

theorem inBit_withInBuf {j : Nat} (hj : j < 8 * inLen s) : inBit (withInBuf m s) j = inBit s j := by
  have hbyte : inByte (withInBuf m s) (j / 8) = inByte s (j / 8) := h (j / 8) (by omega)
  rw [inBit, inBit, hbyte]

theorem inBits_withInBuf : inBits (withInBuf m s) = inBits s :=
  List.map_congr_left fun _ hj => inBit_withInBuf h (List.mem_range.1 hj)

/-- Past the end of the input the bit source of `ADEC` is 0 (R272). -/
theorem inBitZ_withInBuf : inBitZ (withInBuf m s) = inBitZ s := by
  funext j
  rw [inBitZ, inBitZ, inLen_withInBuf]
  by_cases hj : j < 8 * inLen s
  · rw [inBit_withInBuf h hj]
  · simp [hj]

/-! ### The bodies that read the input -/

theorem probeBody_withInBuf (md : Model) : probeBody md (withInBuf m s) = (probeBody md s).map (withInBuf m) := by
  unfold probeBody
  simp only [checkCoder_withInBuf, withInBuf_conf, withInBuf_work, inBytes_withInBuf h]
  cases checkCoder md s with
  | error f => rfl
  | ok _ =>
    dsimp only
    cases feedModel md s.conf 0 (inBytes s) (modelInit md s.work.counts) <;> rfl

theorem encodeBody_withInBuf (md : Model) : encodeBody md (withInBuf m s) = (encodeBody md s).map (withInBuf m) := by
  unfold encodeBody
  simp only [checkCoder_withInBuf, withInBuf_conf, withInBuf_work, inLen_withInBuf, inBytes_withInBuf h]
  cases checkCoder md s with
  | error f => rfl
  | ok _ =>
    dsimp only
    cases encodeSymbols md s.conf 0 (inBytes s) (modelInit md s.work.counts) (encStart s.conf.numFmt) with
    | error f => rfl
    | ok p =>
      dsimp only
      cases narrowSentinel md s.conf (inLen s) p.1 p.2 with
      | error f => rfl
      | ok r =>
        dsimp only
        cases outBit (inLen s) (nsymOf s.conf) r.out true <;> rfl

theorem decodeBody_withInBuf (md : Model) : decodeBody md (withInBuf m s) = (decodeBody md s).map (withInBuf m) := by
  rw [decodeBody_eq_bind, decodeBody_eq_bind, checkCoder_withInBuf, inBitZ_withInBuf h, withInBuf_conf, withInBuf_work]
  generalize decodeSymbols (inBitZ s) md s.conf Config.obufBytes
    (decStart (inBitZ s) s.conf.numFmt (modelInit md s.work.counts)) = run
  cases checkCoder md s with
  | error f => rfl
  | ok _ => cases run <;> rfl

theorem countBody_withInBuf : countBody (withInBuf m s) = (countBody s).map (withInBuf m) := by
  unfold countBody
  simp only [checkInLen_withInBuf, withInBuf_huff, withInBuf_work, inLen_withInBuf, inBytes_withInBuf h]
  cases checkInLen s with
  | error f => rfl
  | ok _ =>
    dsimp only
    cases firstOutside 0 (inBytes s) <;> rfl

theorem huffEncodeBody_withInBuf : huffEncodeBody (withInBuf m s) = (huffEncodeBody s).map (withInBuf m) := by
  unfold huffEncodeBody
  simp only [checkHuffman_withInBuf, withInBuf_huff, inLen_withInBuf, inBytes_withInBuf h]
  cases checkHuffman s with
  | error f => rfl
  | ok _ =>
    dsimp only
    cases huffEncode s.huff 0 (inBytes s) [] with
    | error f => rfl
    | ok out =>
      dsimp only
      cases emitCode s.huff (inLen s) Config.sentH out <;> rfl

theorem huffDecodeBody_withInBuf : huffDecodeBody (withInBuf m s) = (huffDecodeBody s).map (withInBuf m) := by
  unfold huffDecodeBody
  simp only [checkHuffman_withInBuf, withInBuf_huff, inBits_withInBuf h]
  generalize huffDecode s.huff.arena s.huff.hroot.toNat Config.obufBytes 0 (inBits s) [] = run
  cases checkHuffman s with
  | error f => rfl
  | ok _ => cases run <;> rfl

theorem packBody_withInBuf : packBody (withInBuf m s) = (packBody s).map (withInBuf m) := by
  unfold packBody
  simp only [checkInLen_withInBuf, inLen_withInBuf, inBytes_withInBuf h]
  cases checkInLen s with
  | error f => rfl
  | ok _ =>
    dsimp only
    cases packDigits 0 (inBytes s) [] <;> rfl

theorem unpackBody_withInBuf : unpackBody (withInBuf m s) = (unpackBody s).map (withInBuf m) := by
  unfold unpackBody
  simp only [checkInLen_withInBuf, inLen_withInBuf, inBits_withInBuf h]
  cases checkInLen s with
  | error f => rfl
  | ok _ =>
    dsimp only
    split <;> rfl

theorem bodyOf_withInBuf (i : Instr) : bodyOf i (withInBuf m s) = (bodyOf i s).map (withInBuf m) := by
  cases i with
  | nop => rfl
  | aencFix | aencDir | aencBig => exact encodeBody_withInBuf h _
  | adecFix | adecDir | adecBig => exact decodeBody_withInBuf h _
  | mprobeFix | mprobeDir | mprobeBig => exact probeBody_withInBuf h _
  | hcount => exact countBody_withInBuf h
  | hbuild => exact congrArg Except.ok (buildBody_withInBuf m s)
  | hload => exact loadBody_withInBuf m s
  | henc => exact huffEncodeBody_withInBuf h
  | hdec => exact huffDecodeBody_withInBuf h
  | pack => exact packBody_withInBuf h
  | unpack => exact unpackBody_withInBuf h

end

/-- Settles O11: a body leaves other contents of `IN_BUF` alone, and so do both ends of a command. -/
theorem inputTailNeverMatters : Obligations.InputTailNeverMatters := by
  intro i s m h
  have hentry : HoldsInput m (entryOf i s) := by rwa [HoldsInput, inLen_entryOf, inBuf_entryOf]
  have hbody : bodyOf i (entryOf i (withInBuf m s)) = (bodyOf i (entryOf i s)).map (withInBuf m) := by
    rw [entryOf_withInBuf, bodyOf_withInBuf hentry]
  show ∃ t, exec i s = .next t ∧ exec i (withInBuf m s) = .next (withInBuf m t)
  cases hb : bodyOf i (entryOf i s) with
  | ok b =>
    rw [hb] at hbody
    exact ⟨_, exec_of_body_ok hb, exec_of_body_ok hbody⟩
  | error f =>
    rw [hb] at hbody
    refine ⟨_, exec_of_body_error hb, ?_⟩
    rw [exec_of_body_error hbody, entryOf_withInBuf, raiseErr_withInBuf]

end Sys2Proof.Machine
end

section
/-! Command words (R150 to R157). The decoder accepts the words of the opcode map and no other, and the completion of any
other word only reports it. -/

namespace Sys2Proof.Machine

/-! ### Fields of a word -/

/-- The three fields of R150 make up the whole word. -/
theorem toWord_ofWord (w : Word) : (CmdWord.ofWord w).toWord = w := by
  show w.extractLsb' 11 21 ++ w.extractLsb' 8 3 ++ w.extractLsb' 0 8 = w
  rw [BitVec.extractLsb'_append_extractLsb'_eq_extractLsb' (show 11 = 8 + 3 from rfl),
    BitVec.extractLsb'_append_extractLsb'_eq_extractLsb' (show 8 = 0 + 8 from rfl)]
  exact BitVec.extractLsb'_eq_self

/-- The legality checks of R156 as conditions on the fields. -/
theorem wellFormed_iff (f : CmdWord) : f.wellFormed = true ↔
    f.rsv = 0 ∧ f.opcode ∈ legalOpcodes ∧ (f.opcode ∈ modelOpcodes → f.model.toNat ≤ 2) ∧
      (f.opcode ∉ modelOpcodes → f.model = 0) := by
  simp [CmdWord.wellFormed, CmdWord.reservedClear, CmdWord.opcodeKnown, CmdWord.modelInRange, CmdWord.modelAbsent,
    and_assoc, imp_iff_not_or]

/-! ### The opcode map (R153) -/

/-- Each row holds the fields of its command. -/
theorem opcodeMap_fields : ∀ r ∈ opcodeMap, r.1 = r.2.2.opcode ∧ r.2.1 = r.2.2.model := by decide

theorem mem_opcodeMap (i : Instr) : (i.opcode, i.model, i) ∈ opcodeMap := by
  cases i <;> decide

theorem fields_of_selectCommand {op : BitVec 8} {m : BitVec 3} {i : Instr} (h : selectCommand op m = some i) :
    op = i.opcode ∧ m = i.model := by
  obtain ⟨r, hfind, rfl⟩ := Option.map_eq_some_iff.1 h
  have hkey := List.find?_some hfind
  simp only [Bool.and_eq_true, beq_iff_eq] at hkey
  obtain ⟨hop, hmodel⟩ := opcodeMap_fields r (List.mem_of_find?_eq_some hfind)
  exact ⟨hkey.1 ▸ hop, hkey.2 ▸ hmodel⟩

/-! ### The decoder -/

/-- A word that decodes has passed the checks, and its fields select the command (R151). -/
theorem decode_ok {w : Word} {i : Instr} (h : decode w = .ok i) :
    (CmdWord.ofWord w).wellFormed = true ∧
      selectCommand (CmdWord.ofWord w).opcode (CmdWord.ofWord w).model = some i := by
  unfold decode at h
  dsimp only at h
  split_ifs at h with hrsv hop hrange habsent
  split at h
  · next hselect =>
    cases h
    simp only [Bool.not_eq_true', Bool.not_eq_false] at hrsv hop hrange habsent
    exact ⟨by simp [CmdWord.wellFormed, hrsv, hop, hrange, habsent], hselect⟩
  · cases h

theorem encode_of_decode {w : Word} {i : Instr} (h : decode w = .ok i) : encode i = w := by
  obtain ⟨hlegal, hselect⟩ := decode_ok h
  have hrsv := ((wellFormed_iff _).1 hlegal).1
  obtain ⟨hop, hmodel⟩ := fields_of_selectCommand hselect
  calc encode i = (CmdWord.ofWord w).toWord := by rw [encode, ← hop, ← hmodel, ← hrsv]
    _ = w := toWord_ofWord w

theorem decode_eq_ok_iff {w : Word} {i : Instr} : decode w = .ok i ↔ encode i = w :=
  ⟨encode_of_decode, fun h => h ▸ decode_encode i⟩

/-- Settles O2. -/
theorem decodeInvertsEncode : Obligations.DecodeInvertsEncode :=
  ⟨decode_encode, fun _ _ => encode_of_decode⟩

/-- Settles O1: each of the words is the word of its command. -/
theorem sampleWordsDecode : Obligations.SampleWordsDecode :=
  ⟨decode_encode .nop, decode_encode .aencBig, decode_encode .adecDir, decode_encode .mprobeFix, decode_encode .hload,
    decode_encode .unpack⟩

/-- The commands paired with their words, in the order of the opcode map (R157). -/
def legalWords : List (Word × Instr) := opcodeMap.map fun r => (encode r.2.2, r.2.2)

theorem mem_legalWords {w : Word} {i : Instr} : (w, i) ∈ legalWords ↔ encode i = w := by
  unfold legalWords
  constructor
  · intro h
    obtain ⟨r, -, hr⟩ := List.mem_map.1 h
    cases hr
    rfl
  · rintro rfl
    exact List.mem_map.2 ⟨_, mem_opcodeMap i, rfl⟩

/-- Settles O3: the seventeen words are those of the opcode map. -/
theorem legalWordsAreTheSeventeen : Obligations.LegalWordsAreTheSeventeen := by
  refine ⟨fun w i => ?_, decode_encode .nop, rfl, fun s => ⟨rfl, rfl, rfl, rfl⟩⟩
  show decode w = .ok i ↔ (w, i) ∈ legalWords
  rw [decode_eq_ok_iff, mem_legalWords]

/-! ### Illegal words (R151, R156) -/

theorem decode_of_not_wellFormed {w : Word} (h : ¬ (CmdWord.ofWord w).wellFormed = true) : ∃ e, decode w = .error e := by
  cases hd : decode w with
  | error e => exact ⟨e, rfl⟩
  | ok i => exact absurd (decode_ok hd).1 h

/-- A step with a due word that does not decode reports the word. -/
theorem step_of_due_illegal {s : State} {e : DecodeError} (hbusy : s.status.busy = true) (hwait : s.wait = 0)
    (he : decode s.cmd = .error e) : step s = .next (illegalCommand s) := by
  simp [step, dueCommand, hbusy, hwait, he]

theorem illegalCommand_allElseKept (s : State) : AllElseKept s (illegalCommand s) :=
  ⟨raiseErr_setupKept _ s, raiseErr_huffKept rfl s, ⟨raiseErr_probeCum _ s, raiseErr_probeDen _ s⟩, raiseErr_diag _ s,
    raiseErr_outBufKeptFrom (Nat.zero_le 0) s⟩

theorem illegalCommand_errSym (s : State) : (illegalCommand s).res.errSym = s.cmd := by
  simp [illegalCommand]

/-- Settles O4: each of the four conditions makes the word fail a check, and the report keeps everything else. -/
theorem illegalWordReported : Obligations.IllegalWordReported := by
  intro s hbusy hwait hcond
  have hill : ¬ (CmdWord.ofWord s.cmd).wellFormed = true := by
    rw [wellFormed_iff]
    rintro ⟨hrsv, hop, hrange, habsent⟩
    obtain h | h | ⟨hm, h⟩ | ⟨hm, h⟩ := hcond
    · exact h hrsv
    · exact h hop
    · exact absurd (hrange hm) (Nat.not_le.2 h)
    · exact h (habsent hm)
  obtain ⟨e, he⟩ := decode_of_not_wellFormed hill
  refine ⟨illegalCommand s, step_of_due_illegal hbusy hwait he, rfl, rfl, rfl, rfl, rfl, illegalCommand_errSym s,
    rfl, rfl, rfl, illegalCommand_allElseKept s⟩

end Sys2Proof.Machine
end

section
/-! The start-time checks of `AENC`, `ADEC` and `MPROBE` (R211, R380): one equation per answer of the checks, and what a
command that fails one of them leaves. -/

namespace Sys2Proof.Machine

/-! ### The model configuration (R211) -/

theorem checkModel_of_nsym_outside (m : Model) {c : Conf} (h : c.nsym.toNat = 0 ∨ 128 < c.nsym.toNat) :
    checkModel m c = .error { code := .cfgNsym, pos := 0, sym := c.nsym.toNat } := if_pos h

theorem toNat_fixDen_ne_zero {c : Conf} (h : c.fixDen ≠ 0) : c.fixDen.toNat ≠ 0 :=
  fun hzero => h (BitVec.eq_of_toNat_eq hzero)

theorem alphaOf_eq_zero_iff {c : Conf} : alphaOf c = 0 ↔ c.alpha = 0 :=
  ⟨fun h => BitVec.eq_of_toNat_eq h, fun h => congrArg BitVec.toNat h⟩

/-- The first `n` entries of `FIX_CUM` are weakly increasing (R200). -/
abbrev FixCumRises (c : Conf) (n : Nat) : Prop :=
  ∀ j < n, 1 ≤ j → fixCumOf c (j - 1) ≤ fixCumOf c j

theorem firstDecrease_eq_none {c : Conf} (h : FixCumRises c c.nsym.toNat) : firstDecrease c = none := by
  refine List.find?_range_eq_none.2 fun j hj => ?_
  have hj := h j hj
  simp only [Bool.not_eq_true', Bool.and_eq_false_iff, decide_eq_false_iff_not]
  omega

theorem firstDecrease_eq_some {c : Conf} {i : Nat} (hi : i < c.nsym.toNat) (hpos : 1 ≤ i)
    (hfall : fixCumOf c i < fixCumOf c (i - 1)) (hrise : FixCumRises c i) :
    firstDecrease c = some i := by
  refine List.find?_range_eq_some.2 ⟨?_, List.mem_range.2 hi, fun j hj => ?_⟩
  · simp [hpos, hfall]
  · have hj := hrise j hj
    simp only [Bool.not_eq_true', Bool.and_eq_false_iff, decide_eq_false_iff_not]
    omega

section

variable {c : Conf} (hpos : 1 ≤ c.nsym.toNat) (hmax : c.nsym.toNat ≤ 128)

include hpos hmax

theorem nsym_not_outside : ¬ (nsymOf c = 0 ∨ Config.nsymMax < nsymOf c) := by
  unfold nsymOf Config.nsymMax
  omega

theorem checkModel_smoothed {m : Model} (hm : m ≠ .fix) :
    checkModel m c = if alphaOf c = 0 then .error { code := .cfgAlpha, pos := 0, sym := 0 } else .ok () := by
  unfold checkModel
  rw [if_neg (nsym_not_outside hpos hmax)]
  cases m with
  | fix => exact absurd rfl hm
  | dir | big => rfl

theorem checkModel_fix_of_den_zero (hden : c.fixDen = 0) : checkModel .fix c = .ok () := by
  rw [checkModel, if_neg (nsym_not_outside hpos hmax)]
  exact if_pos (congrArg BitVec.toNat hden)

theorem checkModel_fix_of_den_large (hden : 2 ^ 30 < c.fixDen.toNat) :
    checkModel .fix c = .error { code := .cfgModel, pos := 0, sym := 1 } := by
  rw [checkModel, if_neg (nsym_not_outside hpos hmax)]
  rw [if_neg (Nat.ne_of_gt (Nat.zero_lt_of_lt hden))]
  exact if_pos hden

variable (hden : c.fixDen ≠ 0) (hden' : c.fixDen.toNat ≤ 2 ^ 30)

include hden hden'

theorem checkModel_fix_of_decrease {i : Nat} (h : firstDecrease c = some i) :
    checkModel .fix c = .error { code := .cfgModel, pos := i, sym := 2 } := by
  rw [checkModel, if_neg (nsym_not_outside hpos hmax)]
  rw [if_neg (toNat_fixDen_ne_zero hden), if_neg (show ¬ Config.denMax < _ from Nat.not_lt.2 hden'), h]

theorem checkModel_fix_of_no_decrease (h : firstDecrease c = none) :
    checkModel .fix c =
      if c.fixDen.toNat ≤ fixCumOf c (nsymOf c - 1) then .error { code := .cfgModel, pos := nsymOf c - 1, sym := 3 }
      else .ok () := by
  rw [checkModel, if_neg (nsym_not_outside hpos hmax)]
  rw [if_neg (toNat_fixDen_ne_zero hden), if_neg (show ¬ Config.denMax < _ from Nat.not_lt.2 hden'), h]

end

theorem checkModel_ok {m : Model} {c : Conf} (h : ConfigLegal m c) : checkModel m c = .ok () := by
  obtain ⟨hpos, hmax, hfix, halpha⟩ := h
  by_cases hm : m = .fix
  · subst hm
    by_cases hzero : c.fixDen = 0
    · exact checkModel_fix_of_den_zero hpos hmax hzero
    · obtain ⟨hden, hrise, hlast⟩ := (hfix rfl).resolve_left hzero
      rw [checkModel_fix_of_no_decrease hpos hmax hzero hden (firstDecrease_eq_none hrise)]
      exact if_neg (Nat.not_le.2 hlast)
  · rw [checkModel_smoothed hpos hmax hm]
    exact if_neg fun hzero => halpha hm (alphaOf_eq_zero_iff.1 hzero)

/-! ### The two checks together (R380) -/

theorem checkCoder_of_inLen_large (m : Model) {s : State} (h : 65536 < inLen s) :
    checkCoder m s = .error { code := .cfgLen, pos := 0, sym := inLen s } := by
  rw [checkCoder, checkInLen_error h]

theorem checkCoder_of_inLen_fits (m : Model) {s : State} (h : inLen s ≤ 65536) :
    checkCoder m s = checkModel m s.conf := by
  rw [checkCoder, checkInLen_ok h]

/-! ### The error exit (R404) -/

/-- The prologue and an error that only reports change the report and the cleared results (R404, R406). -/
theorem raiseErr_startCommand_reports {f : Failure} (h : f.OnlyReports) (s : State) :
    Raised f.code.toByte f.pos f.sym s (raiseErr f (startCommand s)) ∧
      AllElseKept s (raiseErr f (startCommand s)) := by
  obtain ⟨htree, hwrote⟩ := h
  have hstatus : (raiseErr f (startCommand s)).status = s.status.raise f.code := by
    rw [raiseErr_status, htree]
    rfl
  have hres := raiseErr_res f (startCommand s)
  refine ⟨?_, raiseErr_setupKept f (startCommand s), raiseErr_huffKept htree (startCommand s),
    ⟨raiseErr_probeCum f _, raiseErr_probeDen f _⟩, raiseErr_diag f _,
    raiseErr_outBufKeptFrom (Nat.le_of_eq hwrote) (startCommand s)⟩
  rw [Raised, hstatus, hres]
  exact ⟨rfl, rfl, rfl, rfl, rfl, rfl, rfl, rfl, rfl⟩

/-- A command that fails with a mere report raises it. -/
theorem exec_reports {i : Instr} {s : State} {f : Failure} (hentry : entryOf i s = startCommand s)
    (hbody : bodyOf i (startCommand s) = .error f) (h : f.OnlyReports) :
    ∃ t, exec i s = .next t ∧ Raised f.code.toByte f.pos f.sym s t ∧ AllElseKept s t := by
  refine ⟨raiseErr f (startCommand s), ?_, raiseErr_startCommand_reports h s⟩
  rw [← hentry] at hbody ⊢
  exact exec_of_body_error hbody

/-! ### The commands of the arithmetic coder -/

section

variable {m : Model} {i : Instr} (hi : i = aencOf m ∨ i = adecOf m ∨ i = mprobeOf m)

include hi

theorem entryOf_coder (s : State) : entryOf i s = startCommand s := by
  obtain rfl | rfl | rfl := hi <;> cases m <;> rfl

theorem bodyOf_coder (s : State) :
    bodyOf i s = encodeBody m s ∨ bodyOf i s = decodeBody m s ∨ bodyOf i s = probeBody m s := by
  obtain rfl | rfl | rfl := hi
  · exact .inl (by cases m <;> rfl)
  · exact .inr (.inl (by cases m <;> rfl))
  · exact .inr (.inr (by cases m <;> rfl))

theorem bodyOf_coder_of_check_error {s : State} {f : Failure} (h : checkCoder m s = .error f) :
    bodyOf i s = .error f := by
  obtain hb | hb | hb := bodyOf_coder hi s <;> rw [hb]
  · rw [encodeBody, h]
  · rw [decodeBody_eq_bind, h]
    rfl
  · rw [probeBody, h]

/-- A start-time error of the coder is reported and changes nothing else (R403). -/
theorem exec_coder_of_check_error {s : State} {f : Failure} (h : checkCoder m s = .error f) :
    ∃ t, exec i s = .next t ∧ Raised f.code.toByte f.pos f.sym s t ∧ AllElseKept s t :=
  exec_reports (entryOf_coder hi s) (bodyOf_coder_of_check_error hi (s := startCommand s) h)
    ((checkCoder_fails m s).failure h)

end

/-- Settles O18: each condition is the branch of the checks that answers with its error. -/
theorem coderStartErrors : Obligations.CoderStartErrors := by
  intro m i s hi
  have raises := fun (f : Failure) => exec_coder_of_check_error (f := f) hi (s := s)
  refine ⟨fun hlen => raises _ (checkCoder_of_inLen_large m hlen), fun hlen hnsym => ?_, fun hlen hpos hmax hm halpha => ?_,
    fun hlen hpos hmax hm hden => ?_, fun hlen hpos hmax hm hne hden c hc hc1 hfall hrise => ?_,
    fun hlen hpos hmax hm hne hden hrise hlast => ?_⟩
  all_goals have hcheck := checkCoder_of_inLen_fits m hlen
  · exact raises _ (hcheck.trans (checkModel_of_nsym_outside m hnsym))
  · rw [checkModel_smoothed hpos hmax hm, if_pos (alphaOf_eq_zero_iff.2 halpha)] at hcheck
    exact raises _ hcheck
  all_goals subst hm
  · exact raises _ (hcheck.trans (checkModel_fix_of_den_large hpos hmax hden))
  · exact raises _
      (hcheck.trans (checkModel_fix_of_decrease hpos hmax hne hden (firstDecrease_eq_some hc hc1 hfall hrise)))
  · rw [checkModel_fix_of_no_decrease hpos hmax hne hden (firstDecrease_eq_none hrise)] at hcheck
    exact raises _ (hcheck.trans (if_pos hlast))

end Sys2Proof.Machine
end

section
/-! The model registers after a symbol sequence (R204, R207, R210): the counts they hold, the vector fetched from them, and
why it is legal (R200, R212). -/

namespace Sys2Proof.Machine

/-! ### Symbol counts -/

/-- How many adjacent pairs of the sequence start with `p` (R210). -/
def departures (bytes : List Byte) (p : Nat) : Nat := (bytes.zip bytes.tail).countP fun x => x.1.toNat == p

theorem zip_tail_concat {α : Type} (l : List α) (a b : α) :
    (l ++ [a] ++ [b]).zip (l ++ [a] ++ [b]).tail = (l ++ [a]).zip (l ++ [a]).tail ++ [(a, b)] := by
  have hlen : l.length = (l ++ [a]).tail.length := by simp
  rw [List.tail_append_of_ne_nil (by simp), List.append_assoc l, List.zip_append hlen]
  conv_rhs => rw [← List.append_nil (l ++ [a]).tail, List.zip_append hlen]
  simp

theorem occurrences_concat (l : List Byte) (b : Byte) (x : Nat) :
    occurrences (l ++ [b]) x = occurrences l x + if b.toNat = x then 1 else 0 := by
  simp [occurrences, List.countP_append, List.countP_singleton]

theorem departures_concat (l : List Byte) (a b : Byte) (p : Nat) :
    departures (l ++ [a] ++ [b]) p = departures (l ++ [a]) p + if a.toNat = p then 1 else 0 := by
  unfold departures
  rw [zip_tail_concat]
  simp [List.countP_append, List.countP_singleton]

theorem transitions_concat (l : List Byte) (a b : Byte) (p x : Nat) :
    transitions (l ++ [a] ++ [b]) p x =
      transitions (l ++ [a]) p x + if a.toNat = p ∧ b.toNat = x then 1 else 0 := by
  unfold transitions
  rw [zip_tail_concat]
  simp [List.countP_append, List.countP_singleton]

theorem departures_le_length (l : List Byte) (p : Nat) : departures l p ≤ l.length := by
  refine List.countP_le_length.trans ?_
  rw [List.length_zip]
  exact Nat.min_le_left _ _

/-! ### Sums -/

theorem sumBelow_congr {f g : Nat → Nat} {n : Nat} (h : ∀ x < n, f x = g x) : sumBelow f n = sumBelow g n := by
  induction n with
  | zero => rfl
  | succ n ih => rw [sumBelow, sumBelow, ih fun x hx => h x (by omega), h n (by omega)]

theorem sumBelow_add (f g : Nat → Nat) (n : Nat) : sumBelow (fun x => f x + g x) n = sumBelow f n + sumBelow g n := by
  induction n with
  | zero => rfl
  | succ n ih =>
    simp only [sumBelow, ih]
    omega

theorem sumBelow_zero (n : Nat) : sumBelow (fun _ => 0) n = 0 := by
  induction n with
  | zero => rfl
  | succ n ih => exact ih

theorem sumBelow_indicator (b : Bool) (a n : Nat) :
    sumBelow (fun x => if (b && a == x) = true then 1 else 0) n = if (b && decide (a < n)) = true then 1 else 0 := by
  induction n with
  | zero => simp [sumBelow]
  | succ n ih =>
    rw [sumBelow, ih]
    cases b
    · simp
    · simp only [Bool.true_and, beq_iff_eq, decide_eq_true_eq]
      split_ifs <;> omega

/-- Counting the elements of a list by their key counts each of them at most once. -/
theorem sumBelow_countP_le {α : Type} (p : α → Bool) (key : α → Nat) (l : List α) (n : Nat) :
    sumBelow (fun x => l.countP fun a => p a && key a == x) n ≤ l.countP p := by
  induction l with
  | nil => exact (sumBelow_zero n).le
  | cons a l ih =>
    simp only [List.countP_cons, sumBelow_add, sumBelow_indicator]
    refine Nat.add_le_add ih ?_
    cases p a
    · simp
    · simp only [Bool.true_and, if_true]
      split_ifs <;> omega

theorem sumBelow_occurrences_le (bytes : List Byte) (n : Nat) : sumBelow (occurrences bytes) n ≤ bytes.length :=
  (sumBelow_countP_le (fun _ => true) BitVec.toNat bytes n).trans List.countP_le_length

theorem sumBelow_transitions_le (bytes : List Byte) (p n : Nat) :
    sumBelow (transitions bytes p) n ≤ departures bytes p :=
  sumBelow_countP_le (fun x : Byte × Byte => x.1.toNat == p) (fun x => x.2.toNat) (bytes.zip bytes.tail) n

theorem smoothedSum_eq_sumBelow (count : Nat → Nat) (alpha k : Nat) :
    smoothedSum count alpha k = sumBelow (fun x => count x * 256 + alpha) k := by
  induction k with
  | zero => rfl
  | succ k ih => rw [smoothedSum, sumBelow, ih]

theorem smoothedSum_eq_total (count : Nat → Nat) (alpha k : Nat) :
    smoothedSum count alpha k = sumBelow count k * 256 + k * alpha := by
  induction k with
  | zero => simp [smoothedSum, sumBelow]
  | succ k ih =>
    rw [smoothedSum, sumBelow, ih]
    ring

/-! ### Legal vectors (R200) -/

/-- `cum[c]` of a vector given entry by entry. -/
theorem below_succ_of_range {f : Nat → Nat} {n d j : Nat} (hj : j < n) :
    CumVec.below { cum := (List.range n).map f, den := d } (j + 1) = f j := by
  simp [CumVec.below, hj]

theorem vecLegal_of_range {f : Nat → Nat} {n d : Nat} (hn : 0 < n) (hrise : ∀ j < n, 1 ≤ j → f (j - 1) ≤ f j)
    (hlast : f (n - 1) < d) (hden : d ≤ 2 ^ 30) : VecLegal n { cum := (List.range n).map f, den := d } := by
  refine ⟨by simp, fun j hj => ?_, ?_, hden⟩
  · cases j with
    | zero => exact Nat.zero_le _
    | succ j =>
      rw [below_succ_of_range hj, below_succ_of_range (by omega)]
      exact hrise (j + 1) hj (by omega)
  · obtain ⟨k, rfl⟩ := Nat.exists_eq_add_of_lt hn
    rw [Nat.zero_add, below_succ_of_range (Nat.lt_succ_self k)]
    simpa using hlast

theorem vecLegal_uniformVec {n : Nat} (hn : 1 ≤ n) (hmax : n ≤ 128) : VecLegal n (uniformVec n) :=
  vecLegal_of_range hn (fun _ _ _ => by omega) (by omega) (by omega)

/-- The denominator of a smoothed vector fits with up to 65536 counted symbols (R207, R210). -/
theorem smoothed_den_le {n alpha total : Nat} (hmax : n ≤ 128) (halpha : alpha < 2 ^ 16) (htotal : total ≤ 65536) :
    total * 256 + (n + 1) * alpha ≤ 2 ^ 30 := by
  have hmul : (n + 1) * alpha ≤ 129 * 2 ^ 16 := Nat.mul_le_mul (by omega) (by omega)
  omega

/-- The smoothed masses are positive and leave at least `alpha` for the sentinel (R206, R209). -/
theorem vecLegal_smoothedVec {n alpha total : Nat} {count : Nat → Nat} (hn : 1 ≤ n) (hmax : n ≤ 128)
    (halpha : 0 < alpha) (halpha' : alpha < 2 ^ 16) (htotal : total ≤ 65536) (hsum : sumBelow count n ≤ total) :
    VecLegal n (smoothedVec n alpha count total) := by
  refine vecLegal_of_range hn (fun j _ hj => ?_) ?_ (smoothed_den_le hmax halpha' htotal)
  · rw [Nat.sub_add_cancel hj]
    exact Nat.le_add_right _ _
  · rw [Nat.sub_add_cancel hn, smoothedSum_eq_total, Nat.succ_mul]
    have hmul : sumBelow count n * 256 ≤ total * 256 := Nat.mul_le_mul_right 256 hsum
    omega

theorem smoothedVec_congr {n alpha total : Nat} {f g : Nat → Nat} (h : ∀ x < n, f x = g x) :
    smoothedVec n alpha f total = smoothedVec n alpha g total := by
  have hcum : ∀ c ∈ List.range n, smoothedSum f alpha (c + 1) = smoothedSum g alpha (c + 1) := by
    intro c hc
    have hc := List.mem_range.1 hc
    rw [smoothedSum_eq_sumBelow, smoothedSum_eq_sumBelow]
    exact sumBelow_congr fun x hx => by rw [h x (by omega)]
  rw [smoothedVec, smoothedVec, List.map_congr_left hcum]

/-! ### The registers after a symbol sequence -/

/-- The registers of the model hold the counts of the symbol sequence `seen` (R204, R207, R210). -/
def Records : Model → List Byte → Counts → Prop
  | .fix, _, _ => True
  | .dir, seen, k => k.tot = seen.length ∧ ∀ x, countOf k.cnt x = occurrences seen x
  | .big, seen, k =>
    k.prev = seen.getLast?.map BitVec.toNat ∧ (∀ p, countOf k.btot p = departures seen p) ∧
      ∀ p, ∀ x < 128, countOf k.bcnt (128 * p + x) = transitions seen p x

theorem records_modelInit (m : Model) (k : Counts) : Records m [] (modelInit m k) := by
  cases m with
  | fix => trivial
  | dir => exact ⟨rfl, fun _ => rfl⟩
  | big => exact ⟨rfl, fun _ => rfl, fun _ _ _ => rfl⟩

theorem modelFull_eq_false {c : Conf} {total : Nat} (hmax : c.nsym.toNat ≤ 128) (htotal : total < 65536) :
    modelFull c total = false :=
  decide_eq_false (Nat.not_lt.2 (smoothed_den_le hmax c.alpha.isLt htotal))

theorem modelUpdate_dir {c : Conf} {k : Counts} (h : modelFull c k.tot = false) (x : Nat) :
    modelUpdate .dir c k x = some { k with cnt := countUp k.cnt x, tot := k.tot + 1 } := by
  simp [modelUpdate, h]

theorem modelUpdate_big_of_none (c : Conf) {k : Counts} (h : k.prev = none) (x : Nat) :
    modelUpdate .big c k x = some { k with prev := some x } := by
  simp [modelUpdate, h]

theorem modelUpdate_big_of_some {c : Conf} {k : Counts} {p : Nat} (h : k.prev = some p)
    (hfull : modelFull c (countOf k.btot p) = false) (x : Nat) :
    modelUpdate .big c k x =
      some { k with bcnt := countUp k.bcnt (128 * p + x), btot := countUp k.btot p, prev := some x } := by
  simp [modelUpdate, h, hfull]

/-- One more symbol: `Update` succeeds and records it. -/
theorem records_modelUpdate {m : Model} {c : Conf} {seen : List Byte} {k : Counts} {b : Byte}
    (hmax : c.nsym.toNat ≤ 128) (hb : b.toNat < 128) (hroom : seen.length < 65536) (h : Records m seen k) :
    ∃ k', modelUpdate m c k b.toNat = some k' ∧ Records m (seen ++ [b]) k' := by
  cases m with
  | fix => exact ⟨k, rfl, trivial⟩
  | dir =>
    obtain ⟨htot, hcnt⟩ := h
    refine ⟨_, modelUpdate_dir (modelFull_eq_false hmax (htot ▸ hroom)) _, by simp [htot], fun x => ?_⟩
    rw [countOf_countUp, occurrences_concat, hcnt, hcnt]
    grind
  | big =>
    obtain ⟨hprev, hbtot, hbcnt⟩ := h
    cases hlast : seen.getLast? with
    | none =>
      obtain rfl := List.getLast?_eq_none_iff.1 hlast
      exact ⟨_, modelUpdate_big_of_none c hprev _, rfl, hbtot, hbcnt⟩
    | some a =>
      obtain ⟨l, rfl⟩ := List.getLast?_eq_some_iff.1 hlast
      rw [hlast] at hprev
      have hfull : modelFull c (countOf k.btot a.toNat) = false :=
        modelFull_eq_false hmax ((hbtot _).trans_le (departures_le_length _ _) |>.trans_lt hroom)
      refine ⟨_, modelUpdate_big_of_some hprev hfull _, by simp, fun p => ?_, fun p x hx => ?_⟩
      · rw [countOf_countUp, departures_concat, hbtot, hbtot]
        grind
      · rw [countOf_countUp, transitions_concat, hbcnt _ _ hb, hbcnt _ _ hx]
        grind

/-! ### Feeding a symbol sequence (R213) -/

theorem feedModel_append (m : Model) (c : Conf) (xs ys : List Byte) (i : Nat) (k : Counts) :
    feedModel m c i (xs ++ ys) k = (feedModel m c i xs k).bind fun k' => feedModel m c (i + xs.length) ys k' := by
  induction xs generalizing i k with
  | nil => rfl
  | cons b xs ih =>
    rw [List.cons_append, feedModel, feedModel, List.length_cons, Nat.add_comm xs.length, ← Nat.add_assoc]
    split
    · rfl
    · cases modelUpdate m c k b.toNat with
      | none => rfl
      | some k' => exact ih (i + 1) k'

theorem feedModel_of_range (m : Model) {c : Conf} {b : Byte} (h : c.nsym.toNat ≤ b.toNat) (bs : List Byte) (i : Nat)
    (k : Counts) : feedModel m c i (b :: bs) k = .error { code := .range, pos := i, sym := b.toNat } :=
  if_pos h

/-- Symbols of the alphabet, 65536 in all at most, are fed without an error and recorded. -/
theorem feedModel_records {m : Model} {c : Conf} (hmax : c.nsym.toNat ≤ 128) (bs : List Byte) (i : Nat)
    {seen : List Byte} {k : Counts} (hbs : ∀ b ∈ bs, b.toNat < c.nsym.toNat) (hroom : seen.length + bs.length ≤ 65536)
    (h : Records m seen k) : ∃ k', feedModel m c i bs k = .ok k' ∧ Records m (seen ++ bs) k' := by
  induction bs generalizing i seen k with
  | nil => exact ⟨k, rfl, by rwa [List.append_nil]⟩
  | cons b bs ih =>
    obtain ⟨hb, hbs⟩ := List.forall_mem_cons.1 hbs
    rw [List.length_cons] at hroom
    obtain ⟨k', hk, hrec⟩ := records_modelUpdate hmax (lt_of_lt_of_le hb hmax) (by omega) h
    obtain ⟨k'', hk', hrec'⟩ := ih (i + 1) hbs (by rw [List.length_append, List.length_singleton]; omega) hrec
    refine ⟨k'', ?_, by rwa [List.append_cons]⟩
    rw [feedModel, if_neg (show ¬ nsymOf c ≤ _ from Nat.not_le.2 hb), hk]
    exact hk'

/-! ### The vector fetched after a symbol sequence -/

/-- The fixed vector, uniform if `FIX_DEN = 0` (R203). -/
def fixedVec (c : Conf) : CumVec :=
  { cum := (List.range c.nsym.toNat).map (fixedCum c),
    den := if c.fixDen = 0 then c.nsym.toNat + 1 else c.fixDen.toNat }

/-- The vector that the model fetches after the symbol sequence `seen`, from the counts of `seen` (R203, R206, R209). -/
def vectorAfter (m : Model) (c : Conf) (seen : List Byte) : CumVec :=
  match m with
  | .fix => fixedVec c
  | .dir => smoothedVec c.nsym.toNat c.alpha.toNat (occurrences seen) seen.length
  | .big =>
    match seen.getLast? with
    | none => uniformVec c.nsym.toNat
    | some a => smoothedVec c.nsym.toNat c.alpha.toNat (transitions seen a.toNat) (departures seen a.toNat)

theorem fixedVec_of_den_zero {c : Conf} (h : c.fixDen = 0) : fixedVec c = uniformVec c.nsym.toNat := by
  have hcum : fixedCum c = (· + 1) := by
    funext x
    exact if_pos h
  rw [fixedVec, if_pos h, hcum]
  rfl

theorem fixedVec_of_den_ne_zero {c : Conf} (h : c.fixDen ≠ 0) :
    fixedVec c = { cum := (List.range c.nsym.toNat).map (fixCumOf c), den := c.fixDen.toNat } := by
  have hcum : fixedCum c = fixCumOf c := by
    funext x
    exact if_neg h
  rw [fixedVec, if_neg h, hcum]

theorem modelVec_fix (c : Conf) (k : Counts) : modelVec .fix c k = fixedVec c := by
  by_cases h : c.fixDen = 0
  · rw [fixedVec_of_den_zero h]
    exact if_pos (congrArg BitVec.toNat h)
  · rw [fixedVec_of_den_ne_zero h]
    exact if_neg (toNat_fixDen_ne_zero h)

theorem modelVec_of_records {m : Model} {c : Conf} {seen : List Byte} {k : Counts} (hmax : c.nsym.toNat ≤ 128)
    (h : Records m seen k) : modelVec m c k = vectorAfter m c seen := by
  cases m with
  | fix => exact modelVec_fix c k
  | dir =>
    obtain ⟨htot, hcnt⟩ := h
    rw [modelVec, htot, funext hcnt]
    rfl
  | big =>
    obtain ⟨hprev, hbtot, hbcnt⟩ := h
    unfold modelVec vectorAfter
    rw [hprev]
    cases seen.getLast? with
    | none => rfl
    | some a =>
      dsimp only [Option.map_some]
      rw [hbtot]
      exact smoothedVec_congr fun x hx => hbcnt _ x (lt_of_lt_of_le hx hmax)

theorem vecLegal_fixedVec {c : Conf} (h : ConfigLegal .fix c) : VecLegal c.nsym.toNat (fixedVec c) := by
  obtain ⟨hpos, hmax, hfix, -⟩ := h
  by_cases hzero : c.fixDen = 0
  · rw [fixedVec_of_den_zero hzero]
    exact vecLegal_uniformVec hpos hmax
  · obtain ⟨hden, hrise, hlast⟩ := (hfix rfl).resolve_left hzero
    rw [fixedVec_of_den_ne_zero hzero]
    exact vecLegal_of_range hpos hrise hlast hden

theorem vecLegal_vectorAfter {m : Model} {c : Conf} {seen : List Byte} (h : ConfigLegal m c)
    (hlen : seen.length ≤ 65536) : VecLegal c.nsym.toNat (vectorAfter m c seen) := by
  obtain ⟨hpos, hmax, -, halpha⟩ := id h
  have alpha_pos (hm : m ≠ .fix) : 0 < c.alpha.toNat := Nat.pos_of_ne_zero fun h0 => halpha hm (alphaOf_eq_zero_iff.1 h0)
  cases m with
  | fix => exact vecLegal_fixedVec h
  | dir => exact vecLegal_smoothedVec hpos hmax (alpha_pos nofun) c.alpha.isLt hlen (sumBelow_occurrences_le _ _)
  | big =>
    unfold vectorAfter
    cases seen.getLast? with
    | none => exact vecLegal_uniformVec hpos hmax
    | some a =>
      exact vecLegal_smoothedVec hpos hmax (alpha_pos nofun) c.alpha.isLt ((departures_le_length _ _).trans hlen)
        (sumBelow_transitions_le _ _ _)

/-- Settles O23: the registers record the symbols, and the counts of at most 65536 symbols give a legal vector. -/
theorem modelVectorsStayLegal : Obligations.ModelVectorsStayLegal := by
  intro m c k syms hlegal hlen hsyms
  obtain ⟨-, hmax, -⟩ := id hlegal
  obtain ⟨k', hfeed, hrec⟩ := feedModel_records hmax syms 0 hsyms (seen := []) (by simpa using hlen) (records_modelInit m k)
  refine ⟨k', hfeed, ?_⟩
  rw [modelVec_of_records hmax hrec]
  exact vecLegal_vectorAfter hlegal hlen

end Sys2Proof.Machine
end

section
/-! `MPROBE` (R213): it completes with the vector of the whole input, or reports the first byte outside the alphabet. -/

namespace Sys2Proof.Machine

/-! ### The input bytes (R104) -/

@[simp] theorem length_inBytes (s : State) : (inBytes s).length = inLen s := by simp [inBytes]

theorem forall_mem_inBytes {P : Byte → Prop} {s : State} : (∀ b ∈ inBytes s, P b) ↔ ∀ i < inLen s, P (inByte s i) := by
  simp [inBytes]

theorem getLast?_inBytes {s : State} (h : inLen s ≠ 0) : (inBytes s).getLast? = some (inByte s (inLen s - 1)) := by
  have hlt : inLen s - 1 < inLen s := by omega
  simp [List.getLast?_eq_getElem?, inBytes, hlt]

/-- The input, cut at one of its bytes. -/
theorem inBytes_eq_append {s : State} {i : Nat} (hi : i < inLen s) :
    inBytes s = (List.range i).map (inByte s) ++ inByte s i :: (inBytes s).drop (i + 1) := by
  have hlt : i < (inBytes s).length := by rwa [length_inBytes]
  calc inBytes s = (inBytes s).take i ++ (inBytes s).drop i := (List.take_append_drop i _).symm
    _ = (List.range i).map (inByte s) ++ inByte s i :: (inBytes s).drop (i + 1) := by
      rw [List.drop_eq_getElem_cons hlt]
      simp [inBytes, ← List.map_take, List.take_range, Nat.min_eq_left hi.le]

/-! ### The body -/

section

variable {m : Model} {s : State} (hcheck : checkCoder m s = .ok ())

include hcheck

theorem probeBody_of_feed_ok {k : Counts} (h : feedModel m s.conf 0 (inBytes s) (modelInit m s.work.counts) = .ok k) :
    probeBody m s = .ok (commitProbe (modelVec m s.conf k) k s) := by
  rw [probeBody, hcheck, h]

theorem probeBody_of_feed_error {f : Failure}
    (h : feedModel m s.conf 0 (inBytes s) (modelInit m s.work.counts) = .error f) : probeBody m s = .error f := by
  rw [probeBody, hcheck, h]

end

section

variable {m : Model} {s : State} (hlen : inLen s ≤ 65536) (hlegal : ConfigLegal m s.conf)

include hlen hlegal

theorem checkCoder_ok : checkCoder m s = .ok () :=
  (checkCoder_of_inLen_fits m hlen).trans (checkModel_ok hlegal)

/-- On symbols of the alphabet the body leaves the vector of the input. -/
theorem probeBody_ok (hsyms : ∀ i < inLen s, symAt s i < s.conf.nsym.toNat) :
    ∃ k, probeBody m s = .ok (commitProbe (vectorAfter m s.conf (inBytes s)) k s) := by
  obtain ⟨-, hmax, -⟩ := id hlegal
  obtain ⟨k, hfeed, hrec⟩ := feedModel_records hmax (inBytes s) 0 (forall_mem_inBytes.2 hsyms) (seen := [])
    (by simpa using hlen) (records_modelInit m s.work.counts)
  refine ⟨k, (probeBody_of_feed_ok (checkCoder_ok hlen hlegal) hfeed).trans ?_⟩
  rw [modelVec_of_records hmax hrec]
  rfl

/-- The bytes before the first one outside the alphabet are fed, then that one is reported. -/
theorem probeBody_error {i : Nat} (hi : i < inLen s) (hsyms : ∀ j < i, symAt s j < s.conf.nsym.toNat)
    (hout : s.conf.nsym.toNat ≤ symAt s i) :
    probeBody m s = .error { code := .range, pos := i, sym := symAt s i } := by
  obtain ⟨-, hmax, -⟩ := id hlegal
  obtain ⟨k, hfeed, -⟩ := feedModel_records hmax ((List.range i).map (inByte s)) 0 (seen := [])
    (by simpa [symAt] using hsyms) (by simp; omega) (records_modelInit m s.work.counts)
  refine probeBody_of_feed_error (checkCoder_ok hlen hlegal) ?_
  rw [inBytes_eq_append hi, feedModel_append, hfeed]
  refine (feedModel_of_range m hout _ _ k).trans ?_
  simp [symAt]

end

/-! ### The command -/

/-- `MPROBE` completed with the denominator `den` and the cumulative numerators `cum`, and changed nothing else (R213). -/
abbrev Probed (den : Nat) (cum : Nat → Nat) (s t : State) : Prop :=
  Completed s t ∧ t.probeDen = BitVec.ofNat 32 den ∧
    (∀ c < 128, tget t.probeCum c = if c < s.conf.nsym.toNat then BitVec.ofNat 32 (cum c) else 0) ∧
    t.res.outLen = 0 ∧ t.res.outBits = 0 ∧ t.res.rdBits = 0 ∧
    SetupKept s t ∧ HuffKept s t ∧ DiagKept s t ∧ OutBufKeptFrom 0 s t

theorem bodyOf_mprobe (m : Model) (s : State) : bodyOf (mprobeOf m) s = probeBody m s := by
  cases m <;> rfl

theorem entryOf_mprobe (m : Model) (s : State) : entryOf (mprobeOf m) s = startCommand s :=
  entryOf_coder (.inr (.inr rfl)) s

/-- What `commitProbe` leaves, after the prologue and the completion. -/
theorem probed_commitProbe {v : CumVec} {den : Nat} {cum : Nat → Nat} {s : State} (hden : v.den = den)
    (hcum : ∀ c < s.conf.nsym.toNat, v.below (c + 1) = cum c) (k : Counts) :
    Probed den cum s (completeDone (commitProbe v k (startCommand s))) := by
  have hentries : ∀ c < 128, tget (commitProbe v k (startCommand s)).probeCum c =
      if c < s.conf.nsym.toNat then BitVec.ofNat 32 (cum c) else 0 := by
    intro c hc
    refine (tget_tabulate _ c).trans ((if_pos hc).trans ?_)
    exact if_ctx_congr Iff.rfl (fun h => by rw [hcum c h]) fun _ => rfl
  exact ⟨⟨rfl, rfl, rfl, rfl, rfl, rfl⟩, congrArg (BitVec.ofNat 32) hden, hentries, rfl, rfl, rfl,
    ⟨rfl, rfl, rfl, rfl, rfl, rfl, rfl, rfl, rfl, rfl⟩, ⟨rfl, rfl⟩, rfl, fun _ _ => rfl⟩

/-- `MPROBE` on legal operands completes with the vector of the input. -/
theorem exec_mprobe_probed {m : Model} {s : State} {den : Nat} {cum : Nat → Nat} (hlen : inLen s ≤ 65536)
    (hlegal : ConfigLegal m s.conf) (hsyms : ∀ i < inLen s, symAt s i < s.conf.nsym.toNat)
    (hden : (vectorAfter m s.conf (inBytes s)).den = den)
    (hcum : ∀ c < s.conf.nsym.toNat, (vectorAfter m s.conf (inBytes s)).below (c + 1) = cum c) :
    ∃ t, exec (mprobeOf m) s = .next t ∧ Probed den cum s t := by
  obtain ⟨k, hbody⟩ := probeBody_ok (s := startCommand s) hlen hlegal hsyms
  refine ⟨_, exec_of_body_ok ?_, probed_commitProbe hden hcum k⟩
  rw [entryOf_mprobe, bodyOf_mprobe]
  exact hbody

theorem below_succ_smoothedVec {n alpha total : Nat} {count : Nat → Nat} {c : Nat} (hc : c < n) :
    (smoothedVec n alpha count total).below (c + 1) = sumBelow (fun x => count x * 256 + alpha) (c + 1) :=
  (below_succ_of_range hc).trans (smoothedSum_eq_sumBelow count alpha (c + 1))

/-- Settles O19: the entries of the fixed vector are those of R203. -/
theorem mprobeFixResult : Obligations.MprobeFixResult := fun _ hlen hlegal hsyms =>
  exec_mprobe_probed (m := .fix) hlen hlegal hsyms rfl fun _ => below_succ_of_range

/-- Settles O20: the entries of the smoothed vector are sums over the symbol counts. -/
theorem mprobeDirResult : Obligations.MprobeDirResult := fun s hlen hlegal hsyms =>
  exec_mprobe_probed (m := .dir) hlen hlegal hsyms (by rw [vectorAfter, smoothedVec, length_inBytes])
    fun _ => below_succ_smoothedVec

/-- The bigram vector of the input (R208 to R210). -/
theorem vectorAfter_big_inBytes (s : State) :
    vectorAfter .big s.conf (inBytes s) =
      if inLen s = 0 then uniformVec s.conf.nsym.toNat
      else smoothedVec s.conf.nsym.toNat s.conf.alpha.toNat (transitions (inBytes s) (symAt s (inLen s - 1)))
        (departures (inBytes s) (symAt s (inLen s - 1))) := by
  unfold vectorAfter
  by_cases h : inLen s = 0
  · have hnil : inBytes s = [] := List.length_eq_zero_iff.1 ((length_inBytes s).trans h)
    rw [if_pos h, hnil]
    rfl
  · rw [if_neg h, getLast?_inBytes h]
    rfl

/-- Settles O21, by the two cases of the bigram vector: no symbol yet, or a last one. -/
theorem mprobeBigResult : Obligations.MprobeBigResult := by
  intro s hlen hlegal hsyms
  refine exec_mprobe_probed (m := .big) hlen hlegal hsyms ?_ fun c hc => ?_
  all_goals
    rw [vectorAfter_big_inBytes]
    by_cases h : inLen s = 0
  · rw [if_pos h, if_pos h]
    rfl
  · rw [if_neg h, if_neg h]
    rfl
  · rw [if_pos h, if_pos h]
    exact below_succ_of_range hc
  · rw [if_neg h, if_neg h]
    exact below_succ_smoothedVec hc

/-- Settles O22: the loop stops at the first byte outside the alphabet, before any result is written. -/
theorem mprobeRangeError : Obligations.MprobeRangeError := by
  intro m s i hlen hlegal hi hsyms hout
  have hbody := probeBody_error (s := startCommand s) hlen hlegal hi hsyms hout
  exact exec_reports (entryOf_mprobe m s) ((bodyOf_mprobe m _).trans hbody) ⟨rfl, rfl⟩

end Sys2Proof.Machine
end

section
/-! Binary64 rounding as an operation on exact quotients (R12, R251): it is monotone, keeps the values of the mode, and in
`[0, 2)` moves a number by at most `2^-53`. -/

namespace Sys2Proof.Machine

/-- The real value of `x` units (R251). -/
def realOf (fmt : NumFmt) (x : Nat) : ℚ := x / oneOf fmt

/-! ### Rounding to an integer -/

theorem roundHalfEven_dist (n : Nat) {b : Nat} (hb : 0 < b) :
    |(roundHalfEven n b : ℚ) - n / b| ≤ 1 / 2 ∧ (|(roundHalfEven n b : ℚ) - n / b| = 1 / 2 → roundHalfEven n b % 2 = 0) := by
  have hbq : (0 : ℚ) < b := by exact_mod_cast hb
  have hdist : 2 * |(roundHalfEven n b : ℚ) - n / b| * b = (2 * ((roundHalfEven n b * b : Nat) - n : Int).natAbs : Nat) := by
    rw [Nat.cast_mul, Nat.cast_natAbs, mul_assoc, ← abs_of_pos hbq, ← abs_mul, abs_of_pos hbq, sub_mul,
      div_mul_cancel₀ _ hbq.ne']
    push_cast
    rfl
  obtain ⟨hle, htie⟩ := roundHalfEven_nearest n hb
  refine ⟨?_, fun h => htie ?_⟩
  · have hle : 2 * |(roundHalfEven n b : ℚ) - n / b| * b ≤ 1 * b := by rw [hdist, one_mul]; exact_mod_cast hle
    linarith [le_of_mul_le_mul_right hle hbq]
  · rw [h] at hdist
    have : ((2 * ((roundHalfEven n b * b : Nat) - n : Int).natAbs : Nat) : ℚ) = b := by rw [← hdist]; ring
    exact_mod_cast this

/-- Were a smaller quotient rounded higher, both would be ties between the same two neighbours, which are not both even. -/
theorem roundHalfEven_mono {n b n' b' : Nat} (hb : 0 < b) (hb' : 0 < b') (h : (n / b : ℚ) ≤ n' / b') :
    roundHalfEven n b ≤ roundHalfEven n' b' := by
  obtain ⟨hle, htie⟩ := roundHalfEven_dist n hb
  obtain ⟨hle', htie'⟩ := roundHalfEven_dist n' hb'
  by_contra hlt
  have hsucc : (roundHalfEven n' b' : ℚ) + 1 ≤ roundHalfEven n b := by exact_mod_cast Nat.not_le.1 hlt
  rw [abs_le] at hle hle'
  have hup : (roundHalfEven n b : ℚ) - n / b = 1 / 2 := by linarith
  have hdown : (roundHalfEven n' b' : ℚ) - n' / b' = -(1 / 2) := by linarith
  have heven := htie (by rw [hup]; norm_num)
  have heven' := htie' (by rw [hdown]; norm_num)
  have hnext : roundHalfEven n b = roundHalfEven n' b' + 1 := by
    have : (roundHalfEven n b : ℚ) = roundHalfEven n' b' + 1 := by linarith
    exact_mod_cast this
  omega

theorem roundHalfEven_mul_self (c : Nat) {b : Nat} (hb : 0 < b) : roundHalfEven (c * b) b = c := by
  simp [roundHalfEven, hb]

theorem roundHalfEven_le {n b c : Nat} (hb : 0 < b) (h : n ≤ c * b) : roundHalfEven n b ≤ c := by
  rw [← roundHalfEven_mul_self c hb]
  refine roundHalfEven_mono hb hb ?_
  gcongr

theorem le_roundHalfEven {n b c : Nat} (hb : 0 < b) (h : c * b ≤ n) : c ≤ roundHalfEven n b := by
  rw [← roundHalfEven_mul_self c hb]
  refine roundHalfEven_mono hb hb ?_
  gcongr

/-! ### The spacing (R12) -/

theorem ulp64_mono {x y : Nat} (h : x ≤ y) : ulp64 x ≤ ulp64 y := by
  have hlog : Nat.log2 x ≤ Nat.log2 y := by
    rw [Nat.log2_eq_log_two, Nat.log2_eq_log_two]
    exact Nat.log_mono_right h
  exact Nat.pow_le_pow_right (by omega) (by omega)

theorem ulp64_dvd_two_pow {x k : Nat} (h : x < 2 ^ (k + 53)) : ulp64 x ∣ 2 ^ k := by
  refine Nat.pow_dvd_pow 2 ?_
  have hlog : Nat.log2 x < k + 53 := by
    by_cases hx : x = 0
    · subst hx
      simp
    · exact (Nat.log2_lt hx).2 h
  omega

theorem two_pow_dvd_ulp64 {x k : Nat} (h : 2 ^ (k + 52) ≤ x) : 2 ^ k ∣ ulp64 x := by
  refine Nat.pow_dvd_pow 2 ?_
  have hlog : k + 52 ≤ Nat.log2 x := (Nat.le_log2 (Nat.ne_zero_of_lt ((Nat.two_pow_pos _).trans_le h))).2 h
  omega

/-- Numbers with a larger spacing lie at or above a power of two that is `2^52` such spacings. -/
theorem ulp64_lt {x y : Nat} (h : ulp64 x < ulp64 y) : x < 2 ^ 52 * ulp64 y ∧ 2 ^ 52 * ulp64 y ≤ y := by
  have hexp : max (Nat.log2 x) 52 - 52 < max (Nat.log2 y) 52 - 52 := (Nat.pow_lt_pow_iff_right (by omega)).1 h
  have hy : 2 ^ 52 * ulp64 y = 2 ^ Nat.log2 y := by
    rw [ulp64, ← pow_add]
    congr 1
    omega
  rw [hy]
  refine ⟨?_, Nat.log2_self_le (by rintro rfl; simp at hexp)⟩
  exact Nat.lt_log2_self.trans_le (Nat.pow_le_pow_right (by omega) (by omega))

/-! ### The values of `FP64` (R12, R251) -/

/-- A number with at most 53 significant bits is a value of `FP64`. -/
theorem modeValue_mul_two_pow {m : Nat} (k : Nat) (h : m ≤ 2 ^ 53) : ModeValue .fp64 (m * 2 ^ k) := by
  show ulp64 (m * 2 ^ k) ∣ m * 2 ^ k
  obtain hlt | rfl := h.lt_or_eq
  · refine (ulp64_dvd_two_pow ?_).trans (dvd_mul_left _ _)
    rw [add_comm k, pow_add]
    exact Nat.mul_lt_mul_of_pos_right hlt (Nat.two_pow_pos k)
  · rw [← pow_add]
    refine (ulp64_dvd_two_pow (k := k + 1) ?_).trans (Nat.pow_dvd_pow 2 (by omega))
    exact Nat.pow_lt_pow_right (by omega) (by omega)

theorem modeValue_two_pow (k : Nat) : ModeValue .fp64 (2 ^ k) := by
  simpa using modeValue_mul_two_pow k (m := 1) (by norm_num)

theorem modeValue_of_dvd {x k : Nat} (hdvd : 2 ^ k ∣ x) (hle : x ≤ 2 ^ (k + 53)) : ModeValue .fp64 x := by
  obtain ⟨m, rfl⟩ := hdvd
  rw [mul_comm]
  refine modeValue_mul_two_pow k (le_of_mul_le_mul_left ?_ (Nat.two_pow_pos k))
  rwa [← pow_add]

theorem ModeValue.two_pow_dvd {x k : Nat} (h : ModeValue .fp64 x) (hle : 2 ^ (k + 52) ≤ x) : 2 ^ k ∣ x :=
  (two_pow_dvd_ulp64 hle).trans h

theorem lt_two_pow_mul_ulp64 (x : Nat) : x < 2 ^ 53 * ulp64 x := by
  rw [ulp64, ← pow_add]
  exact Nat.lt_log2_self.trans_le (Nat.pow_le_pow_right (by omega) (by omega))

theorem ModeValue.two_mul {x : Nat} (h : ModeValue .fp64 x) : ModeValue .fp64 (2 * x) := by
  refine modeValue_of_dvd (k := max (Nat.log2 x) 52 - 52 + 1) ?_ ?_
  · rw [pow_succ, mul_comm 2 x]
    exact Nat.mul_dvd_mul_right h 2
  · have := lt_two_pow_mul_ulp64 x
    unfold ulp64 at this
    rw [add_right_comm, pow_succ, add_comm _ 53, pow_add]
    omega

/-! ### Rounding -/

theorem modeValue_rnd64 (n : Nat) {d : Nat} (hd : 0 < d) : ModeValue .fp64 (rnd64 n d) := by
  rw [rnd64_eq_roundHalfEven_mul]
  refine modeValue_mul_two_pow _ (roundHalfEven_le (Nat.mul_pos hd (ulp64_pos _)) ?_)
  have hlt := (Nat.div_lt_iff_lt_mul hd).1 (lt_two_pow_mul_ulp64 (n / d))
  exact hlt.le.trans_eq (by ring)

/-- A value of the mode is not rounded. -/
theorem ModeValue.rnd64_eq {x : Nat} (h : ModeValue .fp64 x) : rnd64 x 1 = x := by
  rw [rnd64_eq_roundHalfEven_mul, Nat.div_one, one_mul]
  obtain ⟨c, hc⟩ : ulp64 x ∣ x := h
  have hx : x = c * ulp64 x := hc.trans (mul_comm _ _)
  conv_lhs => enter [1, 1]; rw [hx]
  rw [roundHalfEven_mul_self c (ulp64_pos x), ← hx]

theorem rnd64_zero (d : Nat) : rnd64 0 d = 0 := by
  simp [rnd64_eq_roundHalfEven_mul, roundHalfEven]

/-- Rounding is monotone: two quotients with one spacing by the integers, others by the power of two between them. -/
theorem rnd64_mono {n d n' d' : Nat} (hd : 0 < d) (hd' : 0 < d') (h : n * d' ≤ n' * d) : rnd64 n d ≤ rnd64 n' d' := by
  have hdiv : n / d ≤ n' / d' := by
    rw [Nat.le_div_iff_mul_le hd']
    refine le_of_mul_le_mul_right ?_ hd
    calc n / d * d' * d = n / d * d * d' := by ring
      _ ≤ n * d' := Nat.mul_le_mul_right _ (Nat.div_mul_le_self n d)
      _ ≤ n' * d := h
  rw [rnd64_eq_roundHalfEven_mul, rnd64_eq_roundHalfEven_mul]
  have hpos := ulp64_pos (n / d)
  have hpos' := ulp64_pos (n' / d')
  obtain hlt | heq := (ulp64_mono hdiv).lt_or_eq
  · obtain ⟨hlow, hhigh⟩ := ulp64_lt hlt
    obtain ⟨c, hc⟩ : ulp64 (n / d) ∣ ulp64 (n' / d') := (Nat.pow_dvd_pow_iff_le_right (by omega)).2
      ((Nat.pow_le_pow_iff_right (by omega)).1 hlt.le)
    have hn : n < 2 ^ 52 * ulp64 (n' / d') * d := (Nat.div_lt_iff_lt_mul hd).1 hlow
    have hn' : 2 ^ 52 * ulp64 (n' / d') * d' ≤ n' := (Nat.le_div_iff_mul_le hd').1 hhigh
    calc roundHalfEven n (d * ulp64 (n / d)) * ulp64 (n / d)
        ≤ 2 ^ 52 * c * ulp64 (n / d) := by
          refine Nat.mul_le_mul_right _ (roundHalfEven_le (Nat.mul_pos hd hpos) (hn.le.trans_eq ?_))
          rw [hc]
          ring
      _ = 2 ^ 52 * ulp64 (n' / d') := by rw [hc]; ring
      _ ≤ roundHalfEven n' (d' * ulp64 (n' / d')) * ulp64 (n' / d') := by
          refine Nat.mul_le_mul_right _ (le_roundHalfEven (Nat.mul_pos hd' hpos') (le_of_eq_of_le ?_ hn'))
          ring
  · rw [heq]
    refine Nat.mul_le_mul_right _ (roundHalfEven_mono (Nat.mul_pos hd hpos') (Nat.mul_pos hd' hpos') ?_)
    rw [div_le_div_iff₀ (by positivity) (by positivity)]
    calc (n : ℚ) * (d' * ulp64 (n' / d') : Nat) = (n * d' : Nat) * ulp64 (n' / d') := by push_cast; ring
      _ ≤ (n' * d : Nat) * ulp64 (n' / d') := by gcongr
      _ = n' * (d * ulp64 (n' / d') : Nat) := by push_cast; ring

theorem oneOf_cast_pos (fmt : NumFmt) : (0 : ℚ) < oneOf fmt := by exact_mod_cast oneOf_pos fmt

/-- `ONE` of `FP64` is a power of two; how large its exponent is matters nowhere. -/
theorem oneOf_fp64_eq : ∃ k, oneOf .fp64 = 2 ^ (k + 54) :=
  ⟨1020, congrArg (2 ^ ·) (show Config.fp64Grid = 1020 + 54 from rfl)⟩

theorem ulp64_le_of_lt {x : Nat} (h : x < 2 * oneOf .fp64) : ulp64 x * 2 ^ 52 ≤ oneOf .fp64 := by
  obtain ⟨k, hone⟩ := oneOf_fp64_eq
  rw [hone] at h ⊢
  have hdvd : ulp64 x ∣ 2 ^ (k + 2) := ulp64_dvd_two_pow (h.trans_eq (pow_succ' 2 (k + 54)).symm)
  calc ulp64 x * 2 ^ 52 ≤ 2 ^ (k + 2) * 2 ^ 52 := Nat.mul_le_mul_right _ (Nat.le_of_dvd (Nat.two_pow_pos _) hdvd)
    _ = 2 ^ (k + 54) := (pow_add 2 (k + 2) 52).symm

/-- In `[0, 2)` rounding moves a number by at most `2^-53`. -/
theorem rnd64_dist {n d : Nat} (hd : 0 < d) (h : n < 2 * oneOf .fp64 * d) :
    |realOf .fp64 (rnd64 n d) - realOf .fp64 n / d| ≤ 1 / 2 ^ 53 := by
  have hone := oneOf_cast_pos .fp64
  have hd' : (0 : ℚ) < d := by exact_mod_cast hd
  have hu : (0 : ℚ) < ulp64 (n / d) := by exact_mod_cast ulp64_pos _
  have hulp : (ulp64 (n / d) : ℚ) * 2 ^ 52 ≤ oneOf .fp64 := by
    exact_mod_cast ulp64_le_of_lt ((Nat.div_lt_iff_lt_mul hd).2 h)
  have hround := (roundHalfEven_dist n (Nat.mul_pos hd (ulp64_pos (n / d)))).1
  have hscale : realOf .fp64 (rnd64 n d) - realOf .fp64 n / d =
      ((roundHalfEven n (d * ulp64 (n / d)) : ℚ) - n / (d * ulp64 (n / d) : Nat)) * (ulp64 (n / d) / oneOf .fp64) := by
    rw [rnd64_eq_roundHalfEven_mul, realOf, realOf]
    push_cast
    field_simp
  have hratio : (ulp64 (n / d) : ℚ) / oneOf .fp64 ≤ 1 / 2 ^ 52 := by
    rw [div_le_div_iff₀ hone (by norm_num)]
    linarith
  rw [hscale, abs_mul, abs_of_pos (div_pos hu hone)]
  calc _ ≤ (1 / 2 : ℚ) * (1 / 2 ^ 52) := mul_le_mul hround hratio (div_pos hu hone).le (by norm_num)
    _ = 1 / 2 ^ 53 := by norm_num

end Sys2Proof.Machine
end

section
/-! The boundaries of a narrowing (R252, R253). In `FIXED` they are floors of the exact boundaries; in `FP64` they lie within
`2^-50` of them, far less than the `2^-32` by which two exact ones differ. -/

namespace Sys2Proof.Machine

/-! ### The boundary formula (R252) -/

theorem narrow_fixed (low high cum den : Nat) : narrow .fixed low high cum den = low + (high - low) * cum / den := rfl

theorem narrow_fp64 (low high cum den : Nat) :
    narrow .fp64 low high cum den =
      rnd64 (low + rnd64 (rnd64 (high - low) 1 * rnd64 (cum * oneOf .fp64) den) (oneOf .fp64)) 1 := rfl

theorem narrow_mono (fmt : NumFmt) (low high : Nat) {cum cum' den : Nat} (hden : 0 < den) (h : cum ≤ cum') :
    narrow fmt low high cum den ≤ narrow fmt low high cum' den := by
  cases fmt with
  | fixed =>
    rw [narrow_fixed, narrow_fixed]
    gcongr
  | fp64 =>
    have hp : rnd64 (cum * oneOf .fp64) den ≤ rnd64 (cum' * oneOf .fp64) den := rnd64_mono hden hden (by gcongr)
    rw [narrow_fp64, narrow_fp64]
    refine rnd64_mono one_pos one_pos ?_
    gcongr
    exact rnd64_mono (oneOf_pos _) (oneOf_pos _) (by gcongr)

theorem narrow_zero {fmt : NumFmt} {low : Nat} (h : ModeValue fmt low) (high den : Nat) :
    narrow fmt low high 0 den = low := by
  cases fmt with
  | fixed => simp [narrow_fixed]
  | fp64 => rw [narrow_fp64, Nat.zero_mul, rnd64_zero, Nat.mul_zero, rnd64_zero, Nat.add_zero, h.rnd64_eq]

theorem modeValue_narrow (fmt : NumFmt) (low high cum den : Nat) : ModeValue fmt (narrow fmt low high cum den) := by
  cases fmt with
  | fixed => trivial
  | fp64 => exact modeValue_rnd64 _ one_pos

@[simp] theorem boundary_zero (fmt : NumFmt) (n : Nat) (v : CumVec) (low high : Nat) :
    boundary fmt n v low high 0 = low := if_pos rfl

@[simp] theorem boundary_last (fmt : NumFmt) (n : Nat) (v : CumVec) (low high : Nat) :
    boundary fmt n v low high (n + 1) = high := by simp [boundary]

theorem boundary_of_pos (fmt : NumFmt) {n j : Nat} (v : CumVec) (low high : Nat) (hpos : 1 ≤ j) (hle : j ≤ n) :
    boundary fmt n v low high j = narrow fmt low high (v.below j) v.den := by
  rw [boundary, if_neg (by omega), if_neg (by omega)]

@[simp] theorem CumVec.below_zero (v : CumVec) : v.below 0 = 0 := rfl

/-- `B(0)` is the boundary of the numerator 0 as well. -/
theorem boundary_eq_narrow {fmt : NumFmt} {n j : Nat} {low : Nat} (v : CumVec) (high : Nat) (hlow : ModeValue fmt low)
    (hle : j ≤ n) : boundary fmt n v low high j = narrow fmt low high (v.below j) v.den := by
  cases j with
  | zero => rw [boundary_zero, CumVec.below_zero, narrow_zero hlow]
  | succ j => exact boundary_of_pos fmt v low high (by omega) hle

theorem modeValue_boundary {fmt : NumFmt} {low high : Nat} (hlow : ModeValue fmt low) (hhigh : ModeValue fmt high) (n : Nat)
    (v : CumVec) (j : Nat) : ModeValue fmt (boundary fmt n v low high j) := by
  unfold boundary
  split_ifs
  · exact hlow
  · exact hhigh
  · exact modeValue_narrow _ _ _ _ _

/-- The numerator of `B(j)`: the sentinel's upper end has the numerator `den` (R252: `probs[NSYM] = 1`). -/
def CumVec.share (v : CumVec) (n j : Nat) : Nat := if j = n + 1 then v.den else v.below j

theorem CumVec.share_of_le (v : CumVec) {n j : Nat} (h : j ≤ n) : v.share n j = v.below j := if_neg (by omega)

@[simp] theorem CumVec.share_last (v : CumVec) (n : Nat) : v.share n (n + 1) = v.den := if_pos rfl

section

variable {n : Nat} {v : CumVec} (hv : VecLegal n v)

include hv

theorem VecLegal.below_lt : v.below n < v.den := by
  obtain ⟨-, -, hlt, -⟩ := hv
  exact hlt

theorem VecLegal.den_pos : 0 < v.den := (Nat.zero_le _).trans_lt hv.below_lt

theorem VecLegal.den_le : v.den ≤ 2 ^ 30 := by
  obtain ⟨-, -, -, hle⟩ := hv
  exact hle

theorem VecLegal.below_le_succ {j : Nat} (hj : j < n) : v.below j ≤ v.below (j + 1) := by
  obtain ⟨-, hrise, -⟩ := hv
  exact hrise j hj

theorem VecLegal.below_le {i j : Nat} (hij : i ≤ j) (hj : j ≤ n) : v.below i ≤ v.below j := by
  induction j, hij using Nat.le_induction with
  | base => exact le_rfl
  | succ j _ ih => exact (ih (by omega)).trans (hv.below_le_succ hj)

theorem VecLegal.below_lt_den {j : Nat} (hj : j ≤ n) : v.below j < v.den :=
  (hv.below_le hj le_rfl).trans_lt hv.below_lt

theorem VecLegal.below_eq_of_mass_zero {c : Nat} (hc : c < n) (h : v.mass c = 0) : v.below c = v.below (c + 1) :=
  le_antisymm (hv.below_le_succ hc) (Nat.sub_eq_zero_iff_le.1 h)

theorem VecLegal.share_le_den {j : Nat} (hj : j ≤ n + 1) : v.share n j ≤ v.den := by
  unfold CumVec.share
  split_ifs with h
  · exact le_rfl
  · exact (hv.below_lt_den (by omega)).le

/-- A symbol of positive mass and the sentinel have a positive share (R200). -/
theorem VecLegal.share_lt {c : Nat} (hc : c ≤ n) (hmass : c < n → 1 ≤ v.mass c) : v.share n c < v.share n (c + 1) := by
  rw [v.share_of_le hc]
  obtain hlt | rfl := hc.lt_or_eq
  · rw [v.share_of_le hlt]
    exact Nat.lt_of_sub_pos (hmass hlt)
  · rw [v.share_last]
    exact hv.below_lt_den le_rfl

end

/-! ### Exact boundaries -/

/-- The boundary of the numerator `cum` without any rounding, as a real value. -/
def exactBoundary (fmt : NumFmt) (low high cum den : Nat) : ℚ :=
  realOf fmt low + (realOf fmt high - realOf fmt low) * (cum / den)

theorem realOf_nonneg (fmt : NumFmt) (x : Nat) : 0 ≤ realOf fmt x := div_nonneg (by positivity) (oneOf_cast_pos fmt).le

theorem realOf_oneOf (fmt : NumFmt) : realOf fmt (oneOf fmt) = 1 := div_self (oneOf_cast_pos fmt).ne'

theorem realOf_le_realOf {fmt : NumFmt} {x y : Nat} : realOf fmt x ≤ realOf fmt y ↔ x ≤ y := by
  rw [realOf, realOf, div_le_div_iff_of_pos_right (oneOf_cast_pos fmt), Nat.cast_le]

theorem realOf_lt_realOf {fmt : NumFmt} {x y : Nat} : realOf fmt x < realOf fmt y ↔ x < y := by
  rw [realOf, realOf, div_lt_div_iff_of_pos_right (oneOf_cast_pos fmt), Nat.cast_lt]

theorem realOf_add (fmt : NumFmt) (x y : Nat) : realOf fmt (x + y) = realOf fmt x + realOf fmt y := by
  simp [realOf, add_div]

theorem realOf_sub (fmt : NumFmt) {x y : Nat} (h : y ≤ x) : realOf fmt (x - y) = realOf fmt x - realOf fmt y := by
  simp [realOf, h, sub_div]

theorem realOf_le_one {fmt : NumFmt} {x : Nat} (h : x ≤ oneOf fmt) : realOf fmt x ≤ 1 := by
  rw [← realOf_oneOf fmt]
  exact realOf_le_realOf.2 h

theorem realOf_lt_iff {fmt : NumFmt} {x : Nat} (k : Nat) : realOf fmt x < k ↔ x < k * oneOf fmt := by
  rw [realOf, div_lt_iff₀ (oneOf_cast_pos fmt)]
  norm_cast

theorem cast_div_le_one {cum den : Nat} (h : cum ≤ den) : (cum / den : ℚ) ≤ 1 :=
  div_le_one_of_le₀ (by exact_mod_cast h) (by positivity)

theorem mul_oneOf_lt {fmt : NumFmt} {x d : Nat} (hd : 0 < d) (h : x ≤ d) : x * oneOf fmt < 2 * oneOf fmt * d := by
  have hmul := Nat.mul_le_mul_right (oneOf fmt) h
  have hpos := Nat.mul_pos hd (oneOf_pos fmt)
  rw [mul_assoc, mul_comm (oneOf fmt) d]
  omega

theorem realOf_mul_oneOf (fmt : NumFmt) (x : Nat) : realOf fmt (x * oneOf fmt) = x := by
  rw [realOf, Nat.cast_mul, mul_div_assoc, div_self (oneOf_cast_pos fmt).ne', mul_one]

theorem realOf_mul_div (fmt : NumFmt) (x y : Nat) : realOf fmt (x * y) / oneOf fmt = realOf fmt x * realOf fmt y := by
  simp only [realOf, Nat.cast_mul]
  ring

/-! ### The roundings of `FP64` -/

/-- Rounding to the mode, of a number below 2: the forms of `w` and of the sum in R252. -/
theorem rnd64_one_dist {x : Nat} (h : realOf .fp64 x < 2) : |realOf .fp64 (rnd64 x 1) - realOf .fp64 x| ≤ 1 / 2 ^ 53 := by
  have hround := rnd64_dist one_pos (n := x) (by rw [mul_one]; exact (realOf_lt_iff 2).1 (by exact_mod_cast h))
  rwa [Nat.cast_one, div_one] at hround

/-- The form of `p` in R252. -/
theorem rnd64_cum_dist {cum den : Nat} (hden : 0 < den) (hcum : cum ≤ den) :
    |realOf .fp64 (rnd64 (cum * oneOf .fp64) den) - cum / den| ≤ 1 / 2 ^ 53 := by
  have hround := rnd64_dist hden (mul_oneOf_lt hden hcum)
  rwa [realOf_mul_oneOf] at hround

/-- The form of the product in R252. -/
theorem rnd64_mul_dist {w p : Nat} (h : realOf .fp64 w * realOf .fp64 p < 2) :
    |realOf .fp64 (rnd64 (w * p) (oneOf .fp64)) - realOf .fp64 w * realOf .fp64 p| ≤ 1 / 2 ^ 53 := by
  rw [← realOf_mul_div] at h ⊢
  refine rnd64_dist (oneOf_pos _) ?_
  rw [realOf, div_div, div_lt_iff₀ (mul_pos (oneOf_cast_pos _) (oneOf_cast_pos _)), ← mul_assoc] at h
  exact_mod_cast h

/-- The error of a product of two rounded numbers of `[0, 1]`. -/
theorem product_dist {w p w' p' : ℚ} (hw0 : 0 ≤ w) (hw1 : w ≤ 1) (hp0 : 0 ≤ p) (hp1 : p ≤ 1)
    (hw : |w' - w| ≤ 1 / 2 ^ 53) (hp : |p' - p| ≤ 1 / 2 ^ 53) : |w' * p' - w * p| ≤ 3 / 2 ^ 53 := by
  have hp' : |p'| ≤ 2 := by
    rw [abs_le] at hp ⊢
    constructor <;> linarith
  calc |w' * p' - w * p| = |(w' - w) * p' + w * (p' - p)| := by ring_nf
    _ ≤ |(w' - w) * p'| + |w * (p' - p)| := abs_add_le _ _
    _ = |w' - w| * |p'| + w * |p' - p| := by rw [abs_mul, abs_mul, abs_of_nonneg hw0]
    _ ≤ 1 / 2 ^ 53 * 2 + 1 * (1 / 2 ^ 53) := by gcongr
    _ = 3 / 2 ^ 53 := by norm_num

/-- The four roundings of `FP64` add up to less than `2^-50` (R253). -/
theorem narrow_fp64_dist {low high cum den : Nat} (hlow : low ≤ high) (hhigh : high ≤ oneOf .fp64) (hcum : cum ≤ den)
    (hden : 0 < den) :
    |realOf .fp64 (narrow .fp64 low high cum den) - exactBoundary .fp64 low high cum den| ≤ 1 / 2 ^ 50 := by
  have hL := realOf_nonneg .fp64 low
  have hH := realOf_le_one hhigh
  have hLH := realOf_le_realOf (fmt := .fp64).2 hlow
  have hs0 : (0 : ℚ) ≤ cum / den := div_nonneg (Nat.cast_nonneg _) (Nat.cast_nonneg _)
  have hs1 : (cum / den : ℚ) ≤ 1 := cast_div_le_one hcum
  have hw := rnd64_one_dist (x := high - low) (by rw [realOf_sub _ hlow]; linarith)
  have hp := rnd64_cum_dist hden hcum
  rw [realOf_sub _ hlow] at hw
  have hprod := product_dist (sub_nonneg.2 hLH) (by linarith) hs0 hs1 hw hp
  have hle : (realOf .fp64 high - realOf .fp64 low) * (cum / den) ≤ realOf .fp64 high - realOf .fp64 low :=
    mul_le_of_le_one_right (sub_nonneg.2 hLH) hs1
  rw [narrow_fp64, exactBoundary]
  generalize rnd64 (high - low) 1 = w at hprod ⊢
  generalize rnd64 (cum * oneOf .fp64) den = p at hprod ⊢
  rw [abs_le] at hprod
  have hx := rnd64_mul_dist (w := w) (p := p) (by linarith)
  generalize rnd64 (w * p) (oneOf .fp64) = x at hx ⊢
  rw [abs_le] at hx
  have hsum := rnd64_one_dist (x := low + x) (by rw [realOf_add]; linarith)
  rw [realOf_add, abs_le] at hsum
  rw [abs_le]
  constructor <;> linarith

/-! ### Gaps (R253) -/

/-- The interval that a narrowing starts from (R253): non-empty, in `[0, 1]`, wider than a quarter, with ends that are values
of the mode. -/
structure WideInterval (fmt : NumFmt) (low high : Nat) : Prop where
  lt : low < high
  le_one : high ≤ oneOf fmt
  wide : oneOf fmt / 4 < high - low
  lowValue : ModeValue fmt low
  highValue : ModeValue fmt high

theorem WideInterval.quarter_lt {fmt : NumFmt} {low high : Nat} (h : WideInterval fmt low high) :
    1 / 4 < realOf fmt high - realOf fmt low := by
  obtain ⟨q, hq⟩ := oneOf_dvd_four fmt
  have hwide : q < high - low := by
    have := h.wide
    omega
  have hone := oneOf_cast_pos fmt
  rw [← realOf_sub fmt h.lt.le, realOf, lt_div_iff₀ hone, hq]
  push_cast
  have : (q : ℚ) < (high - low : Nat) := by exact_mod_cast hwide
  linarith

theorem NarrowedInterval.lt {fmt : NumFmt} {low high : Nat} (h : NarrowedInterval fmt low high) : low < high := h.1

theorem NarrowedInterval.le_one {fmt : NumFmt} {low high : Nat} (h : NarrowedInterval fmt low high) : high ≤ oneOf fmt :=
  h.2.1

theorem narrowedInterval_of_realOf {fmt : NumFmt} {low high : Nat} (hgap : 1 / 2 ^ 33 < realOf fmt high - realOf fmt low)
    (hle : high ≤ oneOf fmt) : NarrowedInterval fmt low high := by
  have hone := oneOf_cast_pos fmt
  have hlt : low < high := realOf_lt_realOf (fmt := fmt).1 (by linarith)
  refine ⟨hlt, hle, ?_⟩
  rw [← realOf_sub fmt hlt.le, realOf, lt_div_iff₀ hone, div_mul_eq_mul_div, div_lt_iff₀ (by norm_num), one_mul] at hgap
  exact_mod_cast hgap

/-- Numbers close to the exact boundaries of two different numerators are further apart than `2^-33`. -/
theorem WideInterval.gap {fmt : NumFmt} {low high cum cum' den x y : Nat} (h : WideInterval fmt low high)
    (hcum : cum < cum') (hpos : 0 < den) (hden : den ≤ 2 ^ 30)
    (hx : |realOf fmt x - exactBoundary fmt low high cum den| ≤ 1 / 2 ^ 50)
    (hy : |realOf fmt y - exactBoundary fmt low high cum' den| ≤ 1 / 2 ^ 50) :
    1 / 2 ^ 33 < realOf fmt y - realOf fmt x := by
  have hden' : (0 : ℚ) < den := by exact_mod_cast hpos
  have hshare : (1 / 2 ^ 30 : ℚ) ≤ cum' / den - cum / den := by
    rw [← sub_div, div_le_div_iff₀ (by norm_num) hden']
    have h1 : (cum + 1 : ℚ) ≤ cum' := by exact_mod_cast hcum
    have h2 : (den : ℚ) ≤ 2 ^ 30 := by exact_mod_cast hden
    linarith
  have hgap : (1 / 4 : ℚ) * (1 / 2 ^ 30) ≤ (realOf fmt high - realOf fmt low) * (cum' / den - cum / den) :=
    mul_le_mul h.quarter_lt.le hshare (by norm_num) (by linarith [h.quarter_lt])
  rw [exactBoundary, abs_le] at hx hy
  rw [mul_sub] at hgap
  linarith [show (1 / 2 ^ 33 : ℚ) < 1 / 4 * (1 / 2 ^ 30) - 2 / 2 ^ 50 by norm_num]

theorem boundary_fp64_dist {n j : Nat} {v : CumVec} {low high : Nat} (hv : VecLegal n v)
    (hw : WideInterval .fp64 low high) (hj : j ≤ n + 1) :
    |realOf .fp64 (boundary .fp64 n v low high j) - exactBoundary .fp64 low high (v.share n j) v.den| ≤ 1 / 2 ^ 50 := by
  obtain hlt | rfl := hj.lt_or_eq
  · rw [boundary_eq_narrow v high hw.lowValue (by omega), v.share_of_le (by omega)]
    exact narrow_fp64_dist hw.lt.le hw.le_one (hv.below_lt_den (by omega)).le hv.den_pos
  · have hden : (v.den : ℚ) ≠ 0 := by exact_mod_cast hv.den_pos.ne'
    rw [boundary_last, v.share_last, exactBoundary, div_self hden]
    norm_num

theorem boundary_fixed {n j : Nat} {v : CumVec} {low high : Nat} (hv : VecLegal n v) (hlt : low ≤ high) (hj : j ≤ n + 1) :
    boundary .fixed n v low high j = low + (high - low) * v.share n j / v.den := by
  obtain hj | rfl := hj.lt_or_eq
  · rw [boundary_eq_narrow v high trivial (by omega), v.share_of_le (by omega), narrow_fixed]
  · rw [boundary_last, v.share_last, Nat.mul_div_cancel _ hv.den_pos]
    omega

theorem boundary_fixed_le_high {n j : Nat} {v : CumVec} {low high : Nat} (hv : VecLegal n v) (hlt : low ≤ high)
    (hj : j ≤ n + 1) : boundary .fixed n v low high j ≤ high := by
  have hfloor : (high - low) * v.share n j / v.den ≤ high - low :=
    Nat.div_le_of_le_mul ((Nat.mul_le_mul_left _ (hv.share_le_den hj)).trans_eq (mul_comm _ _))
  rw [boundary_fixed hv hlt hj]
  omega

/-- Two floors whose numerators differ by at least the divisor differ. -/
theorem boundary_fixed_lt {n c : Nat} {v : CumVec} {low high : Nat} (hv : VecLegal n v) (hlt : low ≤ high)
    (hwide : v.den ≤ high - low) (hc : c ≤ n) (hshare : v.share n c < v.share n (c + 1)) :
    boundary .fixed n v low high c < boundary .fixed n v low high (c + 1) := by
  rw [boundary_fixed hv hlt (by omega), boundary_fixed hv hlt (by omega)]
  refine Nat.add_lt_add_left (Nat.succ_le_iff.1 ?_) low
  rw [Nat.succ_eq_add_one, ← Nat.add_div_right _ hv.den_pos]
  refine Nat.div_le_div_right ?_
  calc (high - low) * v.share n c + v.den ≤ (high - low) * (v.share n c + 1) := by rw [mul_add, mul_one]; omega
    _ ≤ (high - low) * v.share n (c + 1) := Nat.mul_le_mul_left _ hshare

/-! ### The boundaries of a wide interval -/

section

variable {fmt : NumFmt} {n : Nat} {v : CumVec} {low high : Nat} (hv : VecLegal n v)

include hv

theorem boundary_le_boundary (hlow : ModeValue fmt low) {i j : Nat} (hij : i ≤ j) (hj : j ≤ n) :
    boundary fmt n v low high i ≤ boundary fmt n v low high j := by
  rw [boundary_eq_narrow v high hlow (hij.trans hj), boundary_eq_narrow v high hlow hj]
  exact narrow_mono fmt low high hv.den_pos (hv.below_le hij hj)

theorem boundary_eq_of_mass_zero (hlow : ModeValue fmt low) {c : Nat} (hc : c < n) (h : v.mass c = 0) :
    boundary fmt n v low high c = boundary fmt n v low high (c + 1) := by
  rw [boundary_eq_narrow v high hlow hc.le, boundary_eq_narrow v high hlow hc, hv.below_eq_of_mass_zero hc h]

variable (hw : WideInterval fmt low high)

include hw

/-- A positive share leaves a sub-interval wider than `2^-33`, in `FIXED` because it is not empty. -/
theorem boundary_gap {c : Nat} (hc : c ≤ n) (hmass : c < n → 1 ≤ v.mass c) :
    1 / 2 ^ 33 < realOf fmt (boundary fmt n v low high (c + 1)) - realOf fmt (boundary fmt n v low high c) := by
  have hshare := hv.share_lt hc hmass
  cases fmt with
  | fixed =>
    have hone : oneOf .fixed = 2 ^ 32 := rfl
    have hwide := hw.wide
    have hden := hv.den_le
    rw [hone] at hwide
    have hlt := boundary_fixed_lt hv hw.lt.le (by omega) hc hshare
    rw [← realOf_sub _ hlt.le, realOf, hone, lt_div_iff₀ (by norm_num)]
    have hunit : (1 : ℚ) ≤ (boundary .fixed n v low high (c + 1) - boundary .fixed n v low high c : Nat) := by
      exact_mod_cast Nat.sub_pos_of_lt hlt
    exact lt_of_lt_of_le (by norm_num) hunit
  | fp64 =>
    exact hw.gap hshare hv.den_pos hv.den_le (boundary_fp64_dist hv hw (by omega)) (boundary_fp64_dist hv hw (by omega))

theorem boundary_lt_boundary {c : Nat} (hc : c ≤ n) (hmass : c < n → 1 ≤ v.mass c) :
    boundary fmt n v low high c < boundary fmt n v low high (c + 1) := by
  have hgap := boundary_gap hv hw hc hmass
  exact realOf_lt_realOf (fmt := fmt).1 (by linarith [show (0 : ℚ) < 1 / 2 ^ 33 by norm_num])

theorem boundary_sentinel_lt_high : boundary fmt n v low high n < high := by
  have hlt := boundary_lt_boundary hv hw le_rfl (fun h => absurd h (lt_irrefl n))
  rwa [boundary_last] at hlt

theorem boundary_le_high {j : Nat} (hj : j ≤ n + 1) : boundary fmt n v low high j ≤ high := by
  obtain hlt | rfl := hj.lt_or_eq
  · exact (boundary_le_boundary hv hw.lowValue (by omega) le_rfl).trans (boundary_sentinel_lt_high hv hw).le
  · rw [boundary_last]

/-- Narrowing to a symbol of positive mass, or to the sentinel, gives a narrowed interval (R253). -/
theorem narrowedInterval_boundary {c : Nat} (hc : c ≤ n) (hmass : c < n → 1 ≤ v.mass c) :
    NarrowedInterval fmt (boundary fmt n v low high c) (boundary fmt n v low high (c + 1)) :=
  narrowedInterval_of_realOf (boundary_gap hv hw hc hmass) ((boundary_le_high hv hw (by omega)).trans hw.le_one)

end

/-- The four roundings of R252 in `FP64`. -/
theorem boundary_fp64_nearestEven {n j : Nat} {v : CumVec} {low high : Nat} (hv : VecLegal n v) (hpos : 1 ≤ j) (hle : j ≤ n) :
    ∃ w p x, NearestEven (high - low) 1 w ∧ NearestEven (v.below j * 2 ^ 1074) v.den p ∧
      NearestEven (w * p) (2 ^ 1074) x ∧ NearestEven (low + x) 1 (boundary .fp64 n v low high j) := by
  have hone : oneOf .fp64 = 2 ^ 1074 := congrArg (2 ^ ·) (show Config.fp64Grid = 1074 from rfl)
  rw [boundary_of_pos .fp64 v low high hpos hle, narrow_fp64, ← hone]
  exact ⟨_, _, _, roundingIsNearestEven _ _ one_pos, roundingIsNearestEven _ _ hv.den_pos,
    roundingIsNearestEven _ _ (oneOf_pos .fp64), roundingIsNearestEven _ _ one_pos⟩

/-- Settles O25: the boundaries are monotone in the numerator, and a positive share gives a gap above `2^-33`. -/
theorem boundariesPartition : Obligations.BoundariesPartition := by
  intro fmt n v low high hv hlt hle hwide hlow hhigh
  have hw : WideInterval fmt low high := ⟨hlt, hle, hwide, hlow, hhigh⟩
  refine ⟨boundary_zero .., boundary_last .., ?_, ?_, boundary_sentinel_lt_high hv hw,
    fun c hc => boundary_le_boundary hv hlow (Nat.le_succ c) hc,
    fun c hc hmass => boundary_lt_boundary hv hw hc.le fun _ => hmass,
    fun c hc => boundary_eq_of_mass_zero hv hlow hc, fun j _ => modeValue_boundary hlow hhigh n v j,
    fun c => narrowedInterval_boundary hv hw⟩
  · rintro rfl j hj hpos
    exact boundary_of_pos .fixed v low high hpos hj
  · rintro rfl j hj hpos
    exact boundary_fp64_nearestEven hv hpos hj

end Sys2Proof.Machine
end

section
/-! The renormalization loops (R254 to R257, R277). What they do to the interval depends on the interval only, so the cases
that a loop runs through are said once, as a list; the loops of the encoder and of the decoder follow it. -/

namespace Sys2Proof.Machine

/-- The loop takes the interval from `low`, `high` to `low'`, `high'` by rescaling in the cases `ks` (R256). -/
inductive Renorms (fmt : NumFmt) (middle : Bool) : Nat → Nat → List RCase → Nat → Nat → Prop
  | exit {low high : Nat} (hc : renormCase (oneOf fmt) middle low high = none) : Renorms fmt middle low high [] low high
  | step {low high low' high' : Nat} {k : RCase} {ks : List RCase}
      (hc : renormCase (oneOf fmt) middle low high = some k)
      (hr : Renorms fmt middle (rescale (oneOf fmt) k low) (rescale (oneOf fmt) k high) ks low' high') :
      Renorms fmt middle low high (k :: ks) low' high'

/-! ### One rescale (R255) -/

section

variable {fmt : NumFmt} {middle : Bool} {low high : Nat} {k : RCase}
  (hc : renormCase (oneOf fmt) middle low high = some k) (hlt : low < high) (hle : high ≤ oneOf fmt)

include hc hlt hle

/-- A case applies only to an interval no wider than a half, and the rescale doubles it inside `[0, 1]`. -/
theorem rescale_interval :
    2 * (high - low) ≤ oneOf fmt ∧ rescale (oneOf fmt) k low < rescale (oneOf fmt) k high ∧
      rescale (oneOf fmt) k high ≤ oneOf fmt ∧
      rescale (oneOf fmt) k high - rescale (oneOf fmt) k low = 2 * (high - low) := by
  obtain ⟨q, hq⟩ := oneOf_dvd_four fmt
  rw [hq] at hc hle ⊢
  obtain ⟨hwidth, hbound⟩ := rescale_width hc hlt hle
  refine ⟨?_, by omega, hbound, by omega⟩
  obtain ⟨-, h⟩ | ⟨-, -, h⟩ | ⟨-, -, h, h'⟩ := renormCase_cases hc <;> omega

omit hlt in
/-- Where the ends of the interval lie in each case (R254). -/
theorem renormCase_range {x : Nat} (hx : low ≤ x) (hx' : x ≤ high) :
    (k = .lower → x ≤ oneOf fmt / 2) ∧ (k = .upper → oneOf fmt / 2 ≤ x ∧ x ≤ oneOf fmt) ∧
      (k = .middle → oneOf fmt / 4 ≤ x ∧ x ≤ 3 * (oneOf fmt / 4)) := by
  obtain ⟨q, hq⟩ := oneOf_dvd_four fmt
  rw [hq] at hc hle ⊢
  obtain ⟨rfl, h⟩ | ⟨rfl, -, h⟩ | ⟨rfl, -, h, h'⟩ := renormCase_cases hc
  · exact ⟨fun _ => by omega, nofun, nofun⟩
  · exact ⟨nofun, fun _ => by omega, nofun⟩
  · exact ⟨nofun, nofun, fun _ => by omega⟩

end

/-- The rescale is exact in `FP64` (R255): the difference keeps the spacing of `x` and is no larger than `x`. -/
theorem modeValue_rescale {fmt : NumFmt} {k : RCase} {x : Nat} (h : ModeValue fmt x)
    (hupper : k = .upper → oneOf fmt / 2 ≤ x ∧ x ≤ oneOf fmt)
    (hmiddle : k = .middle → oneOf fmt / 4 ≤ x ∧ x ≤ 3 * (oneOf fmt / 4)) : ModeValue fmt (rescale (oneOf fmt) k x) := by
  cases fmt with
  | fixed => trivial
  | fp64 =>
    obtain ⟨j, hone⟩ := oneOf_fp64_eq
    have hhalf : 2 ^ (j + 54) / 2 = 2 ^ (j + 53) := by rw [pow_succ 2 (j + 53)]; omega
    have hquarter : 2 ^ (j + 54) / 4 = 2 ^ (j + 52) := by rw [pow_succ 2 (j + 53), pow_succ 2 (j + 52)]; omega
    have hdouble : 2 ^ (j + 53) = 2 * 2 ^ (j + 52) := pow_succ' 2 (j + 52)
    rw [hone] at hupper hmiddle ⊢
    cases k with
    | lower => exact h.two_mul
    | upper =>
      obtain ⟨hle, hle'⟩ := hupper rfl
      rw [hhalf] at hle
      rw [rescale, hhalf]
      have hexp : j + 53 = j + 1 + 52 := by omega
      have hexp' : j + 54 = j + 1 + 53 := by omega
      rw [hexp'] at hle'
      refine ModeValue.two_mul (modeValue_of_dvd (k := j + 1) ?_ ((Nat.sub_le _ _).trans hle'))
      exact Nat.dvd_sub (h.two_pow_dvd (hexp ▸ hle)) (Nat.pow_dvd_pow 2 (by omega))
    | middle =>
      obtain ⟨hle, hle'⟩ := hmiddle rfl
      rw [hquarter] at hle hle'
      rw [rescale, hquarter]
      exact ModeValue.two_mul (modeValue_of_dvd (Nat.dvd_sub (h.two_pow_dvd hle) (Nat.pow_dvd_pow 2 (by omega))) (by omega))

/-! ### The loop on the interval -/

/-- The loop ends after at most `n` steps, if a width doubled `n` times is above a half (R257). -/
theorem exists_renorms {fmt : NumFmt} {low high : Nat} (middle : Bool) (n : Nat) (hlt : low < high) (hle : high ≤ oneOf fmt)
    (hwidth : oneOf fmt < (high - low) * 2 ^ (n + 1)) :
    ∃ ks low' high', Renorms fmt middle low high ks low' high' ∧ ks.length ≤ n := by
  induction n generalizing low high with
  | zero =>
    cases hc : renormCase (oneOf fmt) middle low high with
    | none => exact ⟨[], low, high, .exit hc, le_rfl⟩
    | some k =>
      have := (rescale_interval hc hlt hle).1
      omega
  | succ n ih =>
    cases hc : renormCase (oneOf fmt) middle low high with
    | none => exact ⟨[], low, high, .exit hc, Nat.zero_le _⟩
    | some k =>
      obtain ⟨-, hlt', hle', hdouble⟩ := rescale_interval hc hlt hle
      have hwidth' : (rescale (oneOf fmt) k high - rescale (oneOf fmt) k low) * 2 ^ (n + 1) =
          (high - low) * 2 ^ (n + 1 + 1) := by
        rw [hdouble, pow_succ 2 (n + 1)]
        ring
      obtain ⟨ks, low', high', hr, hlen⟩ := ih hlt' hle' (hwidth' ▸ hwidth)
      exact ⟨k :: ks, low', high', .step hc hr, Nat.succ_le_succ hlen⟩

/-- From a narrowed interval every loop takes at most 32 steps (R257). -/
theorem NarrowedInterval.exists_renorms {fmt : NumFmt} {low high : Nat} (h : NarrowedInterval fmt low high) (middle : Bool) :
    ∃ ks low' high', Renorms fmt middle low high ks low' high' ∧ ks.length ≤ 32 := by
  obtain ⟨hlt, hle, hwidth⟩ := h
  exact Machine.exists_renorms middle 32 hlt hle hwidth

section

variable {fmt : NumFmt} {middle : Bool} {low high low' high' : Nat} {ks : List RCase}
  (h : Renorms fmt middle low high ks low' high')

include h

theorem Renorms.exits : renormCase (oneOf fmt) middle low' high' = none := by
  induction h with
  | exit hc => exact hc
  | step _ _ ih => exact ih

variable (hlt : low < high) (hle : high ≤ oneOf fmt)

include hlt hle

theorem Renorms.bounds : low' < high' ∧ high' ≤ oneOf fmt ∧ high' - low' = (high - low) * 2 ^ ks.length := by
  induction h with
  | exit hc => exact ⟨hlt, hle, by simp⟩
  | step hc _ ih =>
    obtain ⟨-, hlt', hle', hdouble⟩ := rescale_interval hc hlt hle
    obtain ⟨h1, h2, h3⟩ := ih hlt' hle'
    refine ⟨h1, h2, ?_⟩
    rw [h3, hdouble, List.length_cons, pow_succ]
    ring

/-- Where no case applies the interval straddles the half, and the quarters leave it wider than one of them (R257). -/
theorem Renorms.renormalized : Renormalized fmt middle low' high' := by
  obtain ⟨-, hle', -⟩ := h.bounds hlt hle
  have hnone := h.exits
  obtain ⟨q, hq⟩ := oneOf_dvd_four fmt
  rw [hq] at hnone hle'
  rw [Renormalized, hq]
  obtain ⟨hlow, hhigh, hquarter⟩ := renormCase_none hnone
  exact ⟨by omega, by omega, hle', fun hm => by have := hquarter hm; omega⟩

theorem Renorms.modeValue (hlow : ModeValue fmt low) (hhigh : ModeValue fmt high) :
    ModeValue fmt low' ∧ ModeValue fmt high' := by
  induction h with
  | exit hc => exact ⟨hlow, hhigh⟩
  | step hc _ ih =>
    obtain ⟨-, hlt', hle', -⟩ := rescale_interval hc hlt hle
    obtain ⟨-, hupper, hmiddle⟩ := renormCase_range hc hle le_rfl hlt.le
    obtain ⟨-, hupper', hmiddle'⟩ := renormCase_range hc hle hlt.le le_rfl
    exact ih hlt' hle' (modeValue_rescale hlow hupper hmiddle) (modeValue_rescale hhigh hupper' hmiddle')

end

/-- A renormalized interval with the middle case can be narrowed again (R253). -/
theorem Renormalized.wideInterval {fmt : NumFmt} {low high : Nat} (h : Renormalized fmt true low high)
    (hlow : ModeValue fmt low) (hhigh : ModeValue fmt high) : WideInterval fmt low high := by
  obtain ⟨hlt, hlt', hle, hwide⟩ := h
  exact ⟨hlt.trans hlt', hle, hwide rfl, hlow, hhigh⟩

/-! ### The encoder's loop (R256) -/

/-- The registers after one step of the encoder's loop in case `k`, on a stream without a bound. -/
def EncRun.rescaled (fmt : NumFmt) (r : EncRun) (k : RCase) : EncRun :=
  { low := rescale (oneOf fmt) k r.low, high := rescale (oneOf fmt) k r.high,
    pend := if k = .middle then r.pend + 1 else 0, out := r.out ++ caseBits k r.pend }

/-- The registers after the cases `ks`. -/
def EncRun.renormed (fmt : NumFmt) (ks : List RCase) (r : EncRun) : EncRun := ks.foldl (EncRun.rescaled fmt) r

@[simp] theorem EncRun.renormed_nil (fmt : NumFmt) (r : EncRun) : r.renormed fmt [] = r := rfl

@[simp] theorem EncRun.renormed_cons (fmt : NumFmt) (k : RCase) (ks : List RCase) (r : EncRun) :
    r.renormed fmt (k :: ks) = (r.rescaled fmt k).renormed fmt ks := rfl

theorem outBits_ok {pos sym : Nat} {bs out out' : List Bool} (h : outBits pos sym out bs = .ok out') : out' = out ++ bs := by
  induction bs generalizing out with
  | nil =>
    cases h
    simp
  | cons b bs ih =>
    unfold outBits outBit at h
    split_ifs at h
    rw [ih h]
    simp

/-- A step that succeeds appends the bits of its case. -/
theorem renormEncStep_eq_rescaled {fmt : NumFmt} {pos sym : Nat} {k : RCase} {r r' : EncRun}
    (h : renormEncStep (oneOf fmt) pos sym k r = .ok r') : r' = r.rescaled fmt k := by
  unfold renormEncStep at h
  cases k with
  | middle =>
    cases h
    simp [EncRun.rescaled, caseBits]
  | lower | upper =>
    dsimp only at h
    split at h
    · cases h
    · next hout =>
      cases h
      rw [outBits_ok hout]
      rfl

/-- A step succeeds if and only if its bits fit (R381). -/
theorem renormEncStep_eq (fmt : NumFmt) (pos sym : Nat) (k : RCase) {r : EncRun} (hfit : BitsFit r.out) :
    renormEncStep (oneOf fmt) pos sym k r =
      if BitsFit (r.rescaled fmt k).out then .ok (r.rescaled fmt k)
      else .error { code := .outOvf, pos := pos, sym := sym, wrote := Config.obufBytes } := by
  unfold renormEncStep
  cases k with
  | middle => simp [EncRun.rescaled, caseBits, hfit]
  | lower | upper =>
    dsimp only
    rw [outBits_eq pos sym _ _ hfit]
    simp only [EncRun.rescaled, caseBits, BitsFit, List.length_append, reduceCtorEq, if_false]
    split_ifs <;> rfl

section

variable {fmt : NumFmt} {middle : Bool} {r : EncRun} {ks : List RCase} {low' high' : Nat}
  (h : Renorms fmt middle r.low r.high ks low' high')

include h

/-- Induction along the cases, over the encoder's registers. -/
theorem Renorms.enc_induction {motive : EncRun → List RCase → Prop}
    (exit : ∀ r : EncRun, r.low = low' → r.high = high' → renormCase (oneOf fmt) middle r.low r.high = none → motive r [])
    (step : ∀ (r : EncRun) (k : RCase) (ks : List RCase), renormCase (oneOf fmt) middle r.low r.high = some k →
      motive (r.rescaled fmt k) ks → motive r (k :: ks)) : motive r ks := by
  generalize hlow : r.low = low at h
  generalize hhigh : r.high = high at h
  induction h generalizing r with
  | exit hc =>
    subst hlow hhigh
    exact exit r rfl rfl hc
  | step hc _ ih =>
    subst hlow hhigh
    exact step r _ _ hc (ih exit rfl rfl)

theorem Renorms.renormed_interval : (r.renormed fmt ks).low = low' ∧ (r.renormed fmt ks).high = high' :=
  h.enc_induction (motive := fun r ks => (r.renormed fmt ks).low = low' ∧ (r.renormed fmt ks).high = high')
    (fun _ hlow hhigh _ => ⟨hlow, hhigh⟩) fun _ _ _ _ ih => ih

theorem Renorms.renormTo : RenormTo fmt middle r (r.renormed fmt ks) :=
  h.enc_induction (motive := fun r ks => RenormTo fmt middle r (r.renormed fmt ks))
    (fun r _ _ hc => .exit r hc) fun r k _ hc ih => .step r _ k hc ih

/-- More fuel than steps changes nothing. -/
theorem Renorms.renormEnc_fuel (pos sym : Nat) {fuel : Nat} (hfuel : ks.length ≤ fuel) :
    renormEnc (oneOf fmt) middle pos sym fuel r = renormEnc (oneOf fmt) middle pos sym ks.length r := by
  refine h.enc_induction (motive := fun r ks => ∀ fuel, ks.length ≤ fuel →
    renormEnc (oneOf fmt) middle pos sym fuel r = renormEnc (oneOf fmt) middle pos sym ks.length r) ?_ ?_ fuel hfuel
  · intro r _ _ hc fuel _
    cases fuel with
    | zero => rfl
    | succ fuel => simp [renormEnc, hc]
  · intro r k ks hc ih fuel hfuel
    obtain ⟨fuel, rfl⟩ := Nat.exists_eq_add_one.2 (Nat.zero_lt_of_lt hfuel)
    rw [List.length_cons, renormEnc, renormEnc, hc]
    dsimp only
    split
    · rfl
    · next hstep =>
      obtain rfl := renormEncStep_eq_rescaled hstep
      exact ih fuel (Nat.le_of_succ_le_succ hfuel)

/-- The loop, if it succeeds, ends with the registers after its cases. -/
theorem Renorms.eq_renormed_of_ok {pos sym fuel : Nat} {r' : EncRun} (hfuel : ks.length ≤ fuel)
    (hok : renormEnc (oneOf fmt) middle pos sym fuel r = .ok r') : r' = r.renormed fmt ks := by
  rw [h.renormEnc_fuel pos sym hfuel] at hok
  refine h.enc_induction (motive := fun r ks =>
    renormEnc (oneOf fmt) middle pos sym ks.length r = .ok r' → r' = r.renormed fmt ks) ?_ ?_ hok
  · intro r _ _ _ hok
    cases hok
    rfl
  · intro r k ks hc ih hok
    rw [List.length_cons, renormEnc, hc] at hok
    dsimp only at hok
    split at hok
    · cases hok
    · next hstep =>
      obtain rfl := renormEncStep_eq_rescaled hstep
      exact ih hok

end

/-! ### The length of the stream (R381) -/

theorem EncRun.prefix_renormed (fmt : NumFmt) (ks : List RCase) (r : EncRun) : r.out <+: (r.renormed fmt ks).out := by
  induction ks generalizing r with
  | nil => exact List.prefix_rfl
  | cons k ks ih => exact (List.prefix_append _ _).trans (ih (r.rescaled fmt k))

/-- Each step adds one bit to those written and those deferred. -/
theorem EncRun.length_renormed (fmt : NumFmt) (ks : List RCase) (r : EncRun) :
    (r.renormed fmt ks).out.length + (r.renormed fmt ks).pend = r.out.length + r.pend + ks.length := by
  induction ks generalizing r with
  | nil => rfl
  | cons k ks ih =>
    rw [EncRun.renormed_cons, ih]
    cases k <;> simp [EncRun.rescaled, caseBits] <;> omega

/-- The loop succeeds if and only if all its bits fit (R381). -/
theorem Renorms.renormEnc_eq {fmt : NumFmt} {middle : Bool} {r : EncRun} {ks : List RCase} {low' high' fuel : Nat}
    (h : Renorms fmt middle r.low r.high ks low' high') (pos sym : Nat) (hfuel : ks.length ≤ fuel) (hfit : BitsFit r.out) :
    renormEnc (oneOf fmt) middle pos sym fuel r =
      if BitsFit (r.renormed fmt ks).out then .ok (r.renormed fmt ks)
      else .error { code := .outOvf, pos := pos, sym := sym, wrote := Config.obufBytes } := by
  rw [h.renormEnc_fuel pos sym hfuel]
  refine h.enc_induction (motive := fun r ks => BitsFit r.out → renormEnc (oneOf fmt) middle pos sym ks.length r =
    if BitsFit (r.renormed fmt ks).out then .ok (r.renormed fmt ks)
    else .error { code := .outOvf, pos := pos, sym := sym, wrote := Config.obufBytes }) ?_ ?_ hfit
  · intro r _ _ _ hfit
    exact (if_pos hfit).symm
  · intro r k ks hc ih hfit
    rw [List.length_cons, renormEnc, hc, EncRun.renormed_cons]
    dsimp only
    rw [renormEncStep_eq fmt pos sym k hfit]
    by_cases hstep : BitsFit (r.rescaled fmt k).out
    · rw [if_pos hstep]
      exact ih hstep
    · rw [if_neg hstep, if_neg fun hend => hstep (((r.rescaled fmt k).prefix_renormed fmt ks).length_le.trans hend)]

/-! ### The decoder's loop (R277) -/

/-- The registers after one step of the decoder's loop in case `k`. -/
def DecRun.rescaled (src : Nat → Bool) (fmt : NumFmt) (r : DecRun) (k : RCase) : DecRun :=
  takeBit src
    { r with
      low := rescale (oneOf fmt) k r.low, high := rescale (oneOf fmt) k r.high, enc := rescale (2 ^ Config.kmax) k r.enc }

/-- The registers after the cases `ks`. -/
def DecRun.renormed (src : Nat → Bool) (fmt : NumFmt) (ks : List RCase) (r : DecRun) : DecRun :=
  ks.foldl (DecRun.rescaled src fmt) r

@[simp] theorem DecRun.renormed_nil (src : Nat → Bool) (fmt : NumFmt) (r : DecRun) : r.renormed src fmt [] = r := rfl

@[simp] theorem DecRun.renormed_cons (src : Nat → Bool) (fmt : NumFmt) (k : RCase) (ks : List RCase) (r : DecRun) :
    r.renormed src fmt (k :: ks) = (r.rescaled src fmt k).renormed src fmt ks := rfl

section

variable {src : Nat → Bool} {fmt : NumFmt} {r : DecRun} {ks : List RCase} {low' high' : Nat}

/-- The loop reads one bit per step and keeps `K`, the output and the model. -/
theorem DecRun.renormed_kept (src : Nat → Bool) (fmt : NumFmt) (ks : List RCase) (r : DecRun) :
    (r.renormed src fmt ks).k = r.k ∧ (r.renormed src fmt ks).out = r.out ∧
      (r.renormed src fmt ks).counts = r.counts ∧ (r.renormed src fmt ks).rpos = r.rpos + ks.length := by
  induction ks generalizing r with
  | nil => exact ⟨rfl, rfl, rfl, rfl⟩
  | cons k ks ih =>
    obtain ⟨hk, hout, hcounts, hrpos⟩ := ih (r.rescaled src fmt k)
    refine ⟨hk, hout, hcounts, hrpos.trans ?_⟩
    show r.rpos + 1 + ks.length = r.rpos + (ks.length + 1)
    omega

variable (h : Renorms fmt true r.low r.high ks low' high')

include h

/-- Induction along the cases, over the decoder's registers. -/
theorem Renorms.dec_induction (src : Nat → Bool) {motive : DecRun → List RCase → Prop}
    (exit : ∀ r : DecRun, r.low = low' → r.high = high' → renormCase (oneOf fmt) true r.low r.high = none → motive r [])
    (step : ∀ (r : DecRun) (k : RCase) (ks : List RCase), renormCase (oneOf fmt) true r.low r.high = some k →
      motive (r.rescaled src fmt k) ks → motive r (k :: ks)) : motive r ks := by
  generalize hlow : r.low = low at h
  generalize hhigh : r.high = high at h
  induction h generalizing r with
  | exit hc =>
    subst hlow hhigh
    exact exit r rfl rfl hc
  | step hc _ ih =>
    subst hlow hhigh
    exact step r _ _ hc (ih exit rfl rfl)

theorem Renorms.renormDec_eq {fuel : Nat} (hfuel : ks.length ≤ fuel) :
    renormDec src (oneOf fmt) fuel r = r.renormed src fmt ks := by
  refine h.dec_induction src (motive := fun r ks => ∀ fuel, ks.length ≤ fuel →
    renormDec src (oneOf fmt) fuel r = r.renormed src fmt ks) ?_ ?_ fuel hfuel
  · intro r _ _ hc fuel _
    cases fuel with
    | zero => rfl
    | succ fuel => simp [renormDec, hc]
  · intro r k ks hc ih fuel hfuel
    obtain ⟨fuel, rfl⟩ := Nat.exists_eq_add_one.2 (Nat.zero_lt_of_lt hfuel)
    rw [renormDec, hc]
    exact ih fuel (Nat.le_of_succ_le_succ hfuel)

theorem Renorms.renormed_dec_interval : (r.renormed src fmt ks).low = low' ∧ (r.renormed src fmt ks).high = high' :=
  h.dec_induction src (motive := fun r ks => (r.renormed src fmt ks).low = low' ∧ (r.renormed src fmt ks).high = high')
    (fun _ hlow hhigh _ => ⟨hlow, hhigh⟩) fun _ _ _ _ ih => ih

end

/-- Settles O26: both loops follow the cases of the interval, of which there are at most 32. -/
theorem renormalizationBound : Obligations.RenormalizationBound := by
  constructor
  · intro fmt middle pos sym r hr
    obtain ⟨ks, low', high', h, hlen⟩ := hr.exists_renorms middle
    refine ⟨fun fuel hfuel => ?_, fun r' hok => ?_⟩
    · rw [h.renormEnc_fuel pos sym (hlen.trans hfuel), h.renormEnc_fuel pos sym hlen]
    · obtain ⟨hlow, hhigh⟩ := h.renormed_interval
      rw [h.eq_renormed_of_ok hlen hok, hlow, hhigh]
      exact ⟨h.renormalized hr.lt hr.le_one, h.modeValue hr.lt hr.le_one⟩
  · rintro fmt src r _ hr rfl
    obtain ⟨ks, low', high', h, hlen⟩ := hr.exists_renorms true
    obtain ⟨hlow, hhigh⟩ := h.renormed_dec_interval (src := src)
    obtain ⟨hk, hout, hcounts, hrpos⟩ := DecRun.renormed_kept src fmt ks r
    obtain ⟨-, -, hwidth⟩ := h.bounds hr.lt hr.le_one
    rw [h.renormDec_eq hlen, hlow, hhigh]
    refine ⟨fun fuel hfuel => h.renormDec_eq (hlen.trans hfuel), h.renormalized hr.lt hr.le_one, h.modeValue hr.lt hr.le_one,
      hk, hout, hcounts, ⟨ks.length, hlen, hrpos, hwidth⟩, fun pos sym e e' helow hehigh hok => ?_⟩
    rw [← helow, ← hehigh] at h
    rw [h.eq_renormed_of_ok hlen hok]
    exact h.renormed_interval

end Sys2Proof.Machine
end

section
/-! The decoder's window `[ENC, U)` (R273 to R277, R280): a new bit selects one half of it, a rescale maps it as it maps the
interval, and a confirmed symbol contains it. -/

namespace Sys2Proof.Machine

/-! ### The tests of the decoder (R274, R275) -/

theorem realLe_iff {fmt : NumFmt} {x e : Nat} : realLe fmt x e = true ↔ x * 2 ^ 192 ≤ e * oneOf fmt := decide_eq_true_iff

theorem sentinelSeen_iff {c : Conf} {v : CumVec} {r : DecRun} :
    sentinelSeen c v r = true ↔
      boundary c.numFmt c.nsym.toNat v r.low r.high c.nsym.toNat * 2 ^ 192 ≤ r.enc * oneOf c.numFmt := realLe_iff

/-- The four comparisons of R275 say that the window, its upper end included, lies in the sub-interval of the symbol. -/
theorem confirms_iff {c : Conf} {v : CumVec} {r : DecRun} {x : Nat} :
    confirms c v r x = true ↔
      boundary c.numFmt c.nsym.toNat v r.low r.high x * 2 ^ 192 ≤ r.enc * oneOf c.numFmt ∧
      (r.enc + 2 ^ (192 - r.k)) * oneOf c.numFmt < boundary c.numFmt c.nsym.toNat v r.low r.high (x + 1) * 2 ^ 192 := by
  have hle : r.enc * oneOf c.numFmt ≤ (r.enc + 2 ^ (192 - r.k)) * oneOf c.numFmt :=
    Nat.mul_le_mul_right _ (Nat.le_add_right _ _)
  unfold confirms
  simp only [Bool.and_eq_true, Bool.not_eq_true', ← Bool.not_eq_true, realLe_iff, not_le]
  exact ⟨fun ⟨⟨⟨hlow, _⟩, _⟩, hhigh⟩ => ⟨hlow, hhigh⟩,
    fun ⟨hlow, hhigh⟩ => ⟨⟨⟨hlow, hle.trans_lt hhigh⟩, hlow.trans hle⟩, hhigh⟩⟩

theorem confirms_of_confirm {c : Conf} {v : CumVec} {r : DecRun} {x : Nat} (h : confirm c v r = some x) :
    x < c.nsym.toNat ∧ confirms c v r x = true :=
  ⟨List.mem_range.1 (List.mem_of_find?_eq_some h), List.find?_some h⟩

/-! ### A new bit (R272, R273) -/

/-- A bit at weight `2^-K` selects one half of a window of twice that width. -/
theorem windowInside_takeBit {fmt : NumFmt} {r : DecRun} (src : Nat → Bool) (hlow : r.low * 2 ^ 192 ≤ r.enc * oneOf fmt)
    (hhigh : (r.enc + 2 * 2 ^ (192 - r.k)) * oneOf fmt ≤ r.high * 2 ^ 192) (hone : r.high ≤ oneOf fmt) (hk : r.k ≤ 192)
    (hmod : 2 ^ (192 - r.k) ∣ r.enc) : WindowInside fmt (takeBit src r) := by
  have hbit : (src r.rpos).toNat ≤ 1 := Bool.toNat_le _
  have hadd : (src r.rpos).toNat * 2 ^ (192 - r.k) ≤ 1 * 2 ^ (192 - r.k) := Nat.mul_le_mul_right _ hbit
  refine ⟨hlow.trans (Nat.mul_le_mul_right _ (Nat.le_add_right _ _)), le_trans (Nat.mul_le_mul_right _ ?_) hhigh, hone, hk,
    Nat.mod_eq_zero_of_dvd (dvd_add hmod (dvd_mul_left _ _))⟩
  show r.enc + (src r.rpos).toNat * 2 ^ (192 - r.k) + 2 ^ (192 - r.k) ≤ r.enc + 2 * 2 ^ (192 - r.k)
  omega

theorem two_pow_kmax_sub {k : Nat} (h : k < 192) : 2 ^ (192 - k) = 2 * 2 ^ (192 - (k + 1)) := by
  rw [← pow_succ']
  congr 1
  omega

theorem windowInside_widen {fmt : NumFmt} {r : DecRun} (src : Nat → Bool) (h : WindowInside fmt r) (hk : r.k < 192) :
    WindowInside fmt (widen src r) := by
  obtain ⟨hlow, hhigh, hone, -, hmod⟩ := h
  rw [two_pow_kmax_sub hk] at hhigh hmod
  exact windowInside_takeBit src (r := { r with k := r.k + 1 }) hlow hhigh hone hk
    ((dvd_mul_left _ 2).trans (Nat.dvd_of_mod_eq_zero hmod))

theorem windowInside_prime {fmt : NumFmt} {r : DecRun} (src : Nat → Bool) (n : Nat) (h : WindowInside fmt r)
    (hk : r.k + n ≤ 192) : WindowInside fmt (prime src n r) := by
  induction n generalizing r with
  | zero => exact h
  | succ n ih => exact ih (windowInside_widen src h (by omega)) (by show r.k + 1 + n ≤ 192; omega)

theorem windowInside_decStart (src : Nat → Bool) (fmt : NumFmt) (k : Counts) : WindowInside fmt (decStart src fmt k) :=
  windowInside_prime src 16
    ⟨by simp, by simp [mul_comm], le_rfl, Nat.zero_le _, by simp⟩ (by show 0 + 16 ≤ 192; omega)

/-! ### A rescale (R255, R273) -/

/-- What a rescale subtracts before it doubles, with `one` units in 1 (R255). -/
def RCase.shift (one : Nat) : RCase → Nat
  | .lower => 0
  | .upper => one / 2
  | .middle => one / 4

theorem rescale_eq (one : Nat) (k : RCase) (x : Nat) : rescale one k x = 2 * (x - k.shift one) := by
  cases k <;> rfl

/-- The shift of `ENC` is that of the interval. -/
theorem shift_mul_oneOf (fmt : NumFmt) (k : RCase) : k.shift (2 ^ 192) * oneOf fmt = k.shift (oneOf fmt) * 2 ^ 192 := by
  obtain ⟨q, hq⟩ := oneOf_dvd_four fmt
  have hhalf : 4 * q / 2 = 2 * q := by omega
  have hquarter : 4 * q / 4 = q := by omega
  cases k <;> simp only [RCase.shift, hq, hhalf, hquarter] <;> omega

theorem shift_le_low {fmt : NumFmt} {middle : Bool} {low high : Nat} {k : RCase}
    (hc : renormCase (oneOf fmt) middle low high = some k) (hlt : low < high) (hle : high ≤ oneOf fmt) :
    k.shift (oneOf fmt) ≤ low := by
  obtain ⟨-, hupper, hmiddle⟩ := renormCase_range hc hle le_rfl hlt.le
  cases k with
  | lower => exact Nat.zero_le _
  | upper => exact (hupper rfl).1
  | middle => exact (hmiddle rfl).1

section

variable {fmt : NumFmt} {r : DecRun} (h : WindowInside fmt r)

include h

theorem WindowInside.low_lt_high : r.low < r.high := by
  obtain ⟨hlow, hhigh, -⟩ := h
  have hlt : r.enc * oneOf fmt < (r.enc + 2 ^ (192 - r.k)) * oneOf fmt :=
    Nat.mul_lt_mul_of_pos_right (Nat.lt_add_of_pos_right (Nat.two_pow_pos _)) (oneOf_pos fmt)
  exact lt_of_mul_lt_mul_right (hlow.trans_lt (hlt.trans_le hhigh)) (Nat.zero_le _)

theorem WindowInside.high_le : r.high ≤ oneOf fmt := by
  obtain ⟨-, -, hone, -⟩ := h
  exact hone

theorem WindowInside.k_le : r.k ≤ 192 := by
  obtain ⟨-, -, -, hk, -⟩ := h
  exact hk

theorem WindowInside.enc_lt : r.enc < 2 ^ 192 := by
  obtain ⟨-, hhigh, hone, -⟩ := h
  have hle : r.enc + 2 ^ (192 - r.k) ≤ 2 ^ 192 := by
    refine le_of_mul_le_mul_right (hhigh.trans ?_) (oneOf_pos fmt)
    rw [mul_comm]
    exact Nat.mul_le_mul_left _ hone
  have := Nat.two_pow_pos (192 - r.k)
  omega

variable {k : RCase} (hc : renormCase (oneOf fmt) true r.low r.high = some k)

include hc

/-- The rescale of `ENC` never goes negative (R280). -/
theorem WindowInside.shift_le_enc : k.shift (2 ^ 192) ≤ r.enc := by
  obtain ⟨hlow, -, hone, -⟩ := id h
  refine le_of_mul_le_mul_right ?_ (oneOf_pos fmt)
  rw [shift_mul_oneOf]
  exact (Nat.mul_le_mul_right _ (shift_le_low hc h.low_lt_high hone)).trans hlow

/-- The window is no wider than the interval, so a case applies only with `K ≥ 1`. -/
theorem WindowInside.k_pos : 1 ≤ r.k := by
  obtain ⟨hlow, hhigh, hone, -⟩ := id h
  obtain ⟨hwidth, -⟩ := rescale_interval hc h.low_lt_high hone
  have hpos := oneOf_pos fmt
  by_contra hk
  rw [show r.k = 0 by omega, add_mul] at hhigh
  omega

theorem windowInside_rescaled (src : Nat → Bool) : WindowInside fmt (r.rescaled src fmt k) := by
  obtain ⟨hlow, hhigh, hone, hk, hmod⟩ := id h
  obtain ⟨-, -, hone', -⟩ := rescale_interval hc h.low_lt_high hone
  have henc := h.shift_le_enc hc
  have hshift := shift_mul_oneOf fmt k
  have hdvd : 2 ^ (192 - r.k) ∣ 2 * k.shift (2 ^ 192) := by
    have hpow : 2 ^ (192 - r.k) ∣ 2 ^ 191 := Nat.pow_dvd_pow 2 (by have := h.k_pos hc; omega)
    cases k with
    | lower => exact dvd_zero _
    | upper => exact hpow.trans (by decide)
    | middle => exact hpow
  refine windowInside_takeBit src ?_ ?_ hone' hk ?_
  · show rescale (oneOf fmt) k r.low * 2 ^ 192 ≤ rescale (2 ^ 192) k r.enc * oneOf fmt
    rw [rescale_eq, rescale_eq, mul_assoc, mul_assoc, Nat.sub_mul, Nat.sub_mul, hshift]
    omega
  · show (rescale (2 ^ 192) k r.enc + 2 * 2 ^ (192 - r.k)) * oneOf fmt ≤ rescale (oneOf fmt) k r.high * 2 ^ 192
    rw [rescale_eq, rescale_eq, ← mul_add, ← Nat.sub_add_comm henc, mul_assoc, mul_assoc, Nat.sub_mul, Nat.sub_mul, hshift]
    omega
  · show 2 ^ (192 - r.k) ∣ rescale (2 ^ 192) k r.enc
    rw [rescale_eq, Nat.mul_sub]
    exact Nat.dvd_sub ((Nat.dvd_of_mod_eq_zero hmod).mul_left 2) hdvd

end

theorem windowInside_renormed {fmt : NumFmt} {r : DecRun} (src : Nat → Bool) {ks : List RCase} {low' high' : Nat}
    (hr : Renorms fmt true r.low r.high ks low' high') (h : WindowInside fmt r) :
    WindowInside fmt (r.renormed src fmt ks) :=
  hr.dec_induction src (motive := fun r ks => WindowInside fmt r → WindowInside fmt (r.renormed src fmt ks))
    (fun _ _ _ _ h => h) (fun _ _ _ hc ih h => ih (windowInside_rescaled h hc src)) h

/-! ### A confirmed symbol (R277) -/

/-- The registers of `Accept(x)` after the narrowing (R277). -/
def narrowedTo (c : Conf) (v : CumVec) (x : Nat) (k : Counts) (r : DecRun) : DecRun :=
  { r with
    low := boundary c.numFmt c.nsym.toNat v r.low r.high x
    high := boundary c.numFmt c.nsym.toNat v r.low r.high (x + 1)
    out := r.out ++ [BitVec.ofNat 8 x]
    counts := k }

/-- What the narrowing of R277 needs: in `FP64` a wide interval; in `FIXED` any interval in `[0, 1]`, since a confirmed symbol
shows that the sub-interval is not empty. -/
abbrev Narrowable (fmt : NumFmt) (low high : Nat) : Prop :=
  low < high ∧ high ≤ oneOf fmt ∧ (fmt = .fp64 → WideInterval fmt low high)

theorem Narrowable.modeValue {fmt : NumFmt} {low high : Nat} (h : Narrowable fmt low high) :
    ModeValue fmt low ∧ ModeValue fmt high := by
  obtain ⟨-, -, hwide⟩ := h
  cases fmt with
  | fixed => exact ⟨trivial, trivial⟩
  | fp64 => exact ⟨(hwide rfl).lowValue, (hwide rfl).highValue⟩

section

variable {fmt : NumFmt} {n : Nat} {v : CumVec} {low high x : Nat} (hv : VecLegal n v) (hn : Narrowable fmt low high)
  (hx : x < n)

include hv hn hx

theorem boundary_succ_le_one : boundary fmt n v low high (x + 1) ≤ oneOf fmt := by
  obtain ⟨hlt, hone, hwide⟩ := hn
  cases fmt with
  | fixed => exact (boundary_fixed_le_high hv hlt.le (by omega)).trans hone
  | fp64 => exact (boundary_le_high hv (hwide rfl) (by omega)).trans hone

/-- A non-empty sub-interval is a narrowed interval: its symbol has a positive mass. -/
theorem narrowedInterval_of_boundary_lt (hlt : boundary fmt n v low high x < boundary fmt n v low high (x + 1)) :
    NarrowedInterval fmt (boundary fmt n v low high x) (boundary fmt n v low high (x + 1)) := by
  have hone := boundary_succ_le_one hv hn hx
  obtain ⟨-, -, hwide⟩ := hn
  cases fmt with
  | fixed =>
    refine ⟨hlt, hone, ?_⟩
    show 2 ^ 32 < _
    omega
  | fp64 =>
    refine narrowedInterval_boundary hv (hwide rfl) hx.le fun _ => Nat.one_le_iff_ne_zero.2 fun hzero => ?_
    exact hlt.ne (boundary_eq_of_mass_zero hv (hwide rfl).lowValue hx hzero)

end

section

variable {c : Conf} {v : CumVec} {r : DecRun} {x : Nat} (hv : VecLegal c.nsym.toNat v)
  (hn : Narrowable c.numFmt r.low r.high) (h : WindowInside c.numFmt r) (hx : x < c.nsym.toNat)
  (hconf : confirms c v r x = true)

include hv hn h hx hconf

theorem windowInside_narrowedTo (k : Counts) : WindowInside c.numFmt (narrowedTo c v x k r) := by
  obtain ⟨-, -, -, hk, hmod⟩ := h
  obtain ⟨hlow, hhigh⟩ := confirms_iff.1 hconf
  exact ⟨hlow, hhigh.le, boundary_succ_le_one hv hn hx, hk, hmod⟩

/-- `Accept` of a confirmed symbol is the narrowing and at most 32 rescales (R257, R277). -/
theorem acceptSymbol_eq_renormed (src : Nat → Bool) (k : Counts) :
    ∃ ks low' high', Renorms c.numFmt true (narrowedTo c v x k r).low (narrowedTo c v x k r).high ks low' high' ∧
      ks.length ≤ 32 ∧ acceptSymbol src c v x k r = (narrowedTo c v x k r).renormed src c.numFmt ks := by
  have hlt := (windowInside_narrowedTo hv hn h hx hconf k).low_lt_high
  obtain ⟨ks, low', high', hr, hlen⟩ := (narrowedInterval_of_boundary_lt hv hn hx hlt).exists_renorms true
  refine ⟨ks, low', high', hr, hlen, ?_⟩
  exact Renorms.renormDec_eq (r := narrowedTo c v x k r) hr (hlen.trans (by decide))

theorem windowInside_acceptSymbol (src : Nat → Bool) (k : Counts) :
    WindowInside c.numFmt (acceptSymbol src c v x k r) ∧
      Renormalized c.numFmt true (acceptSymbol src c v x k r).low (acceptSymbol src c v x k r).high ∧
      ModeValue c.numFmt (acceptSymbol src c v x k r).low ∧ ModeValue c.numFmt (acceptSymbol src c v x k r).high := by
  have hwin := windowInside_narrowedTo hv hn h hx hconf k
  obtain ⟨ks, low', high', hr, -, heq⟩ := acceptSymbol_eq_renormed hv hn h hx hconf src k
  obtain ⟨hlow, hhigh⟩ := hr.renormed_dec_interval (src := src)
  have hone := hwin.high_le
  rw [heq, hlow, hhigh]
  refine ⟨windowInside_renormed src hr hwin, hr.renormalized hwin.low_lt_high hone,
    hr.modeValue hwin.low_lt_high hone ?_ ?_⟩
  · exact modeValue_boundary hn.modeValue.1 hn.modeValue.2 _ v x
  · exact modeValue_boundary hn.modeValue.1 hn.modeValue.2 _ v (x + 1)

end

/-- Settles O27: each step of the decoder keeps the window inside, and a confirmed symbol has a narrowed interval. -/
theorem decoderWindow : Obligations.DecoderWindow := by
  refine ⟨windowInside_decStart, fun src fmt r h hk => windowInside_widen src h hk, ?_⟩
  rintro src c v r _ x k hv h hlt hconf hfp64 rfl
  obtain ⟨hx, hconf⟩ := confirms_of_confirm hconf
  have hn : Narrowable c.numFmt r.low r.high := by
    have hone := h.high_le
    refine ⟨hlt, hone, fun hfmt => ?_⟩
    obtain ⟨hwide, hlow, hhigh⟩ := hfp64 hfmt
    rw [hfmt] at hone ⊢
    exact ⟨hlt, hone, hwide, hlow, hhigh⟩
  obtain ⟨hwin, hrenorm, hlow, hhigh⟩ := windowInside_acceptSymbol hv hn h hx hconf src k
  exact ⟨hwin, hwin.enc_lt, hrenorm, hlow, hhigh⟩

end Sys2Proof.Machine
end

section
/-! `AENC` (R256, R260 to R262): the command follows the encoder's loops as relations as long as their bits fit, and reports
the first symbol whose bits do not. -/

namespace Sys2Proof.Machine

/-! ### Masses (R200) -/

theorem mass_of_range {f : Nat → Nat} {n d x : Nat} (hx : x < n) :
    CumVec.mass { cum := (List.range n).map f, den := d } x = f x - if x = 0 then 0 else f (x - 1) := by
  rw [CumVec.mass, below_succ_of_range hx]
  cases x with
  | zero => rfl
  | succ x => rw [below_succ_of_range (by omega)]; rfl

theorem mass_uniformVec {n x : Nat} (hx : x < n) : (uniformVec n).mass x = 1 := by
  rw [uniformVec, mass_of_range hx]
  split_ifs <;> omega

theorem mass_smoothedVec {n alpha total x : Nat} (count : Nat → Nat) (hx : x < n) :
    (smoothedVec n alpha count total).mass x = count x * 256 + alpha := by
  rw [smoothedVec, mass_of_range hx, smoothedSum]
  cases x with
  | zero => simp [smoothedSum]
  | succ x => simp

section

variable {m : Model} {c : Conf} (hlegal : ConfigLegal m c) {seen : List Byte} {k : Counts} (hrec : Records m seen k) {x : Nat}
  (hx : x < c.nsym.toNat)

include hlegal hrec hx

/-- Every symbol of the alphabet has a positive mass, but for symbols of the fixed model (R260). -/
theorem mass_pos (hfix : m = .fix → FixedMassPositive c x) : 1 ≤ (modelVec m c k).mass x := by
  obtain ⟨-, hmax, -, halpha⟩ := hlegal
  rw [modelVec_of_records hmax hrec]
  have alpha_pos (hm : m ≠ .fix) : 0 < c.alpha.toNat := Nat.pos_of_ne_zero fun h0 => halpha hm (alphaOf_eq_zero_iff.1 h0)
  cases m with
  | fix =>
    rw [vectorAfter, fixedVec, mass_of_range hx]
    exact Nat.sub_pos_of_lt (hfix rfl)
  | dir =>
    rw [vectorAfter, mass_smoothedVec _ hx]
    have := alpha_pos nofun
    omega
  | big =>
    unfold vectorAfter
    cases seen.getLast? with
    | none => exact (mass_uniformVec hx).ge
    | some a =>
      rw [mass_smoothedVec _ hx]
      have := alpha_pos nofun
      omega

end

theorem mass_zero_of_fixed {c : Conf} (k : Counts) {x : Nat} (hx : x < c.nsym.toNat) (h : ¬ FixedMassPositive c x) :
    (modelVec .fix c k).mass x = 0 := by
  rw [modelVec_fix, fixedVec, mass_of_range hx]
  exact Nat.sub_eq_zero_of_le (Nat.not_lt.1 h)

theorem ConfigLegal.nsym_le {m : Model} {c : Conf} (h : ConfigLegal m c) : c.nsym.toNat ≤ 128 := by
  obtain ⟨-, hmax, -⟩ := h
  exact hmax

theorem vecLegal_modelVec {m : Model} {c : Conf} {seen : List Byte} {k : Counts} (hlegal : ConfigLegal m c)
    (hrec : Records m seen k) (hlen : seen.length ≤ 65536) : VecLegal c.nsym.toNat (modelVec m c k) := by
  rw [modelVec_of_records hlegal.nsym_le hrec]
  exact vecLegal_vectorAfter hlegal hlen

/-! ### One symbol (R260) -/

/-- The registers narrowed to symbol `x`. -/
def EncRun.narrowedTo (c : Conf) (v : CumVec) (x : Nat) (r : EncRun) : EncRun :=
  { r with
    low := boundary c.numFmt c.nsym.toNat v r.low r.high x
    high := boundary c.numFmt c.nsym.toNat v r.low r.high (x + 1) }

/-- The registers narrowed to the sentinel (R261). -/
def EncRun.atSentinel (c : Conf) (v : CumVec) (r : EncRun) : EncRun :=
  { r with low := boundary c.numFmt c.nsym.toNat v r.low r.high c.nsym.toNat }

theorem narrowedInterval_atSentinel {c : Conf} {v : CumVec} {r : EncRun} (hv : VecLegal c.nsym.toNat v)
    (hw : WideInterval c.numFmt r.low r.high) :
    NarrowedInterval c.numFmt (r.atSentinel c v).low (r.atSentinel c v).high := by
  have hnarrow := narrowedInterval_boundary hv hw le_rfl fun hlt => absurd hlt (lt_irrefl _)
  rwa [boundary_last] at hnarrow

theorem narrowedInterval_narrowedTo {c : Conf} {v : CumVec} {r : EncRun} {x : Nat} (hv : VecLegal c.nsym.toNat v)
    (hw : WideInterval c.numFmt r.low r.high) (hx : x < c.nsym.toNat) (hmass : 1 ≤ v.mass x) :
    NarrowedInterval c.numFmt (r.narrowedTo c v x).low (r.narrowedTo c v x).high :=
  narrowedInterval_boundary hv hw hx.le fun _ => hmass

/-- The report of a stream that does not fit (R381). -/
abbrev overflowReport (pos sym : Nat) : Failure := { code := .outOvf, pos := pos, sym := sym, wrote := Config.obufBytes }

section

variable (m : Model) (c : Conf) (i : Nat) (b : Byte) (bs : List Byte) (k : Counts) (r : EncRun)

theorem encodeSymbols_of_range (h : c.nsym.toNat ≤ b.toNat) :
    encodeSymbols m c i (b :: bs) k r =
      .error { code := .range, pos := i, sym := b.toNat, wrote := packedLen r.out.length } := if_pos h

theorem encodeSymbols_of_mass_zero (h : b.toNat < c.nsym.toNat) (hmass : (modelVec m c k).mass b.toNat = 0) :
    encodeSymbols m c i (b :: bs) k r =
      .error { code := .zeroProb, pos := i, sym := b.toNat, wrote := packedLen r.out.length } :=
  (if_neg (Nat.not_le.2 h)).trans (if_pos hmass)

variable {m c b k}

theorem encodeSymbols_of_mass_pos {k' : Counts} (h : b.toNat < c.nsym.toNat) (hmass : 1 ≤ (modelVec m c k).mass b.toNat)
    (hk : modelUpdate m c k b.toNat = some k') :
    encodeSymbols m c i (b :: bs) k r =
      (renormEnc (oneOf c.numFmt) true i b.toNat Config.renormFuel (r.narrowedTo c (modelVec m c k) b.toNat)).bind
        (encodeSymbols m c (i + 1) bs k') := by
  rw [encodeSymbols]
  simp only [hk]
  rw [if_neg (show ¬ nsymOf c ≤ _ from Nat.not_le.2 h), if_neg (Nat.one_le_iff_ne_zero.1 hmass)]
  show _ = (renormEnc _ _ _ _ _ _).bind _
  rw [EncRun.narrowedTo, ← nsymOf]
  cases renormEnc (oneOf c.numFmt) true i b.toNat Config.renormFuel _ <;> rfl

end

/-- A symbol of positive mass can be updated and narrowed to; at most 32 rescales later the interval can be narrowed again. -/
theorem exists_symbol_renorms {m : Model} {c : Conf} (hlegal : ConfigLegal m c) {seen : List Byte} {k : Counts}
    (hrec : Records m seen k) (hroom : seen.length < 65536) {r : EncRun} (hw : WideInterval c.numFmt r.low r.high) {b : Byte}
    (hx : b.toNat < c.nsym.toNat) (hmass : 1 ≤ (modelVec m c k).mass b.toNat) :
    ∃ k' ks low' high', modelUpdate m c k b.toNat = some k' ∧ Records m (seen ++ [b]) k' ∧
      Renorms c.numFmt true (r.narrowedTo c (modelVec m c k) b.toNat).low (r.narrowedTo c (modelVec m c k) b.toNat).high
        ks low' high' ∧ ks.length ≤ 32 ∧ WideInterval c.numFmt low' high' := by
  have hv := vecLegal_modelVec hlegal hrec hroom.le
  have hnarrow := narrowedInterval_narrowedTo hv hw hx hmass
  have hvalues := modeValue_boundary hw.lowValue hw.highValue c.nsym.toNat (modelVec m c k)
  obtain ⟨k', hk, hrec'⟩ := records_modelUpdate hlegal.nsym_le (lt_of_lt_of_le hx hlegal.nsym_le) hroom hrec
  obtain ⟨ks, low', high', hr, hks⟩ := hnarrow.exists_renorms true
  obtain ⟨hlow, hhigh⟩ := hr.modeValue hnarrow.lt hnarrow.le_one (hvalues b.toNat) (hvalues (b.toNat + 1))
  exact ⟨k', ks, low', high', hk, hrec', hr, hks, (hr.renormalized hnarrow.lt hnarrow.le_one).wideInterval hlow hhigh⟩

/-- A symbol whose bits fit is coded, and one whose bits do not fit is reported. -/
theorem encodeSymbols_cons {m : Model} {c : Conf} {i : Nat} {b : Byte} (bs : List Byte) {k k' : Counts} {r : EncRun}
    {ks : List RCase} {low' high' : Nat} (h : b.toNat < c.nsym.toNat) (hmass : 1 ≤ (modelVec m c k).mass b.toNat)
    (hk : modelUpdate m c k b.toNat = some k')
    (hr : Renorms c.numFmt true (r.narrowedTo c (modelVec m c k) b.toNat).low
      (r.narrowedTo c (modelVec m c k) b.toNat).high ks low' high') (hlen : ks.length ≤ 32) (hfit : BitsFit r.out) :
    encodeSymbols m c i (b :: bs) k r =
      if BitsFit ((r.narrowedTo c (modelVec m c k) b.toNat).renormed c.numFmt ks).out then
        encodeSymbols m c (i + 1) bs k' ((r.narrowedTo c (modelVec m c k) b.toNat).renormed c.numFmt ks)
      else .error (overflowReport i b.toNat) := by
  rw [encodeSymbols_of_mass_pos i bs r h hmass hk, hr.renormEnc_eq i b.toNat (hlen.trans (by decide)) hfit]
  split_ifs <;> rfl

/-! ### The symbols before index `i` -/

/-- The answer of the symbol loop on the whole input. -/
def encodeAnswer (m : Model) (s : State) : Except Failure (Counts × EncRun) :=
  encodeSymbols m s.conf 0 (inBytes s) (modelInit m s.work.counts) (encStart s.conf.numFmt)

/-- The input before index `i`. -/
def inBytesBefore (s : State) (i : Nat) : List Byte := (List.range i).map (inByte s)

@[simp] theorem length_inBytesBefore (s : State) (i : Nat) : (inBytesBefore s i).length = i := by simp [inBytesBefore]

theorem inBytesBefore_succ (s : State) (i : Nat) : inBytesBefore s (i + 1) = inBytesBefore s i ++ [inByte s i] := by
  simp [inBytesBefore, List.range_succ]

theorem drop_inBytes {s : State} {i : Nat} (hi : i < inLen s) :
    (inBytes s).drop i = inByte s i :: (inBytes s).drop (i + 1) := by
  rw [List.drop_eq_getElem_cons (by rwa [length_inBytes])]
  simp [inBytes]

/-- What holds of the registers after `i` symbols: the loop reaches them, they record the symbols, the interval can be
narrowed, and each symbol has added at most 32 bits to those written and deferred. -/
structure Encoded (m : Model) (s : State) (i : Nat) (k : Counts) (r : EncRun) : Prop where
  reaches : EncodeReaches m s i k r
  records : Records m (inBytesBefore s i) k
  wide : WideInterval s.conf.numFmt r.low r.high
  length_le : r.out.length + r.pend ≤ 32 * i

theorem modeValue_zero (fmt : NumFmt) : ModeValue fmt 0 := by
  cases fmt with
  | fixed => trivial
  | fp64 => exact dvd_zero _

theorem modeValue_oneOf (fmt : NumFmt) : ModeValue fmt (oneOf fmt) := by
  cases fmt with
  | fixed => trivial
  | fp64 => exact modeValue_two_pow _

theorem wideInterval_start (fmt : NumFmt) : WideInterval fmt 0 (oneOf fmt) :=
  ⟨oneOf_pos fmt, le_rfl, by have := oneOf_pos fmt; omega, modeValue_zero fmt, modeValue_oneOf fmt⟩

theorem encoded_start (m : Model) (s : State) :
    Encoded m s 0 (modelInit m s.work.counts) (encStart s.conf.numFmt) :=
  ⟨.start, records_modelInit m _, wideInterval_start _, le_rfl⟩

section

variable {m : Model} {s : State} (hlegal : ConfigLegal m s.conf) (hlen : inLen s ≤ 65536)

include hlegal hlen

/-- One more legal symbol: the registers after it, and the cases of its renormalization. -/
theorem Encoded.symbol {i : Nat} {k : Counts} {r : EncRun} (h : Encoded m s i k r) (hi : i < inLen s)
    (hx : symAt s i < s.conf.nsym.toNat) (hfix : m = .fix → FixedMassPositive s.conf (symAt s i)) :
    ∃ k' ks low' high', modelUpdate m s.conf k (symAt s i) = some k' ∧ ks.length ≤ 32 ∧
      Renorms s.conf.numFmt true (r.narrowedTo s.conf (modelVec m s.conf k) (symAt s i)).low
        (r.narrowedTo s.conf (modelVec m s.conf k) (symAt s i)).high ks low' high' ∧
      Encoded m s (i + 1) k' ((r.narrowedTo s.conf (modelVec m s.conf k) (symAt s i)).renormed s.conf.numFmt ks) := by
  have hmass := mass_pos hlegal h.records hx hfix
  obtain ⟨k', ks, low', high', hk, hrec, hr, hks, hwide⟩ :=
    exists_symbol_renorms hlegal h.records (by rw [length_inBytesBefore]; omega) h.wide hx hmass
  rw [← symAt] at hk hr
  obtain ⟨hlow, hhigh⟩ := hr.renormed_interval
  refine ⟨k', ks, low', high', hk, hks, hr, .symbol i k k' r _ h.reaches hi hx hmass hk hr.renormTo, ?_, ?_, ?_⟩
  · rwa [inBytesBefore_succ]
  · rwa [hlow, hhigh]
  · have hlength : r.out.length + r.pend ≤ 32 * i := h.length_le
    have hadd := EncRun.length_renormed s.conf.numFmt ks (r.narrowedTo s.conf (modelVec m s.conf k) (symAt s i))
    rw [hadd]
    show r.out.length + r.pend + ks.length ≤ 32 * (i + 1)
    omega

/-- After `i` legal symbols the loop stands at the registers that the relation reaches, or it has reported the symbol whose
bits did not fit. -/
theorem exists_encoded {i : Nat} (hi : i ≤ inLen s) (hsyms : ∀ j < i, symAt s j < s.conf.nsym.toNat)
    (hfix : m = .fix → ∀ j < i, FixedMassPositive s.conf (symAt s j)) :
    ∃ k r, Encoded m s i k r ∧
      ((BitsFit r.out ∧ encodeAnswer m s = encodeSymbols m s.conf i ((inBytes s).drop i) k r) ∨
       (¬ BitsFit r.out ∧ ∃ pos < i, OverflowsAt m s pos ∧
          encodeAnswer m s = .error (overflowReport pos (symAt s pos)))) := by
  induction i with
  | zero => exact ⟨_, _, encoded_start m s, .inl ⟨Nat.zero_le _, rfl⟩⟩
  | succ i ih =>
    obtain ⟨k, r, h, hanswer⟩ := ih (by omega) (fun j hj => hsyms j (by omega)) fun hm j hj => hfix hm j (by omega)
    have hx := hsyms i (by omega)
    have hfixed := fun hm => hfix hm i (by omega)
    obtain ⟨k', ks, low', high', hk, hks, hr, h'⟩ := h.symbol hlegal hlen hi hx hfixed
    refine ⟨k', _, h', ?_⟩
    obtain ⟨hfit, hanswer⟩ | ⟨hfit, pos, hpos, hover, hanswer⟩ := hanswer
    · have hstep := encodeSymbols_cons (i := i) ((inBytes s).drop (i + 1)) hx (mass_pos hlegal h.records hx hfixed) hk hr hks
        hfit
      rw [hanswer, drop_inBytes hi, hstep]
      by_cases hfit' : BitsFit ((r.narrowedTo s.conf (modelVec m s.conf k) (symAt s i)).renormed s.conf.numFmt ks).out
      · exact .inl ⟨hfit', if_pos hfit'⟩
      · exact .inr ⟨hfit', i, Nat.lt_succ_self i, ⟨k, r, k', _, h.reaches, hfit, h'.reaches, Nat.not_le.1 hfit'⟩,
          if_neg hfit'⟩
    · refine .inr ⟨fun hend => hfit ?_, pos, by omega, hover, hanswer⟩
      exact ((r.narrowedTo s.conf (modelVec m s.conf k) (symAt s i)).prefix_renormed s.conf.numFmt ks).length_le.trans hend

end

/-! ### The body (R260, R261) -/

theorem bodyOf_aenc (m : Model) (s : State) : bodyOf (aencOf m) s = encodeBody m s := by
  cases m <;> rfl

section

variable {m : Model} {s : State} (hcheck : checkCoder m s = .ok ())

include hcheck

theorem encodeBody_eq_bind : encodeBody m (startCommand s) = (encodeAnswer m s).bind fun p =>
    (narrowSentinel m s.conf (inLen s) p.1 p.2).bind fun r' =>
      (outBit (inLen s) s.conf.nsym.toNat r'.out true).map fun out => commitEncode p.1 r' out (startCommand s) := by
  have hbytes : inBytes (startCommand s) = inBytes s := rfl
  have hlen : inLen (startCommand s) = inLen s := rfl
  have hcounts : (startCommand s).work.counts = s.work.counts := rfl
  unfold encodeBody
  rw [show checkCoder m (startCommand s) = .ok () from hcheck, hbytes, hlen, hcounts, startCommand_conf, ← encodeAnswer]
  dsimp only
  cases encodeAnswer m s with
  | error f => rfl
  | ok p =>
    dsimp only [Except.bind]
    cases narrowSentinel m s.conf (inLen s) p.1 p.2 with
    | error f => rfl
    | ok r' =>
      dsimp only [nsymOf]
      cases outBit (inLen s) s.conf.nsym.toNat r'.out true <;> rfl

end

/-- The final bit fits unless `OUT_BUF` is full (R261, R381). -/
theorem outBit_of_fits (pos sym : Nat) {out : List Bool} (b : Bool) (hfit : BitsFit out) :
    outBit pos sym out b = if out.length < 524288 then .ok (out ++ [b]) else .error (overflowReport pos sym) := by
  by_cases hroom : out.length < 524288
  · rw [if_pos hroom, outBit_eq pos sym out b hroom]
  · have hfull : out.length = 8 * Config.obufBytes := le_antisymm hfit (Nat.not_lt.1 hroom)
    rw [if_neg hroom, outBit, if_pos hfull, hfull]
    rfl

section

variable {m : Model} {s : State} (hlegal : ConfigLegal m s.conf) (hlen : inLen s ≤ 65536) {k : Counts} {r : EncRun}
  (h : Encoded m s (inLen s) k r)

include hlegal hlen h

/-- The end of `AENC` after its symbols: the registers before the final bit, and what the body answers. -/
theorem Encoded.terminate : ∃ r', TerminatesTo m s.conf k r r' ∧ r'.out.length ≤ 32 * (inLen s + 1) ∧
    r.out.length ≤ r'.out.length ∧
    (BitsFit r.out → encodeAnswer m s = .ok (k, r) → encodeBody m (startCommand s) =
      if r'.out.length < 524288 then .ok (commitEncode k r' (r'.out ++ [true]) (startCommand s))
      else .error (overflowReport (inLen s) s.conf.nsym.toNat)) := by
  have hv := vecLegal_modelVec hlegal h.records (by rw [length_inBytesBefore]; exact hlen)
  obtain ⟨ks, low', high', hr, hks⟩ := (narrowedInterval_atSentinel hv h.wide).exists_renorms false
  have hadd : _ = r.out.length + r.pend + ks.length :=
    EncRun.length_renormed s.conf.numFmt ks (r.atSentinel s.conf (modelVec m s.conf k))
  have hmono := ((r.atSentinel s.conf (modelVec m s.conf k)).prefix_renormed s.conf.numFmt ks).length_le
  have hsentinel (hfit : BitsFit r.out) : narrowSentinel m s.conf (inLen s) k r = _ :=
    hr.renormEnc_eq (inLen s) s.conf.nsym.toNat (hks.trans (by decide)) hfit
  have hterm := hr.renormTo
  generalize (r.atSentinel s.conf (modelVec m s.conf k)).renormed s.conf.numFmt ks = r' at hadd hmono hsentinel hterm
  have hlength := h.length_le
  refine ⟨r', hterm, by omega, hmono, fun hfit hanswer => ?_⟩
  rw [encodeBody_eq_bind (checkCoder_ok hlen hlegal), hanswer]
  dsimp only [Except.bind]
  rw [hsentinel hfit]
  by_cases hfit' : BitsFit r'.out
  · rw [if_pos hfit']
    dsimp only
    rw [outBit_of_fits _ _ _ hfit']
    split_ifs <;> rfl
  · rw [if_neg hfit', if_neg fun hroom => hfit' hroom.le]

end

/-! ### The command -/

/-- The command raised an error after it had written `w` bytes, and changed nothing but the report and those bytes (R404). -/
abbrev RaisedAfterWriting (w : Nat) (code : BitVec 8) (pos sym : Nat) (s t : State) : Prop :=
  Raised code pos sym s t ∧ SetupKept s t ∧ HuffKept s t ∧ ProbeKept s t ∧ DiagKept s t ∧ OutBufKeptFrom w s t

theorem raiseErr_startCommand_raisedAfterWriting {f : Failure} (htree : f.KeepsTree) (s : State) :
    RaisedAfterWriting f.wrote f.code.toByte f.pos f.sym s (raiseErr f (startCommand s)) := by
  have hstatus : (raiseErr f (startCommand s)).status = s.status.raise f.code := by
    rw [raiseErr_status, htree]
    rfl
  refine ⟨?_, raiseErr_setupKept f (startCommand s), raiseErr_huffKept htree (startCommand s),
    ⟨raiseErr_probeCum f _, raiseErr_probeDen f _⟩, raiseErr_diag f _, raiseErr_outBufKeptFrom le_rfl (startCommand s)⟩
  rw [Raised, hstatus, raiseErr_res]
  exact ⟨rfl, rfl, rfl, rfl, rfl, rfl, rfl, rfl, rfl⟩

/-- A failing body of the coder is raised. -/
theorem exec_coder_of_body_error {m : Model} {i : Instr} (hi : i = aencOf m ∨ i = adecOf m ∨ i = mprobeOf m) {s : State}
    {f : Failure} (htree : f.KeepsTree) (hbody : bodyOf i (startCommand s) = .error f) :
    exec i s = .next (raiseErr f (startCommand s)) ∧
      RaisedAfterWriting f.wrote f.code.toByte f.pos f.sym s (raiseErr f (startCommand s)) := by
  have hentry := entryOf_coder hi s
  refine ⟨?_, raiseErr_startCommand_raisedAfterWriting htree s⟩
  rw [← hentry] at hbody ⊢
  exact exec_of_body_error hbody

theorem exec_aenc_of_error {m : Model} {s : State} {f : Failure} (htree : f.KeepsTree)
    (hbody : encodeBody m (startCommand s) = .error f) :
    ∃ t, exec (aencOf m) s = .next t ∧ RaisedAfterWriting f.wrote f.code.toByte f.pos f.sym s t :=
  ⟨_, exec_coder_of_body_error (.inl rfl) htree ((bodyOf_aenc m _).trans hbody)⟩

theorem exec_aenc_of_ok {m : Model} {s b : State} (hbody : encodeBody m (startCommand s) = .ok b) :
    exec (aencOf m) s = .next (completeDone b) :=
  exec_of_body_ok (by rwa [entryOf_coder (.inl rfl) s, bodyOf_aenc])

/-- `DIAG_LOW` and `DIAG_HIGH` hold 64 bits in two words (R50). -/
theorem high_append_low (x : BitVec 64) : x.extractLsb' 32 32 ++ x.setWidth 32 = x := by
  rw [BitVec.setWidth_eq_extractLsb' (by omega),
    BitVec.extractLsb'_append_extractLsb'_eq_extractLsb' (show 32 = 0 + 32 from rfl)]
  exact BitVec.extractLsb'_eq_self

/-- `AENC` on legal operands, by whether its bits and the final `1` fit. -/
theorem encodeBody_of_legal {m : Model} {s : State} (hlegal : ConfigLegal m s.conf) (hinput : InputLegal m s) :
    ∃ k r r', EncodeReaches m s (inLen s) k r ∧ TerminatesTo m s.conf k r r' ∧ r'.out.length ≤ 32 * (inLen s + 1) ∧
      (r'.out.length < 524288 →
        encodeBody m (startCommand s) = .ok (commitEncode k r' (r'.out ++ [true]) (startCommand s))) ∧
      (524288 ≤ r'.out.length → ∃ pos sym, encodeBody m (startCommand s) = .error (overflowReport pos sym) ∧
        ((pos < inLen s ∧ OverflowsAt m s pos ∧ sym = symAt s pos) ∨
          (r.out.length ≤ 524288 ∧ pos = inLen s ∧ sym = s.conf.nsym.toNat))) := by
  obtain ⟨hlen, hsyms, hfix⟩ := hinput
  obtain ⟨k, r, h, hanswer⟩ := exists_encoded hlegal hlen le_rfl hsyms hfix
  obtain ⟨r', hterm, hlength, hmono, hbody⟩ := h.terminate hlegal hlen
  rw [List.drop_of_length_le (length_inBytes s).le] at hanswer
  refine ⟨k, r, r', h.reaches, hterm, hlength, fun hroom => ?_, fun hfull => ?_⟩
  · obtain ⟨hfit, hanswer⟩ | ⟨hfit, -⟩ := hanswer
    · exact (hbody hfit hanswer).trans (if_pos hroom)
    · exact absurd (hmono.trans hroom.le) hfit
  · obtain ⟨hfit, hanswer⟩ | ⟨-, pos, hpos, hover, hanswer⟩ := hanswer
    · exact ⟨_, _, (hbody hfit hanswer).trans (if_neg (Nat.not_lt.2 hfull)), .inr ⟨hfit, rfl, rfl⟩⟩
    · refine ⟨pos, symAt s pos, ?_, .inl ⟨hpos, hover, rfl⟩⟩
      rw [encodeBody_eq_bind (checkCoder_ok hlen hlegal), hanswer]
      rfl

/-- `OUT_BUF` after the completion of `AENC` (R262, R381). -/
theorem commitEncode_outBuf (k : Counts) (r : EncRun) (out : List Bool) (s : State) :
    (completeDone (commitEncode k r out (startCommand s))).outBuf = s.outBuf.overwrite (packBits out) := rfl

/-- Settles O28: the loops of the command follow the relations until a bit does not fit. -/
theorem aencCompletes : Obligations.AencCompletes := by
  intro m s hlegal hinput
  obtain ⟨k, r, r', hreach, hterm, hlength, hok, herror⟩ := encodeBody_of_legal hlegal hinput
  by_cases hroom : r'.out.length < 524288
  · refine ⟨k, r, r', _, hreach, hterm, fun _ => hroom, exec_aenc_of_ok (hok hroom),
      ⟨rfl, rfl, rfl, rfl, rfl, rfl, rfl, rfl, rfl, rfl⟩, ⟨rfl, rfl⟩, ⟨rfl, rfl⟩, rfl, fun _ => ?_,
      fun hfull => absurd hroom (Nat.not_lt.2 hfull)⟩
    have hout : (r'.out ++ [true]).length = r'.out.length + 1 := by simp
    have hpacked : packedLen (r'.out ++ [true]).length = (r'.out.length + 8) / 8 := by rw [hout, packedLen]
    refine ⟨⟨rfl, rfl, rfl, rfl, rfl, rfl⟩, congrArg (BitVec.ofNat 32) hout, congrArg (BitVec.ofNat 32) hpacked,
      fun i hi => ?_, fun i hi => ?_, high_append_low _, high_append_low _, rfl, rfl, fun i hi => ?_⟩
    · rw [commitEncode_outBuf]
      exact read_packBits _ _ _ (hpacked ▸ hi)
    · rw [commitEncode_outBuf]
      exact Memory.read_overwrite_of_le (by rwa [packBits_length, hpacked])
    · exact (tget_replicate _ i).trans (if_pos hi)
  · obtain ⟨pos, sym, hbody, hwhere⟩ := herror (Nat.not_lt.1 hroom)
    obtain ⟨t, hexec, hraised, hsetup, hhuff, hprobe, hdiag, hkept⟩ := exec_aenc_of_error rfl hbody
    obtain ⟨-, -, -, -, -, -, -, -, hrdBits⟩ := id hraised
    refine ⟨k, r, r', t, hreach, hterm, fun hsmall => by omega, hexec, hsetup, hhuff, hprobe, hrdBits,
      fun hlt => absurd hlt hroom, fun _ => ⟨hdiag, hkept, ?_⟩⟩
    obtain ⟨hpos, hover, rfl⟩ | ⟨hfit, rfl, rfl⟩ := hwhere
    · exact .inl ⟨pos, hpos, hover, hraised⟩
    · exact .inr ⟨hfit, hraised⟩

/-- Settles O29: the loop stands at the symbol, where the checks of R260 report it, or it has reported an earlier one. -/
theorem aencSymbolErrors : Obligations.AencSymbolErrors := by
  intro m s i hlegal hlen hi hsyms hfix
  obtain ⟨k, r, h, hanswer⟩ := exists_encoded hlegal hlen hi.le hsyms hfix
  have hlength := h.length_le
  have raises (hfit : r.out.length ≤ 524288) {f : Failure} (htree : f.KeepsTree)
      (hstop : encodeSymbols m s.conf i ((inBytes s).drop i) k r = .error f) :
      ∃ t, exec (aencOf m) s = .next t ∧ RaisedAfterWriting f.wrote f.code.toByte f.pos f.sym s t := by
    obtain ⟨-, hanswer⟩ := hanswer.resolve_right fun hover => hover.1 hfit
    refine exec_aenc_of_error htree ?_
    rw [encodeBody_eq_bind (checkCoder_ok hlen hlegal), hanswer, hstop]
    rfl
  rw [drop_inBytes hi] at raises
  refine ⟨k, r, h.reaches, fun hsmall => by omega, fun hfit hout => ?_, fun hfit hin hm hmass => ?_, fun hfull => ?_⟩
  · exact raises hfit rfl (encodeSymbols_of_range m s.conf i _ _ k r hout)
  · subst hm
    exact raises hfit rfl (encodeSymbols_of_mass_zero _ s.conf i _ _ k r hin (mass_zero_of_fixed k hin hmass))
  · obtain ⟨hfit, -⟩ | ⟨-, pos, hpos, hover, hanswer⟩ := hanswer
    · exact absurd hfit (Nat.not_le.2 hfull)
    · refine ⟨pos, hpos, hover, exec_aenc_of_error (f := overflowReport pos (symAt s pos)) rfl ?_⟩
      rw [encodeBody_eq_bind (checkCoder_ok hlen hlegal), hanswer]
      rfl

end Sys2Proof.Machine
end

section
/-! The loop of `ADEC` (R270, R276, R277) turn by turn, and its three endings (R282). -/

namespace Sys2Proof.Machine

/-! ### One turn of the loop -/

section

variable (src : Nat → Bool) (m : Model) (c : Conf) (room : Nat) (r : DecRun)

theorem findSymbol_of_sentinel (v : CumVec) (n : Nat) (h : sentinelSeen c v r = true) :
    findSymbol src c v n r = .ok (none, r) := by
  cases n <;> rw [findSymbol, if_pos h]

theorem findSymbol_of_confirm (v : CumVec) (n : Nat) {x : Nat} (h : sentinelSeen c v r = false)
    (hx : confirm c v r = some x) : findSymbol src c v n r = .ok (some x, r) := by
  cases n <;> simp [findSymbol, h, hx]

theorem findSymbol_of_lookahead (v : CumVec) (n : Nat) (h : sentinelSeen c v r = false) (hx : confirm c v r = none) :
    findSymbol src c v (n + 1) r = findSymbol src c v n (widen src r) := by
  simp [findSymbol, h, hx]

theorem findSymbol_of_stuck (v : CumVec) (h : sentinelSeen c v r = false) (hx : confirm c v r = none) :
    findSymbol src c v 0 r =
      .error { code := .stream, pos := r.rpos, sym := r.out.length, wrote := r.out.length } := by
  simp [findSymbol, h, hx]

theorem decodeSymbols_of_sentinel (h : sentinelSeen c (modelVec m c r.counts) r = true) :
    decodeSymbols src m c room r = .ok r := by
  cases room <;> rw [decodeSymbols, findSymbol_of_sentinel src c r _ _ h]

variable {src m c r} (h : sentinelSeen c (modelVec m c r.counts) r = false)

include h

theorem decodeSymbols_of_stuck (hx : confirm c (modelVec m c r.counts) r = none) (hk : r.k = 192) :
    decodeSymbols src m c room r =
      .error { code := .stream, pos := r.rpos, sym := r.out.length, wrote := r.out.length } := by
  have hstuck := findSymbol_of_stuck src c r _ h hx
  rw [show 0 = Config.kmax - r.k by rw [hk]; rfl] at hstuck
  cases room <;> rw [decodeSymbols, hstuck]

theorem decodeSymbols_of_lookahead (hx : confirm c (modelVec m c r.counts) r = none) (hk : r.k < 192) :
    decodeSymbols src m c room r = decodeSymbols src m c room (widen src r) := by
  have hfind := findSymbol_of_lookahead src c r _ (Config.kmax - (widen src r).k) h hx
  rw [show Config.kmax - (widen src r).k + 1 = Config.kmax - r.k by show 192 - (r.k + 1) + 1 = 192 - r.k; omega] at hfind
  have hcounts : (widen src r).counts = r.counts := rfl
  cases room <;> rw [decodeSymbols, decodeSymbols, hfind, hcounts]

theorem decodeSymbols_of_full {x : Nat} (hx : confirm c (modelVec m c r.counts) r = some x) :
    decodeSymbols src m c 0 r =
      .error { code := .outOvf, pos := r.out.length, sym := x, wrote := r.out.length } := by
  rw [decodeSymbols, findSymbol_of_confirm src c r _ _ h hx]

theorem decodeSymbols_of_confirm {x : Nat} {k : Counts} (hx : confirm c (modelVec m c r.counts) r = some x)
    (hk : modelUpdate m c r.counts x = some k) :
    decodeSymbols src m c (room + 1) r =
      decodeSymbols src m c room (acceptSymbol src c (modelVec m c r.counts) x k r) := by
  rw [decodeSymbols, findSymbol_of_confirm src c r _ _ h hx]
  simp only [hk]

end

theorem renormDec_kept (src : Nat → Bool) (one fuel : Nat) (r : DecRun) :
    (renormDec src one fuel r).k = r.k ∧ (renormDec src one fuel r).counts = r.counts := by
  induction fuel generalizing r with
  | zero => exact ⟨rfl, rfl⟩
  | succ fuel ih =>
    unfold renormDec
    split
    · exact ⟨rfl, rfl⟩
    · exact ih _

theorem acceptSymbol_kept (src : Nat → Bool) (c : Conf) (v : CumVec) (x : Nat) (k : Counts) (r : DecRun) :
    (acceptSymbol src c v x k r).k = r.k ∧ (acceptSymbol src c v x k r).counts = k :=
  renormDec_kept _ _ _ _

/-! ### The three endings (R282) -/

/-- The answer of the loop, told by the registers `r` it stops at: the sentinel; no lookahead left; or no room left. -/
abbrev DecodeEnds (m : Model) (c : Conf) (r : DecRun) (answer : Except Failure DecRun) : Prop :=
  (sentinelSeen c (modelVec m c r.counts) r = true ∧ answer = .ok r) ∨
  (sentinelSeen c (modelVec m c r.counts) r = false ∧ confirm c (modelVec m c r.counts) r = none ∧ r.k = 192 ∧
    answer = .error { code := .stream, pos := r.rpos, sym := r.out.length, wrote := r.out.length }) ∨
  (∃ x < c.nsym.toNat, sentinelSeen c (modelVec m c r.counts) r = false ∧
    confirm c (modelVec m c r.counts) r = some x ∧ r.out.length = 65536 ∧
    answer = .error { code := .outOvf, pos := r.out.length, sym := x, wrote := r.out.length })

/-- `Update` succeeds on a confirmed symbol and records its byte, as long as there is room for it (R277). -/
theorem records_confirmed {m : Model} {c : Conf} {v : CumVec} {r : DecRun} {x : Nat} (hmax : c.nsym.toNat ≤ 128)
    (hx : confirm c v r = some x) (hroom : r.out.length < 65536) (hrec : Records m r.out r.counts) :
    ∃ k, modelUpdate m c r.counts x = some k ∧ Records m (r.out ++ [BitVec.ofNat 8 x]) k := by
  have hlt := (confirms_of_confirm hx).1
  have hbyte : (BitVec.ofNat 8 x).toNat = x := by
    rw [BitVec.toNat_ofNat]
    exact Nat.mod_eq_of_lt (by omega)
  have hupdate := records_modelUpdate (b := BitVec.ofNat 8 x) hmax (by omega) hroom hrec
  rwa [hbyte] at hupdate

/-- Every turn either appends a symbol or looks one bit ahead, so the loop ends (R282). -/
theorem exists_decodeEnds (src : Nat → Bool) {m : Model} {c : Conf} (hmax : c.nsym.toNat ≤ 128) (room : Nat) (r : DecRun)
    (hrec : Records m r.out r.counts) (hroom : r.out.length + room = 65536) (hk : r.k ≤ 192) :
    ∃ r', DecodeReaches src m c r r' ∧ r'.out.length ≤ 65536 ∧ DecodeEnds m c r' (decodeSymbols src m c room r) := by
  cases hs : sentinelSeen c (modelVec m c r.counts) r with
  | true => exact ⟨r, .here r, by omega, .inl ⟨hs, decodeSymbols_of_sentinel src m c room r hs⟩⟩
  | false =>
    cases hx : confirm c (modelVec m c r.counts) r with
    | none =>
      by_cases hlook : r.k < 192
      · obtain ⟨r', hreach, hout, hends⟩ := exists_decodeEnds src hmax room (widen src r) hrec hroom hlook
        rw [← decodeSymbols_of_lookahead room hs hx hlook] at hends
        exact ⟨r', .lookahead r r' hs hx hlook hreach, hout, hends⟩
      · have hstuck : r.k = 192 := by omega
        exact ⟨r, .here r, by omega, .inr (.inl ⟨hs, hx, hstuck, decodeSymbols_of_stuck room hs hx hstuck⟩)⟩
    | some x =>
      cases room with
      | zero =>
        exact ⟨r, .here r, by omega, .inr (.inr ⟨x, (confirms_of_confirm hx).1, hs, hx, by omega,
          decodeSymbols_of_full hs hx⟩)⟩
      | succ room =>
        obtain ⟨k, hupdate, hrec'⟩ := records_confirmed hmax hx (by omega) hrec
        have hout := acceptSymbol_out src c (modelVec m c r.counts) x k r
        obtain ⟨hk', hcounts⟩ := acceptSymbol_kept src c (modelVec m c r.counts) x k r
        obtain ⟨r', hreach, hfit, hends⟩ := exists_decodeEnds src hmax room
          (acceptSymbol src c (modelVec m c r.counts) x k r) (by rwa [hout, hcounts])
          (by rw [hout, List.length_append, List.length_singleton]; omega) (by rwa [hk'])
        rw [← decodeSymbols_of_confirm room hs hx hupdate] at hends
        exact ⟨r', .symbol r r' x k hs hx (by unfold Config.obufBytes; omega) hupdate hreach, hfit, hends⟩
termination_by (room, 192 - r.k)
decreasing_by
  · exact Prod.Lex.right _ (by show 192 - (r.k + 1) < 192 - r.k; omega)
  · exact Prod.Lex.left _ _ (by omega)

/-- The loop answers the registers at the sentinel that the relation reaches. -/
theorem decodeSymbols_of_reaches {src : Nat → Bool} {m : Model} {c : Conf} {r r' : DecRun} {room : Nat}
    (h : DecodeReaches src m c r r') (hend : sentinelSeen c (modelVec m c r'.counts) r' = true)
    (hroom : r.out.length + room = 65536) : decodeSymbols src m c room r = .ok r' := by
  induction h generalizing room with
  | here r => exact decodeSymbols_of_sentinel src m c room r hend
  | symbol r r' x k hs hx hlt hk _ ih =>
    unfold Config.obufBytes at hlt
    obtain ⟨room, rfl⟩ := Nat.exists_eq_add_one.2 (show 0 < room by omega)
    rw [decodeSymbols_of_confirm room hs hx hk]
    refine ih hend ?_
    rw [acceptSymbol_out, List.length_append, List.length_singleton]
    omega
  | lookahead r r' hs hx hk _ ih =>
    rw [decodeSymbols_of_lookahead room hs hx hk]
    exact ih hend hroom

/-! ### The command -/

/-- The answer of the loop of `ADEC` on the input. -/
def decodeAnswer (m : Model) (s : State) : Except Failure DecRun :=
  decodeSymbols (inBitZ s) m s.conf Config.obufBytes (decStart (inBitZ s) s.conf.numFmt (modelInit m s.work.counts))

theorem bodyOf_adec (m : Model) (s : State) : bodyOf (adecOf m) s = decodeBody m s := by
  cases m <;> rfl

theorem decodeBody_eq_map {m : Model} {s : State} (hcheck : checkCoder m s = .ok ()) :
    decodeBody m (startCommand s) = (decodeAnswer m s).map fun r => commitDecode r (startCommand s) := by
  have hbits : inBitZ (startCommand s) = inBitZ s := rfl
  have hcounts : (startCommand s).work.counts = s.work.counts := rfl
  rw [decodeBody_eq_bind, show checkCoder m (startCommand s) = .ok () from hcheck, hbits, hcounts, startCommand_conf,
    ← decodeAnswer]
  cases decodeAnswer m s <;> rfl

theorem exec_adec_of_ok {m : Model} {s : State} {r : DecRun} (hcheck : checkCoder m s = .ok ())
    (h : decodeAnswer m s = .ok r) : exec (adecOf m) s = .next (completeDone (commitDecode r (startCommand s))) := by
  refine exec_of_body_ok ?_
  rw [entryOf_coder (.inr (.inl rfl)) s, bodyOf_adec, decodeBody_eq_map hcheck, h]
  rfl

theorem exec_adec_of_error {m : Model} {s : State} {f : Failure} (hcheck : checkCoder m s = .ok ()) (htree : f.KeepsTree)
    (h : decodeAnswer m s = .error f) :
    ∃ t, exec (adecOf m) s = .next t ∧ RaisedAfterWriting f.wrote f.code.toByte f.pos f.sym s t := by
  refine ⟨_, exec_coder_of_body_error (.inr (.inl rfl)) htree ?_⟩
  rw [bodyOf_adec, decodeBody_eq_map hcheck, h]
  rfl

theorem prime_kept (src : Nat → Bool) (n : Nat) (r : DecRun) :
    (prime src n r).counts = r.counts ∧ (prime src n r).k = r.k + n := by
  induction n generalizing r with
  | zero => exact ⟨rfl, rfl⟩
  | succ n ih =>
    obtain ⟨hcounts, hk⟩ := ih (widen src r)
    refine ⟨hcounts, hk.trans ?_⟩
    show r.k + 1 + n = r.k + (n + 1)
    omega

theorem decStart_kept (src : Nat → Bool) (fmt : NumFmt) (k : Counts) :
    (decStart src fmt k).counts = k ∧ (decStart src fmt k).k = 16 := prime_kept _ _ _

/-- Word `i` of `DIAG_ENC` (R279). -/
theorem enc_word (e : Nat) {i : Nat} (hi : i < 6) :
    BitVec.ofNat 32 (e / 2 ^ (32 * i)) = (BitVec.ofNat 192 e).extractLsb' (32 * i) 32 := by
  refine BitVec.eq_of_getLsbD_eq fun j hj => ?_
  have hlt : 32 * i + j < 192 := by omega
  rw [BitVec.getLsbD_ofNat, BitVec.getLsbD_extractLsb', BitVec.getLsbD_ofNat, Nat.testBit_div_two_pow,
    Nat.add_comm j]
  simp [hj, hlt]

/-- `OUT_BUF` after the completion of `ADEC` (R279). -/
theorem commitDecode_outBuf (r : DecRun) (s : State) :
    (completeDone (commitDecode r (startCommand s))).outBuf = s.outBuf.overwrite r.out := rfl

theorem completed_commitDecode (r : DecRun) (s : State) : Completed s (completeDone (commitDecode r (startCommand s))) :=
  ⟨rfl, rfl, rfl, rfl, rfl, rfl⟩

/-- Settles O30: the loop follows the relation to the sentinel, and the completion writes the registers there. -/
theorem adecCompletes : Obligations.AdecCompletes := by
  intro m s r hlegal hlen ⟨hreach, hend⟩
  have hstart : (decStart (inBitZ s) s.conf.numFmt (modelInit m s.work.counts)).out.length + Config.obufBytes = 65536 := by
    rw [decStart_out]
    rfl
  have hanswer : decodeAnswer m s = .ok r := decodeSymbols_of_reaches hreach hend hstart
  have hfit : r.out.length ≤ 65536 := (decodeSymbols_endsWith _ m s.conf _ hstart.le).value hanswer
  refine ⟨_, exec_adec_of_ok (checkCoder_ok hlen hlegal) hanswer, completed_commitDecode r s, hfit, rfl, rfl, rfl,
    fun i hi => ?_, fun i hi => ?_, high_append_low _, high_append_low _, rfl, rfl, fun i hi => ?_,
    ⟨rfl, rfl, rfl, rfl, rfl, rfl, rfl, rfl, rfl, rfl⟩, ⟨rfl, rfl⟩, ⟨rfl, rfl⟩⟩
  · rw [commitDecode_outBuf, Memory.read_overwrite, dif_pos hi, List.getD_eq_getElem _ _ hi]
  · rw [commitDecode_outBuf, Memory.read_overwrite_of_le hi]
  · exact (tget_tabulate _ i).trans ((if_pos hi).trans (enc_word r.enc hi))

/-- Settles O31: the answer of the loop is told by the registers it stops at. -/
theorem adecThreeEndings : Obligations.AdecThreeEndings := by
  intro m s hlegal hlen
  have hcheck := checkCoder_ok hlen hlegal
  obtain ⟨hcounts, hk⟩ := decStart_kept (inBitZ s) s.conf.numFmt (modelInit m s.work.counts)
  have hout := decStart_out (inBitZ s) s.conf.numFmt (modelInit m s.work.counts)
  obtain ⟨r, hreach, hfit, hends⟩ := exists_decodeEnds (inBitZ s) hlegal.nsym_le Config.obufBytes
    (decStart (inBitZ s) s.conf.numFmt (modelInit m s.work.counts))
    (by rw [hout, hcounts]; exact records_modelInit m _) (by rw [hout]; rfl) (by omega)
  obtain ⟨hs, hanswer⟩ | ⟨hs, hx, hstuck, hanswer⟩ | ⟨x, hx, hs, hconf, hfull, hanswer⟩ := hends
  · exact ⟨r, _, hreach, hfit, exec_adec_of_ok hcheck hanswer, ⟨rfl, rfl, rfl, rfl, rfl, rfl, rfl, rfl, rfl, rfl⟩,
      ⟨rfl, rfl⟩, ⟨rfl, rfl⟩, fun i hi => Memory.read_overwrite_of_le hi, .inl ⟨hs, completed_commitDecode r s⟩⟩
  · obtain ⟨t, hexec, hraised, hsetup, hhuff, hprobe, hdiag, hkept⟩ := exec_adec_of_error hcheck rfl hanswer
    exact ⟨r, t, hreach, hfit, hexec, hsetup, hhuff, hprobe, hkept, .inr (.inl ⟨hs, hx, hstuck, hraised, hdiag⟩)⟩
  · obtain ⟨t, hexec, hraised, hsetup, hhuff, hprobe, hdiag, hkept⟩ := exec_adec_of_error hcheck rfl hanswer
    rw [hfull] at hraised
    exact ⟨r, t, hreach, hfit, hexec, hsetup, hhuff, hprobe, hkept,
      .inr (.inr ⟨x, hx, hs, hconf, hfull, hraised, hdiag⟩)⟩

end Sys2Proof.Machine
end

section
/-! The code value (R263, R280). The bits that are still to come, read as a binary fraction, name one point of the current
interval. A rescale maps this point as it maps the interval, in the encoder, where some bits are deferred, and in the decoder,
where some bits stand in `ENC` already. -/

namespace Sys2Proof.Machine

/-! ### Bit strings as binary fractions -/

/-- The value of `0.b₀b₁b₂…`, with zeros after the last bit (R272). -/
def fraction : List Bool → ℚ
  | [] => 0
  | b :: bs => (b.toNat + fraction bs) / 2

theorem fraction_bounds (bs : List Bool) : 0 ≤ fraction bs ∧ fraction bs < 1 := by
  induction bs with
  | nil => exact ⟨le_rfl, one_pos⟩
  | cons b bs ih =>
    obtain ⟨hnonneg, hlt⟩ := ih
    have hbit : (b.toNat : ℚ) ≤ 1 := by exact_mod_cast Bool.toNat_le b
    have hbit' : (0 : ℚ) ≤ b.toNat := Nat.cast_nonneg _
    unfold fraction
    constructor <;> linarith

theorem fraction_drop (bs : List Bool) (n : Nat) :
    fraction (bs.drop n) = ((bs.getD n false).toNat + fraction (bs.drop (n + 1))) / 2 := by
  by_cases h : n < bs.length
  · rw [List.drop_eq_getElem_cons h, fraction, List.getD_eq_getElem _ _ h]
  · rw [List.drop_of_length_le (by omega), List.drop_of_length_le (by omega), List.getD_eq_default _ _ (by omega)]
    norm_num [fraction]

theorem fraction_zeros (p : Nat) (bs : List Bool) : fraction (List.replicate p false ++ bs) = fraction bs / 2 ^ p := by
  induction p with
  | zero => simp
  | succ p ih =>
    rw [List.replicate_succ, List.cons_append, fraction, ih, pow_succ]
    simp only [Bool.toNat_false, Nat.cast_zero]
    ring

theorem fraction_ones (p : Nat) (bs : List Bool) :
    fraction (List.replicate p true ++ bs) = 1 - (1 - fraction bs) / 2 ^ p := by
  induction p with
  | zero => simp
  | succ p ih =>
    rw [List.replicate_succ, List.cons_append, fraction, ih, pow_succ]
    simp only [Bool.toNat_true, Nat.cast_one]
    ring

/-! ### Rescales as real maps (R255) -/

/-- What a rescale subtracts before it doubles, as a real value. -/
def RCase.offset : RCase → ℚ
  | .lower => 0
  | .upper => 1 / 2
  | .middle => 1 / 4

/-- The rescale of a real value in the case `k`. -/
def realRescale (x : ℚ) (k : RCase) : ℚ := 2 * (x - k.offset)

theorem shift_cast (q : Nat) (k : RCase) : (k.shift (4 * q) : ℚ) = 4 * q * k.offset := by
  have hhalf : 4 * q / 2 = 2 * q := by omega
  have hquarter : 4 * q / 4 = q := by omega
  cases k <;> simp only [RCase.shift, RCase.offset, hhalf, hquarter] <;> push_cast <;> ring

theorem realOf_rescale {fmt : NumFmt} {k : RCase} {x : Nat} (h : k.shift (oneOf fmt) ≤ x) :
    realOf fmt (rescale (oneOf fmt) k x) = realRescale (realOf fmt x) k := by
  obtain ⟨q, hq⟩ := oneOf_dvd_four fmt
  have hpos := oneOf_cast_pos fmt
  rw [rescale_eq, realOf, realOf, realRescale, Nat.cast_mul, Nat.cast_sub h, hq, shift_cast]
  have hne : (q : ℚ) ≠ 0 := by
    rintro h0
    rw [hq, Nat.cast_mul, h0, mul_zero] at hpos
    exact lt_irrefl _ hpos
  push_cast
  field_simp

/-- Rescales keep the proportions of distances. -/
theorem foldl_realRescale_sub (ks : List RCase) (x y : ℚ) :
    ks.foldl realRescale x - ks.foldl realRescale y = (x - y) * 2 ^ ks.length := by
  induction ks generalizing x y with
  | nil => simp
  | cons k ks ih =>
    rw [List.foldl_cons, List.foldl_cons, ih, List.length_cons, pow_succ, realRescale, realRescale]
    ring

theorem Renorms.realOf_eq {fmt : NumFmt} {middle : Bool} {low high low' high' : Nat} {ks : List RCase}
    (h : Renorms fmt middle low high ks low' high') (hlt : low < high) (hle : high ≤ oneOf fmt) :
    realOf fmt low' = ks.foldl realRescale (realOf fmt low) ∧
      realOf fmt high' = ks.foldl realRescale (realOf fmt high) := by
  induction h with
  | exit => exact ⟨rfl, rfl⟩
  | step hc _ ih =>
    obtain ⟨-, hlt', hle', -⟩ := rescale_interval hc hlt hle
    have hshift := shift_le_low hc hlt hle
    rw [List.foldl_cons, List.foldl_cons, ← realOf_rescale hshift, ← realOf_rescale (hshift.trans hlt.le)]
    exact ih hlt' hle'

/-! ### The code value of the encoder (R263) -/

/-- The point of the current interval that the stream `bits` names, seen from the encoder: the deferred bits put the interval
that many times around the half. -/
def EncRun.codeValue (bits : List Bool) (r : EncRun) : ℚ :=
  2 ^ r.pend * (fraction (bits.drop r.out.length) - 1 / 2) + 1 / 2

theorem codeValue_rescaled {fmt : NumFmt} {bits : List Bool} {r : EncRun} {k : RCase}
    (h : (r.rescaled fmt k).out <+: bits) :
    (r.rescaled fmt k).codeValue bits = realRescale (r.codeValue bits) k := by
  obtain ⟨rest, rfl⟩ := h
  have hnew : ((r.rescaled fmt k).out ++ rest).drop (r.rescaled fmt k).out.length = rest := List.drop_left
  have hold : ((r.rescaled fmt k).out ++ rest).drop r.out.length = caseBits k r.pend ++ rest := by
    rw [EncRun.rescaled, List.append_assoc, List.drop_left]
  have hpow : (2 : ℚ) ^ r.pend ≠ 0 := by positivity
  rw [EncRun.codeValue, EncRun.codeValue, hnew, hold]
  cases k with
  | lower =>
    rw [caseBits, List.cons_append, fraction, fraction_ones]
    simp only [EncRun.rescaled, realRescale, RCase.offset, Bool.toNat_false, reduceCtorEq, if_false]
    field_simp
    ring
  | upper =>
    rw [caseBits, List.cons_append, fraction, fraction_zeros]
    simp only [EncRun.rescaled, realRescale, RCase.offset, Bool.toNat_true, reduceCtorEq, if_false]
    field_simp
    ring
  | middle =>
    rw [caseBits, List.nil_append]
    simp only [EncRun.rescaled, realRescale, RCase.offset, if_true, pow_succ]
    ring

theorem codeValue_renormed {fmt : NumFmt} {bits : List Bool} {ks : List RCase} {r : EncRun}
    (h : (r.renormed fmt ks).out <+: bits) :
    (r.renormed fmt ks).codeValue bits = ks.foldl realRescale (r.codeValue bits) := by
  induction ks generalizing r with
  | nil => rfl
  | cons k ks ih =>
    rw [EncRun.renormed_cons, List.foldl_cons, ← codeValue_rescaled (((r.rescaled fmt k).prefix_renormed fmt ks).trans h)]
    exact ih h

/-- The code value lies in `[low, high)`, at least `margin` below `high`. -/
abbrev CodeIn (fmt : NumFmt) (bits : List Bool) (r : EncRun) (low high : Nat) (margin : ℚ) : Prop :=
  realOf fmt low ≤ r.codeValue bits ∧ r.codeValue bits + margin ≤ realOf fmt high

/-- Before at most 32 rescales the code value lies in the interval as it does after them, with a margin `2^32` times smaller
(R281). -/
theorem Renorms.codeIn {fmt : NumFmt} {middle : Bool} {bits : List Bool} {r : EncRun} {ks : List RCase} {low' high' : Nat}
    {margin : ℚ} (h : Renorms fmt middle r.low r.high ks low' high') (hks : ks.length ≤ 32) (hlt : r.low < r.high)
    (hle : r.high ≤ oneOf fmt) (hbits : (r.renormed fmt ks).out <+: bits) (hmargin : 0 ≤ margin)
    (hcode : CodeIn fmt bits (r.renormed fmt ks) low' high' margin) :
    CodeIn fmt bits r r.low r.high (margin / 2 ^ 32) := by
  obtain ⟨hlow, hhigh⟩ := h.realOf_eq hlt hle
  obtain ⟨hge, hle'⟩ := hcode
  rw [codeValue_renormed hbits, hlow] at hge
  rw [codeValue_renormed hbits, hhigh] at hle'
  have hdist := foldl_realRescale_sub ks (r.codeValue bits) (realOf fmt r.low)
  have hdist' := foldl_realRescale_sub ks (realOf fmt r.high) (r.codeValue bits)
  have hpow : (0 : ℚ) < 2 ^ ks.length := by positivity
  have hpow' : (2 : ℚ) ^ ks.length ≤ 2 ^ 32 := pow_le_pow_right₀ (by norm_num) hks
  refine ⟨?_, ?_⟩
  · have : 0 ≤ (r.codeValue bits - realOf fmt r.low) * 2 ^ ks.length := by linarith
    linarith [nonneg_of_mul_nonneg_left this hpow]
  · have hscaled : margin ≤ (realOf fmt r.high - r.codeValue bits) * 2 ^ ks.length := by linarith
    have hdiff : 0 ≤ realOf fmt r.high - r.codeValue bits := nonneg_of_mul_nonneg_left (hmargin.trans hscaled) hpow
    have : margin ≤ (realOf fmt r.high - r.codeValue bits) * 2 ^ 32 :=
      hscaled.trans (mul_le_mul_of_nonneg_left hpow' hdiff)
    have := (div_le_iff₀ (by norm_num : (0 : ℚ) < 2 ^ 32)).2 this
    linarith

/-! ### The code value of the decoder (R280) -/

/-- The point of the current interval that the stream `bits` names, seen from the decoder: `ENC` and the bits not yet read. -/
def DecRun.codeValue (bits : List Bool) (d : DecRun) : ℚ :=
  d.enc / 2 ^ 192 + fraction (bits.drop d.rpos) / 2 ^ d.k

/-- The bit source of a stream: zeros follow its last bit (R272). -/
def bitSource (bits : List Bool) (j : Nat) : Bool := bits.getD j false

/-- Reading a bit at weight `2^-K` halves the weight of the bits still to be read. -/
theorem takeBit_codeValue (bits : List Bool) {d : DecRun} (hk : d.k ≤ 192) :
    (takeBit (bitSource bits) d).codeValue bits =
      d.enc / 2 ^ 192 + 2 * fraction (bits.drop d.rpos) / 2 ^ d.k := by
  have hweight : (2 : ℚ) ^ (192 - d.k) / 2 ^ 192 = 1 / 2 ^ d.k := by
    rw [pow_sub₀ _ (by norm_num) hk]
    field_simp
  have henc : ((takeBit (bitSource bits) d).enc : ℚ) / 2 ^ 192 =
      d.enc / 2 ^ 192 + (bits.getD d.rpos false).toNat * (1 / 2 ^ d.k) := by
    rw [← hweight, takeBit, bitSource, Config.kmax]
    push_cast
    ring
  rw [DecRun.codeValue, henc, fraction_drop bits d.rpos]
  show _ + fraction (bits.drop (d.rpos + 1)) / 2 ^ d.k = _
  ring

theorem widen_codeValue (bits : List Bool) {d : DecRun} (hk : d.k < 192) :
    (widen (bitSource bits) d).codeValue bits = d.codeValue bits := by
  rw [widen, takeBit_codeValue bits (show d.k + 1 ≤ 192 from hk), DecRun.codeValue]
  show (d.enc : ℚ) / 2 ^ 192 + 2 * fraction (bits.drop d.rpos) / 2 ^ (d.k + 1) = _
  rw [pow_succ 2 d.k]
  field_simp

theorem dec_codeValue_rescaled {fmt : NumFmt} {bits : List Bool} {d : DecRun} {k : RCase} (h : WindowInside fmt d)
    (hc : renormCase (oneOf fmt) true d.low d.high = some k) :
    (d.rescaled (bitSource bits) fmt k).codeValue bits = realRescale (d.codeValue bits) k := by
  have hk := h.k_le
  have hshift := h.shift_le_enc hc
  have henc : (rescale (2 ^ 192) k d.enc : ℚ) / 2 ^ 192 = 2 * (d.enc / 2 ^ 192 - k.offset) := by
    rw [rescale_eq, Nat.cast_mul, Nat.cast_sub hshift, show 2 ^ 192 = 4 * 2 ^ 190 from rfl, shift_cast]
    push_cast
    ring
  refine (takeBit_codeValue bits ?_).trans ?_
  · exact hk
  show (rescale (2 ^ 192) k d.enc : ℚ) / 2 ^ 192 + 2 * fraction (bits.drop d.rpos) / 2 ^ d.k = _
  rw [henc, realRescale, DecRun.codeValue]
  ring

theorem dec_codeValue_renormed {fmt : NumFmt} (bits : List Bool) {d : DecRun} {ks : List RCase} {low' high' : Nat}
    (h : WindowInside fmt d) (hr : Renorms fmt true d.low d.high ks low' high') :
    (d.renormed (bitSource bits) fmt ks).codeValue bits = ks.foldl realRescale (d.codeValue bits) := by
  refine hr.dec_induction (bitSource bits) (motive := fun d ks => WindowInside fmt d →
    (d.renormed (bitSource bits) fmt ks).codeValue bits = ks.foldl realRescale (d.codeValue bits)) ?_ ?_ h
  · intro d _ _ _ _
    rfl
  · intro d k ks hc ih h
    rw [DecRun.renormed_cons, List.foldl_cons, ← dec_codeValue_rescaled h hc]
    exact ih (windowInside_rescaled h hc _)

end Sys2Proof.Machine
end

section
/-! The round trip in `FIXED` (R263, R281). The encoder keeps the code value in the sub-interval of each symbol, `2^-96` below
its end, so the decoder confirms that symbol with `K ≤ 97` and renormalizes as the encoder did. -/

namespace Sys2Proof.Machine

/-! ### The code value in the encoder's intervals (R263) -/

theorem realOf_fixed_succ (x : Nat) : realOf .fixed (x + 1) = realOf .fixed x + 1 / 2 ^ 32 := by
  have hone : (oneOf .fixed : ℚ) = 2 ^ 32 := by norm_num [oneOf, Config.fixedP]
  rw [realOf_add, realOf, realOf, hone, Nat.cast_one]

/-- In `FIXED` different values are at least `2^-32` apart. -/
theorem realOf_fixed_add_le {x y : Nat} (h : x < y) : realOf .fixed x + 1 / 2 ^ 32 ≤ realOf .fixed y := by
  rw [← realOf_fixed_succ]
  exact realOf_le_realOf.2 h

theorem realOf_half (fmt : NumFmt) : realOf fmt (oneOf fmt / 2) = 1 / 2 := by
  obtain ⟨q, hq⟩ := oneOf_dvd_four fmt
  have hpos := oneOf_cast_pos fmt
  have hhalf : 4 * q / 2 = 2 * q := by omega
  rw [hq] at hpos
  rw [realOf, hq, hhalf, div_eq_iff hpos.ne']
  push_cast
  ring

/-- Before the final `1` the code value is the half (R261). -/
theorem codeValue_final (r : EncRun) : r.codeValue (r.out ++ [true]) = 1 / 2 := by
  rw [EncRun.codeValue, List.drop_left]
  norm_num [fraction]

/-- The encoder has finished with the registers `k` and `r` after its last symbol, and `bits` is its stream (R261). -/
def FinishesWith (m : Model) (c : Conf) (pos : Nat) (k : Counts) (r : EncRun) (bits : List Bool) : Prop :=
  ∃ r', narrowSentinel m c pos k r = .ok r' ∧ bits = r'.out ++ [true]

section

variable {m : Model} {c : Conf} (hfixed : c.numFmt = .fixed) (hlegal : ConfigLegal m c) {seen : List Byte} {k : Counts}
  (hrec : Records m seen k) {r : EncRun} (hw : WideInterval c.numFmt r.low r.high)

include hfixed hlegal hrec hw

/-- The code value lies in the sub-interval of the sentinel. -/
theorem codeIn_sentinel (hlen : seen.length ≤ 65536) {pos : Nat} {bits : List Bool}
    (hfin : FinishesWith m c pos k r bits) :
    r.out <+: bits ∧ CodeIn c.numFmt bits r
      (boundary c.numFmt c.nsym.toNat (modelVec m c k) r.low r.high c.nsym.toNat) r.high (1 / 2 ^ 64) := by
  obtain ⟨r', hok, rfl⟩ := hfin
  have hnarrow := narrowedInterval_atSentinel (vecLegal_modelVec hlegal hrec hlen) hw
  obtain ⟨ks, low', high', hr, hks⟩ := hnarrow.exists_renorms false
  have hr' := hr.eq_renormed_of_ok (hks.trans (by decide)) hok
  obtain ⟨hlow, hhigh, -⟩ := hr.renormalized hnarrow.lt hnarrow.le_one
  have hprefix := List.prefix_append r'.out [true]
  have hcode : CodeIn c.numFmt (r'.out ++ [true]) r' low' high' (1 / 2 ^ 32) := by
    rw [CodeIn, codeValue_final, ← realOf_half c.numFmt]
    refine ⟨realOf_le_realOf.2 hlow.le, ?_⟩
    rw [hfixed] at hhigh ⊢
    exact realOf_fixed_add_le hhigh
  subst hr'
  refine ⟨((r.atSentinel c (modelVec m c k)).prefix_renormed c.numFmt ks).trans hprefix, ?_⟩
  have hbefore := hr.codeIn hks hnarrow.lt hnarrow.le_one hprefix (by norm_num) hcode
  rwa [div_div, ← pow_add] at hbefore

end

/-- The loop on a first symbol that it codes: the symbol is legal, and the rest is coded from the registers after it. -/
theorem encodeSymbols_cons_ok {m : Model} {c : Conf} (hlegal : ConfigLegal m c) {seen : List Byte} {k : Counts}
    (hrec : Records m seen k) {r : EncRun} (hw : WideInterval c.numFmt r.low r.high) {i : Nat} {b : Byte} {bs : List Byte}
    (hroom : seen.length + (b :: bs).length ≤ 65536) {p : Counts × EncRun}
    (h : encodeSymbols m c i (b :: bs) k r = .ok p) :
    b.toNat < c.nsym.toNat ∧ 1 ≤ (modelVec m c k).mass b.toNat ∧ ∃ k' ks low' high', Records m (seen ++ [b]) k' ∧
      Renorms c.numFmt true (r.narrowedTo c (modelVec m c k) b.toNat).low (r.narrowedTo c (modelVec m c k) b.toNat).high
        ks low' high' ∧ ks.length ≤ 32 ∧ WideInterval c.numFmt low' high' ∧
      encodeSymbols m c (i + 1) bs k' ((r.narrowedTo c (modelVec m c k) b.toNat).renormed c.numFmt ks) = .ok p := by
  rw [List.length_cons] at hroom
  have hx : b.toNat < c.nsym.toNat := by
    by_contra hout
    rw [encodeSymbols_of_range m c i b bs k r (Nat.not_lt.1 hout)] at h
    cases h
  have hmass : 1 ≤ (modelVec m c k).mass b.toNat := by
    by_contra hzero
    rw [encodeSymbols_of_mass_zero m c i b bs k r hx (by omega)] at h
    cases h
  obtain ⟨k', ks, low', high', hk, hrec', hr, hks, hwide⟩ := exists_symbol_renorms hlegal hrec (by omega) hw hx hmass
  refine ⟨hx, hmass, k', ks, low', high', hrec', hr, hks, hwide, ?_⟩
  rw [encodeSymbols_of_mass_pos i bs r hx hmass hk] at h
  cases hrun : renormEnc (oneOf c.numFmt) true i b.toNat Config.renormFuel (r.narrowedTo c (modelVec m c k) b.toNat) with
  | error f =>
    rw [hrun] at h
    cases h
  | ok r' =>
    rw [hrun] at h
    rwa [hr.eq_renormed_of_ok (hks.trans (by decide)) hrun] at h

/-- The code value of a symbol, from that after it. -/
theorem codeIn_symbol {c : Conf} {v : CumVec} {x : Nat} {r : EncRun} {ks : List RCase} {low' high' : Nat} {bits : List Bool}
    (hnarrow : NarrowedInterval c.numFmt (r.narrowedTo c v x).low (r.narrowedTo c v x).high)
    (hr : Renorms c.numFmt true (r.narrowedTo c v x).low (r.narrowedTo c v x).high ks low' high') (hks : ks.length ≤ 32)
    (hbits : ((r.narrowedTo c v x).renormed c.numFmt ks).out <+: bits)
    (hcode : CodeIn c.numFmt bits ((r.narrowedTo c v x).renormed c.numFmt ks) low' high' (1 / 2 ^ 64)) :
    CodeIn c.numFmt bits r (r.narrowedTo c v x).low (r.narrowedTo c v x).high (1 / 2 ^ 96) := by
  have hbefore := hr.codeIn hks hnarrow.lt hnarrow.le_one hbits (by norm_num) hcode
  rwa [div_div, ← pow_add] at hbefore

/-- The code value lies in every interval of the encoder, at least `2^-64` below its end (R263, R281). -/
theorem codeIn_encoded {m : Model} {c : Conf} (hfixed : c.numFmt = .fixed) (hlegal : ConfigLegal m c) (bs : List Byte)
    {seen : List Byte} {k : Counts} (hrec : Records m seen k) {r : EncRun} (hw : WideInterval c.numFmt r.low r.high)
    (hroom : seen.length + bs.length ≤ 65536) {i pos : Nat} {p : Counts × EncRun}
    (h : encodeSymbols m c i bs k r = .ok p) {bits : List Bool} (hfin : FinishesWith m c pos p.1 p.2 bits) :
    r.out <+: bits ∧ CodeIn c.numFmt bits r r.low r.high (1 / 2 ^ 64) := by
  induction bs generalizing seen k r i with
  | nil =>
    cases h
    obtain ⟨hprefix, hge, hle⟩ := codeIn_sentinel hfixed hlegal hrec hw hroom hfin
    have hv := vecLegal_modelVec hlegal hrec hroom
    have hlow := boundary_le_boundary (high := r.high) hv hw.lowValue (Nat.zero_le _) le_rfl
    rw [boundary_zero] at hlow
    exact ⟨hprefix, (realOf_le_realOf.2 hlow).trans hge, hle⟩
  | cons b bs ih =>
    obtain ⟨hx, hmass, k', ks, low', high', hrec', hr, hks, hwide, hrest⟩ := encodeSymbols_cons_ok hlegal hrec hw hroom h
    obtain ⟨hlow', hhigh'⟩ := hr.renormed_interval
    have hv := vecLegal_modelVec hlegal hrec (by omega)
    rw [← hlow', ← hhigh'] at hwide
    rw [List.length_cons] at hroom
    obtain ⟨hprefix, hcode⟩ := ih hrec' hwide (by rw [List.length_append, List.length_singleton]; omega) hrest
    rw [hlow', hhigh'] at hcode
    obtain ⟨hge, hle⟩ := codeIn_symbol (narrowedInterval_narrowedTo hv hw hx hmass) hr hks hprefix hcode
    have hlow := boundary_le_boundary (high := r.high) hv hw.lowValue (Nat.zero_le _) hx.le
    have hhigh : (r.narrowedTo c (modelVec m c k) b.toNat).high < r.high :=
      (boundary_le_boundary hv hw.lowValue hx le_rfl).trans_lt (boundary_sentinel_lt_high hv hw)
    rw [boundary_zero] at hlow
    refine ⟨((r.narrowedTo c (modelVec m c k) b.toNat).prefix_renormed _ ks).trans hprefix,
      (realOf_le_realOf.2 hlow).trans hge, ?_⟩
    rw [hfixed] at hle ⊢
    have hgap := realOf_fixed_add_le hhigh
    linarith [show (0 : ℚ) < 1 / 2 ^ 96 by norm_num, show (1 / 2 ^ 64 : ℚ) < 1 / 2 ^ 32 by norm_num]

/-! ### The decoder at the encoder's code value (R280) -/

theorem mul_kmax_le_iff {fmt : NumFmt} {x e : Nat} : x * 2 ^ 192 ≤ e * oneOf fmt ↔ realOf fmt x ≤ (e : ℚ) / 2 ^ 192 := by
  rw [realOf, div_le_div_iff₀ (oneOf_cast_pos fmt) (by norm_num)]
  norm_cast

theorem le_mul_kmax_iff {fmt : NumFmt} {x e : Nat} : e * oneOf fmt ≤ x * 2 ^ 192 ↔ (e : ℚ) / 2 ^ 192 ≤ realOf fmt x := by
  rw [realOf, div_le_div_iff₀ (by norm_num) (oneOf_cast_pos fmt)]
  norm_cast

/-- `U` as a real value (R273). -/
theorem window_end_cast {d : DecRun} (hk : d.k ≤ 192) :
    ((d.enc + 2 ^ (192 - d.k) : Nat) : ℚ) / 2 ^ 192 = d.enc / 2 ^ 192 + 1 / 2 ^ d.k := by
  push_cast
  rw [add_div, pow_sub₀ _ (by norm_num) hk]
  field_simp

/-- The window holds the code value. -/
theorem codeValue_mem_window (bits : List Bool) (d : DecRun) :
    (d.enc : ℚ) / 2 ^ 192 ≤ d.codeValue bits ∧ d.codeValue bits < d.enc / 2 ^ 192 + 1 / 2 ^ d.k := by
  obtain ⟨hnonneg, hlt⟩ := fraction_bounds (bits.drop d.rpos)
  have hpow : (0 : ℚ) < 2 ^ d.k := by positivity
  unfold DecRun.codeValue
  exact ⟨le_add_of_nonneg_right (div_nonneg hnonneg hpow.le), by gcongr⟩

theorem realOf_le_of_sentinelSeen {c : Conf} {v : CumVec} {d : DecRun} (bits : List Bool)
    (h : sentinelSeen c v d = true) :
    realOf c.numFmt (boundary c.numFmt c.nsym.toNat v d.low d.high c.nsym.toNat) ≤ d.codeValue bits :=
  (mul_kmax_le_iff.1 (sentinelSeen_iff.1 h)).trans (codeValue_mem_window bits d).1

theorem realOf_of_confirms {c : Conf} {v : CumVec} {d : DecRun} {y : Nat} (bits : List Bool) (hk : d.k ≤ 192)
    (h : confirms c v d y = true) :
    realOf c.numFmt (boundary c.numFmt c.nsym.toNat v d.low d.high y) ≤ d.codeValue bits ∧
      d.codeValue bits < realOf c.numFmt (boundary c.numFmt c.nsym.toNat v d.low d.high (y + 1)) := by
  obtain ⟨hlow, hhigh⟩ := confirms_iff.1 h
  obtain ⟨hge, hlt⟩ := codeValue_mem_window bits d
  rw [← not_le, mul_kmax_le_iff, window_end_cast hk, not_le] at hhigh
  exact ⟨(mul_kmax_le_iff.1 hlow).trans hge, hlt.trans hhigh⟩

/-- With 32 bits of `ENC` a boundary at or below the code value is at or below `ENC`: both lie on the grid of `2^-K` (R281). -/
theorem mul_kmax_le_of_codeValue {bits : List Bool} {d : DecRun} {x : Nat} (hwin : WindowInside .fixed d) (hk : 32 ≤ d.k)
    (h : realOf .fixed x ≤ d.codeValue bits) : x * 2 ^ 192 ≤ d.enc * oneOf .fixed := by
  obtain ⟨-, -, -, hk', hmod⟩ := hwin
  obtain ⟨a, ha⟩ := Nat.dvd_of_mod_eq_zero hmod
  have hgrid : 2 ^ 192 = 2 ^ (192 - d.k) * 2 ^ (d.k - 32) * 2 ^ 32 := by
    rw [← pow_add, ← pow_add]
    congr 1
    omega
  have hlt : x * 2 ^ 192 < (d.enc + 2 ^ (192 - d.k)) * oneOf .fixed := by
    rw [← not_le, le_mul_kmax_iff, window_end_cast hk', not_le]
    exact h.trans_lt (codeValue_mem_window bits d).2
  rw [show oneOf .fixed = 2 ^ 32 from rfl] at hlt ⊢
  rw [hgrid, ha] at hlt
  rw [hgrid, ha]
  have hpos : 0 < 2 ^ (192 - d.k) * 2 ^ 32 := by positivity
  have hfloor : x * 2 ^ (d.k - 32) < a + 1 := by
    refine lt_of_mul_lt_mul_right (lt_of_eq_of_lt ?_ (hlt.trans_eq ?_)) hpos.le
    · ring
    · ring
  calc x * (2 ^ (192 - d.k) * 2 ^ (d.k - 32) * 2 ^ 32) = x * 2 ^ (d.k - 32) * (2 ^ (192 - d.k) * 2 ^ 32) := by ring
    _ ≤ a * (2 ^ (192 - d.k) * 2 ^ 32) := Nat.mul_le_mul_right _ (Nat.le_of_lt_succ hfloor)
    _ = 2 ^ (192 - d.k) * a * 2 ^ 32 := by ring

/-- The sub-intervals are disjoint: two of them, the sentinel's included, that hold the same value are one. -/
theorem eq_of_mem_boundaries {fmt : NumFmt} {n : Nat} {v : CumVec} {low high : Nat} (hv : VecLegal n v)
    (hlow : ModeValue fmt low) {x y : Nat} (hx : x ≤ n) (hy : y ≤ n) {z : ℚ}
    (hxz : realOf fmt (boundary fmt n v low high x) ≤ z)
    (hzx : x < n → z < realOf fmt (boundary fmt n v low high (x + 1)))
    (hyz : realOf fmt (boundary fmt n v low high y) ≤ z)
    (hzy : y < n → z < realOf fmt (boundary fmt n v low high (y + 1))) : x = y := by
  obtain hlt | heq | hlt := lt_trichotomy x y
  · have hle := realOf_le_realOf (fmt := fmt).2 (boundary_le_boundary (high := high) hv hlow hlt hy)
    exact absurd (hle.trans hyz) (not_le.2 (hzx (hlt.trans_le hy)))
  · exact heq
  · have hle := realOf_le_realOf (fmt := fmt).2 (boundary_le_boundary (high := high) hv hlow hlt hx)
    exact absurd (hle.trans hxz) (not_le.2 (hzy (hlt.trans_le hx)))

/-- The decoder stands where the encoder stood: the same interval and the same code value, with `K ≤ 97` (R281). -/
structure Tracks (c : Conf) (bits : List Bool) (r : EncRun) (d : DecRun) : Prop where
  low : d.low = r.low
  high : d.high = r.high
  code : d.codeValue bits = r.codeValue bits
  window : WindowInside c.numFmt d
  k_le : d.k ≤ 97

theorem Tracks.widen {c : Conf} {bits : List Bool} {r : EncRun} {d : DecRun} (h : Tracks c bits r d) (hk : d.k < 97) :
    Tracks c bits r (Machine.widen (bitSource bits) d) :=
  ⟨h.low, h.high, (widen_codeValue bits (by omega)).trans h.code, windowInside_widen _ h.window (by omega), hk⟩

section

variable {c : Conf} {v : CumVec} {bits : List Bool} {r : EncRun} {d : DecRun} {x : Nat} (hfixed : c.numFmt = .fixed)
  (hv : VecLegal c.nsym.toNat v) (hw : WideInterval c.numFmt r.low r.high) (hx : x ≤ c.nsym.toNat)
  (hcode : CodeIn c.numFmt bits r (boundary c.numFmt c.nsym.toNat v r.low r.high x)
    (boundary c.numFmt c.nsym.toNat v r.low r.high (x + 1)) (1 / 2 ^ 96))
  (h : Tracks c bits r d)

include hv hw hx hcode h

theorem Tracks.eq_of_mem {y : Nat} (hy : y ≤ c.nsym.toNat)
    (hyz : realOf c.numFmt (boundary c.numFmt c.nsym.toNat v d.low d.high y) ≤ d.codeValue bits)
    (hzy : y < c.nsym.toNat →
      d.codeValue bits < realOf c.numFmt (boundary c.numFmt c.nsym.toNat v d.low d.high (y + 1))) : x = y := by
  obtain ⟨hge, hle⟩ := hcode
  rw [h.low, h.high, h.code] at hyz hzy
  exact eq_of_mem_boundaries hv hw.lowValue hx hy hge (fun _ => by linarith [show (0 : ℚ) < 1 / 2 ^ 96 by norm_num]) hyz hzy

theorem Tracks.eq_nsym_of_sentinelSeen (hs : sentinelSeen c v d = true) : x = c.nsym.toNat :=
  h.eq_of_mem hv hw hx hcode le_rfl (realOf_le_of_sentinelSeen bits hs) fun hlt => absurd hlt (lt_irrefl _)

theorem Tracks.eq_of_confirm {y : Nat} (hy : confirm c v d = some y) : x = y := by
  obtain ⟨hlt, hconf⟩ := confirms_of_confirm hy
  have hmem := realOf_of_confirms bits (h.k_le.trans (by omega)) hconf
  exact h.eq_of_mem hv hw hx hcode hlt.le hmem.1 fun _ => hmem.2

include hfixed

omit hv hw in
/-- With `K = 97` the decoder recognizes the sentinel or confirms the symbol. -/
theorem Tracks.found (hk : d.k = 97) (hs : sentinelSeen c v d = false) (hnone : confirm c v d = none) : False := by
  obtain ⟨hge, hle⟩ := hcode
  rw [← h.low, ← h.high, ← h.code] at hge hle
  have hwin := h.window
  rw [hfixed] at hwin
  have hlow : boundary c.numFmt c.nsym.toNat v d.low d.high x * 2 ^ 192 ≤ d.enc * oneOf c.numFmt := by
    rw [hfixed] at hge ⊢
    exact mul_kmax_le_of_codeValue hwin (by omega) hge
  obtain hlt | rfl := hx.lt_or_eq
  · have hconf : confirms c v d x = true := by
      refine confirms_iff.2 ⟨hlow, ?_⟩
      rw [← not_le, mul_kmax_le_iff, window_end_cast (by omega), not_le, hk]
      linarith [(codeValue_mem_window bits d).1, show (1 / 2 ^ 97 : ℚ) < 1 / 2 ^ 96 by norm_num]
    have hnot := List.find?_range_eq_none.1 hnone x hlt
    rw [hconf] at hnot
    exact absurd hnot (by decide)
  · rw [sentinelSeen_iff.2 hlow] at hs
    cases hs

end

/-- The decoder looks ahead until it recognizes the sentinel or confirms the symbol that the code value lies in. -/
theorem Tracks.exists_found {m : Model} {c : Conf} {bits : List Bool} {r : EncRun} {d : DecRun} {x : Nat}
    (hfixed : c.numFmt = .fixed) (hv : VecLegal c.nsym.toNat (modelVec m c d.counts))
    (hw : WideInterval c.numFmt r.low r.high) (hx : x ≤ c.nsym.toNat)
    (hcode : CodeIn c.numFmt bits r (boundary c.numFmt c.nsym.toNat (modelVec m c d.counts) r.low r.high x)
      (boundary c.numFmt c.nsym.toNat (modelVec m c d.counts) r.low r.high (x + 1)) (1 / 2 ^ 96))
    (room : Nat) (h : Tracks c bits r d) :
    ∃ d', Tracks c bits r d' ∧ d'.out = d.out ∧ d'.counts = d.counts ∧
      decodeSymbols (bitSource bits) m c room d = decodeSymbols (bitSource bits) m c room d' ∧
      ((x = c.nsym.toNat ∧ sentinelSeen c (modelVec m c d'.counts) d' = true) ∨
       (sentinelSeen c (modelVec m c d'.counts) d' = false ∧ confirm c (modelVec m c d'.counts) d' = some x)) := by
  cases hs : sentinelSeen c (modelVec m c d.counts) d with
  | true => exact ⟨d, h, rfl, rfl, rfl, .inl ⟨h.eq_nsym_of_sentinelSeen hv hw hx hcode hs, hs⟩⟩
  | false =>
    cases hconf : confirm c (modelVec m c d.counts) d with
    | some y =>
      obtain rfl := h.eq_of_confirm hv hw hx hcode hconf
      exact ⟨d, h, rfl, rfl, rfl, .inr ⟨hs, hconf⟩⟩
    | none =>
      have hk : d.k < 97 := lt_of_le_of_ne h.k_le fun hk => h.found hfixed hx hcode hk hs hconf
      obtain ⟨d', h', hout, hcounts, hrun, hfound⟩ := Tracks.exists_found (d := Machine.widen (bitSource bits) d) hfixed hv hw
        hx hcode room (h.widen hk)
      exact ⟨d', h', hout, hcounts, (decodeSymbols_of_lookahead room hs hconf (by omega)).trans hrun, hfound⟩
termination_by 97 - d.k
decreasing_by
  show 97 - (d.k + 1) < 97 - d.k
  omega

/-- `Accept` of the confirmed symbol follows the encoder's renormalization (R277). -/
theorem Tracks.accept {c : Conf} {v : CumVec} {bits : List Bool} {r : EncRun} {d : DecRun} {x : Nat} {ks : List RCase}
    {low' high' : Nat} (h : Tracks c bits r d) (hv : VecLegal c.nsym.toNat v) (hw : WideInterval c.numFmt r.low r.high)
    (hconf : confirm c v d = some x)
    (hr : Renorms c.numFmt true (r.narrowedTo c v x).low (r.narrowedTo c v x).high ks low' high') (hks : ks.length ≤ 32)
    (hbits : ((r.narrowedTo c v x).renormed c.numFmt ks).out <+: bits) (k : Counts) :
    Tracks c bits ((r.narrowedTo c v x).renormed c.numFmt ks) (acceptSymbol (bitSource bits) c v x k d) := by
  obtain ⟨hx, hconf⟩ := confirms_of_confirm hconf
  have hwide : WideInterval c.numFmt d.low d.high := by rwa [h.low, h.high]
  have hwin := windowInside_narrowedTo hv ⟨hwide.lt, hwide.le_one, fun _ => hwide⟩ h.window hx hconf k
  have hr' : Renorms c.numFmt true (narrowedTo c v x k d).low (narrowedTo c v x k d).high ks low' high' := by
    rw [narrowedTo, h.low, h.high]
    exact hr
  have haccept : acceptSymbol (bitSource bits) c v x k d = (narrowedTo c v x k d).renormed (bitSource bits) c.numFmt ks :=
    Renorms.renormDec_eq hr' (hks.trans (by decide))
  obtain ⟨hlow, hhigh⟩ := hr.renormed_interval
  obtain ⟨hlow', hhigh'⟩ := hr'.renormed_dec_interval (src := bitSource bits)
  rw [haccept]
  refine ⟨hlow'.trans hlow.symm, hhigh'.trans hhigh.symm, ?_, windowInside_renormed _ hr' hwin, ?_⟩
  · rw [dec_codeValue_renormed bits hwin hr', codeValue_renormed hbits]
    exact congrArg (ks.foldl realRescale) h.code
  · rw [(DecRun.renormed_kept _ _ _ _).1]
    exact h.k_le

/-! ### The whole stream (R281) -/

theorem modelVec_eq_of_records {m : Model} {c : Conf} {seen : List Byte} {k k' : Counts} (hmax : c.nsym.toNat ≤ 128)
    (h : Records m seen k) (h' : Records m seen k') : modelVec m c k = modelVec m c k' :=
  (modelVec_of_records hmax h).trans (modelVec_of_records hmax h').symm

/-- `ADEC` decodes what `AENC` has coded, from any two registers that stand at the same place. -/
theorem decodeSymbols_encoded {m : Model} {c : Conf} (hfixed : c.numFmt = .fixed) (hlegal : ConfigLegal m c) (bs : List Byte)
    {seen : List Byte} {k : Counts} (hrec : Records m seen k) {r : EncRun} (hw : WideInterval c.numFmt r.low r.high)
    (hlen : seen.length + bs.length ≤ 65536) {i pos : Nat} {p : Counts × EncRun}
    (h : encodeSymbols m c i bs k r = .ok p) {bits : List Bool} (hfin : FinishesWith m c pos p.1 p.2 bits)
    {room : Nat} (hroom : bs.length ≤ room) {d : DecRun} (hd : Tracks c bits r d) (hrec' : Records m seen d.counts) :
    ∃ d', decodeSymbols (bitSource bits) m c room d = .ok d' ∧ d'.out = d.out ++ bs := by
  induction bs generalizing seen k r i room d with
  | nil =>
    cases h
    have hv := vecLegal_modelVec hlegal hrec' hlen
    have hvec := modelVec_eq_of_records hlegal.nsym_le hrec hrec'
    obtain ⟨-, hge, hle⟩ := codeIn_sentinel hfixed hlegal hrec hw hlen hfin
    rw [hvec] at hge
    obtain ⟨d', hd', hout, -, hrun, ⟨-, hs⟩ | ⟨-, hconf⟩⟩ := hd.exists_found hfixed hv hw le_rfl
      (by rw [boundary_last]; exact ⟨hge, by linarith [show (1 / 2 ^ 96 : ℚ) < 1 / 2 ^ 64 by norm_num]⟩) room
    · exact ⟨d', hrun.trans (decodeSymbols_of_sentinel _ m c room d' hs), by rw [hout, List.append_nil]⟩
    · exact absurd (confirms_of_confirm hconf).1 (lt_irrefl _)
  | cons b bs ih =>
    obtain ⟨hx, hmass, k', ks, low', high', hnext, hr, hks, hwide, hrest⟩ := encodeSymbols_cons_ok hlegal hrec hw hlen h
    have hv := vecLegal_modelVec hlegal hrec' (by omega)
    rw [modelVec_eq_of_records hlegal.nsym_le hrec hrec'] at hmass hr hrest
    obtain ⟨hlow', hhigh'⟩ := hr.renormed_interval
    rw [← hlow', ← hhigh'] at hwide
    rw [List.length_cons] at hlen hroom
    have hlen' : (seen ++ [b]).length + bs.length ≤ 65536 := by
      rw [List.length_append, List.length_singleton]
      omega
    obtain ⟨hprefix, hcode⟩ := codeIn_encoded hfixed hlegal bs hnext hwide hlen' hrest hfin
    rw [hlow', hhigh'] at hcode
    have hcode := codeIn_symbol (narrowedInterval_narrowedTo hv hw hx hmass) hr hks hprefix hcode
    obtain ⟨d', hd', hout, hcounts, hrun, ⟨hlast, -⟩ | ⟨hs, hconf⟩⟩ := hd.exists_found hfixed hv hw hx.le hcode room
    · exact absurd hlast hx.ne
    · rw [← hcounts] at hr hrest hprefix hv hwide hrec'
      obtain ⟨kd, hupdate, hnext'⟩ := records_modelUpdate hlegal.nsym_le (lt_of_lt_of_le hx hlegal.nsym_le) (by omega) hrec'
      obtain ⟨room, rfl⟩ := Nat.exists_eq_add_one.2 (show 0 < room by omega)
      have haccept := hd'.accept hv hw hconf hr hks hprefix kd
      obtain ⟨-, hkd⟩ := acceptSymbol_kept (bitSource bits) c (modelVec m c d'.counts) b.toNat kd d'
      obtain ⟨d'', hrun', hout'⟩ := ih hnext hwide hlen' hrest (Nat.le_of_succ_le_succ hroom) haccept (by rwa [hkd])
      refine ⟨d'', hrun.trans ((decodeSymbols_of_confirm room hs hconf hupdate).trans hrun'), ?_⟩
      rw [hout', acceptSymbol_out, hout, BitVec.ofNat_toNat, BitVec.setWidth_eq, List.append_assoc, List.singleton_append]

theorem prime_interval (src : Nat → Bool) (n : Nat) (d : DecRun) :
    (prime src n d).low = d.low ∧ (prime src n d).high = d.high := by
  induction n generalizing d with
  | zero => exact ⟨rfl, rfl⟩
  | succ n ih => exact ih (widen src d)

theorem prime_codeValue (bits : List Bool) (n : Nat) (d : DecRun) (hk : d.k + n ≤ 192) :
    (prime (bitSource bits) n d).codeValue bits = d.codeValue bits := by
  induction n generalizing d with
  | zero => rfl
  | succ n ih =>
    exact (ih (widen (bitSource bits) d) (by show d.k + 1 + n ≤ 192; omega)).trans (widen_codeValue bits (by omega))

/-- Both start with the interval `[0, 1)` and the value of the whole stream (R260, R271). -/
theorem tracks_start (c : Conf) (bits : List Bool) (k : Counts) :
    Tracks c bits (encStart c.numFmt) (decStart (bitSource bits) c.numFmt k) := by
  obtain ⟨hlow, hhigh⟩ := prime_interval (bitSource bits) Config.primeBits
    { low := 0, high := oneOf c.numFmt, enc := 0, k := 0, rpos := 0, out := [], counts := k }
  refine ⟨hlow, hhigh, ?_, windowInside_decStart _ _ _, (decStart_kept _ _ _).2.le.trans (by omega)⟩
  refine (prime_codeValue bits Config.primeBits _ (by show 0 + 16 ≤ 192; omega)).trans ?_
  simp [DecRun.codeValue, EncRun.codeValue, encStart]

/-! ### `IN_LEN` is no part of the decoder's configuration (R270) -/

theorem findSymbol_withInLen (src : Nat → Bool) (c : Conf) (len : BitVec 17) (v : CumVec) (n : Nat) (d : DecRun) :
    findSymbol src { c with inLen := len } v n d = findSymbol src c v n d := by
  have hseen : sentinelSeen { c with inLen := len } v d = sentinelSeen c v d := rfl
  have hconf : confirm { c with inLen := len } v d = confirm c v d := rfl
  induction n generalizing d with
  | zero => rw [findSymbol, findSymbol, hseen, hconf]
  | succ n ih =>
    rw [findSymbol, findSymbol, hseen, hconf]
    split
    · rfl
    · split
      · rfl
      · exact ih _ rfl rfl

theorem modelVec_withInLen (m : Model) (c : Conf) (len : BitVec 17) (k : Counts) :
    modelVec m { c with inLen := len } k = modelVec m c k := by
  cases m <;> rfl

theorem modelUpdate_withInLen (m : Model) (c : Conf) (len : BitVec 17) (k : Counts) (x : Nat) :
    modelUpdate m { c with inLen := len } k x = modelUpdate m c k x := by
  cases m <;> rfl

theorem decodeSymbols_withInLen (src : Nat → Bool) (m : Model) (c : Conf) (len : BitVec 17) (room : Nat) (d : DecRun) :
    decodeSymbols src m { c with inLen := len } room d = decodeSymbols src m c room d := by
  induction room generalizing d with
  | zero => rw [decodeSymbols, decodeSymbols, modelVec_withInLen, findSymbol_withInLen]
  | succ room ih =>
    rw [decodeSymbols, decodeSymbols, modelVec_withInLen, findSymbol_withInLen]
    cases findSymbol src c (modelVec m c d.counts) (Config.kmax - d.k) d with
    | error f => rfl
    | ok found =>
      obtain ⟨x, d'⟩ := found
      cases x with
      | none => rfl
      | some x =>
        dsimp only
        rw [modelUpdate_withInLen]
        cases modelUpdate m c d'.counts x with
        | none => rfl
        | some k => exact ih _

/-! ### The commands -/

/-- `AENC` that completes has coded its symbols, and `OUT_BUF` holds the bits, zero-padded (R262). -/
theorem aenc_completed {m : Model} {s t : State} (hlegal : ConfigLegal m s.conf) (hlen : inLen s ≤ 65536)
    (hexec : exec (aencOf m) s = .next t) (hdone : Completed s t) :
    ∃ p bits, encodeAnswer m s = .ok p ∧ FinishesWith m s.conf (inLen s) p.1 p.2 bits ∧ BitsFit bits ∧
      t.res.outLen = BitVec.ofNat 32 (packedLen bits.length) ∧ t.outBuf = s.outBuf.overwrite (packBits bits) := by
  obtain ⟨b, hbody, rfl⟩ | ⟨f, -, rfl⟩ := exec_cases hexec
  · rw [entryOf_coder (.inl rfl) s, bodyOf_aenc, encodeBody_eq_bind (checkCoder_ok hlen hlegal)] at hbody
    have hsyms := encodeSymbols_endsWith m s.conf (inBytes s) 0 (modelInit m s.work.counts)
      (r := encStart s.conf.numFmt) (Nat.zero_le _)
    cases hanswer : encodeAnswer m s with
    | error f =>
      rw [hanswer] at hbody
      cases hbody
    | ok p =>
      have hsentinel := narrowSentinel_endsWith m s.conf (inLen s) p.1 (hsyms.value hanswer)
      rw [hanswer, Except.bind] at hbody
      cases hfinal : narrowSentinel m s.conf (inLen s) p.1 p.2 with
      | error f =>
        rw [hfinal] at hbody
        cases hbody
      | ok r' =>
        rw [hfinal, Except.bind, outBit_of_fits _ _ _ (hsentinel.value hfinal)] at hbody
        split_ifs at hbody with hroom
        · cases hbody
          refine ⟨p, _, rfl, ⟨r', hfinal, rfl⟩, ?_, rfl, rfl⟩
          rw [BitsFit, List.length_append, List.length_singleton]
          exact hroom
        · cases hbody
  · obtain ⟨-, -, herrcode, -⟩ := hdone
    exact absurd herrcode (raiseErr_errcode_ne_zero f _)

/-- The stream that a copy of `OUT_BUF` gives, with zero bytes added or removed at its end, is the one written (R272, R381). -/
theorem bitSource_of_packBits {bits : List Bool} (hfit : BitsFit bits) (m : Memory) (j : Nat) :
    (decide (j < 8 * (BitVec.ofNat 32 (packedLen bits.length)).toNat) &&
      ((m.overwrite (packBits bits)).read (j / 8)).getMsbD (j % 8)) = bitSource bits j := by
  rw [toNat_ofNat_of_le_obufBytes (packedLen_le hfit), bitSource]
  by_cases hj : j < 8 * packedLen bits.length
  · rw [decide_eq_true hj, Bool.true_and, read_packBits _ _ _ hj]
  · have hlen : bits.length ≤ j := by
      unfold packedLen at hj
      omega
    rw [decide_eq_false hj, Bool.false_and, List.getD_eq_default _ _ hlen]

/-- `ADEC` on the stream of a completed `AENC` leaves its input (R281). -/
theorem decodeAnswer_of_encoded {m : Model} {s u : State} (hfixed : s.conf.numFmt = .fixed) (hlegal : ConfigLegal m s.conf)
    (hlen : inLen s ≤ 65536) {p : Counts × EncRun} {bits : List Bool} (hanswer : encodeAnswer m s = .ok p)
    (hfin : FinishesWith m s.conf (inLen s) p.1 p.2 bits) (hconf : u.conf = { s.conf with inLen := u.conf.inLen })
    (hsource : inBitZ u = bitSource bits) : ∃ d, decodeAnswer m u = .ok d ∧ d.out = inBytes s := by
  obtain ⟨d, hrun, hout⟩ := decodeSymbols_encoded hfixed hlegal (inBytes s) (records_modelInit m s.work.counts)
    (wideInterval_start s.conf.numFmt) (by simpa using hlen) hanswer hfin (room := Config.obufBytes)
    (by rw [length_inBytes]; exact hlen) (tracks_start s.conf bits (modelInit m u.work.counts))
    (by rw [(decStart_kept _ _ _).1]; exact records_modelInit m _)
  refine ⟨d, ?_, by rw [hout, decStart_out, List.nil_append]⟩
  have hfmt : u.conf.numFmt = s.conf.numFmt := by rw [hconf]
  rw [decodeAnswer, hsource, hfmt, hconf, decodeSymbols_withInLen]
  exact hrun

/-- Settles O32: the decoder follows the code value that the encoder has kept in every interval. -/
theorem fixedArithmeticRoundTrip : Obligations.FixedArithmeticRoundTrip := by
  intro m s hfixed hlegal hinput
  obtain ⟨hlen, -⟩ := id hinput
  obtain ⟨t, hexec⟩ := exec_next (aencOf m) s
  refine ⟨t, hexec, fun hsmall => ?_, fun hdone u hconf hulen hsource => ?_⟩
  · obtain ⟨k, r, r', -, -, hlength, hok, -⟩ := encodeBody_of_legal hlegal hinput
    have hbody := exec_aenc_of_ok (hok (by omega))
    rw [hexec] at hbody
    cases hbody
    exact ⟨rfl, rfl, rfl, rfl, rfl, rfl⟩
  · obtain ⟨p, bits, hanswer, hfin, hfit, hlen', hbuf⟩ := aenc_completed hlegal hlen hexec hdone
    have hsource : inBitZ u = bitSource bits := by
      funext j
      rw [hsource, hlen', hbuf, bitSource_of_packBits hfit]
    obtain ⟨d, hrun, hout⟩ := decodeAnswer_of_encoded hfixed hlegal hlen hanswer hfin hconf hsource
    have hulegal : ConfigLegal m u.conf := by
      rw [hconf]
      exact hlegal
    have hcount : d.out.length = inLen s := by rw [hout, length_inBytes]
    refine ⟨_, exec_adec_of_ok (checkCoder_ok hulen hulegal) hrun, completed_commitDecode d u,
      congrArg (BitVec.ofNat 32) hcount, fun i hi => ?_⟩
    have hi' : i < d.out.length := hcount ▸ hi
    rw [commitDecode_outBuf, Memory.read_overwrite, dif_pos hi']
    simp [hout, inBytes]

end Sys2Proof.Machine
end

section
/-! Paths in the tree (R331, R332): no path to a leaf begins another one, so in a tree that matches the codeword table no
codeword begins another one (R340). -/

namespace Sys2Proof.Machine

theorem leafWord_injective {x y : Nat} (hx : x < 256) (hy : y < 256) (h : leafWord x = leafWord y) : x = y := by
  rw [← nodeSym_leafWord x hx, h, nodeSym_leafWord y hy]

@[simp] theorem leadsTo_nil (a : Arena) (n sym : Nat) : leadsTo a n [] sym = true ↔ a.read n = leafWord sym := by
  simp [leadsTo]

@[simp] theorem leadsTo_cons (a : Arena) (n : Nat) (b : Bool) (bs : List Bool) (sym : Nat) :
    leadsTo a n (b :: bs) sym = true ↔ nodeIsLeaf (a.read n) = false ∧ nodeChild (a.read n) b ≠ Config.nil ∧
      leadsTo a (nodeChild (a.read n) b).toNat bs sym = true := by
  simp [leadsTo, and_assoc]

/-- A path to a leaf that continues another one is the same path (R332). -/
theorem eq_of_leadsTo_of_prefix {a : Arena} {n x y : Nat} {p q : List Bool} (hx : x < 256) (hy : y < 256)
    (hp : leadsTo a n p x = true) (hq : leadsTo a n q y = true) (hpre : p <+: q) : x = y := by
  induction p generalizing n q with
  | nil =>
    rw [leadsTo_nil] at hp
    cases q with
    | nil => exact leafWord_injective hx hy (hp.symm.trans ((leadsTo_nil a n y).1 hq))
    | cons b q =>
      obtain ⟨hleaf, -⟩ := (leadsTo_cons a n b q y).1 hq
      rw [hp, nodeIsLeaf_leafWord] at hleaf
      cases hleaf
  | cons b p ih =>
    obtain ⟨rest, rfl⟩ := hpre
    obtain ⟨-, -, hp⟩ := (leadsTo_cons a n b p x).1 hp
    obtain ⟨-, -, hq⟩ := (leadsTo_cons a n b (p ++ rest) y).1 hq
    exact ih hp hq ⟨rest, rfl⟩

theorem TreeMatchesTable.leadsTo {h : Huff} (htree : TreeMatchesTable h) {x : Nat} (hx : x < 129)
    (hv : cwValid h x = true) : leadsTo h.arena h.hroot.toNat (codeOf h x) x = true := by
  obtain ⟨-, hcodes, -⟩ := htree
  exact (hcodes x hx hv).2

/-- R340: no codeword of a tree begins another one. -/
theorem TreeMatchesTable.prefixFree {h : Huff} (htree : TreeMatchesTable h) {x y : Nat} (hx : x < 129) (hy : y < 129)
    (hne : x ≠ y) (hvx : cwValid h x = true) (hvy : cwValid h y = true) : ¬ codeOf h x <+: codeOf h y :=
  fun hpre => hne (eq_of_leadsTo_of_prefix (by omega) (by omega) (htree.leadsTo hx hvx) (htree.leadsTo hy hvy) hpre)

/-! ### The nodes of a builder (R334) -/

@[simp] theorem Trie.count_alloc (t : Trie) (w : Word) : (t.alloc w).count = t.count + 1 := rfl

@[simp] theorem Trie.node_alloc (t : Trie) (w : Word) (n : Nat) :
    (t.alloc w).node n = if n = t.count then w else t.node n := Arena.read_write t.arena t.count n w

@[simp] theorem Trie.count_setNode (t : Trie) (k : Nat) (w : Word) : (t.setNode k w).count = t.count := rfl

@[simp] theorem Trie.node_setNode (t : Trie) (k : Nat) (w : Word) (n : Nat) :
    (t.setNode k w).node n = if n = k then w else t.node n := Arena.read_write t.arena k n w

/-- A node index below `NIL` fits the child fields and the root register (R47, R55). -/
theorem toNat_nodeIndex {n : Nat} (h : n < 32768) : (BitVec.ofNat 15 n).toNat = n := by
  rw [BitVec.toNat_ofNat]
  exact Nat.mod_eq_of_lt h

theorem nodeIndex_ne_nil {n : Nat} (h : n < 32767) : BitVec.ofNat 15 n ≠ Config.nil := by
  intro he
  have hnat := congrArg BitVec.toNat he
  rw [toNat_nodeIndex (by omega)] at hnat
  simp [Config.nil] at hnat
  omega

end Sys2Proof.Machine
end

section
/-! `HBUILD` (R336): the leaves and the merge loop, said as `GreedyMerge` over the nodes that the loop leaves. -/

namespace Sys2Proof.Machine

/-! ### The leaves (R336) -/

/-- `Alloc` of several words in turn (R334). -/
def Trie.allocAll (t : Trie) (ws : List Word) : Trie := ws.foldl Trie.alloc t

@[simp] theorem Trie.count_allocAll (t : Trie) (ws : List Word) : (t.allocAll ws).count = t.count + ws.length := by
  induction ws generalizing t with
  | nil => rfl
  | cons w ws ih =>
    refine (ih (t.alloc w)).trans ?_
    simp only [Trie.count_alloc, List.length_cons]
    omega

theorem Trie.node_allocAll_of_not_mem (t : Trie) (ws : List Word) {n : Nat} (h : n < t.count ∨ t.count + ws.length ≤ n) :
    (t.allocAll ws).node n = t.node n := by
  induction ws generalizing t with
  | nil => rfl
  | cons w ws ih =>
    simp only [List.length_cons] at h
    have hne : n ≠ t.count := by omega
    refine (ih (t.alloc w) (by rw [Trie.count_alloc]; omega)).trans ?_
    rw [Trie.node_alloc, if_neg hne]

theorem Trie.node_allocAll (t : Trie) (ws : List Word) {j : Nat} (hj : j < ws.length) :
    (t.allocAll ws).node (t.count + j) = ws[j] := by
  induction ws generalizing t j with
  | nil => exact absurd hj (Nat.not_lt_zero j)
  | cons w ws ih =>
    cases j with
    | zero =>
      refine (Trie.node_allocAll_of_not_mem (t.alloc w) ws (.inl ?_)).trans ?_
      · rw [Trie.count_alloc]; omega
      · rw [Trie.node_alloc]; simp
    | succ j =>
      have hnode := ih (t.alloc w) (j := j) (by simpa using hj)
      rw [Trie.count_alloc, Nat.add_right_comm, Nat.add_assoc] at hnode
      exact hnode

/-- The group of a symbol whose leaf is the given node. -/
def leafGroup (h : Huff) (q : Nat × Nat) : Group :=
  { freq := freqOf h q.1, id := q.1, size := 1, members := [(q.1, [])], tree := q.2 }

theorem leafGroups_eq_map (h : Huff) : leafGroups h = (usedSymbols h).zipIdx.map (leafGroup h) := rfl

theorem makeLeaves_eq (h : Huff) (syms : List Nat) (t : Trie) :
    makeLeaves h syms t = (((syms.filter fun x => freqOf h x ≠ 0).zipIdx t.count).map (leafGroup h),
      t.allocAll ((syms.filter fun x => freqOf h x ≠ 0).map leafWord)) := by
  induction syms generalizing t with
  | nil => rfl
  | cons x syms ih =>
    unfold makeLeaves
    split
    · next hzero =>
      rw [ih]
      simp [hzero]
    · next hfreq =>
      dsimp only
      rw [ih]
      simp [hfreq, leafGroup, Trie.allocAll]

theorem sentH_mem_usedSymbols (h : Huff) : 128 ∈ usedSymbols h := by
  simp [usedSymbols, freqOf, Config.sentH]

theorem usedSymbols_length_pos (h : Huff) : 0 < (usedSymbols h).length :=
  List.length_pos_of_mem (sentH_mem_usedSymbols h)

theorem usedSymbols_length_le (h : Huff) : (usedSymbols h).length ≤ 129 :=
  (List.length_filter_le _ _).trans_eq List.length_range

theorem usedSymbols_nodup (h : Huff) : (usedSymbols h).Nodup := List.nodup_range.filter _

@[simp] theorem mem_usedSymbols {h : Huff} {x : Nat} : x ∈ usedSymbols h ↔ x < 129 ∧ freqOf h x ≠ 0 := by
  simp [usedSymbols]

@[simp] theorem leafGroups_length (h : Huff) : (leafGroups h).length = (usedSymbols h).length := by
  simp [leafGroups]

theorem leafGroups_map_id (h : Huff) : (leafGroups h).map Group.id = usedSymbols h := by
  simp [leafGroups, Function.comp_def]

/-! ### Extraction (R336) -/

theorem Group.before_iff (a b : Group) : a.before b = true ↔ a.Precedes b := by
  simp [Group.before]

theorem extractMin_ne_none {gs : List Group} (h : gs ≠ []) : ∃ m rest, extractMin gs = some (m, rest) := by
  cases gs with
  | nil => exact absurd rfl h
  | cons g gs =>
    unfold extractMin
    split
    · exact ⟨_, _, rfl⟩
    · split
      · exact ⟨_, _, rfl⟩
      · exact ⟨_, _, rfl⟩

/-- The extracted group has none before it (R336). -/
theorem extractMin_least {gs : List Group} {m : Group} {rest : List Group} (h : extractMin gs = some (m, rest)) :
    gs.Perm (m :: rest) ∧ ∀ x ∈ rest, ¬ x.Precedes m := by
  induction gs generalizing m rest with
  | nil => cases h
  | cons g gs ih =>
    unfold extractMin at h
    split at h
    · next hnone =>
      obtain rfl : gs = [] := by
        by_contra hne
        obtain ⟨m', rest', hsome⟩ := extractMin_ne_none hne
        rw [hnone] at hsome
        cases hsome
      cases h
      simp
    · next m' rest' hsome =>
      obtain ⟨hperm, hleast⟩ := ih hsome
      split at h
      · next hbefore =>
        cases h
        rw [Group.before_iff] at hbefore
        refine ⟨List.Perm.refl _, fun x hx => ?_⟩
        rcases List.mem_cons.1 (hperm.mem_iff.1 hx) with rfl | hx
        · unfold Group.Precedes at *; omega
        · have := hleast x hx
          unfold Group.Precedes at *; omega
      · next hbefore =>
        cases h
        rw [Group.before_iff] at hbefore
        refine ⟨(hperm.cons g).trans (List.Perm.swap _ _ _), fun x hx => ?_⟩
        rcases List.mem_cons.1 hx with rfl | hx
        · exact hbefore
        · exact hleast x hx

/-- Ids are distinct, so the extracted group precedes every other one (R336). -/
theorem extractMin_precedes {gs : List Group} {m : Group} {rest : List Group} (h : extractMin gs = some (m, rest))
    (hids : (gs.map Group.id).Nodup) :
    gs.Perm (m :: rest) ∧ (rest.map Group.id).Nodup ∧ m.id ∉ rest.map Group.id ∧ ∀ x ∈ rest, m.Precedes x := by
  obtain ⟨hperm, hleast⟩ := extractMin_least h
  have hids' := (hperm.map Group.id).nodup_iff.1 hids
  rw [List.map_cons, List.nodup_cons] at hids'
  obtain ⟨hnot, hrest⟩ := hids'
  refine ⟨hperm, hrest, hnot, fun x hx => ?_⟩
  have hne : x.id ≠ m.id := fun he => hnot (he ▸ List.mem_map_of_mem hx)
  have := hleast x hx
  unfold Group.Precedes at *
  omega

/-! ### The merge loop (R336) -/

/-- What the merge loop leaves: one group, made by greedy merges over the nodes it has allocated. -/
structure Merged (t : Trie) (gs : List Group) (g : Group) (t' : Trie) : Prop where
  count : t'.count + 1 = t.count + gs.length
  kept : ∀ n, n < t.count ∨ t'.count ≤ n → t'.node n = t.node n
  greedy : GreedyMerge t'.node t.count gs g

theorem mergeAll_last {gs : List Group} {a : Group} (ha : extractMin gs = some (a, [])) (fuel : Nat) (t : Trie) :
    mergeAll (fuel + 1) gs t = (gs, t) := by
  simp [mergeAll, ha, extractMin]

theorem mergeAll_merge {gs rest rest' : List Group} {a b : Group} (ha : extractMin gs = some (a, rest))
    (hb : extractMin rest = some (b, rest')) (fuel : Nat) (t : Trie) :
    mergeAll (fuel + 1) gs t = mergeAll fuel (mergeGroups a b t.count :: rest')
      (t.alloc (internalWord (BitVec.ofNat 15 a.tree) (BitVec.ofNat 15 b.tree))) := by
  simp [mergeAll, ha, hb]

theorem mergeAll_merged (fuel : Nat) {gs : List Group} (t : Trie) (hne : gs ≠ []) (hfuel : gs.length ≤ fuel)
    (hids : (gs.map Group.id).Nodup) : ∃ g t', mergeAll fuel gs t = ([g], t') ∧ Merged t gs g t' := by
  induction fuel generalizing gs t with
  | zero => exact absurd (List.length_eq_zero_iff.1 (Nat.le_zero.1 hfuel)) hne
  | succ fuel ih =>
    obtain ⟨a, rest, ha⟩ := extractMin_ne_none hne
    obtain ⟨hpa, hidsa, hnota, hlta⟩ := extractMin_precedes ha hids
    cases rest with
    | nil =>
      obtain rfl := List.perm_singleton.1 hpa
      exact ⟨a, t, mergeAll_last ha fuel t, by simp, fun _ _ => rfl, .last _ a⟩
    | cons r rs =>
      obtain ⟨b, rest', hb⟩ := extractMin_ne_none (List.cons_ne_nil r rs)
      obtain ⟨hpb, hidsb, hnotb, hltb⟩ := extractMin_precedes hb hidsa
      have hids' : ((mergeGroups a b t.count :: rest').map Group.id).Nodup := by
        have hnota' : a.id ∉ rest'.map Group.id := fun hin =>
          hnota ((hpb.map Group.id).mem_iff.2 (List.mem_cons_of_mem _ hin))
        rw [List.map_cons, List.nodup_cons]
        refine ⟨?_, hidsb⟩
        unfold mergeGroups
        dsimp only
        split
        · exact hnota'
        · exact hnotb
      have hlen : gs.length = rest'.length + 2 := by rw [hpa.length_eq, List.length_cons, hpb.length_eq, List.length_cons]
      obtain ⟨g, t', hrun, hcount, hkept, hgreedy⟩ := ih
        (t.alloc (internalWord (BitVec.ofNat 15 a.tree) (BitVec.ofNat 15 b.tree)))
        (List.cons_ne_nil (mergeGroups a b t.count) rest') (by rw [List.length_cons]; omega) hids'
      rw [Trie.count_alloc] at hcount hkept hgreedy
      rw [List.length_cons] at hcount
      refine ⟨g, t', (mergeAll_merge ha hb fuel t).trans hrun, by omega, fun n hn => ?_, ?_⟩
      · rw [hkept n (by omega), Trie.node_alloc, if_neg (by omega)]
      · refine .merge _ gs rest' a b (mergeGroups a b t.count) g (hpa.trans (hpb.cons a))
          (fun x hx => hlta x (hpb.mem_iff.2 hx)) hltb ?_ rfl rfl rfl rfl rfl hgreedy
        rw [hkept _ (.inl (Nat.lt_succ_self _)), Trie.node_alloc, if_pos rfl]

end Sys2Proof.Machine
end

section
/-! The tree that the greedy merge makes (R331, R336, R341): every codeword is the path to its leaf, and the table holds the
codewords. -/

namespace Sys2Proof.Machine

/-! ### What every group holds -/

/-- The tree of a group in the arena `a`: every member's codeword is the path to its leaf, with at most one bit for each other
member, and the group has the frequency of its members. -/
structure Subtree (h : Huff) (a : Arena) (g : Group) : Prop where
  nonempty : g.members ≠ []
  size : g.size = g.members.length
  freq : g.freq = (g.members.map fun m => freqOf h m.1).sum
  path : ∀ m ∈ g.members, leadsTo a g.tree m.2 m.1 = true
  depth : ∀ m ∈ g.members, m.2.length + 1 ≤ g.members.length

/-- The members of the merge of `x` and `y`: a 0 before the codewords of `x`, a 1 before those of `y` (R336). -/
def mergedMembers (x y : Group) : List (Nat × List Bool) :=
  (x.members.map fun m => (m.1, false :: m.2)) ++ (y.members.map fun m => (m.1, true :: m.2))

@[simp] theorem mergedMembers_length (x y : Group) :
    (mergedMembers x y).length = x.members.length + y.members.length := by simp [mergedMembers]

theorem mergedMembers_map_fst (x y : Group) :
    (mergedMembers x y).map Prod.fst = x.members.map Prod.fst ++ y.members.map Prod.fst := by
  simp [mergedMembers, Function.comp_def]

theorem leadsTo_internal {a : Arena} {n l r : Nat} (hl : l < 32767) (hr : r < 32767)
    (hn : a.read n = internalWord (BitVec.ofNat 15 l) (BitVec.ofNat 15 r)) (b : Bool) (bs : List Bool) (sym : Nat) :
    leadsTo a n (b :: bs) sym = leadsTo a (if b then r else l) bs sym := by
  have hlt : (if b then r else l) < 32767 := by split <;> assumption
  have hchild : nodeChild (a.read n) b = BitVec.ofNat 15 (if b then r else l) := by
    rw [hn, nodeChild_internalWord]
    split <;> rfl
  rw [leadsTo, hchild, toNat_nodeIndex (by omega), hn, nodeIsLeaf_internalWord]
  simp [nodeIndex_ne_nil hlt]

theorem Subtree.merge {h : Huff} {a : Arena} {x y c : Group} (hx : Subtree h a x) (hy : Subtree h a y)
    (hltx : x.tree < 32767) (hlty : y.tree < 32767)
    (hn : a.read c.tree = internalWord (BitVec.ofNat 15 x.tree) (BitVec.ofNat 15 y.tree))
    (hf : c.freq = x.freq + y.freq) (hs : c.size = x.size + y.size) (hm : c.members = mergedMembers x y) :
    Subtree h a c := by
  have hxpos := List.length_pos_iff.2 hx.nonempty
  have hypos := List.length_pos_iff.2 hy.nonempty
  refine ⟨?_, ?_, ?_, fun m hmem => ?_, fun m hmem => ?_⟩
  · rw [← List.length_pos_iff, hm, mergedMembers_length]
    omega
  · rw [hs, hm, mergedMembers_length, hx.size, hy.size]
  · rw [hf, hx.freq, hy.freq, hm]
    simp [mergedMembers, Function.comp_def]
  · rw [hm, mergedMembers, List.mem_append, List.mem_map, List.mem_map] at hmem
    obtain ⟨m', hm', rfl⟩ | ⟨m', hm', rfl⟩ := hmem
    · rw [leadsTo_internal hltx hlty hn]
      exact hx.path m' hm'
    · rw [leadsTo_internal hltx hlty hn]
      exact hy.path m' hm'
  · rw [hm, mergedMembers_length]
    rw [hm, mergedMembers, List.mem_append, List.mem_map, List.mem_map] at hmem
    obtain ⟨m', hm', rfl⟩ | ⟨m', hm', rfl⟩ := hmem
    · have := hx.depth m' hm'
      rw [List.length_cons]
      omega
    · have := hy.depth m' hm'
      rw [List.length_cons]
      omega

/-- The merges keep `Subtree`, and the root is one of the nodes they have allocated. -/
theorem GreedyMerge.subtree {h : Huff} {a : Arena} {n : Nat} {gs : List Group} {g : Group}
    (hmerge : GreedyMerge a.read n gs g) (hroom : n + gs.length ≤ 32768) (hlt : ∀ x ∈ gs, x.tree < n)
    (hsub : ∀ x ∈ gs, Subtree h a x) : Subtree h a g ∧ g.tree + 1 < n + gs.length := by
  induction hmerge with
  | last n g =>
    have := hlt g (List.mem_singleton_self g)
    exact ⟨hsub g (List.mem_singleton_self g), by rw [List.length_singleton]; omega⟩
  | merge n gs rest x y c g hp _ _ hn ht hf hs _ hm _ ih =>
    have hlen := hp.length_eq
    simp only [List.length_cons] at hlen ih
    have hxmem : x ∈ gs := hp.mem_iff.2 List.mem_cons_self
    have hymem : y ∈ gs := hp.mem_iff.2 (List.mem_cons_of_mem _ List.mem_cons_self)
    have hrest : ∀ z ∈ rest, z ∈ gs := fun z hz =>
      hp.mem_iff.2 (List.mem_cons_of_mem _ (List.mem_cons_of_mem _ hz))
    have hltx := hlt x hxmem
    have hlty := hlt y hymem
    have hc : Subtree h a c :=
      (hsub x hxmem).merge (hsub y hymem) (by omega) (by omega) (ht ▸ hn) hf hs hm
    obtain ⟨hg, hroot⟩ := ih (by omega) (List.forall_mem_cons.2 ⟨by omega, fun z hz => (hlt z (hrest z hz)).trans (by omega)⟩)
      (List.forall_mem_cons.2 ⟨hc, fun z hz => hsub z (hrest z hz)⟩)
    exact ⟨hg, by omega⟩

/-- No symbol is lost by a merge. -/
theorem GreedyMerge.members_perm {node : Nat → Word} {n : Nat} {gs : List Group} {g : Group}
    (hmerge : GreedyMerge node n gs g) :
    (g.members.map Prod.fst).Perm (gs.flatMap fun x => x.members.map Prod.fst) := by
  induction hmerge with
  | last n g => simp
  | merge n gs rest x y c g hp _ _ _ _ _ _ _ hm _ ih =>
    have hc : c.members.map Prod.fst = x.members.map Prod.fst ++ y.members.map Prod.fst :=
      (congrArg (List.map Prod.fst) hm).trans (mergedMembers_map_fst x y)
    refine ih.trans (.trans ?_ (hp.flatMap_right _).symm)
    simp [hc]

/-- The nodes of the merges have two children, both allocated before (R331, R336). -/
theorem GreedyMerge.inner {node : Nat → Word} {n : Nat} {gs : List Group} {g : Group}
    (hmerge : GreedyMerge node n gs g) (hroom : n + gs.length ≤ 32768) (hlt : ∀ x ∈ gs, x.tree < n) {k : Nat}
    (hk : n ≤ k) (hk' : k + 1 < n + gs.length) :
    nodeIsLeaf (node k) = false ∧ ∀ b, (nodeChild (node k) b).toNat < k := by
  induction hmerge with
  | last n g =>
    rw [List.length_singleton] at hk'
    omega
  | merge n gs rest x y c g hp _ _ hn ht _ _ _ _ _ ih =>
    have hlen := hp.length_eq
    simp only [List.length_cons] at hlen ih
    have hltx := hlt x (hp.mem_iff.2 List.mem_cons_self)
    have hlty := hlt y (hp.mem_iff.2 (List.mem_cons_of_mem _ List.mem_cons_self))
    have hrest : ∀ z ∈ rest, z.tree < n := fun z hz =>
      hlt z (hp.mem_iff.2 (List.mem_cons_of_mem _ (List.mem_cons_of_mem _ hz)))
    obtain rfl | hk := Nat.eq_or_lt_of_le hk
    · refine ⟨hn ▸ nodeIsLeaf_internalWord _ _, fun b => ?_⟩
      rw [hn, nodeChild_internalWord]
      split <;> rw [toNat_nodeIndex (by omega)] <;> assumption
    · exact ih (by omega) (List.forall_mem_cons.2 ⟨by omega, fun z hz => (hrest z hz).trans (by omega)⟩) hk (by omega)

/-! ### The codeword table (R52, R53, R336) -/

theorem memberCode_eq_none {ms : List (Nat × List Bool)} {x : Nat} : memberCode ms x = none ↔ x ∉ ms.map Prod.fst := by
  induction ms with
  | nil => simp [memberCode]
  | cons m ms ih =>
    unfold memberCode
    split
    · next he => simp [he]
    · next hne => simp [ih, Ne.symm hne]

theorem memberCode_eq_some {ms : List (Nat × List Bool)} (hnodup : (ms.map Prod.fst).Nodup) {x : Nat} {code : List Bool} :
    memberCode ms x = some code ↔ (x, code) ∈ ms := by
  induction ms with
  | nil => simp [memberCode]
  | cons m ms ih =>
    rw [List.map_cons, List.nodup_cons] at hnodup
    obtain ⟨hnot, hnodup⟩ := hnodup
    unfold memberCode
    split
    · next he =>
      subst he
      have hmem : (m.1, code) ∉ ms := fun hin => hnot (List.mem_map.2 ⟨_, hin, rfl⟩)
      simp [hmem, Prod.ext_iff, eq_comm]
    · next hne => simp [ih hnodup, Prod.ext_iff, Ne.symm hne]

section

variable (g : Group) (t : Trie) (s : State) {x : Nat}

@[simp] theorem commitBuild_cwLen (hx : x < 129) :
    tget (commitBuild g t s).huff.cwLen x = cwLenEntry g.members x := by
  simp [commitBuild, hx]

@[simp] theorem commitBuild_cwBits (hx : x < 129) {k : Nat} (hk : k < 4) :
    tget (commitBuild g t s).huff.cwBits (4 * x + k) = cwBitsEntry g.members x k := by
  have hdiv : (4 * x + k) / 4 = x := by omega
  have hmod : (4 * x + k) % 4 = k := by omega
  have hlt : 4 * x + k < 516 := by omega
  simp [commitBuild, hdiv, hmod, hlt]

theorem cwValid_commitBuild (hx : x < 129) :
    cwValid (commitBuild g t s).huff x = (memberCode g.members x).isSome := by
  rw [cwValid, commitBuild_cwLen g t s hx, cwLenEntry]
  split
  · next code hcode =>
    rw [hcode, BitVec.getLsbD_append]
    rfl
  · next hnone => rw [hnone]; rfl

variable {code : List Bool}

theorem cwLength_commitBuild (hx : x < 129) (hcode : memberCode g.members x = some code) (hlen : code.length ≤ 128) :
    cwLength (commitBuild g t s).huff x = code.length := by
  rw [cwLength, commitBuild_cwLen g t s hx, cwLenEntry, hcode]
  dsimp only
  rw [BitVec.setWidth_append]
  simp
  omega

theorem cwBit_commitBuild (hx : x < 129) (hcode : memberCode g.members x = some code) {i : Nat} (hi : i < 128) :
    cwBit (commitBuild g t s).huff x i = code.getD i false := by
  rw [cwBit, commitBuild_cwBits g t s hx (by omega), cwBitsEntry, hcode]
  dsimp only
  rw [packUnit_getMsbD _ _ _ _ (Nat.mod_lt _ (by omega)), Nat.div_add_mod]

theorem codeOf_commitBuild (hx : x < 129) (hcode : memberCode g.members x = some code) (hlen : code.length ≤ 128) :
    codeOf (commitBuild g t s).huff x = code := by
  apply List.ext_getElem
  · rw [codeOf_length, cwLength_commitBuild g t s hx hcode hlen]
  · intro i hi hi'
    simp only [codeOf, List.getElem_map, List.getElem_range]
    rw [cwBit_commitBuild g t s hx hcode (by omega), List.getD_eq_getElem _ _ hi']

/-- The table entries of a symbol without a leaf are 0 (R336). -/
theorem commitBuild_of_no_leaf (hx : x < 129) (hnone : memberCode g.members x = none) :
    tget (commitBuild g t s).huff.cwLen x = 0 ∧ ∀ k < 4, tget (commitBuild g t s).huff.cwBits (4 * x + k) = 0 := by
  refine ⟨?_, fun k hk => ?_⟩
  · rw [commitBuild_cwLen g t s hx, cwLenEntry, hnone]
  · rw [commitBuild_cwBits g t s hx hk, cwBitsEntry, hnone]

theorem cwBit_commitBuild_of_no_leaf (hx : x < 129) (hnone : memberCode g.members x = none) {i : Nat} (hi : i < 128) :
    cwBit (commitBuild g t s).huff x i = false := by
  rw [cwBit, (commitBuild_of_no_leaf g t s hx hnone).2 _ (by omega)]
  exact BitVec.getMsbD_zero

end

end Sys2Proof.Machine
end

section
/-! `HBUILD` as a whole (R333, R336, R341). -/

namespace Sys2Proof.Machine

/-- `HBUILD` has made the group `g` and the nodes of `t` from the state `s`. -/
structure Builds (s : State) (g : Group) (t : Trie) : Prop where
  count : t.count + 1 = 2 * (usedSymbols s.huff).length
  leaf : ∀ j, (hj : j < (usedSymbols s.huff).length) → t.node j = leafWord (usedSymbols s.huff)[j]
  kept : ∀ n, t.count ≤ n → t.node n = s.huff.arena.read n
  greedy : GreedyMerge t.arena.read (usedSymbols s.huff).length (leafGroups s.huff) g

theorem buildBody_builds (s : State) : ∃ g t, buildBody s = commitBuild g t s ∧ Builds s g t := by
  have hleaves : makeLeaves s.huff (List.range 129) (trieStart s) =
      (leafGroups s.huff, (trieStart s).allocAll ((usedSymbols s.huff).map leafWord)) := makeLeaves_eq _ _ _
  have hcount : ((trieStart s).allocAll ((usedSymbols s.huff).map leafWord)).count = (usedSymbols s.huff).length := by
    rw [Trie.count_allocAll, List.length_map]
    exact Nat.zero_add _
  have hpos := usedSymbols_length_pos s.huff
  have hlen := leafGroups_length s.huff
  obtain ⟨g, t, hrun, hmerged⟩ := mergeAll_merged (leafGroups s.huff).length
    ((trieStart s).allocAll ((usedSymbols s.huff).map leafWord)) (List.ne_nil_of_length_pos (hlen ▸ hpos)) (Nat.le_refl _)
    (leafGroups_map_id s.huff ▸ usedSymbols_nodup s.huff)
  obtain ⟨hcount', hkept, hgreedy⟩ := hmerged
  rw [hcount] at hcount' hkept hgreedy
  refine ⟨g, t, ?_, ?_, fun j hj => ?_, fun n hn => ?_, hgreedy⟩
  · rw [buildBody, hleaves]
    dsimp only
    rw [hrun]
    rfl
  · omega
  · have hnode := Trie.node_allocAll (trieStart s) ((usedSymbols s.huff).map leafWord) (j := j) (by simpa using hj)
    rw [show (trieStart s).count = 0 from rfl, Nat.zero_add] at hnode
    rw [hkept j (.inl hj), hnode, List.getElem_map]
  · rw [hkept n (.inr hn), Trie.node_allocAll_of_not_mem _ _ (.inr ?_)]
    · rfl
    · rw [← Trie.count_allocAll, hcount]
      omega

theorem leafGroups_tree_lt (h : Huff) : ∀ x ∈ leafGroups h, x.tree < (usedSymbols h).length := by
  intro x hx
  rw [leafGroups_eq_map, List.mem_map] at hx
  obtain ⟨q, hq, rfl⟩ := hx
  exact List.snd_lt_of_mem_zipIdx hq

namespace Builds

variable {s : State} {g : Group} {t : Trie} (hb : Builds s g t)

include hb

theorem count_le : t.count ≤ 257 := by
  have := hb.count
  have := usedSymbols_length_le s.huff
  omega

theorem leafGroups_subtree : ∀ x ∈ leafGroups s.huff, Subtree s.huff t.arena x := by
  intro x hx
  rw [leafGroups_eq_map, List.mem_map] at hx
  obtain ⟨⟨y, j⟩, hq, rfl⟩ := hx
  obtain ⟨-, hj, hy⟩ := List.mem_zipIdx hq
  have hleaf : leadsTo t.arena j [] y = true := by
    rw [leadsTo_nil, hy]
    exact hb.leaf j (by simpa using hj)
  exact ⟨by simp [leafGroup], rfl, by simp [leafGroup], by simpa [leafGroup] using hleaf, by simp [leafGroup]⟩

theorem subtree : Subtree s.huff t.arena g ∧ g.tree < t.count := by
  have hcount := hb.count
  have hle := usedSymbols_length_le s.huff
  obtain ⟨hsub, hroot⟩ := hb.greedy.subtree (by rw [leafGroups_length]; omega) (leafGroups_tree_lt s.huff) hb.leafGroups_subtree
  rw [leafGroups_length] at hroot
  exact ⟨hsub, by omega⟩

/-- The members of the last group are the used symbols. -/
theorem members_perm : (g.members.map Prod.fst).Perm (usedSymbols s.huff) := by
  refine hb.greedy.members_perm.trans (.of_eq ?_)
  rw [leafGroups_eq_map, List.flatMap_map]
  simp [leafGroup, ← List.map_eq_flatMap]

theorem members_length : g.members.length = (usedSymbols s.huff).length := by
  have := hb.members_perm.length_eq
  rwa [List.length_map] at this

theorem mem_members_iff {x : Nat} {code : List Bool} : (x, code) ∈ g.members ↔ memberCode g.members x = some code :=
  (memberCode_eq_some (hb.members_perm.nodup_iff.2 (usedSymbols_nodup s.huff))).symm

theorem memberCode_eq_none_iff {x : Nat} : memberCode g.members x = none ↔ x ∉ usedSymbols s.huff := by
  rw [memberCode_eq_none, hb.members_perm.mem_iff]

theorem code_length {x : Nat} {code : List Bool} (hcode : memberCode g.members x = some code) :
    code.length + 1 ≤ (usedSymbols s.huff).length :=
  hb.members_length ▸ hb.subtree.1.depth (x, code) (hb.mem_members_iff.2 hcode)

theorem code_length_le {x : Nat} {code : List Bool} (hcode : memberCode g.members x = some code) : code.length ≤ 128 := by
  have := hb.code_length hcode
  have := usedSymbols_length_le s.huff
  omega

theorem cwValid_iff {x : Nat} (hx : x < 129) : cwValid (commitBuild g t s).huff x = true ↔ freqOf s.huff x ≠ 0 := by
  rw [cwValid_commitBuild g t s hx, ← Option.ne_none_iff_isSome, ne_eq, hb.memberCode_eq_none_iff, mem_usedSymbols]
  simp [hx]

/-- A symbol of positive frequency is a member with the codeword that the table holds. -/
theorem exists_code {x : Nat} (hx : x ∈ usedSymbols s.huff) :
    memberCode g.members x = some (codeOf (commitBuild g t s).huff x) := by
  cases hcode : memberCode g.members x with
  | none => exact absurd hx (hb.memberCode_eq_none_iff.1 hcode)
  | some code => rw [codeOf_commitBuild g t s (mem_usedSymbols.1 hx).1 hcode (hb.code_length_le hcode)]

theorem mem_members_iff_codeOf {x : Nat} {code : List Bool} :
    (x, code) ∈ g.members ↔ x ∈ usedSymbols s.huff ∧ code = codeOf (commitBuild g t s).huff x := by
  rw [hb.mem_members_iff]
  constructor
  · intro hcode
    have hx : x ∈ usedSymbols s.huff := by
      by_contra hnot
      rw [hb.memberCode_eq_none_iff.2 hnot] at hcode
      cases hcode
    exact ⟨hx, Option.some.inj (hcode.symm.trans (hb.exists_code hx))⟩
  · rintro ⟨hx, rfl⟩
    exact hb.exists_code hx

theorem hroot_toNat : (commitBuild g t s).huff.hroot.toNat = g.tree := by
  have := hb.subtree.2
  have := hb.count_le
  exact toNat_nodeIndex (by omega)

theorem hnodes_toNat : (commitBuild g t s).huff.hnodes.toNat = t.count := by
  have := hb.count_le
  exact (BitVec.toNat_ofNat _ _).trans (Nat.mod_eq_of_lt (by omega))

/-- The nodes above the leaves are those of the merges. -/
theorem inner {n : Nat} (hn : n < t.count) (hle : (usedSymbols s.huff).length ≤ n) :
    nodeIsLeaf (t.node n) = false ∧ ∀ b, (nodeChild (t.node n) b).toNat < n := by
  have hcount := hb.count
  have hle' := usedSymbols_length_le s.huff
  have hlen := leafGroups_length s.huff
  exact hb.greedy.inner (by omega) (leafGroups_tree_lt s.huff) hle (by omega)

/-- R333: the table and the tree of `HBUILD` hold the same code. -/
theorem treeMatchesTable : TreeMatchesTable (commitBuild g t s).huff := by
  obtain ⟨hsub, hroot⟩ := hb.subtree
  refine ⟨by rw [hb.hroot_toNat, hb.hnodes_toNat]; exact hroot, fun x hx hvalid => ?_, fun n hn hleaf => ?_⟩
  · have hcode := hb.exists_code (mem_usedSymbols.2 ⟨hx, (hb.cwValid_iff hx).1 hvalid⟩)
    rw [← codeOf_length, hb.hroot_toNat]
    exact ⟨hb.code_length_le hcode, hsub.path _ (hb.mem_members_iff.2 hcode)⟩
  · rw [hb.hnodes_toNat] at hn
    have hlt : n < (usedSymbols s.huff).length := by
      by_contra hge
      exact Bool.false_ne_true ((hb.inner hn (by omega)).1.symm.trans hleaf)
    have hnode : (commitBuild g t s).huff.arena.read n = leafWord (usedSymbols s.huff)[n] := hb.leaf n hlt
    obtain ⟨hx, hfreq⟩ := mem_usedSymbols.1 (List.getElem_mem hlt)
    rw [hnode, nodeSym_leafWord _ (by omega)]
    exact ⟨hx, (hb.cwValid_iff hx).2 hfreq⟩

end Builds

end Sys2Proof.Machine
end

section
/-! `HCOUNT` (R335): the frequencies are the counts of the input bytes, and the first byte outside ASCII is reported. -/

namespace Sys2Proof.Machine

theorem firstOutside_eq_none {bs : List Byte} (h : ∀ b ∈ bs, b.toNat < 128) (i : Nat) : firstOutside i bs = none := by
  induction bs generalizing i with
  | nil => rfl
  | cons b bs ih =>
    obtain ⟨hb, hbs⟩ := List.forall_mem_cons.1 h
    rw [firstOutside, if_neg (show ¬ Config.sentH ≤ b.toNat from Nat.not_le.2 hb), ih hbs]

theorem firstOutside_append {pre : List Byte} (h : ∀ b ∈ pre, b.toNat < 128) {b : Byte} (hb : 128 ≤ b.toNat)
    (bs : List Byte) (i : Nat) : firstOutside i (pre ++ b :: bs) = some (i + pre.length, b.toNat) := by
  induction pre generalizing i with
  | nil => exact if_pos hb
  | cons a pre ih =>
    obtain ⟨ha, hpre⟩ := List.forall_mem_cons.1 h
    rw [List.cons_append, firstOutside, if_neg (show ¬ Config.sentH ≤ a.toNat from Nat.not_le.2 ha), ih hpre, List.length_cons]
    congr 2
    omega

/-- What `HCOUNT` leaves on ASCII input (R335). -/
def counted (s : State) : State :=
  { s with
    huff := { s.huff with freq := tabulate 128 fun x => BitVec.ofNat 32 (occurrences (inBytes s) x) }
    work := { s.work with ipos := inLen s } }

theorem countBody_of_ascii {s : State} (hlen : inLen s ≤ 65536) (hascii : ∀ i < inLen s, symAt s i < 128) :
    countBody s = .ok (counted s) := by
  rw [countBody, checkInLen_ok hlen, firstOutside_eq_none (forall_mem_inBytes.2 hascii)]
  rfl

theorem countBody_of_outside {s : State} (hlen : inLen s ≤ 65536) {i : Nat} (hi : i < inLen s)
    (hascii : ∀ j < i, symAt s j < 128) (hout : 128 ≤ symAt s i) :
    countBody s = .error { code := .range, pos := i, sym := symAt s i } := by
  have hfirst : firstOutside 0 (inBytes s) = some (i, symAt s i) := by
    rw [inBytes_eq_append hi, firstOutside_append (by simpa [symAt] using hascii) hout]
    simp [symAt]
  rw [countBody, checkInLen_ok hlen, hfirst]

theorem countBody_of_inLen_large {s : State} (h : 65536 < inLen s) :
    countBody s = .error { code := .cfgLen, pos := 0, sym := inLen s } := by
  rw [countBody, checkInLen_error h]

/-- `FREQ[x]` as `HCOUNT` leaves it (R335): at most `IN_LEN`, so it fits. -/
theorem freq_counted {s : State} (hlen : inLen s ≤ 65536) {x : Nat} (hx : x < 128) :
    (tget (counted s).huff.freq x).toNat = occurrences (inBytes s) x := by
  have hle : occurrences (inBytes s) x ≤ (inBytes s).length := List.countP_le_length
  rw [length_inBytes] at hle
  simp only [counted, tget_tabulate, hx, if_true, BitVec.toNat_ofNat]
  omega

theorem occurrences_inBytes (s : State) (x : Nat) :
    occurrences (inBytes s) x = ((List.range (inLen s)).filter fun i => symAt s i == x).length := by
  rw [occurrences, inBytes, List.countP_map, List.countP_eq_length_filter]
  rfl

/-- Settles O33. -/
theorem hcountMeaning : Obligations.HcountMeaning := by
  intro s
  refine ⟨fun hlarge => ?_, fun i hi hlen hascii hout => ?_, fun hlen hascii => ?_⟩
  · exact exec_reports (i := .hcount) rfl (countBody_of_inLen_large (s := startCommand s) hlarge) ⟨rfl, rfl⟩
  · exact exec_reports (i := .hcount) rfl (countBody_of_outside (s := startCommand s) hlen hi hascii hout) ⟨rfl, rfl⟩
  · have hexec : exec .hcount s = .next (completeDone (counted (startCommand s))) :=
      exec_of_body_ok (countBody_of_ascii (s := startCommand s) hlen hascii)
    have hframe := exec_writesOnlyResults hexec
    refine ⟨_, hexec, ⟨rfl, rfl, rfl, rfl, rfl, rfl⟩, fun x hx => ?_, rfl, rfl, rfl, rfl, rfl, rfl, hframe.setup,
      hframe.probe (by decide), hframe.diag (by decide), hframe.outBuf rfl⟩
    exact (freq_counted (s := startCommand s) hlen hx).trans (occurrences_inBytes (startCommand s) x)

/-! ### The combined frequency (R341) -/

theorem sumBelow_occurrences {bytes : List Byte} {n : Nat} (h : ∀ b ∈ bytes, b.toNat < n) :
    sumBelow (occurrences bytes) n = bytes.length := by
  induction bytes with
  | nil => exact sumBelow_zero n
  | cons b bytes ih =>
    obtain ⟨hb, hbytes⟩ := List.forall_mem_cons.1 h
    have hsplit : ∀ x < n, occurrences (b :: bytes) x = occurrences bytes x + if (true && b.toNat == x) = true then 1 else 0 :=
      fun x _ => by simp [occurrences, List.countP_cons]
    rw [sumBelow_congr hsplit, sumBelow_add, ih hbytes, sumBelow_indicator]
    simp [hb]

/-- The frequencies of `HCOUNT` and the sentinel's sum to `IN_LEN + 1` (R341). -/
theorem sumBelow_freqOf_counted {s : State} (hlen : inLen s ≤ 65536) (hascii : ∀ i < inLen s, symAt s i < 128) :
    sumBelow (freqOf (counted s).huff) 129 = inLen s + 1 := by
  have hfreq : ∀ x < 128, freqOf (counted s).huff x = occurrences (inBytes s) x := fun x hx => by
    rw [freqOf, if_neg (by unfold Config.sentH; omega), freq_counted hlen hx]
  rw [sumBelow, sumBelow_congr hfreq, sumBelow_occurrences (forall_mem_inBytes.2 hascii), length_inBytes]
  rfl

theorem exec_hcount_completed {s t : State} (h : exec .hcount s = .next t) (hcode : t.status.errcode = 0) :
    inLen s ≤ 65536 ∧ ∀ i < inLen s, symAt s i < 128 := by
  by_contra hnot
  obtain ⟨f, hbody⟩ : ∃ f, countBody (startCommand s) = .error f := by
    obtain hlarge | hlen := Nat.lt_or_ge 65536 (inLen s)
    · exact ⟨_, countBody_of_inLen_large (s := startCommand s) hlarge⟩
    · have hex : ∃ i, i < inLen s ∧ 128 ≤ symAt s i := by
        by_contra hall
        exact hnot ⟨hlen, fun i hi => Nat.lt_of_not_le fun hle => hall ⟨i, hi, hle⟩⟩
      obtain ⟨hi, hout⟩ := Nat.find_spec hex
      exact ⟨_, countBody_of_outside (s := startCommand s) hlen hi
        (fun j hj => Nat.lt_of_not_le fun hle => Nat.find_min hex hj ⟨hj.trans hi, hle⟩) hout⟩
  rw [exec_of_body_error (i := .hcount) (s := s) hbody] at h
  cases h
  exact raiseErr_errcode_ne_zero _ _ hcode

end Sys2Proof.Machine
end

section
/-! What `HBUILD` answers (R336, R341). -/

namespace Sys2Proof.Machine

/-! ### Sums over the used symbols -/

theorem sumBelow_eq_sum (f : Nat → Nat) (n : Nat) : sumBelow f n = ((List.range n).map f).sum := by
  induction n with
  | zero => rfl
  | succ n ih => simp [sumBelow, ih, List.range_succ]

theorem sum_map_filter_of_zero {l : List Nat} {p : Nat → Bool} {f : Nat → Nat} (h : ∀ x, p x = false → f x = 0) :
    ((l.filter p).map f).sum = (l.map f).sum := by
  induction l with
  | nil => rfl
  | cons x l ih =>
    cases hx : p x with
    | true => simp [hx, ih]
    | false => simp [hx, ih, h x hx]

/-- A sum over the alphabet in which only symbols of positive frequency count. -/
theorem sumBelow_eq_sum_usedSymbols (h : Huff) {f : Nat → Nat} (hf : ∀ x, freqOf h x = 0 → f x = 0) :
    sumBelow f 129 = ((usedSymbols h).map f).sum := by
  rw [sumBelow_eq_sum, usedSymbols, sum_map_filter_of_zero fun x hx => hf x (by simpa using hx)]

/-! ### The command -/

/-- The root has the frequency of all symbols (R341). -/
theorem Builds.root_freq {s : State} {g : Group} {t : Trie} (hb : Builds s g t) :
    g.freq = sumBelow (freqOf s.huff) 129 := by
  rw [hb.subtree.1.freq, sumBelow_eq_sum_usedSymbols s.huff fun _ h => h, ← (hb.members_perm.map _).sum_eq, List.map_map]
  rfl

/-- The bits of a table word past the codeword are 0 (R53, R336). -/
theorem Builds.cwBit_padding {s : State} {g : Group} {t : Trie} (hb : Builds s g t) {x i : Nat} (hx : x < 129) (hi : i < 128)
    (hle : cwLength (commitBuild g t s).huff x ≤ i) : cwBit (commitBuild g t s).huff x i = false := by
  cases hcode : memberCode g.members x with
  | none => exact cwBit_commitBuild_of_no_leaf g t s hx hcode hi
  | some code =>
    rw [cwLength_commitBuild g t s hx hcode (hb.code_length_le hcode)] at hle
    rw [cwBit_commitBuild g t s hx hcode hi, List.getD_eq_default _ _ hle]

theorem exec_hbuild (s : State) :
    ∃ g t, exec .hbuild s = .next (completeDone (commitBuild g t (startCommand s))) ∧ Builds (startCommand s) g t := by
  obtain ⟨g, t, hbody, hb⟩ := buildBody_builds (startCommand s)
  exact ⟨g, t, hbody ▸ exec_of_body_ok (i := .hbuild) rfl, hb⟩

/-- Settles O34: the merge loop is `GreedyMerge`, and the frequencies after `HCOUNT` count every byte once. -/
theorem hbuildResult : Obligations.HbuildResult := by
  refine ⟨fun s => ?_, fun s t hexec hcode => ?_⟩
  · obtain ⟨g, t, hexec, hb⟩ := exec_hbuild s
    have hframe := exec_writesOnlyResults hexec
    refine ⟨_, hexec, ⟨rfl, rfl, rfl, rfl, rfl, rfl⟩, rfl, ?_, fun j hj => ?_, fun n hn hle => ?_,
      ⟨g, hb.greedy, rfl, hb.root_freq, fun x code => hb.mem_members_iff_codeOf⟩, fun x hx => hb.cwValid_iff hx,
      fun x hx hvalid => ?_, fun x hx i hi hle => hb.cwBit_padding hx hi hle, fun x hx hvalid => ?_, hb.treeMatchesTable,
      rfl, fun n hn => ?_, rfl, rfl, rfl, hframe.setup, hframe.probe (by decide), hframe.diag (by decide),
      hframe.outBuf rfl⟩
    · exact (congrArg (· + 1) hb.hnodes_toNat).trans hb.count
    · rw [List.getD_eq_getElem _ _ hj]
      exact hb.leaf j hj
    · exact hb.inner (hb.hnodes_toNat ▸ hn) hle
    · have hlen := hb.code_length (hb.exists_code (mem_usedSymbols.2 ⟨hx, (hb.cwValid_iff hx).1 hvalid⟩))
      rwa [codeOf_length] at hlen
    · refine commitBuild_of_no_leaf g t _ hx (hb.memberCode_eq_none_iff.2 fun hused => ?_)
      exact Bool.false_ne_true (hvalid.symm.trans ((hb.cwValid_iff hx).2 (mem_usedSymbols.1 hused).2))
    · exact hb.kept n (hb.hnodes_toNat ▸ hn)
  · obtain ⟨hlen, hascii⟩ := exec_hcount_completed hexec hcode
    rw [exec_of_body_ok (i := .hcount) (s := s) (countBody_of_ascii (s := startCommand s) hlen hascii)] at hexec
    cases hexec
    exact sumBelow_freqOf_counted (s := startCommand s) hlen hascii

end Sys2Proof.Machine
end

section
/-! The trie of `HLOAD` (R334, R337). While codewords are inserted, the nodes stand for bit strings in the order of allocation:
the paths met so far. A node is the leaf of the codeword that ends there, or has the nodes of its two extensions as
children. -/

namespace Sys2Proof.Machine

/-! ### Lists of paths -/

/-- Meet the path `p` (R337): it takes the next node, unless it has one. -/
def addPath (paths : List (List Bool)) (p : List Bool) : List (List Bool) := if p ∈ paths then paths else paths ++ [p]

/-- The paths met by a descent from `p` along `bs`. -/
def extensions (p bs : List Bool) : List (List Bool) := (List.range bs.length).map fun i => p ++ bs.take (i + 1)

/-- The child field for the path `p` when the nodes stand for `paths` (R55). -/
def childRef (paths : List (List Bool)) (p : List Bool) : BitVec 15 :=
  if p ∈ paths then BitVec.ofNat 15 (paths.idxOf p) else Config.nil

theorem addPath_of_mem {paths : List (List Bool)} {p : List Bool} (h : p ∈ paths) : addPath paths p = paths := if_pos h

theorem addPath_of_not_mem {paths : List (List Bool)} {p : List Bool} (h : p ∉ paths) : addPath paths p = paths ++ [p] :=
  if_neg h

@[simp] theorem mem_addPath {paths : List (List Bool)} {p q : List Bool} : q ∈ addPath paths p ↔ q ∈ paths ∨ q = p := by
  unfold addPath
  split
  · next h => exact ⟨.inl, fun hq => hq.elim id (· ▸ h)⟩
  · simp

theorem length_addPath_le (paths : List (List Bool)) (p : List Bool) : (addPath paths p).length ≤ paths.length + 1 := by
  unfold addPath
  split <;> simp

theorem extensions_cons (p : List Bool) (b : Bool) (bs : List Bool) :
    extensions p (b :: bs) = (p ++ [b]) :: extensions (p ++ [b]) bs := by
  simp [extensions, List.range_succ_eq_map, Function.comp_def]

theorem childRef_of_mem {paths : List (List Bool)} {p : List Bool} (h : p ∈ paths) :
    childRef paths p = BitVec.ofNat 15 (paths.idxOf p) := if_pos h

theorem childRef_of_not_mem {paths : List (List Bool)} {p : List Bool} (h : p ∉ paths) : childRef paths p = Config.nil :=
  if_neg h

theorem childRef_append_of_ne (paths : List (List Bool)) {p q : List Bool} (h : p ≠ q) :
    childRef (paths ++ [q]) p = childRef paths p := by
  by_cases hp : p ∈ paths
  · rw [childRef_of_mem hp, childRef_of_mem (List.mem_append_left _ hp), List.idxOf_append_of_mem hp]
  · rw [childRef_of_not_mem hp, childRef_of_not_mem (by simp [hp, h])]

theorem childRef_ne_nil {paths : List (List Bool)} (hroom : paths.length ≤ 32767) {p : List Bool} (h : p ∈ paths) :
    childRef paths p ≠ Config.nil ∧ (childRef paths p).toNat = paths.idxOf p := by
  have hlt := List.idxOf_lt_length_of_mem h
  rw [childRef_of_mem h]
  exact ⟨nodeIndex_ne_nil (by omega), toNat_nodeIndex (by omega)⟩

/-! ### The nodes -/

/-- The word of the node of the path `p`, with the leaves that `leafAt` names (R55). -/
def nodeWord (paths : List (List Bool)) (leafAt : List Bool → Option Nat) (p : List Bool) : Word :=
  match leafAt p with
  | some x => leafWord x
  | none => internalWord (childRef paths (p ++ [false])) (childRef paths (p ++ [true]))

theorem nodeWord_of_leaf {paths : List (List Bool)} {leafAt : List Bool → Option Nat} {p : List Bool} {x : Nat}
    (h : leafAt p = some x) : nodeWord paths leafAt p = leafWord x := by rw [nodeWord, h]

theorem nodeWord_of_inner {paths : List (List Bool)} {leafAt : List Bool → Option Nat} {p : List Bool}
    (h : leafAt p = none) :
    nodeWord paths leafAt p = internalWord (childRef paths (p ++ [false])) (childRef paths (p ++ [true])) := by
  rw [nodeWord, h]

theorem nodeIsLeaf_nodeWord {paths : List (List Bool)} {leafAt : List Bool → Option Nat} {p : List Bool} :
    nodeIsLeaf (nodeWord paths leafAt p) = (leafAt p).isSome := by
  cases h : leafAt p with
  | some x => rw [nodeWord_of_leaf h, nodeIsLeaf_leafWord]; rfl
  | none => rw [nodeWord_of_inner h, nodeIsLeaf_internalWord]; rfl

theorem nodeChild_nodeWord {paths : List (List Bool)} {leafAt : List Bool → Option Nat} {p : List Bool}
    (h : leafAt p = none) (b : Bool) : nodeChild (nodeWord paths leafAt p) b = childRef paths (p ++ [b]) := by
  rw [nodeWord_of_inner h, nodeChild_internalWord]
  cases b <;> rfl

/-- The nodes of `t` stand for `paths`, with the leaves that `leafAt` names, over an arena that read as `base`. -/
structure Trie.Stores (base : Nat → Word) (t : Trie) (paths : List (List Bool)) (leafAt : List Bool → Option Nat) :
    Prop where
  count : t.count = paths.length
  nodup : paths.Nodup
  root : paths.head? = some []
  closed : ∀ p b, p ++ [b] ∈ paths → p ∈ paths
  leaf_mem : ∀ p x, leafAt p = some x → p ∈ paths
  leaf_end : ∀ p x, leafAt p = some x → ∀ b, p ++ [b] ∉ paths
  word : ∀ p ∈ paths, t.node (paths.idxOf p) = nodeWord paths leafAt p
  kept : ∀ n, paths.length ≤ n → t.node n = base n

/-- The root alone (R337). -/
theorem Trie.stores_root (s : State) :
    Trie.Stores s.huff.arena.read ((trieStart s).alloc emptyNode) [[]] fun _ => none where
  count := rfl
  nodup := List.nodup_singleton _
  root := rfl
  closed p b h := absurd (List.mem_singleton.1 h) (by simp)
  leaf_mem := nofun
  leaf_end := nofun
  word p h := by
    obtain rfl := List.mem_singleton.1 h
    have hnode : ((trieStart s).alloc emptyNode).node 0 = emptyNode := by
      rw [Trie.node_alloc]
      exact if_pos rfl
    exact hnode.trans (by rw [nodeWord_of_inner rfl, childRef_of_not_mem (by simp), childRef_of_not_mem (by simp)]; rfl)
  kept n h := by
    rw [Trie.node_alloc, if_neg (by simp [trieStart]; simp at h; omega)]
    rfl

section

variable {base : Nat → Word} {t : Trie} {paths : List (List Bool)} {leafAt : List Bool → Option Nat}
  (hs : Trie.Stores base t paths leafAt)

include hs

theorem Trie.Stores.prefix_mem {p q : List Bool} (h : p ++ q ∈ paths) : p ∈ paths := by
  induction q using List.reverseRecOn with
  | nil => rwa [List.append_nil] at h
  | append_singleton q b ih => exact ih (hs.closed _ b (by rwa [List.append_assoc]))

theorem Trie.Stores.idxOf_nil : paths.idxOf [] = 0 := by
  have hroot := hs.root
  cases hpaths : paths with
  | nil => rw [hpaths] at hroot; cases hroot
  | cons p ps =>
    rw [hpaths] at hroot
    cases hroot
    exact List.idxOf_cons_self

theorem Trie.Stores.nil_mem : [] ∈ paths := List.mem_of_mem_head? hs.root

/-- Above a leaf there is no other leaf (R331). -/
theorem Trie.Stores.leafAt_eq_none {p : List Bool} {b : Bool} {q : List Bool} (h : p ++ b :: q ∈ paths) :
    leafAt p = none := by
  cases hleaf : leafAt p with
  | none => rfl
  | some x =>
    have hmem : (p ++ [b]) ++ q ∈ paths := by rwa [List.append_assoc]
    exact absurd (hs.prefix_mem hmem) (hs.leaf_end p x hleaf b)

theorem Trie.Stores.not_leaf_of_not_mem {p : List Bool} (h : p ∉ paths) : leafAt p = none := by
  cases hleaf : leafAt p with
  | none => rfl
  | some x => exact absurd (hs.leaf_mem p x hleaf) h

/-- A new node gets the place of the last path, and its parent the reference to it (R337). -/
theorem Trie.Stores.word_append {p : List Bool} (hp : p ∈ paths) (hinner : leafAt p = none) {b : Bool}
    (hnew : p ++ [b] ∉ paths) {q : List Bool} (hq : q ∈ paths ++ [p ++ [b]]) :
    ((t.alloc emptyNode).setNode (paths.idxOf p) (setChild (t.node (paths.idxOf p)) b (BitVec.ofNat 15 t.count))).node
      ((paths ++ [p ++ [b]]).idxOf q) = nodeWord (paths ++ [p ++ [b]]) leafAt q := by
  have hlast : (paths ++ [p ++ [b]]).idxOf (p ++ [b]) = paths.length := by
    rw [List.idxOf_append_of_notMem hnew]
    simp
  have hidx := List.idxOf_lt_length_of_mem hp
  rw [Trie.node_setNode, Trie.node_alloc, hs.count]
  rcases List.mem_append.1 hq with hq | hq
  · have hlt := List.idxOf_lt_length_of_mem hq
    rw [List.idxOf_append_of_mem hq, if_neg (show paths.idxOf q ≠ paths.length by omega)]
    by_cases he : q = p
    · subst he
      have hlastRef : childRef (paths ++ [q ++ [b]]) (q ++ [b]) = BitVec.ofNat 15 paths.length := by
        rw [childRef_of_mem (by simp), hlast]
      rw [if_pos rfl, hs.word q hp, nodeWord_of_inner (paths := paths ++ [q ++ [b]]) hinner, setChild,
        nodeChild_nodeWord hinner, nodeChild_nodeWord hinner]
      cases b with
      | true => rw [if_pos rfl, hlastRef, childRef_append_of_ne paths (by simp)]
      | false => rw [if_neg Bool.false_ne_true, hlastRef, childRef_append_of_ne paths (by simp)]
    · have hother : ∀ c, childRef (paths ++ [p ++ [b]]) (q ++ [c]) = childRef paths (q ++ [c]) := fun c =>
        childRef_append_of_ne paths fun h => he (List.append_inj' h rfl).1
      rw [if_neg fun h => he ((List.idxOf_inj hq).1 h), hs.word q hq]
      simp only [nodeWord, hother]
  · obtain rfl := List.mem_singleton.1 hq
    have hleaf : ∀ c, (p ++ [b]) ++ [c] ∉ paths ++ [p ++ [b]] := fun c hc => by
      rcases List.mem_append.1 hc with hc | hc
      · exact hnew (hs.closed _ c hc)
      · exact absurd (List.mem_singleton.1 hc) (by simp)
    rw [hlast, if_neg (show paths.length ≠ paths.idxOf p by omega), if_pos rfl,
      nodeWord_of_inner (hs.not_leaf_of_not_mem hnew), childRef_of_not_mem (hleaf false), childRef_of_not_mem (hleaf true)]
    rfl

theorem Trie.Stores.append {p : List Bool} (hp : p ∈ paths) (hinner : leafAt p = none) {b : Bool}
    (hnew : p ++ [b] ∉ paths) : Trie.Stores base
      ((t.alloc emptyNode).setNode (paths.idxOf p) (setChild (t.node (paths.idxOf p)) b (BitVec.ofNat 15 t.count)))
      (paths ++ [p ++ [b]]) leafAt where
  count := by simp [hs.count]
  nodup := List.nodup_append.2 ⟨hs.nodup, List.nodup_singleton _,
    fun _ hx _ hy he => hnew (List.mem_singleton.1 hy ▸ he ▸ hx)⟩
  root := (List.head?_append_of_ne_nil _ (List.ne_nil_of_mem hp)).trans hs.root
  closed q c hq := by
    rcases List.mem_append.1 hq with hq | hq
    · exact List.mem_append_left _ (hs.closed q c hq)
    · obtain ⟨rfl, -⟩ := List.append_inj' (List.mem_singleton.1 hq) rfl
      exact List.mem_append_left _ hp
  leaf_mem q x hq := List.mem_append_left _ (hs.leaf_mem q x hq)
  leaf_end q x hq c hc := by
    rcases List.mem_append.1 hc with hc | hc
    · exact hs.leaf_end q x hq c hc
    · obtain ⟨rfl, -⟩ := List.append_inj' (List.mem_singleton.1 hc) rfl
      rw [hinner] at hq
      cases hq
  word _ hq := hs.word_append hp hinner hnew hq
  kept n hn := by
    have hidx := List.idxOf_lt_length_of_mem hp
    rw [List.length_append, List.length_singleton] at hn
    rw [Trie.node_setNode, if_neg (by omega), Trie.node_alloc, if_neg (by rw [hs.count]; omega)]
    exact hs.kept n (by omega)

theorem Trie.Stores.nodeChild_node {p : List Bool} (hp : p ∈ paths) (hinner : leafAt p = none) (b : Bool) :
    nodeChild (t.node (paths.idxOf p)) b = childRef paths (p ++ [b]) := by
  rw [hs.word p hp, nodeChild_nodeWord hinner]

theorem Trie.Stores.descend_of_mem (hroom : paths.length ≤ 32767) {p : List Bool} {b : Bool} (hmem : p ++ [b] ∈ paths) :
    descend t (paths.idxOf p) b = (paths.idxOf (p ++ [b]), t) := by
  obtain ⟨hne, hidx⟩ := childRef_ne_nil hroom hmem
  rw [descend, hs.nodeChild_node (hs.prefix_mem hmem) (hs.leafAt_eq_none hmem), if_neg hne, hidx]

/-- One branch of a descent meets the path with one more bit (R337). -/
theorem Trie.Stores.descend (hroom : paths.length < 32767) {p : List Bool} (hp : p ∈ paths) (hinner : leafAt p = none)
    (b : Bool) :
    (descend t (paths.idxOf p) b).1 = (addPath paths (p ++ [b])).idxOf (p ++ [b]) ∧
      Trie.Stores base (descend t (paths.idxOf p) b).2 (addPath paths (p ++ [b])) leafAt := by
  by_cases hmem : p ++ [b] ∈ paths
  · rw [hs.descend_of_mem hroom.le hmem, addPath_of_mem hmem]
    exact ⟨rfl, hs⟩
  · rw [Machine.descend, hs.nodeChild_node hp hinner, if_pos (childRef_of_not_mem hmem), addPath_of_not_mem hmem,
      List.idxOf_append_of_notMem hmem]
    exact ⟨by simp [hs.count], hs.append hp hinner hmem⟩

/-- The path to a leaf (R332). -/
theorem Trie.Stores.leadsTo (hroom : paths.length ≤ 32767) {p q : List Bool} {x : Nat} (hleaf : leafAt (p ++ q) = some x) :
    leadsTo t.arena (paths.idxOf p) q x = true := by
  have hmem := hs.leaf_mem _ x hleaf
  have hword := hs.word p (hs.prefix_mem hmem)
  induction q generalizing p with
  | nil =>
    rw [List.append_nil] at hleaf
    exact (leadsTo_nil _ _ _).2 (hword.trans (nodeWord_of_leaf hleaf))
  | cons b q ih =>
    have hinner := hs.leafAt_eq_none hmem
    rw [List.append_cons] at hleaf hmem
    obtain ⟨hne, hidx⟩ := childRef_ne_nil hroom (hs.prefix_mem hmem)
    have hread : t.arena.read (paths.idxOf p) = nodeWord paths leafAt p := hword
    rw [leadsTo_cons, hread, nodeIsLeaf_nodeWord, nodeChild_nodeWord hinner, hinner, hidx]
    exact ⟨rfl, hne, ih hleaf hmem (hs.word _ (hs.prefix_mem hmem))⟩

/-! ### One codeword (R337) -/

/-- The leaf of a codeword takes the place of a node without children. -/
theorem Trie.Stores.setLeaf {p : List Bool} (hp : p ∈ paths) (hend : ∀ b, p ++ [b] ∉ paths) (x : Nat) :
    Trie.Stores base (t.setNode (paths.idxOf p) (leafWord x)) paths (Function.update leafAt p (some x)) where
  count := hs.count
  nodup := hs.nodup
  root := hs.root
  closed := hs.closed
  leaf_mem q y hq := by
    by_cases he : q = p
    · exact he ▸ hp
    · rw [Function.update_of_ne he] at hq
      exact hs.leaf_mem q y hq
  leaf_end q y hq := by
    by_cases he : q = p
    · exact he ▸ hend
    · rw [Function.update_of_ne he] at hq
      exact hs.leaf_end q y hq
  word q hq := by
    rw [Trie.node_setNode]
    by_cases he : q = p
    · subst he
      rw [if_pos rfl, nodeWord_of_leaf (Function.update_self q _ _)]
    · rw [if_neg fun h => he ((List.idxOf_inj hq).1 h), hs.word q hq]
      simp only [nodeWord, Function.update_of_ne he]
  kept n hn := by
    have hidx := List.idxOf_lt_length_of_mem hp
    rw [Trie.node_setNode, if_neg (by omega)]
    exact hs.kept n hn

theorem Trie.Stores.nodeIsEmpty {p : List Bool} (hp : p ∈ paths) (hinner : leafAt p = none)
    (hend : ∀ b, p ++ [b] ∉ paths) : nodeIsEmpty (t.node (paths.idxOf p)) = true := by
  rw [hs.word p hp, Machine.nodeIsEmpty, nodeIsLeaf_nodeWord, nodeChild_nodeWord hinner, nodeChild_nodeWord hinner, hinner,
    childRef_of_not_mem (hend false), childRef_of_not_mem (hend true)]
  rfl

theorem Trie.Stores.not_nodeIsEmpty_of_leaf {p : List Bool} {y : Nat} (hleaf : leafAt p = some y) :
    Machine.nodeIsEmpty (t.node (paths.idxOf p)) = false := by
  rw [hs.word p (hs.leaf_mem p y hleaf), nodeWord_of_leaf hleaf, Machine.nodeIsEmpty, nodeIsLeaf_leafWord]
  rfl

theorem Trie.Stores.not_nodeIsEmpty_of_child (hroom : paths.length ≤ 32767) {p : List Bool} {b : Bool}
    (hmem : p ++ [b] ∈ paths) : Machine.nodeIsEmpty (t.node (paths.idxOf p)) = false := by
  have hinner := hs.leafAt_eq_none hmem
  have hchild := (childRef_ne_nil hroom hmem).1
  rw [hs.word p (hs.prefix_mem hmem), Machine.nodeIsEmpty, nodeIsLeaf_nodeWord, nodeChild_nodeWord hinner,
    nodeChild_nodeWord hinner, hinner]
  cases b <;> simp [hchild]

theorem Trie.Stores.insertCode_cons (sym i : Nat) {p : List Bool} (hp : p ∈ paths) (hinner : leafAt p = none) (b : Bool)
    (bs : List Bool) : insertCode sym (paths.idxOf p) i (b :: bs) t =
      insertCode sym (Machine.descend t (paths.idxOf p) b).1 (i + 1) bs (Machine.descend t (paths.idxOf p) b).2 := by
  have hleaf : nodeIsLeaf (t.node (paths.idxOf p)) = false := by rw [hs.word p hp, nodeIsLeaf_nodeWord, hinner]; rfl
  simp [insertCode, hleaf]

/-- A descent along a path that is met already changes nothing (R337). -/
theorem Trie.Stores.insertCode_cons_of_mem (sym i : Nat) (hroom : paths.length ≤ 32767) {p : List Bool} {b : Bool}
    (hmem : p ++ [b] ∈ paths) (bs : List Bool) : insertCode sym (paths.idxOf p) i (b :: bs) t =
      insertCode sym (paths.idxOf (p ++ [b])) (i + 1) bs t := by
  rw [hs.insertCode_cons sym i (hs.prefix_mem hmem) (hs.leafAt_eq_none hmem), hs.descend_of_mem hroom hmem]

/-- A codeword that meets a leaf is refused there: an earlier codeword begins it (R337). -/
theorem Trie.Stores.insertCode_of_leaf (sym i : Nat) (hroom : paths.length ≤ 32767) {p q : List Bool} {y : Nat}
    (hleaf : leafAt (p ++ q) = some y) (rest : List Bool) :
    insertCode sym (paths.idxOf p) i (q ++ rest) t = .error (codeError (i + q.length) sym) := by
  induction q generalizing i p with
  | nil =>
    rw [List.append_nil] at hleaf
    rw [List.nil_append]
    cases rest with
    | nil => simp [insertCode, hs.not_nodeIsEmpty_of_leaf hleaf]
    | cons b rest => simp [insertCode, hs.word p (hs.leaf_mem p y hleaf), nodeIsLeaf_nodeWord, hleaf]
  | cons b q ih =>
    rw [List.append_cons] at hleaf
    rw [List.cons_append, hs.insertCode_cons_of_mem sym i hroom (hs.prefix_mem (hs.leaf_mem _ y hleaf)), ih (i + 1) hleaf,
      List.length_cons]
    congr 2
    omega

/-- A codeword that ends where a path goes on is refused at its end: it begins an earlier one (R337). -/
theorem Trie.Stores.insertCode_of_extended (sym i : Nat) (hroom : paths.length ≤ 32767) {p bs : List Bool} {b : Bool}
    (hmem : p ++ bs ++ [b] ∈ paths) :
    insertCode sym (paths.idxOf p) i bs t = .error (codeError (i + bs.length) sym) := by
  induction bs generalizing i p with
  | nil =>
    rw [List.append_nil] at hmem
    simp [insertCode, hs.not_nodeIsEmpty_of_child hroom hmem]
  | cons c bs ih =>
    rw [List.append_cons p] at hmem
    rw [hs.insertCode_cons_of_mem sym i hroom (hs.prefix_mem (hs.prefix_mem hmem)), ih (i + 1) hmem, List.length_cons]
    congr 2
    omega

end

/-- A codeword that passes no leaf and ends where no path goes on is inserted (R337). -/
theorem Trie.Stores.insertCode_ok {base : Nat → Word} {leafAt : List Bool → Option Nat} (sym i : Nat) (bs : List Bool)
    {t : Trie} {paths : List (List Bool)} {p : List Bool} (hs : Trie.Stores base t paths leafAt) (hp : p ∈ paths)
    (hroom : paths.length + bs.length ≤ 32767) (hinner : ∀ q, q <+: bs → leafAt (p ++ q) = none)
    (hend : ∀ b, p ++ bs ++ [b] ∉ paths) : ∃ t', insertCode sym (paths.idxOf p) i bs t = .ok t' ∧
      Trie.Stores base t' ((extensions p bs).foldl addPath paths) (Function.update leafAt (p ++ bs) (some sym)) := by
  have hleaf := hinner [] List.nil_prefix
  rw [List.append_nil] at hleaf
  induction bs generalizing i t paths p with
  | nil =>
    rw [List.append_nil] at hend ⊢
    exact ⟨_, if_pos (hs.nodeIsEmpty hp hleaf hend), hs.setLeaf hp hend sym⟩
  | cons b bs ih =>
    rw [List.length_cons] at hroom
    obtain ⟨hnext, hs'⟩ := hs.descend (by omega) hp hleaf b
    have hlen := length_addPath_le paths (p ++ [b])
    have hinner' : ∀ q, q <+: bs → leafAt (p ++ [b] ++ q) = none := fun q hq => by
      simpa using hinner (b :: q) ((List.prefix_cons_inj b).2 hq)
    have hend' : ∀ c, p ++ [b] ++ bs ++ [c] ∉ addPath paths (p ++ [b]) := fun c hc => by
      rcases mem_addPath.1 hc with hc | hc
      · exact hend c (by simpa using hc)
      · exact absurd (congrArg List.length hc) (by simp)
    obtain ⟨t', hrun, hs''⟩ := ih (i + 1) hs' (mem_addPath.2 (.inr rfl)) (by omega) hinner' hend'
      (by simpa using hinner' [] List.nil_prefix)
    refine ⟨t', ?_, ?_⟩
    · rw [hs.insertCode_cons sym i hp hleaf, hnext, hrun]
    · rwa [extensions_cons, List.foldl_cons, List.append_cons p b bs]

end Sys2Proof.Machine
end

section
/-! The codeword table inserted symbol by symbol (R337). -/

namespace Sys2Proof.Machine

/-! ### The paths and leaves of a list of symbols -/

/-- The paths met after the codewords of `syms`, in the order of allocation (R337). -/
def pathsOf (h : Huff) (syms : List Nat) : List (List Bool) :=
  syms.foldl (fun seen x => (extensions [] (codeOf h x)).foldl addPath seen) [[]]

/-- The symbol of `syms` whose codeword is `p`. -/
def leafOf (h : Huff) (syms : List Nat) (p : List Bool) : Option Nat := syms.find? fun x => codeOf h x == p

/-- Neither of two codewords begins the other. -/
abbrev Apart (h : Huff) (x y : Nat) : Prop := ¬ codeOf h x <+: codeOf h y ∧ ¬ codeOf h y <+: codeOf h x

/-- The codeword has a length that `HLOAD` accepts (R337). -/
abbrev LengthFits (h : Huff) (x : Nat) : Prop := cwLength h x ≤ 128 ∧ (cwLength h x = 0 → x = 128)

theorem triePaths_eq (h : Huff) : triePaths h = pathsOf h (validSymbols h) := by
  have hext : ∀ x, extensions [] (codeOf h x) = (List.range (cwLength h x)).map fun i => (codeOf h x).take (i + 1) :=
    fun x => by simp [extensions, codeOf_length]
  simp only [triePaths, pathsOf, hext, List.foldl_flatMap]
  rfl

theorem pathsOf_concat (h : Huff) (syms : List Nat) (x : Nat) :
    pathsOf h (syms ++ [x]) = (extensions [] (codeOf h x)).foldl addPath (pathsOf h syms) := by
  simp [pathsOf]

theorem mem_foldl_addPath {ps paths : List (List Bool)} {p : List Bool} :
    p ∈ ps.foldl addPath paths ↔ p ∈ paths ∨ p ∈ ps := by
  induction ps generalizing paths with
  | nil => simp
  | cons q ps ih => simp [ih, or_assoc]

theorem length_foldl_addPath_le (ps paths : List (List Bool)) :
    (ps.foldl addPath paths).length ≤ paths.length + ps.length := by
  induction ps generalizing paths with
  | nil => simp
  | cons q ps ih =>
    have := ih (addPath paths q)
    have := length_addPath_le paths q
    simp only [List.foldl_cons, List.length_cons]
    omega

theorem mem_extensions_nil {p bs : List Bool} : p ∈ extensions [] bs ↔ p ≠ [] ∧ p <+: bs := by
  simp only [extensions, List.mem_map, List.mem_range, List.nil_append]
  constructor
  · rintro ⟨i, hi, rfl⟩
    exact ⟨List.ne_nil_of_length_pos (by rw [List.length_take]; omega), List.take_prefix _ _⟩
  · rintro ⟨hne, hpre⟩
    have hpos := List.length_pos_iff.2 hne
    refine ⟨p.length - 1, by have := hpre.length_le; omega, ?_⟩
    rw [Nat.sub_add_cancel hpos, ← List.prefix_iff_eq_take.1 hpre]

theorem mem_pathsOf {h : Huff} {syms : List Nat} {p : List Bool} :
    p ∈ pathsOf h syms ↔ p = [] ∨ ∃ x ∈ syms, p <+: codeOf h x := by
  induction syms using List.reverseRecOn with
  | nil => simp [pathsOf]
  | append_singleton syms x ih =>
    rw [pathsOf_concat, mem_foldl_addPath, mem_extensions_nil, ih]
    simp only [List.mem_append, List.mem_singleton, or_and_right, exists_or, exists_eq_left]
    by_cases hp : p = [] <;> simp [hp]

theorem length_pathsOf_le {h : Huff} {syms : List Nat} (hfits : ∀ x ∈ syms, LengthFits h x) :
    (pathsOf h syms).length ≤ 1 + 128 * syms.length := by
  induction syms using List.reverseRecOn with
  | nil => simp [pathsOf]
  | append_singleton syms x ih =>
    have hrest := ih fun y hy => hfits y (List.mem_append_left _ hy)
    have hlen := (hfits x (by simp)).1
    have hfold := length_foldl_addPath_le (extensions [] (codeOf h x)) (pathsOf h syms)
    have hext : (extensions [] (codeOf h x)).length = cwLength h x := by simp [extensions, codeOf_length]
    rw [pathsOf_concat, List.length_append, List.length_singleton]
    omega

theorem leafOf_some {h : Huff} {syms : List Nat} {p : List Bool} {x : Nat} (hleaf : leafOf h syms p = some x) :
    x ∈ syms ∧ codeOf h x = p :=
  ⟨List.mem_of_find?_eq_some hleaf, by simpa using List.find?_some hleaf⟩

theorem leafOf_none_of_forall {h : Huff} {syms : List Nat} {p : List Bool} (hne : ∀ x ∈ syms, codeOf h x ≠ p) :
    leafOf h syms p = none := by
  cases hleaf : leafOf h syms p with
  | none => rfl
  | some x => exact absurd (leafOf_some hleaf).2 (hne x (leafOf_some hleaf).1)

theorem exists_leafOf {h : Huff} {syms : List Nat} {x : Nat} (hx : x ∈ syms) : ∃ y, leafOf h syms (codeOf h x) = some y := by
  cases hleaf : leafOf h syms (codeOf h x) with
  | some y => exact ⟨y, rfl⟩
  | none => exact absurd (List.find?_eq_none.1 hleaf x hx) (by simp)

theorem leafOf_concat {h : Huff} {syms : List Nat} {x : Nat} (hnone : leafOf h syms (codeOf h x) = none) :
    leafOf h (syms ++ [x]) = Function.update (leafOf h syms) (codeOf h x) (some x) := by
  funext p
  rw [leafOf, List.find?_append, show syms.find? _ = leafOf h syms p from rfl]
  by_cases hp : p = codeOf h x
  · subst hp
    rw [hnone, Function.update_self]
    simp
  · rw [Function.update_of_ne hp]
    simp [Ne.symm hp]

/-! ### One symbol -/

section

variable {base : Nat → Word} {h : Huff} {t : Trie} {syms : List Nat} {x : Nat}
  (hs : Trie.Stores base t (pathsOf h syms) (leafOf h syms)) (hroom : (pathsOf h syms).length ≤ 32639)

include hs hroom

theorem Trie.Stores.insertSymbol (hlen : cwLength h x ≤ 128) (hapart : ∀ y ∈ syms, Apart h y x) :
    ∃ t', insertCode x 0 0 (codeOf h x) t = .ok t' ∧
      Trie.Stores base t' (pathsOf h (syms ++ [x])) (leafOf h (syms ++ [x])) := by
  have hinner : ∀ q, q <+: codeOf h x → leafOf h syms q = none := fun q hq =>
    leafOf_none_of_forall fun y hy he => (hapart y hy).1 (he ▸ hq)
  have hend : ∀ b, codeOf h x ++ [b] ∉ pathsOf h syms := fun b hmem => by
    rcases mem_pathsOf.1 hmem with hnil | ⟨y, hy, hpre⟩
    · simp at hnil
    · exact (hapart y hy).2 ((List.prefix_append _ _).trans hpre)
  obtain ⟨t', hrun, hs'⟩ := Trie.Stores.insertCode_ok x 0 (codeOf h x) hs hs.nil_mem (by rw [codeOf_length]; omega) hinner
    hend
  rw [hs.idxOf_nil] at hrun
  rw [pathsOf_concat, leafOf_concat (hinner _ (List.prefix_refl _))]
  exact ⟨t', hrun, hs'⟩

/-- Where a conflict with an earlier codeword is found (R337): at the end of the shorter one. -/
theorem Trie.Stores.insertSymbol_conflict {y : Nat} (hy : y ∈ syms)
    (hpre : codeOf h y <+: codeOf h x ∨ codeOf h x <+: codeOf h y) :
    insertCode x 0 0 (codeOf h x) t = .error (codeError (min (cwLength h y) (cwLength h x)) x) := by
  by_cases hyx : codeOf h y <+: codeOf h x
  · obtain ⟨rest, hcode⟩ := id hyx
    obtain ⟨z, hz⟩ := exists_leafOf (h := h) hy
    have hrun := hs.insertCode_of_leaf x 0 (by omega) (p := []) (q := codeOf h y) hz rest
    rw [hs.idxOf_nil, hcode, codeOf_length, Nat.zero_add] at hrun
    have hle := hyx.length_le
    rw [codeOf_length, codeOf_length] at hle
    rw [hrun, Nat.min_eq_left hle]
  · have hxy := hpre.resolve_left hyx
    obtain ⟨rest, hcode⟩ := id hxy
    cases rest with
    | nil =>
      rw [List.append_nil] at hcode
      exact absurd (hcode ▸ List.prefix_refl _) hyx
    | cons b rest =>
      have hmem : [] ++ codeOf h x ++ [b] ∈ pathsOf h syms :=
        mem_pathsOf.2 (.inr ⟨y, hy, rest, by rw [← hcode]; simp⟩)
      have hrun := hs.insertCode_of_extended x 0 (by omega) hmem
      rw [hs.idxOf_nil, codeOf_length, Nat.zero_add] at hrun
      have hle := hxy.length_le
      rw [codeOf_length, codeOf_length] at hle
      rw [hrun, Nat.min_eq_right hle]

end

/-! ### All symbols -/

theorem insertAll_cons {h : Huff} {x : Nat} (hfit : LengthFits h x) (rest : List Nat) (t : Trie) :
    insertAll h (x :: rest) t = (insertCode x 0 0 (codeOf h x) t).bind (insertAll h rest) := by
  have hlen : ¬ Config.lmax < cwLength h x := Nat.not_lt.2 hfit.1
  have hempty : ¬ (cwLength h x = 0 ∧ x ≠ Config.sentH) := fun hne => hne.2 (hfit.2 hne.1)
  rw [insertAll, if_neg hlen, if_neg hempty]
  cases insertCode x 0 0 (codeOf h x) t <;> rfl

theorem insertAll_cons_of_long {h : Huff} {x : Nat} (hlong : 128 < cwLength h x) (rest : List Nat) (t : Trie) :
    insertAll h (x :: rest) t = .error (codeError (cwLength h x) x) := by
  rw [insertAll, if_pos (show Config.lmax < _ from hlong)]

theorem insertAll_cons_of_empty {h : Huff} {x : Nat} (hempty : cwLength h x = 0) (hx : x ≠ 128) (rest : List Nat) (t : Trie) :
    insertAll h (x :: rest) t = .error (codeError 0 x) := by
  rw [insertAll, if_neg (by omega), if_pos ⟨hempty, hx⟩]

/-- Codewords that fit and stand apart are inserted one after the other. -/
theorem insertAll_append {base : Nat → Word} {h : Huff} (syms rest : List Nat) {done : List Nat} {t : Trie}
    (hs : Trie.Stores base t (pathsOf h done) (leafOf h done)) (hfits : ∀ x ∈ done ++ syms, LengthFits h x)
    (hapart : (done ++ syms).Pairwise (Apart h)) (hlen : (done ++ syms).length ≤ 129) :
    ∃ t', insertAll h (syms ++ rest) t = insertAll h rest t' ∧
      Trie.Stores base t' (pathsOf h (done ++ syms)) (leafOf h (done ++ syms)) := by
  induction syms generalizing done t with
  | nil => exact ⟨t, rfl, by rwa [List.append_nil]⟩
  | cons x syms ih =>
    have hfit := hfits x (by simp)
    have hroom := length_pathsOf_le fun y hy => hfits y (List.mem_append_left _ hy)
    rw [List.length_append, List.length_cons] at hlen
    have hbefore : ∀ y ∈ done, Apart h y x := fun y hy => (List.pairwise_append.1 hapart).2.2 y hy x List.mem_cons_self
    obtain ⟨t₁, hcode, hs₁⟩ := hs.insertSymbol (by omega) hfit.1 hbefore
    rw [List.append_cons] at hfits hapart ⊢
    obtain ⟨t', hrun, hs'⟩ := ih hs₁ hfits hapart (by simp; omega)
    exact ⟨t', by rw [List.cons_append, insertAll_cons hfit, hcode]; exact hrun, hs'⟩

end Sys2Proof.Machine
end

section
/-! `HLOAD` (R337): it completes on a table whose codewords fit and stand apart, and otherwise names the first symbol that
cannot be added. -/

namespace Sys2Proof.Machine

/-! ### Loadable tables -/

/-- The symbols below `k` that have a codeword, ascending. -/
def validBelow (h : Huff) (k : Nat) : List Nat := (List.range k).filter (cwValid h)

theorem validSymbols_eq (h : Huff) : validSymbols h = validBelow h 129 := rfl

@[simp] theorem mem_validBelow {h : Huff} {k x : Nat} : x ∈ validBelow h k ↔ x < k ∧ cwValid h x = true := by
  simp [validBelow]

theorem length_validBelow_le (h : Huff) (k : Nat) : (validBelow h k).length ≤ k :=
  (List.length_filter_le _ _).trans_eq List.length_range

theorem EntriesLoadable.lengthFits {h : Huff} {k : Nat} (hload : EntriesLoadable h k) {x : Nat} (hx : x ∈ validBelow h k) :
    LengthFits h x :=
  hload.1 x (mem_validBelow.1 hx).1 (mem_validBelow.1 hx).2

theorem EntriesLoadable.apart {h : Huff} {k : Nat} (hload : EntriesLoadable h k) {x y : Nat} (hx : x ∈ validBelow h k)
    (hy : y ∈ validBelow h k) (hne : x ≠ y) : Apart h x y := by
  rw [mem_validBelow] at hx hy
  exact ⟨hload.2 x hx.1 y hy.1 hne hx.2 hy.2, hload.2 y hy.1 x hx.1 hne.symm hy.2 hx.2⟩

theorem EntriesLoadable.pairwise {h : Huff} {k : Nat} (hload : EntriesLoadable h k) :
    (validBelow h k).Pairwise (Apart h) :=
  List.Pairwise.imp_of_mem (fun hx hy hne => hload.apart hx hy hne) (List.nodup_range.filter _)

theorem EntriesLoadable.mono {h : Huff} {j k : Nat} (hload : EntriesLoadable h k) (hjk : j ≤ k) : EntriesLoadable h j :=
  ⟨fun x hx => hload.1 x (hx.trans_le hjk), fun x hx y hy => hload.2 x (hx.trans_le hjk) y (hy.trans_le hjk)⟩

/-- One more symbol whose codeword fits and stands apart. -/
theorem EntriesLoadable.succ {h : Huff} {k : Nat} (hload : EntriesLoadable h k)
    (hk : cwValid h k = true → LengthFits h k ∧ ∀ y ∈ validBelow h k, Apart h y k) : EntriesLoadable h (k + 1) := by
  refine ⟨fun x hx hv => ?_, fun x hx y hy hne hvx hvy => ?_⟩
  · obtain hlt | rfl := Nat.lt_succ_iff_lt_or_eq.1 hx
    · exact hload.1 x hlt hv
    · exact (hk hv).1
  · obtain hltx | rfl := Nat.lt_succ_iff_lt_or_eq.1 hx
    · obtain hlty | rfl := Nat.lt_succ_iff_lt_or_eq.1 hy
      · exact hload.2 x hltx y hlty hne hvx hvy
      · exact ((hk hvy).2 x (mem_validBelow.2 ⟨hltx, hvx⟩)).1
    · obtain hlty | rfl := Nat.lt_succ_iff_lt_or_eq.1 hy
      · exact ((hk hvx).2 y (mem_validBelow.2 ⟨hlty, hvy⟩)).2
      · exact absurd rfl hne

theorem entriesLoadable_zero (h : Huff) : EntriesLoadable h 0 := ⟨nofun, nofun⟩

/-- A symbol that cannot be added to the earlier ones. -/
structure FirstRefused (h : Huff) (x : Nat) : Prop where
  lt : x < 129
  valid : cwValid h x = true
  before : EntriesLoadable h x
  refused : ¬ EntriesLoadable h (x + 1)

theorem exists_firstRefused {h : Huff} {k : Nat} (hk : k ≤ 129) (hload : ¬ EntriesLoadable h k) :
    ∃ x, FirstRefused h x := by
  induction k with
  | zero => exact absurd (entriesLoadable_zero h) hload
  | succ k ih =>
    by_cases hbefore : EntriesLoadable h k
    · have hvalid : cwValid h k = true := by
        by_contra hv
        exact hload (hbefore.succ fun hv' => absurd hv' hv)
      exact ⟨k, hk, hvalid, hbefore, hload⟩
    · exact ih (by omega) hbefore

theorem FirstRefused.unique {h : Huff} {x y : Nat} (hx : FirstRefused h x) (hy : FirstRefused h y) : x = y := by
  have hle : ∀ {a b}, FirstRefused h a → FirstRefused h b → a ≤ b := fun ha hb =>
    Nat.le_of_not_lt fun hlt => hb.refused (ha.before.mono hlt)
  exact Nat.le_antisymm (hle hx hy) (hle hy hx)

theorem FirstRefused.validSymbols_eq {h : Huff} {x : Nat} (hx : FirstRefused h x) :
    ∃ rest, validSymbols h = validBelow h x ++ x :: rest := by
  obtain ⟨m, hm⟩ : ∃ m, 129 = x + (m + 1) := ⟨128 - x, by have := hx.lt; omega⟩
  refine ⟨(((List.range m).map Nat.succ).map (x + ·)).filter (cwValid h), ?_⟩
  rw [Machine.validSymbols_eq, validBelow, hm, List.range_add, List.filter_append, List.range_succ_eq_map, List.map_cons,
    Nat.add_zero, List.filter_cons_of_pos hx.valid]
  rfl

/-! ### The tree -/

theorem stores_start (s : State) :
    Trie.Stores s.huff.arena.read ((trieStart s).alloc emptyNode) (pathsOf s.huff []) (leafOf s.huff []) :=
  Trie.stores_root s

theorem insertAll_of_loadable {s : State} (hload : EntriesLoadable s.huff 129) :
    ∃ t, insertAll s.huff (validSymbols s.huff) ((trieStart s).alloc emptyNode) = .ok t ∧
      Trie.Stores s.huff.arena.read t (triePaths s.huff) (leafOf s.huff (validSymbols s.huff)) := by
  obtain ⟨t, hrun, hs⟩ := insertAll_append (validBelow s.huff 129) [] (stores_start s) (fun x hx => hload.lengthFits hx)
    hload.pairwise (length_validBelow_le _ _)
  rw [List.append_nil] at hrun
  exact ⟨t, hrun, triePaths_eq s.huff ▸ hs⟩

/-- The bit index that the report of a refused symbol gives (R337). -/
abbrev RefusedAt (h : Huff) (x pos : Nat) : Prop :=
  (Config.lmax < cwLength h x → pos = cwLength h x) ∧ (cwLength h x = 0 → x ≠ 128 → pos = 0) ∧
  (cwLength h x ≤ Config.lmax → (cwLength h x = 0 → x = 128) →
    ∀ y < x, cwValid h y = true → codeOf h y <+: codeOf h x ∨ codeOf h x <+: codeOf h y →
      pos = min (cwLength h y) (cwLength h x))

/-- A refused symbol whose length fits conflicts with an earlier one. -/
theorem FirstRefused.exists_conflict {h : Huff} {x : Nat} (hx : FirstRefused h x) (hfit : LengthFits h x) :
    ∃ y ∈ validBelow h x, codeOf h y <+: codeOf h x ∨ codeOf h x <+: codeOf h y := by
  by_contra hnone
  push Not at hnone
  exact hx.refused (hx.before.succ fun _ => ⟨hfit, hnone⟩)

/-- The insertion of a refused symbol after the earlier ones (R337). -/
theorem FirstRefused.insertAll_cons {base : Nat → Word} {h : Huff} {x : Nat} (hx : FirstRefused h x) {t : Trie}
    (hs : Trie.Stores base t (pathsOf h (validBelow h x)) (leafOf h (validBelow h x))) (rest : List Nat) :
    ∃ pos, insertAll h (x :: rest) t = .error (codeError pos x) ∧ RefusedAt h x pos := by
  obtain hlong | hshort := Nat.lt_or_ge 128 (cwLength h x)
  · exact ⟨_, insertAll_cons_of_long hlong rest t, fun _ => rfl, fun h0 => by omega,
      fun hle => absurd hle (Nat.not_le.2 hlong)⟩
  by_cases hempty : cwLength h x = 0 ∧ x ≠ 128
  · exact ⟨0, insertAll_cons_of_empty hempty.1 hempty.2 rest t, fun hlong => absurd hlong (Nat.not_lt.2 hshort),
      fun _ _ => rfl, fun _ hsent => absurd (hsent hempty.1) hempty.2⟩
  have hfit : LengthFits h x := ⟨hshort, fun h0 => by_contra fun hne => hempty ⟨h0, hne⟩⟩
  have hroom := length_pathsOf_le fun y hy => hx.before.lengthFits hy
  have hlen := length_validBelow_le h x
  have hlt := hx.lt
  have hconflict := fun y hy hpre => hs.insertSymbol_conflict (by omega) (x := x) (y := y) hy hpre
  obtain ⟨y, hy, hpre⟩ := hx.exists_conflict hfit
  refine ⟨_, by rw [Machine.insertAll_cons hfit, hconflict y hy hpre]; rfl, fun hlong => absurd hlong (Nat.not_lt.2 hshort),
    fun h0 hne => absurd (hfit.2 h0) hne, fun _ _ z hz hvz hpre' => ?_⟩
  have hboth := (hconflict y hy hpre).symm.trans (hconflict z (mem_validBelow.2 ⟨hz, hvz⟩) hpre')
  exact congrArg Failure.pos (Except.error.inj hboth)

theorem insertAll_of_refused {s : State} {x : Nat} (hx : FirstRefused s.huff x) :
    ∃ pos, insertAll s.huff (validSymbols s.huff) ((trieStart s).alloc emptyNode) = .error (codeError pos x) ∧
      RefusedAt s.huff x pos := by
  obtain ⟨rest, hsyms⟩ := hx.validSymbols_eq
  have hlen := length_validBelow_le s.huff x
  have hlt := hx.lt
  obtain ⟨t, hrun, hs⟩ := insertAll_append (validBelow s.huff x) (x :: rest) (stores_start s)
    (fun y hy => hx.before.lengthFits hy) hx.before.pairwise (by rw [List.nil_append]; omega)
  rw [hsyms, hrun]
  exact hx.insertAll_cons hs rest

end Sys2Proof.Machine
end

section
/-! What `HLOAD` answers (R333, R334, R337). -/

namespace Sys2Proof.Machine

/-- What `HLOAD` leaves when it has built the nodes of `t` (R337). -/
def loaded (s : State) (t : Trie) : State :=
  { s with
    status := { s.status with hvalid := true }
    huff := { s.huff with hroot := 0, hnodes := BitVec.ofNat 16 t.count, arena := t.arena } }

theorem loadBody_of_ok {s : State} {t : Trie} (hne : validSymbols s.huff ≠ [])
    (hrun : insertAll s.huff (validSymbols s.huff) ((trieStart s).alloc emptyNode) = .ok t) :
    loadBody s = .ok (loaded s t) := by
  rw [loadBody, if_neg hne, hrun]
  rfl

theorem loadBody_of_error {s : State} {f : Failure} (hne : validSymbols s.huff ≠ [])
    (hrun : insertAll s.huff (validSymbols s.huff) ((trieStart s).alloc emptyNode) = .error f) : loadBody s = .error f := by
  rw [loadBody, if_neg hne, hrun]

theorem loadBody_of_empty {s : State} (hempty : validSymbols s.huff = []) : loadBody s = .error (codeError 0 129) :=
  if_pos hempty

/-! ### A loaded tree -/

/-- The nodes of `t` are the tree of a loadable table (R334, R337). -/
structure Loads (s : State) (t : Trie) : Prop where
  loadable : EntriesLoadable s.huff 129
  stores : Trie.Stores s.huff.arena.read t (triePaths s.huff) (leafOf s.huff (validSymbols s.huff))

theorem exists_loads {s : State} (hload : TableLoadable s.huff) : ∃ t, loadBody s = .ok (loaded s t) ∧ Loads s t := by
  obtain ⟨⟨x, hx, hv⟩, hentries⟩ := hload
  obtain ⟨t, hrun, hs⟩ := insertAll_of_loadable hentries
  have hne : validSymbols s.huff ≠ [] := List.ne_nil_of_mem (mem_validBelow.2 ⟨hx, hv⟩)
  exact ⟨t, loadBody_of_ok hne hrun, hentries, hs⟩

namespace Loads

variable {s : State} {t : Trie} (hl : Loads s t)

include hl

theorem length_le : (triePaths s.huff).length ≤ 16513 := by
  have hlen := length_pathsOf_le fun x hx => hl.loadable.lengthFits hx
  have hle := length_validBelow_le s.huff 129
  rw [triePaths_eq, validSymbols_eq]
  omega

theorem hnodes_toNat : (loaded s t).huff.hnodes.toNat = (triePaths s.huff).length := by
  have hlen := hl.length_le
  have hcount := hl.stores.count
  exact (BitVec.toNat_ofNat _ _).trans ((Nat.mod_eq_of_lt (by omega)).trans hcount)

theorem leafOf_codeOf {x : Nat} (hx : x < 129) (hv : cwValid s.huff x = true) :
    leafOf s.huff (validSymbols s.huff) (codeOf s.huff x) = some x := by
  have hmem : x ∈ validBelow s.huff 129 := mem_validBelow.2 ⟨hx, hv⟩
  obtain ⟨y, hy⟩ := exists_leafOf (h := s.huff) (syms := validSymbols s.huff) hmem
  obtain ⟨hymem, hcode⟩ := leafOf_some hy
  by_cases hne : y = x
  · rw [hy, hne]
  · exact absurd (hcode ▸ List.prefix_refl _) (hl.loadable.apart hymem hmem hne).1

/-- R333: the table and the tree of `HLOAD` hold the same code. -/
theorem treeMatchesTable : TreeMatchesTable (loaded s t).huff := by
  have hlen := hl.length_le
  have hnil := hl.stores.nil_mem
  refine ⟨?_, fun x hx hv => ?_, fun n hn hleaf => ?_⟩
  · rw [hl.hnodes_toNat]
    exact List.length_pos_of_mem hnil
  · have hpath := hl.stores.leadsTo (by omega) (p := []) (q := codeOf s.huff x) (hl.leafOf_codeOf hx hv)
    rw [hl.stores.idxOf_nil] at hpath
    exact ⟨(hl.loadable.1 x hx hv).1, hpath⟩
  · rw [hl.hnodes_toNat] at hn
    have hword := hl.stores.word _ (List.getElem_mem hn)
    rw [hl.stores.nodup.idxOf_getElem n hn] at hword
    replace hword : (loaded s t).huff.arena.read n = _ := hword
    rw [hword, nodeIsLeaf_nodeWord] at hleaf
    obtain ⟨x, hx⟩ := Option.isSome_iff_exists.1 hleaf
    obtain ⟨hxlt, hxv⟩ := mem_validBelow.1 (leafOf_some hx).1
    rw [hword, nodeWord_of_leaf hx, nodeSym_leafWord x (by omega)]
    exact ⟨hxlt, hxv⟩

/-- The node of a path is the leaf of the codeword that it is, or has the nodes of its extensions as children (R337). -/
theorem node_of_path {p : List Bool} (hp : p ∈ triePaths s.huff) :
    (∀ x < 129, cwValid s.huff x = true → codeOf s.huff x = p → t.node ((triePaths s.huff).idxOf p) = leafWord x) ∧
    ((∀ x < 129, cwValid s.huff x = true → codeOf s.huff x ≠ p) → t.node ((triePaths s.huff).idxOf p) =
      internalWord (trieChild s.huff (p ++ [false])) (trieChild s.huff (p ++ [true]))) := by
  rw [hl.stores.word p hp]
  refine ⟨fun x hx hv hcode => nodeWord_of_leaf (hcode ▸ hl.leafOf_codeOf hx hv), fun hnone => ?_⟩
  exact nodeWord_of_inner (leafOf_none_of_forall fun x hx =>
    hnone x (mem_validBelow.1 hx).1 (mem_validBelow.1 hx).2)

end Loads

/-! ### The command -/

theorem exec_hload_of_loadable {s : State} (hload : TableLoadable s.huff) :
    ∃ t, exec .hload s = .next (completeDone (loaded (startCommand s) t)) ∧ Loads (startCommand s) t := by
  obtain ⟨t, hbody, hl⟩ := exists_loads (s := startCommand s) hload
  exact ⟨t, exec_of_body_ok (i := .hload) hbody, hl⟩

/-- What `HLOAD` reports of a table that it refuses (R337). -/
abbrev ReportsTable (h : Huff) (pos sym : Nat) : Prop :=
  ((∀ x < 129, cwValid h x = false) → pos = 0 ∧ sym = 129) ∧
  ∀ x < 129, cwValid h x = true → EntriesLoadable h x → ¬ EntriesLoadable h (x + 1) → sym = x ∧ RefusedAt h x pos

theorem exec_hload_of_not_loadable {s : State} (hload : ¬ TableLoadable s.huff) :
    ∃ pos sym, exec .hload s = .next (raiseErr (codeError pos sym) (startCommand s)) ∧ ReportsTable s.huff pos sym := by
  by_cases hempty : validSymbols s.huff = []
  · refine ⟨0, 129, exec_of_body_error (i := .hload) (loadBody_of_empty (s := startCommand s) hempty),
      fun _ => ⟨rfl, rfl⟩, fun x hx hv => ?_⟩
    have hmem : x ∈ validSymbols s.huff := mem_validBelow.2 ⟨hx, hv⟩
    exact absurd (hempty ▸ hmem) List.not_mem_nil
  · obtain ⟨y, hy⟩ := List.exists_mem_of_ne_nil _ hempty
    rw [validSymbols_eq, mem_validBelow] at hy
    obtain ⟨x, hx⟩ := exists_firstRefused le_rfl fun hentries => hload ⟨⟨y, hy⟩, hentries⟩
    obtain ⟨pos, hrun, hpos⟩ := insertAll_of_refused (s := startCommand s) hx
    refine ⟨pos, x, exec_of_body_error (i := .hload) (loadBody_of_error (s := startCommand s) hempty hrun), fun hnone => ?_,
      fun z hz hv hbefore hrefused => ?_⟩
    · exact absurd hy.2 (Bool.eq_false_iff.1 (hnone y hy.1))
    · obtain rfl := hx.unique ⟨hz, hv, hbefore, hrefused⟩
      exact ⟨rfl, hpos⟩

/-- An error of `HLOAD` leaves no tree (R404). -/
theorem raiseErr_codeError (pos sym : Nat) (s : State) :
    Raised 0x06 pos sym s (raiseErr (codeError pos sym) (startCommand s)) ∧
      (raiseErr (codeError pos sym) (startCommand s)).status.hvalid = false ∧
      (raiseErr (codeError pos sym) (startCommand s)).huff.hnodes = 0 ∧
      (raiseErr (codeError pos sym) (startCommand s)).huff.hroot = 0 :=
  ⟨⟨rfl, rfl, rfl, rfl, rfl, rfl, rfl, rfl, rfl⟩, rfl, rfl, rfl⟩

/-- Settles O35: the nodes stand for the paths met so far, and a codeword is refused where it meets an earlier one. -/
theorem hloadMeaning : Obligations.HloadMeaning := by
  intro s
  refine ⟨fun hload => ?_, fun hload => ?_⟩
  · obtain ⟨t, hexec, hl⟩ := exec_hload_of_loadable hload
    have hframe := exec_writesOnlyResults hexec
    exact ⟨_, hexec, ⟨rfl, rfl, rfl, rfl, rfl, rfl⟩, rfl, rfl, hl.treeMatchesTable, hl.hnodes_toNat,
      fun p hp => hl.node_of_path hp, rfl, rfl, rfl, fun n hn => hl.stores.kept n (hl.hnodes_toNat ▸ hn), rfl, rfl, rfl,
      hframe.setup, hframe.probe (by decide), hframe.diag (by decide), hframe.outBuf rfl⟩
  · obtain ⟨pos, sym, hexec, hempty, hrefused⟩ := exec_hload_of_not_loadable hload
    obtain ⟨hraised, hvalid, hnodes, hroot⟩ := raiseErr_codeError pos sym s
    have hframe := exec_writesOnlyResults hexec
    obtain ⟨hfreq, hlen, hbits⟩ := hframe.hload rfl
    exact ⟨_, pos, sym, hexec, hraised, hvalid, hnodes, hroot, hlen, hbits, hfreq, hempty, hrefused, hframe.setup,
      hframe.probe (by decide), hframe.diag (by decide), hframe.outBuf rfl⟩

end Sys2Proof.Machine
end

section
/-! Every step keeps the tree and the codeword table the same code (R54, R333). -/

namespace Sys2Proof.Machine

theorem TreeCoherent.of_huffKept {s t : State} (hs : TreeCoherent s) (hkept : HuffKept s t) : TreeCoherent t := by
  obtain ⟨hhuff, hvalid⟩ := hkept
  rw [TreeCoherent, hhuff, hvalid]
  exact hs

/-- The frequencies are no part of the code. -/
theorem TreeCoherent.of_freq {s t : State} (hs : TreeCoherent s) (hvalid : t.status.hvalid = s.status.hvalid)
    (hhuff : t.huff = { s.huff with freq := t.huff.freq }) : TreeCoherent t := by
  rw [TreeCoherent, hhuff, hvalid]
  exact hs

theorem treeCoherent_of_no_tree {t : State} (hvalid : t.status.hvalid = false) : TreeCoherent t :=
  fun h => absurd h (by simp [hvalid])

/-! ### The port -/

/-- A store to the codeword table drops the tree, and no other store touches the code (R54, R107). -/
theorem treeCoherent_storeWord (loc : Loc) (n : Nat) (v : Word) {s : State} (hs : TreeCoherent s) :
    TreeCoherent (storeWord loc n v s) := by
  cases loc with
  | cwLen x => exact treeCoherent_of_no_tree rfl
  | cwBits x m => exact treeCoherent_of_no_tree rfl
  | freq x => exact hs.of_freq rfl rfl
  | _ => exact hs

theorem treeCoherent_of_portEffect {s t : State} (hs : TreeCoherent s) (h : PortEffect s t) : TreeCoherent t := by
  cases h with
  | stored a n v hlegal => exact treeCoherent_storeWord _ n v hs
  | softReset => exact treeCoherent_of_no_tree rfl
  | hardReset level => exact treeCoherent_of_no_tree rfl
  | _ => exact hs.of_huffKept ⟨rfl, rfl⟩

/-! ### Commands -/

/-- The builders leave a tree of the table or none (R333), and no other command touches the code. -/
theorem treeCoherent_of_exec {i : Instr} {s t : State} (hs : TreeCoherent s) (h : exec i s = .next t) : TreeCoherent t := by
  have hframe := exec_writesOnlyResults h
  cases i with
  | hcount => exact hs.of_freq (hframe.hcount rfl).1 (hframe.hcount rfl).2
  | hbuild =>
    obtain ⟨g, u, hexec, hb⟩ := exec_hbuild s
    rw [hexec] at h
    cases h
    exact fun _ => hb.treeMatchesTable
  | hload =>
    by_cases hload : TableLoadable s.huff
    · obtain ⟨u, hexec, hl⟩ := exec_hload_of_loadable hload
      rw [hexec] at h
      cases h
      exact fun _ => hl.treeMatchesTable
    · obtain ⟨pos, sym, hexec, -⟩ := exec_hload_of_not_loadable hload
      rw [hexec] at h
      cases h
      exact treeCoherent_of_no_tree (raiseErr_codeError pos sym s).2.1
  | _ => exact hs.of_huffKept (hframe.huff (by decide))

/-- Settles O44: the two builders make a matching tree, and every other step keeps it or drops it. -/
theorem stepKeepsTreeCoherent : Obligations.StepKeepsTreeCoherent := by
  intro s t hs h
  obtain ⟨i, -, -, -, hexec⟩ | ⟨_, -, -, -, rfl⟩ | ⟨-, -, rfl⟩ | ⟨e, rest, -, -, rfl⟩ := step_cases h
  · exact treeCoherent_of_exec hs hexec
  · exact hs.of_huffKept (illegalCommand_allElseKept s).2.1
  · exact hs
  · exact treeCoherent_of_portEffect (s := { passSlot s with port := rest }) hs (serve_portEffect e _)

end Sys2Proof.Machine
end

section
/-! `HENC` (R338): it appends the codewords of the input and of the sentinel as long as they fit, and reports the first symbol
that has none or does not fit. -/

namespace Sys2Proof.Machine

/-- A command that fails with its tree kept raises the error after the bytes it had written (R404). -/
theorem exec_raisedAfterWriting {i : Instr} {s : State} {f : Failure} (hentry : entryOf i s = startCommand s)
    (htree : f.KeepsTree) (hbody : bodyOf i (startCommand s) = .error f) :
    ∃ t, exec i s = .next t ∧ RaisedAfterWriting f.wrote f.code.toByte f.pos f.sym s t := by
  refine ⟨raiseErr f (startCommand s), ?_, raiseErr_startCommand_raisedAfterWriting htree s⟩
  rw [← hentry] at hbody ⊢
  exact exec_of_body_error hbody

theorem checkHuffman_ok {s : State} (hlen : inLen s ≤ 65536) (htree : s.status.hvalid = true) : checkHuffman s = .ok () := by
  rw [checkHuffman, checkInLen_ok hlen, checkTree_ok htree]

/-! ### One codeword -/

section

variable {h : Huff} {x : Nat} (pos : Nat) {out : List Bool}

theorem emitCode_of_fits (hv : cwValid h x = true) (hfit : BitsFit (out ++ codeOf h x)) :
    emitCode h pos x out = .ok (out ++ codeOf h x) := by
  have hlen := hfit
  rw [BitsFit, List.length_append] at hlen
  rw [emitCode, if_pos hv, outBits_eq pos x out _ (by omega), if_pos hlen]

theorem emitCode_of_overflow (hv : cwValid h x = true) (hout : BitsFit out) (hover : ¬ BitsFit (out ++ codeOf h x)) :
    emitCode h pos x out = .error (overflowReport pos x) := by
  rw [BitsFit, List.length_append] at hover
  rw [emitCode, if_pos hv, outBits_eq pos x out _ hout, if_neg hover]

theorem emitCode_of_no_code (hv : cwValid h x = false) :
    emitCode h pos x out = .error { code := .noCode, pos := pos, sym := x, wrote := packedLen out.length } := by
  rw [emitCode, hv]
  rfl

end

/-! ### The loop -/

section

variable {h : Huff} (i : Nat) {b : Byte} (bs : List Byte) (out : List Bool)

theorem huffEncode_of_range (hb : 128 ≤ b.toNat) :
    huffEncode h i (b :: bs) out =
      .error { code := .range, pos := i, sym := b.toNat, wrote := packedLen out.length } :=
  if_pos hb

theorem huffEncode_of_symbol (hb : b.toNat < 128) :
    huffEncode h i (b :: bs) out = (emitCode h i b.toNat out).bind (huffEncode h (i + 1) bs) := by
  rw [huffEncode, if_neg (show ¬ Config.sentH ≤ b.toNat from Nat.not_le.2 hb)]
  cases emitCode h i b.toNat out <;> rfl

theorem huffEncode_of_emit_error (hb : b.toNat < 128) {f : Failure} (hemit : emitCode h i b.toNat out = .error f) :
    huffEncode h i (b :: bs) out = .error f := by
  rw [huffEncode_of_symbol i bs out hb, hemit]
  rfl

/-- The symbols before an index, all with codewords that fit together, are encoded (R338). -/
theorem huffEncode_append (pre : List Byte) (hpre : ∀ b ∈ pre, b.toNat < 128 ∧ cwValid h b.toNat = true)
    (hfit : BitsFit (out ++ pre.flatMap fun b => codeOf h b.toNat)) :
    huffEncode h i (pre ++ bs) out = huffEncode h (i + pre.length) bs (out ++ pre.flatMap fun b => codeOf h b.toNat) := by
  induction pre generalizing i out with
  | nil => simp
  | cons b pre ih =>
    obtain ⟨⟨hb, hv⟩, hpre⟩ := List.forall_mem_cons.1 hpre
    rw [List.flatMap_cons, ← List.append_assoc] at hfit ⊢
    have hfirst : BitsFit (out ++ codeOf h b.toNat) := (List.prefix_append _ _).length_le.trans hfit
    rw [List.cons_append, huffEncode_of_symbol _ _ _ hb, emitCode_of_fits i hv hfirst]
    refine (ih (i + 1) (out ++ codeOf h b.toNat) hpre hfit).trans ?_
    rw [List.length_cons, Nat.add_assoc, Nat.add_comm 1]

end

/-! ### The body -/

/-- The bits of the codewords of the first `i` input symbols (R338). -/
def codesBefore (s : State) (i : Nat) : List Bool := (List.range i).flatMap fun j => codeOf s.huff (symAt s j)

/-- The first `i` input symbols have codewords. -/
abbrev CodedBefore (s : State) (i : Nat) : Prop := ∀ j < i, symAt s j < 128 ∧ cwValid s.huff (symAt s j) = true

theorem codesBefore_succ (s : State) (i : Nat) :
    codesBefore s (i + 1) = codesBefore s i ++ codeOf s.huff (symAt s i) := by
  simp [codesBefore, List.range_succ]

theorem codesBefore_eq_flatMap (s : State) (i : Nat) :
    codesBefore s i = ((List.range i).map (inByte s)).flatMap fun b => codeOf s.huff b.toNat := by
  rw [List.flatMap_map]
  rfl

theorem huffEncode_from_start {s : State} {i : Nat} (hi : i < inLen s) (hcoded : CodedBefore s i)
    (hfit : BitsFit (codesBefore s i)) : huffEncode s.huff 0 (inBytes s) [] =
      huffEncode s.huff i (inByte s i :: (inBytes s).drop (i + 1)) (codesBefore s i) := by
  have hpre : ∀ b ∈ (List.range i).map (inByte s), b.toNat < 128 ∧ cwValid s.huff b.toNat = true := fun b hb => by
    obtain ⟨j, hj, rfl⟩ := List.mem_map.1 hb
    exact hcoded j (List.mem_range.1 hj)
  rw [codesBefore_eq_flatMap] at hfit ⊢
  conv_lhs => rw [inBytes_eq_append hi, huffEncode_append 0 _ [] _ hpre (by simpa using hfit)]
  simp

theorem huffEncode_all {s : State} (hcoded : CodedBefore s (inLen s)) (hfit : BitsFit (codesBefore s (inLen s))) :
    huffEncode s.huff 0 (inBytes s) [] = .ok (codesBefore s (inLen s)) := by
  have hrun := huffEncode_append 0 [] [] (inBytes s) (forall_mem_inBytes.2 hcoded)
    (by rw [codesBefore_eq_flatMap] at hfit; exact hfit)
  rw [List.append_nil] at hrun
  rw [hrun, codesBefore_eq_flatMap]
  rfl

section

variable {s : State} (hlen : inLen s ≤ 65536) (htree : s.status.hvalid = true)

include hlen htree

theorem huffEncodeBody_of_loop_error {f : Failure} (hloop : huffEncode s.huff 0 (inBytes s) [] = .error f) :
    huffEncodeBody s = .error f := by
  rw [huffEncodeBody, checkHuffman_ok hlen htree, hloop]

theorem huffEncodeBody_of_sentinel_error (hcoded : CodedBefore s (inLen s)) (hfit : BitsFit (codesBefore s (inLen s)))
    {f : Failure} (hsent : emitCode s.huff (inLen s) 128 (codesBefore s (inLen s)) = .error f) :
    huffEncodeBody s = .error f := by
  rw [huffEncodeBody, checkHuffman_ok hlen htree, huffEncode_all hcoded hfit]
  dsimp only [Config.sentH]
  rw [hsent]

theorem huffEncodeBody_ok (hcoded : CodedBefore s (inLen s)) (hsent : cwValid s.huff 128 = true)
    (hfit : BitsFit (codesBefore s (inLen s) ++ codeOf s.huff 128)) :
    huffEncodeBody s = .ok (commitBits (codesBefore s (inLen s) ++ codeOf s.huff 128)
      { s with work := { s.work with ipos := inLen s } }) := by
  have hall : BitsFit (codesBefore s (inLen s)) := (List.prefix_append _ _).length_le.trans hfit
  rw [huffEncodeBody, checkHuffman_ok hlen htree, huffEncode_all hcoded hall]
  dsimp only [Config.sentH]
  rw [emitCode_of_fits (inLen s) hsent hfit]

/-! ### The command -/

theorem exec_henc_loop_error {i : Nat} (hi : i < inLen s) (hcoded : CodedBefore s i) (hfit : BitsFit (codesBefore s i))
    {f : Failure} (hstop : huffEncode s.huff i (inByte s i :: (inBytes s).drop (i + 1)) (codesBefore s i) = .error f)
    (hf : f.KeepsTree) :
    ∃ t, exec .henc s = .next t ∧ RaisedAfterWriting f.wrote f.code.toByte f.pos f.sym s t :=
  exec_raisedAfterWriting (i := .henc) rfl hf (huffEncodeBody_of_loop_error (s := startCommand s) hlen htree
    ((huffEncode_from_start hi hcoded hfit).trans hstop))

theorem exec_henc_sentinel_error (hcoded : CodedBefore s (inLen s)) (hfit : BitsFit (codesBefore s (inLen s)))
    {f : Failure} (hsent : emitCode s.huff (inLen s) 128 (codesBefore s (inLen s)) = .error f) (hf : f.KeepsTree) :
    ∃ t, exec .henc s = .next t ∧ RaisedAfterWriting f.wrote f.code.toByte f.pos f.sym s t :=
  exec_raisedAfterWriting (i := .henc) rfl hf
    (huffEncodeBody_of_sentinel_error (s := startCommand s) hlen htree hcoded hfit hsent)

/-- `HENC` completes with the codewords of the input and of the sentinel (R338). -/
theorem exec_henc_ok (hcoded : CodedBefore s (inLen s)) (hsent : cwValid s.huff 128 = true)
    (hfit : BitsFit (codesBefore s (inLen s) ++ codeOf s.huff 128)) :
    ∃ t, exec .henc s = .next t ∧ Completed s t ∧
      t.res = { s.res with
        outBits := BitVec.ofNat 32 (codesBefore s (inLen s) ++ codeOf s.huff 128).length
        outLen := BitVec.ofNat 32 (packedLen (codesBefore s (inLen s) ++ codeOf s.huff 128).length)
        rdBits := 0 } ∧
      t.outBuf = s.outBuf.overwrite (packBits (codesBefore s (inLen s) ++ codeOf s.huff 128)) :=
  ⟨_, exec_of_body_ok (i := .henc) (huffEncodeBody_ok (s := startCommand s) hlen htree hcoded hsent hfit),
    ⟨rfl, rfl, rfl, rfl, rfl, rfl⟩, rfl, rfl⟩

end

/-- Settles O38. -/
theorem hencMeaning : Obligations.HencMeaning := by
  intro s bitsTo hlen htree hbits
  obtain rfl : bitsTo = codesBefore s := funext hbits
  refine ⟨fun i hi hcoded hfit => ⟨fun hrange => ?_, fun hsym hv => ?_, fun hsym hv hover => ?_⟩,
    fun hcoded hfit => ⟨fun hv => ?_, fun hv hover => ?_, fun hv hall => ?_⟩⟩
  · exact exec_henc_loop_error hlen htree hi hcoded hfit (huffEncode_of_range i _ _ hrange) rfl
  · exact exec_henc_loop_error hlen htree hi hcoded hfit
      (huffEncode_of_emit_error i _ _ hsym (emitCode_of_no_code i hv)) rfl
  · rw [codesBefore_succ] at hover
    obtain ⟨t, hexec, hraised, hsetup, hhuff, hprobe, hdiag, -⟩ := exec_henc_loop_error hlen htree hi hcoded hfit
      (huffEncode_of_emit_error i _ _ hsym (emitCode_of_overflow i hv hfit (Nat.not_le.2 hover))) rfl
    exact ⟨t, hexec, hraised, hsetup, hhuff, hprobe, hdiag⟩
  · exact exec_henc_sentinel_error hlen htree hcoded hfit (emitCode_of_no_code _ hv) rfl
  · obtain ⟨t, hexec, hraised, hsetup, hhuff, hprobe, hdiag, -⟩ := exec_henc_sentinel_error hlen htree hcoded hfit
      (emitCode_of_overflow _ hv hfit (Nat.not_le.2 hover)) rfl
    exact ⟨t, hexec, hraised, hsetup, hhuff, hprobe, hdiag⟩
  · obtain ⟨t, hexec, hdone, hres, hbuf⟩ := exec_henc_ok hlen htree hcoded hv hall
    have hframe := exec_writesOnlyResults hexec
    refine ⟨t, hexec, hdone, by rw [hres], by rw [hres]; rfl, by rw [hres], fun i hi => ?_, fun i hi => ?_, hframe.setup,
      hframe.huff (by decide), hframe.probe (by decide), hframe.diag (by decide)⟩
    · rw [hbuf, read_packBits _ _ _ hi]
    · rw [hbuf, Memory.read_overwrite_of_le (by rw [packBits_length]; exact hi)]

end Sys2Proof.Machine
end

section
/-! `HDEC` (R339): the walk along a codeword ends at its leaf, so a stream of codewords is decoded one by one. -/

namespace Sys2Proof.Machine

/-! ### One walk -/

section

variable {a : Arena} {n : Nat} (rpos : Nat)

theorem walk_of_leaf (hleaf : nodeIsLeaf (a.read n) = true) (bits : List Bool) :
    walk a n rpos bits = .leaf (nodeSym (a.read n)) rpos bits := by
  cases bits <;> simp [walk, hleaf]

theorem walk_of_inner (hinner : nodeIsLeaf (a.read n) = false) {b : Bool} (hchild : nodeChild (a.read n) b ≠ Config.nil)
    (bits : List Bool) : walk a n rpos (b :: bits) = walk a (nodeChild (a.read n) b).toNat (rpos + 1) bits := by
  simp [walk, hinner, hchild]

/-- The walk along a codeword ends at its leaf (R332). -/
theorem walk_of_leadsTo {p : List Bool} {x : Nat} (hx : x < 256) (hpath : leadsTo a n p x = true) (rest : List Bool) :
    walk a n rpos (p ++ rest) = .leaf x (rpos + p.length) rest := by
  induction p generalizing n rpos with
  | nil =>
    rw [leadsTo_nil] at hpath
    rw [List.nil_append, walk_of_leaf rpos (hpath ▸ nodeIsLeaf_leafWord x), hpath, nodeSym_leafWord x hx]
    rfl
  | cons b p ih =>
    obtain ⟨hinner, hchild, hpath⟩ := (leadsTo_cons a n b p x).1 hpath
    rw [List.cons_append, walk_of_inner rpos hinner hchild, ih (rpos + 1) hpath, List.length_cons]
    congr 1
    omega

/-- The walk along the first bits of a codeword, but not all of them, ends with the input (R339). -/
theorem walk_of_proper_prefix {p rest : List Bool} (hrest : rest ≠ []) {x : Nat}
    (hpath : leadsTo a n (p ++ rest) x = true) : walk a n rpos p = .exhausted (rpos + p.length) := by
  induction p generalizing n rpos with
  | nil =>
    obtain ⟨b, rest, rfl⟩ := List.exists_cons_of_ne_nil hrest
    obtain ⟨hinner, -⟩ := (leadsTo_cons a n b rest x).1 hpath
    simp [walk, hinner]
  | cons b p ih =>
    obtain ⟨hinner, hchild, hpath⟩ := (leadsTo_cons a n b (p ++ rest) x).1 hpath
    rw [walk_of_inner rpos hinner hchild, ih (rpos + 1) hpath, List.length_cons]
    congr 1
    omega

/-- The walk to an inner node without the child that the next bit asks for (R339). -/
theorem walk_of_missing {p : List Bool} {m : Nat} (hpath : followPath a n p = some m)
    (hinner : nodeIsLeaf (a.read m) = false) {b : Bool} (hchild : nodeChild (a.read m) b = Config.nil) (rest : List Bool) :
    walk a n rpos (p ++ b :: rest) = .missing (rpos + p.length) b := by
  induction p generalizing n rpos with
  | nil =>
    obtain rfl := Option.some.inj hpath
    simp [walk, hinner, hchild]
  | cons c p ih =>
    rw [followPath] at hpath
    split at hpath
    · cases hpath
    · next hnode =>
      rw [Bool.or_eq_true, not_or, Bool.not_eq_true, beq_iff_eq] at hnode
      rw [List.cons_append, walk_of_inner rpos hnode.1 hnode.2, ih (rpos + 1) hpath, List.length_cons]
      congr 1
      omega

end

/-! ### The loop -/

section

variable {a : Arena} {root rpos p : Nat} {bits rest : List Bool} (out : List Byte)

theorem huffDecode_of_symbol {x : Nat} (hx : x ≠ 128) (hwalk : walk a root rpos bits = .leaf x p rest) (room : Nat) :
    huffDecode a root (room + 1) rpos bits out = huffDecode a root room p rest (out ++ [BitVec.ofNat 8 x]) := by
  rw [huffDecode, hwalk]
  exact if_neg hx

theorem huffDecode_of_full {x : Nat} (hx : x ≠ 128) (hwalk : walk a root rpos bits = .leaf x p rest) :
    huffDecode a root 0 rpos bits out =
      .error { code := .outOvf, pos := out.length, sym := x, wrote := out.length } := by
  rw [huffDecode, hwalk]
  exact if_neg hx

theorem huffDecode_of_sentinel (hwalk : walk a root rpos bits = .leaf 128 p rest) (room : Nat) :
    huffDecode a root room rpos bits out = .ok (p, out) := by
  cases room <;> rw [huffDecode, hwalk] <;> rfl

theorem huffDecode_of_exhausted (hwalk : walk a root rpos bits = .exhausted p) (room : Nat) :
    huffDecode a root room rpos bits out =
      .error { code := .stream, pos := p, sym := out.length, wrote := out.length } := by
  cases room <;> rw [huffDecode, hwalk]

theorem huffDecode_of_missing {b : Bool} (hwalk : walk a root rpos bits = .missing p b) (room : Nat) :
    huffDecode a root room rpos bits out =
      .error { code := .badCode, pos := p, sym := b.toNat, wrote := out.length } := by
  cases room <;> rw [huffDecode, hwalk]

end

/-- The codewords of a symbol sequence are decoded one by one (R339). -/
theorem huffDecode_symbols {a : Arena} {root : Nat} {code : Nat → List Bool} (syms : List Nat)
    (hsyms : ∀ x ∈ syms, x < 128 ∧ leadsTo a root (code x) x = true) (room rpos : Nat) (rest : List Bool) (out : List Byte) :
    huffDecode a root (syms.length + room) rpos (syms.flatMap code ++ rest) out =
      huffDecode a root room (rpos + (syms.flatMap code).length) rest (out ++ syms.map (BitVec.ofNat 8)) := by
  induction syms generalizing rpos out with
  | nil => simp
  | cons x syms ih =>
    obtain ⟨⟨hx, hpath⟩, hsyms⟩ := List.forall_mem_cons.1 hsyms
    have hwalk := walk_of_leadsTo rpos (by omega) hpath (syms.flatMap code ++ rest)
    rw [List.flatMap_cons, List.append_assoc, List.length_cons, Nat.add_right_comm,
      huffDecode_of_symbol out (by omega) hwalk, ih hsyms, List.length_append, List.map_cons, List.append_assoc,
      Nat.add_assoc]
    rfl

/-! ### The command -/

/-- The answer of the loop of R339. -/
def huffDecodeAnswer (s : State) : Except Failure (Nat × List Byte) :=
  huffDecode s.huff.arena s.huff.hroot.toNat Config.obufBytes 0 (inBits s) []

/-- What `HDEC` leaves when it has read `rpos` bits and decoded `out` (R339). -/
def decoded (rpos : Nat) (out : List Byte) (s : State) : State :=
  { commitBytes out s with
    res := { (commitBytes out s).res with rdBits := BitVec.ofNat 32 rpos }
    work := { (commitBytes out s).work with rpos := rpos } }

section

variable {s : State} (hlen : inLen s ≤ 65536) (hvalid : s.status.hvalid = true)

include hlen hvalid

theorem huffDecodeBody_eq_map :
    huffDecodeBody s = (huffDecodeAnswer s).map fun p => decoded p.1 p.2 s := by
  rw [huffDecodeBody, checkHuffman_ok hlen hvalid, ← huffDecodeAnswer]
  cases huffDecodeAnswer s <;> rfl

theorem exec_hdec_ok {rpos : Nat} {out : List Byte} (hrun : huffDecodeAnswer s = .ok (rpos, out)) :
    ∃ t, exec .hdec s = .next t ∧ Completed s t ∧
      t.res = { s.res with
        outLen := BitVec.ofNat 32 out.length, outBits := 0, rdBits := BitVec.ofNat 32 rpos } ∧
      t.outBuf = s.outBuf.overwrite out := by
  have hbody := huffDecodeBody_eq_map (s := startCommand s) hlen hvalid
  rw [show huffDecodeAnswer (startCommand s) = _ from hrun] at hbody
  exact ⟨_, exec_of_body_ok (i := .hdec) hbody, ⟨rfl, rfl, rfl, rfl, rfl, rfl⟩, rfl, rfl⟩

theorem exec_hdec_error {f : Failure} (hrun : huffDecodeAnswer s = .error f) (hf : f.KeepsTree) :
    ∃ t, exec .hdec s = .next t ∧ RaisedAfterWriting f.wrote f.code.toByte f.pos f.sym s t := by
  have hbody := huffDecodeBody_eq_map (s := startCommand s) hlen hvalid
  rw [show huffDecodeAnswer (startCommand s) = _ from hrun] at hbody
  exact exec_raisedAfterWriting (i := .hdec) rfl hf hbody

end

section

variable {s : State} (htree : TreeMatchesTable s.huff) {syms : List Nat} (hroom : syms.length ≤ 65536)
  (hsyms : ∀ x ∈ syms, x < 128 ∧ cwValid s.huff x = true)

include htree hroom hsyms

/-- The decoder after the codewords of `syms`. -/
theorem huffDecodeAnswer_of_symbols {rest : List Bool} (hbits : inBits s = syms.flatMap (codeOf s.huff) ++ rest) :
    huffDecodeAnswer s = huffDecode s.huff.arena s.huff.hroot.toNat (65536 - syms.length)
      (syms.flatMap (codeOf s.huff)).length rest (syms.map (BitVec.ofNat 8)) := by
  have hsplit : Config.obufBytes = syms.length + (65536 - syms.length) := by
    unfold Config.obufBytes
    omega
  have hrun := huffDecode_symbols (a := s.huff.arena) (root := s.huff.hroot.toNat) syms
    (fun x hx => ⟨(hsyms x hx).1, htree.leadsTo ((hsyms x hx).1.trans (by omega)) (hsyms x hx).2⟩)
    (65536 - syms.length) 0 rest []
  rw [huffDecodeAnswer, hbits, hsplit, hrun, Nat.zero_add, List.nil_append]

theorem huffDecodeAnswer_of_stream (hsent : cwValid s.huff 128 = true) {rest : List Bool}
    (hbits : inBits s = huffStream s.huff syms ++ rest) :
    huffDecodeAnswer s = .ok ((huffStream s.huff syms).length, syms.map (BitVec.ofNat 8)) := by
  rw [huffStream, show Config.sentH = 128 from rfl, List.append_assoc] at hbits
  rw [huffDecodeAnswer_of_symbols htree hroom hsyms hbits,
    huffDecode_of_sentinel _ (walk_of_leadsTo _ (by omega) (htree.leadsTo (by omega) hsent) rest), huffStream,
    List.length_append]
  rfl

end

theorem length_inBits (s : State) : (inBits s).length = 8 * inLen s := by simp [inBits]

/-- Settles O39. -/
theorem hdecDecodesCodewords : Obligations.HdecDecodesCodewords := by
  intro s syms rest hlen hvalid htree hroom hsyms hsent hbits
  obtain ⟨t, hexec, hdone, hres, hbuf⟩ := exec_hdec_ok hlen hvalid
    (huffDecodeAnswer_of_stream htree hroom hsyms hsent hbits)
  have hframe := exec_writesOnlyResults hexec
  rw [List.length_map] at hres
  refine ⟨t, hexec, hdone, by rw [hres], by rw [hres], by rw [hres], fun i hi => ?_, fun i hi => ?_, hframe.setup,
    hframe.huff (by decide), hframe.probe (by decide), hframe.diag (by decide)⟩
  · have hx := (hsyms _ (List.getElem_mem hi)).1
    rw [hbuf, Memory.read_overwrite, dif_pos (by rwa [List.length_map]), List.getElem_map, List.getD_eq_getElem _ _ hi,
      BitVec.toNat_ofNat]
    omega
  · rw [hbuf, Memory.read_overwrite_of_le (by rwa [List.length_map])]

/-- Settles O40: the walk that ends the decoding says which error it is. -/
theorem hdecStreamErrors : Obligations.HdecStreamErrors := by
  intro s syms part hlen hvalid htree hroom hsyms
  have hwrote : (syms.map (BitVec.ofNat 8)).length = syms.length := List.length_map _
  refine ⟨fun last hlast hv hpre hne hbits => ?_, fun n b rest hpath hinner hchild hbits => ?_,
    fun x hx hv rest hfull hbits => ?_⟩
  · obtain ⟨rest, hcode⟩ := hpre
    have hrest : rest ≠ [] := fun h => hne (by rw [← hcode, h, List.append_nil])
    have hpos : (syms.flatMap (codeOf s.huff)).length + part.length = 8 * inLen s := by
      rw [← length_inBits, hbits, List.length_append]
    have hrun := huffDecodeAnswer_of_symbols htree hroom hsyms hbits
    rw [huffDecode_of_exhausted _ (walk_of_proper_prefix _ hrest (hcode ▸ htree.leadsTo hlast hv)), hpos, hwrote] at hrun
    obtain ⟨t, hexec, hraised, hsetup, hhuff, hprobe, hdiag, hbuf⟩ := exec_hdec_error hlen hvalid hrun rfl
    exact ⟨t, hexec, hraised, hbuf, hsetup, hhuff, hprobe, hdiag⟩
  · rw [List.append_assoc] at hbits
    have hrun := huffDecodeAnswer_of_symbols htree hroom hsyms hbits
    rw [huffDecode_of_missing _ (walk_of_missing _ hpath hinner hchild rest), hwrote] at hrun
    obtain ⟨t, hexec, hraised, hsetup, hhuff, hprobe, hdiag, hbuf⟩ := exec_hdec_error hlen hvalid hrun rfl
    exact ⟨t, hexec, hraised, hbuf, hsetup, hhuff, hprobe, hdiag⟩
  · rw [List.append_assoc] at hbits
    have hrun := huffDecodeAnswer_of_symbols htree hroom hsyms hbits
    rw [hfull, Nat.sub_self, huffDecode_of_full _ (by omega)
      (walk_of_leadsTo _ (by omega) (htree.leadsTo (by omega) hv) rest), hwrote, hfull] at hrun
    obtain ⟨t, hexec, hraised, hsetup, hhuff, hprobe, hdiag, hbuf⟩ := exec_hdec_error hlen hvalid hrun rfl
    exact ⟨t, hexec, hraised, hbuf, hsetup, hhuff, hprobe, hdiag⟩

end Sys2Proof.Machine
end

section
/-! The round trip of the Huffman coder (R342): the input of `HDEC` begins with the stream that `HENC` has packed. -/

namespace Sys2Proof.Machine

/-- The stream of the whole input (R338). -/
theorem huffStream_input (s : State) :
    huffStream s.huff ((List.range (inLen s)).map (symAt s)) = codesBefore s (inLen s) ++ codeOf s.huff 128 := by
  rw [huffStream, List.flatMap_map]
  rfl

/-- An input whose first bytes hold packed bits begins with those bits (R103, R468). -/
theorem inBits_of_packBits {u : State} {bits : List Bool} {m : Memory} (hlen : packedLen bits.length ≤ inLen u)
    (hbytes : ∀ i < packedLen bits.length, inByte u i = (m.overwrite (packBits bits)).read i) :
    inBits u = bits ++ (inBits u).drop bits.length := by
  have hfit : bits.length ≤ 8 * packedLen bits.length := by
    unfold packedLen
    omega
  have htake : (inBits u).take bits.length = bits := by
    apply List.ext_getElem
    · rw [List.length_take, length_inBits]
      omega
    · intro i hi hi'
      have hbyte : i / 8 < packedLen bits.length := by omega
      rw [List.getElem_take]
      simp only [inBits, List.getElem_map, List.getElem_range, inBit]
      rw [hbytes _ hbyte, read_packBits m bits i (by omega), List.getD_eq_getElem _ _ hi']
  conv_lhs => rw [← List.take_append_drop bits.length (inBits u), htake]

/-- Settles O41. -/
theorem huffmanRoundTrip : Obligations.HuffmanRoundTrip := by
  intro s hlen hvalid htree hcoded hsent hfit
  rw [huffStream_input] at hfit
  obtain ⟨t, hexec, hdone, hres, hbuf⟩ := exec_henc_ok hlen hvalid hcoded hsent hfit
  refine ⟨t, hexec, hdone, fun u hhuff huvalid hle hulen hbytes => ?_⟩
  have hhuff' : u.huff = s.huff := hhuff.trans ((exec_writesOnlyResults hexec).huff (by decide)).1
  have houtLen : t.res.outLen.toNat = packedLen (codesBefore s (inLen s) ++ codeOf s.huff 128).length := by
    rw [hres]
    exact toNat_ofNat_of_le_obufBytes (packedLen_le hfit)
  rw [houtLen] at hle hbytes
  have hstream := inBits_of_packBits hle fun i hi => hbuf ▸ hbytes i hi
  rw [← huffStream_input, ← hhuff'] at hstream
  have hsyms : ∀ x ∈ (List.range (inLen s)).map (symAt s), x < 128 ∧ cwValid u.huff x = true := fun x hx => by
    obtain ⟨j, hj, rfl⟩ := List.mem_map.1 hx
    exact hhuff' ▸ hcoded j (List.mem_range.1 hj)
  have hcount : ((List.range (inLen s)).map (symAt s)).length = inLen s := by simp
  obtain ⟨w, hwexec, hwdone, hwres, hwbuf⟩ := exec_hdec_ok hulen huvalid
    (huffDecodeAnswer_of_stream (s := u) (hhuff' ▸ htree) (by omega) hsyms (hhuff' ▸ hsent) hstream)
  rw [List.length_map, hcount, hhuff', huffStream_input] at hwres
  refine ⟨w, hwexec, hwdone, by rw [hwres], by rw [hwres, hres], fun i hi => ?_⟩
  rw [hwbuf, Memory.read_overwrite, dif_pos (by simpa using hi)]
  simp [symAt]

end Sys2Proof.Machine
end

section
/-! Minimum redundancy (R340, R341). If no codeword begins another, their lengths satisfy Kraft's inequality. Among lengths
that satisfy it, none is better for the frequencies than those of the greedy merge: the two least groups can be given the
greatest length, and then they can be merged. -/

namespace Sys2Proof.Machine

/-! ### Kraft's inequality -/

theorem uniquelyDecodable_of_prefixFree {S : Set (List Bool)} (hne : ∀ w ∈ S, w ≠ [])
    (hpre : ∀ v ∈ S, ∀ w ∈ S, v <+: w → v = w) : InformationTheory.UniquelyDecodable S := by
  intro L
  induction L with
  | nil =>
    rintro (_ | ⟨w, M⟩) - hM h
    · rfl
    · exact absurd (List.append_eq_nil_iff.1 h.symm).1 (hne w (hM w List.mem_cons_self))
  | cons v L ih =>
    rintro (_ | ⟨w, M⟩) hL hM h
    · exact absurd (List.append_eq_nil_iff.1 h).1 (hne v (hL v List.mem_cons_self))
    · obtain ⟨hv, hL⟩ := List.forall_mem_cons.1 hL
      obtain ⟨hw, hM'⟩ := List.forall_mem_cons.1 hM
      rw [List.flatten_cons, List.flatten_cons] at h
      have hvw : v = w := by
        rcases List.prefix_or_prefix_of_prefix (List.prefix_append v L.flatten) (h ▸ List.prefix_append w M.flatten) with
          hp | hp
        · exact hpre v hv w hw hp
        · exact (hpre w hw v hv hp).symm
      subst hvw
      rw [ih M hL hM' (List.append_cancel_left h)]

/-- The sum of `2^-l` over the codeword lengths `l`. -/
noncomputable def kraftSum (ls : List Nat) : ℝ := (ls.map fun l => (1 / 2 : ℝ) ^ l).sum

@[simp] theorem kraftSum_cons (l : Nat) (ls : List Nat) : kraftSum (l :: ls) = (1 / 2) ^ l + kraftSum ls := by
  simp [kraftSum]

theorem kraftSum_perm {ls ms : List Nat} (h : ls.Perm ms) : kraftSum ls = kraftSum ms := (h.map _).sum_eq

/-- Only a symbol that stands alone can have the empty codeword. -/
theorem eq_singleton_of_empty {syms : List Nat} (hnodup : syms.Nodup) {code : Nat → List Bool}
    (hpre : ∀ x ∈ syms, ∀ y ∈ syms, x ≠ y → ¬ code x <+: code y) {x : Nat} (hx : x ∈ syms) (hcode : code x = []) :
    syms = [x] := by
  have hall : ∀ y ∈ syms, y = x := fun y hy => by
    by_contra hne
    exact hpre x hx y hy (Ne.symm hne) (hcode ▸ List.nil_prefix)
  obtain _ | ⟨y, _ | ⟨z, rest⟩⟩ := syms
  · cases hx
  · rw [hall y List.mem_cons_self]
  · have hyz : y = z := (hall y (by simp)).trans (hall z (by simp)).symm
    simp [hyz] at hnodup

theorem kraftSum_le_one {syms : List Nat} (hnodup : syms.Nodup) {code : Nat → List Bool}
    (hpre : ∀ x ∈ syms, ∀ y ∈ syms, x ≠ y → ¬ code x <+: code y) :
    kraftSum (syms.map fun x => (code x).length) ≤ 1 := by
  by_cases hempty : ∃ x ∈ syms, code x = []
  · obtain ⟨x, hx, hcode⟩ := hempty
    simp [eq_singleton_of_empty hnodup hpre hx hcode, kraftSum, hcode]
  · push Not at hempty
    have hinj : Set.InjOn code syms.toFinset := fun x hx y hy he => by
      by_contra hne
      exact hpre x (List.mem_toFinset.1 hx) y (List.mem_toFinset.1 hy) hne (he ▸ List.prefix_refl _)
    have hkraft := InformationTheory.kraft_mcmillan_inequality (S := syms.toFinset.image code)
      (uniquelyDecodable_of_prefixFree (by simpa using hempty) (by
        simp only [Finset.coe_image, List.coe_toFinset, Set.mem_image, Set.mem_ofPred_eq]
        rintro _ ⟨x, hx, rfl⟩ _ ⟨y, hy, rfl⟩ hp
        by_contra hne
        exact hpre x hx y hy (fun he => hne (he ▸ rfl)) hp))
    rw [Finset.sum_image hinj, Fintype.card_bool, List.sum_toFinset _ hnodup] at hkraft
    rw [kraftSum, List.map_map]
    exact_mod_cast hkraft

/-- A Kraft sum is a multiple of `2^-m` for every bound `m` on the lengths. -/
theorem exists_kraftSum_mul_eq {m : Nat} {ls : List Nat} (hle : ∀ k ∈ ls, k ≤ m) :
    ∃ N : ℕ, kraftSum ls * 2 ^ m = N := by
  induction ls with
  | nil => exact ⟨0, by simp [kraftSum]⟩
  | cons k ls ih =>
    obtain ⟨hk, hls⟩ := List.forall_mem_cons.1 hle
    obtain ⟨N, hN⟩ := ih hls
    have hpow : (1 / 2 : ℝ) ^ k * 2 ^ m = 2 ^ (m - k) := by
      obtain ⟨d, rfl⟩ := Nat.exists_eq_add_of_le hk
      rw [Nat.add_sub_cancel_left, pow_add, ← mul_assoc, ← mul_pow]
      norm_num
    refine ⟨2 ^ (m - k) + N, ?_⟩
    rw [kraftSum_cons, add_mul, hpow, hN]
    push_cast
    rfl

/-- Below a bound `m` on the other lengths, one length can be cut to `m`: their sum is below 1, so `2^-m` is left. -/
theorem kraftSum_cut {l m : Nat} {ls : List Nat} (hle : ∀ k ∈ ls, k ≤ m) (h : kraftSum (l :: ls) ≤ 1) :
    kraftSum (m :: ls) ≤ 1 := by
  obtain ⟨N, hN⟩ := exists_kraftSum_mul_eq hle
  have hpos : (0 : ℝ) < (1 / 2) ^ l := by positivity
  have hm : (0 : ℝ) < 2 ^ m := by positivity
  rw [kraftSum_cons] at h ⊢
  have hlt : N < 2 ^ m := by
    have hreal : (N : ℝ) < 2 ^ m := by
      rw [← hN]
      nlinarith
    exact_mod_cast hreal
  have hsucc : (N : ℝ) + 1 ≤ 2 ^ m := by exact_mod_cast hlt
  have hscale : ((1 / 2) ^ m + kraftSum ls) * 2 ^ m ≤ 1 * 2 ^ m := by
    rw [add_mul, hN, ← mul_pow]
    norm_num
    linarith
  exact le_of_mul_le_mul_right hscale hm

/-- Two codewords of one length stand for one that is a bit shorter. -/
theorem kraftSum_merge {l : Nat} {ls : List Nat} (h : kraftSum (l :: l :: ls) ≤ 1) :
    ∃ k, l = k + 1 ∧ kraftSum (k :: ls) ≤ 1 := by
  have hnonneg : 0 ≤ kraftSum ls := List.sum_nonneg (by simp)
  rw [kraftSum_cons, kraftSum_cons] at h
  cases l with
  | zero =>
    rw [pow_zero] at h
    linarith
  | succ k =>
    refine ⟨k, rfl, ?_⟩
    rw [pow_succ] at h
    rw [kraftSum_cons]
    linarith

/-! ### Giving the least weights the greatest length -/

section

variable {α : Type} (w : α → Nat)

/-- The total length of a code with the lengths `ps` under the weights `w`. -/
def weightedLength (ps : List (α × Nat)) : Nat := (ps.map fun p => w p.1 * p.2).sum

@[simp] theorem weightedLength_cons (p : α × Nat) (ps : List (α × Nat)) :
    weightedLength w (p :: ps) = w p.1 * p.2 + weightedLength w ps := by
  simp [weightedLength]

theorem weightedLength_perm {ps qs : List (α × Nat)} (h : ps.Perm qs) : weightedLength w ps = weightedLength w qs :=
  (h.map _).sum_eq

/-- The heavier of two symbols takes the shorter codeword. -/
theorem swap_le {a b l k : Nat} (hab : a ≤ b) (hkl : k ≤ l) : a * l + b * k ≤ a * k + b * l := by
  obtain ⟨d, rfl⟩ := Nat.exists_eq_add_of_le hab
  obtain ⟨e, rfl⟩ := Nat.exists_eq_add_of_le hkl
  nlinarith [Nat.zero_le (d * e)]

/-- The lightest symbol can take the greatest of the lengths. -/
theorem exists_longest {x : α} (l : Nat) (ps : List (α × Nat)) (hx : ∀ p ∈ ps, w x ≤ w p.1) :
    ∃ l' ps', ps'.map Prod.fst = ps.map Prod.fst ∧ (l' :: ps'.map Prod.snd).Perm (l :: ps.map Prod.snd) ∧
      (∀ p ∈ ps', p.2 ≤ l') ∧ w x * l' + weightedLength w ps' ≤ w x * l + weightedLength w ps := by
  induction ps with
  | nil => exact ⟨l, [], rfl, List.Perm.refl _, nofun, le_rfl⟩
  | cons p ps ih =>
    obtain ⟨hp, hps⟩ := List.forall_mem_cons.1 hx
    obtain ⟨l', ps', hfst, hsnd, hle, hcost⟩ := ih hps
    have hperm : (p.2 :: l' :: ps'.map Prod.snd).Perm (l :: (p :: ps).map Prod.snd) :=
      (hsnd.cons _).trans (.swap _ _ _)
    obtain hpl | hlp := Nat.le_total p.2 l'
    · refine ⟨l', p :: ps', by rw [List.map_cons, hfst, List.map_cons], (List.Perm.swap _ _ _).trans hperm,
        List.forall_mem_cons.2 ⟨hpl, hle⟩, ?_⟩
      rw [weightedLength_cons, weightedLength_cons]
      omega
    · refine ⟨p.2, (p.1, l') :: ps', by rw [List.map_cons, hfst, List.map_cons], hperm,
        List.forall_mem_cons.2 ⟨hlp, fun q hq => (hle q hq).trans hlp⟩, ?_⟩
      have hswap := swap_le hp hlp
      rw [weightedLength_cons, weightedLength_cons]
      dsimp only
      omega

/-- The two lightest symbols can be merged into one (R336, R341): the lengths still satisfy Kraft's inequality, and the total
falls by at least the two weights. -/
theorem exists_merged_lengths {x y : α} {lx ly : Nat} {ps : List (α × Nat)} (hxy : w x ≤ w y)
    (hy : ∀ p ∈ ps, w y ≤ w p.1) (hkraft : kraftSum (lx :: ly :: ps.map Prod.snd) ≤ 1) :
    ∃ l ps', ps'.map Prod.fst = ps.map Prod.fst ∧ kraftSum (l :: ps'.map Prod.snd) ≤ 1 ∧
      (w x + w y) * l + (w x + w y) + weightedLength w ps' ≤ w x * lx + w y * ly + weightedLength w ps := by
  obtain ⟨lx', qs, hfst, hsnd, hlex, hcostx⟩ := exists_longest w lx ((y, ly) :: ps)
    (List.forall_mem_cons.2 ⟨hxy, fun p hp => hxy.trans (hy p hp)⟩)
  obtain _ | ⟨⟨y', ly'⟩, qs⟩ := qs
  · cases hfst
  obtain ⟨rfl, hqs⟩ := List.cons.inj hfst
  have hyqs : ∀ p ∈ qs, w y' ≤ w p.1 := fun p hp => by
    have hmem : p.1 ∈ ps.map Prod.fst := hqs ▸ List.mem_map_of_mem hp
    obtain ⟨q, hq, he⟩ := List.mem_map.1 hmem
    exact he ▸ hy q hq
  obtain ⟨ly'', rs, hfst', hsnd', hley, hcosty⟩ := exists_longest w ly' qs hyqs
  obtain ⟨k, rfl, hk⟩ : ∃ k, ly'' = k + 1 ∧ kraftSum (k :: rs.map Prod.snd) ≤ 1 := by
    refine kraftSum_merge (kraftSum_cut (l := lx') (fun m hm => ?_) ?_)
    · rcases List.mem_cons.1 hm with rfl | hm
      · exact le_rfl
      · obtain ⟨p, hp, rfl⟩ := List.mem_map.1 hm
        exact hley p hp
    · rw [kraftSum_perm (hsnd'.cons lx')]
      exact (kraftSum_perm hsnd).trans_le hkraft
  have hlong : k + 1 ≤ lx' := by
    have hmem := hsnd'.mem_iff.1 List.mem_cons_self
    rcases List.mem_cons.1 hmem with he | hmem
    · exact he ▸ hlex (y', ly') List.mem_cons_self
    · obtain ⟨p, hp, he⟩ := List.mem_map.1 hmem
      exact he ▸ hlex p (List.mem_cons_of_mem _ hp)
  refine ⟨k, rs, hfst'.trans hqs, hk, ?_⟩
  have hwx : w x * (k + 1) ≤ w x * lx' := Nat.mul_le_mul_left _ hlong
  rw [weightedLength_cons, weightedLength_cons] at hcostx
  dsimp only at hcostx
  linarith

end

end Sys2Proof.Machine
end

section
/-! No codeword of a built or loaded table begins another one, and the code of `HBUILD` has minimum redundancy (R340, R341). -/

namespace Sys2Proof.Machine

/-- The frequency of a group's members. -/
def memberFreq (h : Huff) (g : Group) : Nat := (g.members.map fun m => freqOf h m.1).sum

/-- The total length of the codewords that a group's members have so far, under the frequencies. -/
def memberCost (h : Huff) (g : Group) : Nat := (g.members.map fun m => freqOf h m.1 * m.2.length).sum

section

variable (h : Huff) {x y c : Group} (hm : c.members = mergedMembers x y)

include hm

theorem memberFreq_merged : memberFreq h c = memberFreq h x + memberFreq h y := by
  simp [memberFreq, hm, mergedMembers, Function.comp_def]

/-- A merge makes the codeword of every member one bit longer (R336). -/
theorem memberCost_merged :
    memberCost h c = memberCost h x + memberCost h y + (memberFreq h x + memberFreq h y) := by
  simp only [memberCost, memberFreq, hm, mergedMembers, List.map_append, List.map_map, Function.comp_def,
    List.length_cons, Nat.mul_add, Nat.mul_one, List.sum_append, List.sum_map_add]
  omega

end

/-- The cost of a list of groups, each under a codeword of its length. -/
def groupsCost (h : Huff) (gs : List Group) : Nat := (gs.map (memberCost h)).sum

@[simp] theorem groupsCost_cons (h : Huff) (g : Group) (gs : List Group) :
    groupsCost h (g :: gs) = memberCost h g + groupsCost h gs := by
  simp [groupsCost]

theorem groupsCost_perm (h : Huff) {gs gs' : List Group} (hp : gs.Perm gs') : groupsCost h gs = groupsCost h gs' :=
  (hp.map _).sum_eq

/-- A list of pairs whose first components are a rearrangement of `x :: xs` has a pair for `x`. -/
theorem exists_perm_cons_of_map_fst {α β : Type} {ps : List (α × β)} {x : α} {xs : List α}
    (h : (ps.map Prod.fst).Perm (x :: xs)) : ∃ b qs, ps.Perm ((x, b) :: qs) ∧ (qs.map Prod.fst).Perm xs := by
  obtain ⟨⟨x', b⟩, hp, rfl⟩ := List.mem_map.1 (h.mem_iff.2 List.mem_cons_self)
  obtain ⟨l₁, l₂, rfl⟩ := List.append_of_mem hp
  refine ⟨b, l₁ ++ l₂, List.perm_middle, ?_⟩
  exact (List.perm_cons x').1 (((List.perm_middle.map Prod.fst).symm).trans h)

/-- No lengths that satisfy Kraft's inequality are better for the groups than the greedy merge (R341). -/
theorem GreedyMerge.cost_le {node : Nat → Word} {n : Nat} {gs : List Group} {g : Group} (hmerge : GreedyMerge node n gs g)
    (h : Huff) (hfreq : ∀ x ∈ gs, x.freq = memberFreq h x) (ps : List (Group × Nat)) (hps : (ps.map Prod.fst).Perm gs)
    (hkraft : kraftSum (ps.map Prod.snd) ≤ 1) :
    memberCost h g ≤ groupsCost h gs + weightedLength Group.freq ps := by
  induction hmerge generalizing ps with
  | last n g => simp [groupsCost]
  | merge n gs rest x y c g hp hx hy _ _ hf _ _ hm _ ih =>
    obtain ⟨lx, qs, hperm, hqs⟩ := exists_perm_cons_of_map_fst (hps.trans hp)
    obtain ⟨ly, rs, hperm', hrs⟩ := exists_perm_cons_of_map_fst hqs
    have hall : ps.Perm ((x, lx) :: (y, ly) :: rs) := hperm.trans (hperm'.cons _)
    have hxfreq := hfreq x (hp.mem_iff.2 List.mem_cons_self)
    have hyfreq := hfreq y (hp.mem_iff.2 (List.mem_cons_of_mem _ List.mem_cons_self))
    have hprec : ∀ {a b : Group}, a.Precedes b → a.freq ≤ b.freq := fun hab => hab.elim Nat.le_of_lt fun he => he.1.le
    obtain ⟨l, us, hus, hkraft', hcost⟩ := exists_merged_lengths Group.freq (x := x) (y := y) (lx := lx) (ly := ly)
      (ps := rs) (hprec (hx y List.mem_cons_self))
      (fun p hp => hprec (hy p.1 (hrs.mem_iff.1 (List.mem_map_of_mem hp))))
      ((kraftSum_perm (hall.map Prod.snd)).symm.trans_le hkraft)
    have hc : ∀ z ∈ c :: rest, z.freq = memberFreq h z := List.forall_mem_cons.2
      ⟨by rw [memberFreq_merged h hm, hf, hxfreq, hyfreq],
        fun z hz => hfreq z (hp.mem_iff.2 (List.mem_cons_of_mem _ (List.mem_cons_of_mem _ hz)))⟩
    have hrest := ih hc ((c, l) :: us) (by rw [List.map_cons, hus]; exact hrs.cons c) hkraft'
    rw [groupsCost_cons, memberCost_merged h hm, weightedLength_cons, hf] at hrest
    rw [groupsCost_perm h hp, groupsCost_cons, groupsCost_cons, weightedLength_perm _ hall, weightedLength_cons,
      weightedLength_cons]
    rw [← hxfreq, ← hyfreq] at hrest
    dsimp only at hrest hcost ⊢
    omega

/-! ### The built code -/

theorem codedLength_eq_sum (h : Huff) (length : Nat → Nat) :
    codedLength h length = ((usedSymbols h).map fun x => freqOf h x * length x).sum :=
  sumBelow_eq_sum_usedSymbols h fun x hx => by rw [hx, Nat.zero_mul]

/-- The coded length of the built table is the cost of the last group. -/
theorem Builds.codedLength_eq {s : State} {g : Group} {t : Trie} (hb : Builds s g t) :
    codedLength s.huff (cwLength (commitBuild g t s).huff) = memberCost s.huff g := by
  rw [codedLength_eq_sum, ← (hb.members_perm.map _).sum_eq, List.map_map, memberCost]
  congr 1
  refine List.map_congr_left fun m hm => ?_
  obtain ⟨-, hcode⟩ := hb.mem_members_iff_codeOf.1 hm
  rw [Function.comp_apply, hcode, codeOf_length]

theorem Builds.codedLength_le {s : State} {g : Group} {t : Trie} (hb : Builds s g t) {code : Nat → List Bool}
    (hpre : ∀ x ∈ usedSymbols s.huff, ∀ y ∈ usedSymbols s.huff, x ≠ y → ¬ code x <+: code y) :
    codedLength s.huff (cwLength (commitBuild g t s).huff) ≤ codedLength s.huff fun x => (code x).length := by
  have hfreq : ∀ x ∈ leafGroups s.huff, x.freq = memberFreq s.huff x := fun x hx => (hb.leafGroups_subtree x hx).freq
  have hzero : groupsCost s.huff (leafGroups s.huff) = 0 := by
    simp [groupsCost, leafGroups_eq_map, leafGroup, memberCost, Function.comp_def]
  have hfst : (((usedSymbols s.huff).zipIdx.map fun q => (leafGroup s.huff q, (code q.1).length)).map Prod.fst).Perm
      (leafGroups s.huff) := .of_eq (by simp [leafGroups_eq_map, Function.comp_def])
  have hmap : ∀ {β : Type} (f : Nat → β), ((usedSymbols s.huff).zipIdx.map fun q => f q.1) = (usedSymbols s.huff).map f :=
    fun f => by
      conv_rhs => rw [← List.zipIdx_map_fst 0 (usedSymbols s.huff), List.map_map]
      rfl
  have hcost := hb.greedy.cost_le s.huff hfreq _ hfst (by
    rw [List.map_map]
    exact (hmap fun x => (code x).length) ▸ kraftSum_le_one (usedSymbols_nodup s.huff) hpre)
  rw [hzero, Nat.zero_add, weightedLength, List.map_map] at hcost
  rw [hb.codedLength_eq, codedLength_eq_sum, ← hmap]
  exact hcost

/-- Settles O36: in a tree that matches the table no codeword begins another one, and no lengths that satisfy Kraft's
inequality are better than those of the merges. -/
theorem builtCodeIsPrefixFreeAndMinimal : Obligations.BuiltCodeIsPrefixFreeAndMinimal := by
  refine ⟨fun i s t hi hexec hcode x hx y hy hne hvx hvy => ?_, fun s t code hexec hpre => ?_⟩
  · have htree : TreeMatchesTable t.huff := by
      obtain rfl | rfl := hi
      · obtain ⟨g, u, hbuild, hb⟩ := exec_hbuild s
        rw [hbuild] at hexec
        cases hexec
        exact hb.treeMatchesTable
      · by_cases hload : TableLoadable s.huff
        · obtain ⟨u, hok, hl⟩ := exec_hload_of_loadable hload
          rw [hok] at hexec
          cases hexec
          exact hl.treeMatchesTable
        · obtain ⟨pos, sym, herror, -⟩ := exec_hload_of_not_loadable hload
          rw [herror] at hexec
          cases hexec
          exact absurd hcode (raiseErr_errcode_ne_zero _ _)
    exact htree.prefixFree hx hy hne hvx hvy
  · obtain ⟨g, u, hbuild, hb⟩ := exec_hbuild s
    rw [hbuild] at hexec
    cases hexec
    exact hb.codedLength_le hpre

end Sys2Proof.Machine
end

section
/-! The start-time checks of `HENC` and `HDEC` (R380), and `NOP`, which has none (R384). -/

namespace Sys2Proof.Machine

theorem checkHuffman_of_inLen_large {s : State} (h : 65536 < inLen s) :
    checkHuffman s = .error { code := .cfgLen, pos := 0, sym := inLen s } := by
  rw [checkHuffman, checkInLen_error h]

theorem checkHuffman_of_no_tree {s : State} (hlen : inLen s ≤ 65536) (htree : s.status.hvalid = false) :
    checkHuffman s = .error { code := .noTree, pos := 0, sym := 0 } := by
  rw [checkHuffman, checkInLen_ok hlen, checkTree_error htree]

theorem huffEncodeBody_of_check_error {s : State} {f : Failure} (h : checkHuffman s = .error f) :
    huffEncodeBody s = .error f := by
  rw [huffEncodeBody, h]

theorem huffDecodeBody_of_check_error {s : State} {f : Failure} (h : checkHuffman s = .error f) :
    huffDecodeBody s = .error f := by
  rw [huffDecodeBody, h]

/-- A start-time error of the Huffman coder is reported and changes nothing else (R403). -/
theorem exec_huffman_of_check_error {i : Instr} (hi : i = .henc ∨ i = .hdec) {s : State} {f : Failure}
    (h : checkHuffman s = .error f) :
    ∃ t, exec i s = .next t ∧ Raised f.code.toByte f.pos f.sym s t ∧ AllElseKept s t := by
  have hf : f.OnlyReports := (checkHuffman_fails s).failure h
  obtain rfl | rfl := hi
  · exact exec_reports (i := .henc) rfl (huffEncodeBody_of_check_error (s := startCommand s) h) hf
  · exact exec_reports (i := .hdec) rfl (huffDecodeBody_of_check_error (s := startCommand s) h) hf

/-- Settles O37: the two checks fail with these reports, in this order. -/
theorem huffmanStartErrors : Obligations.HuffmanStartErrors := fun _ _ hi =>
  ⟨fun hlarge => exec_huffman_of_check_error hi (checkHuffman_of_inLen_large hlarge),
    fun hlen htree => exec_huffman_of_check_error hi (checkHuffman_of_no_tree hlen htree)⟩

/-- Settles O14: `NOP` has no prologue and an empty body, so its completion is all it does. -/
theorem nopOnlyCompletes : Obligations.NopOnlyCompletes := by
  obtain ⟨-, -, hrun⟩ := stepRunsTheCommandInCmd
  exact ⟨fun _ => rfl, _, hrun State.reset .nop, rfl⟩

end Sys2Proof.Machine
end

section
/-! `PACK` (R382), `UNPACK` (R383), and that they are inverse (R385). -/

namespace Sys2Proof.Machine

/-! ### Binary digits (R163) -/

/-- The byte is one of the binary digits `'0'` and `'1'`. -/
abbrev IsDigit (d : Byte) : Prop := d = 0x30 ∨ d = 0x31

/-- The bits that a string of binary digits stands for. -/
def digitBits (ds : List Byte) : List Bool := ds.map (· == 0x31)

@[simp] theorem length_digitBits (ds : List Byte) : (digitBits ds).length = ds.length := List.length_map _

theorem isDigit_digitOf (b : Bool) : IsDigit (digitOf b) := by cases b <;> decide

theorem digitOf_beq (b : Bool) : (digitOf b == 0x31) = b := by cases b <;> decide

theorem digitOf_of_isDigit {d : Byte} (h : IsDigit d) : digitOf (d == 0x31) = d := by
  obtain rfl | rfl := h <;> rfl

theorem getD_digitBits_inBytes {s : State} {i : Nat} (hi : i < inLen s) :
    (digitBits (inBytes s)).getD i false = (inByte s i == 0x31) := by
  rw [List.getD_eq_getElem _ _ (by simpa using hi)]
  simp [digitBits, inBytes]

/-! ### The loop of `PACK` (R382) -/

theorem packDigits_of_bad_digit {d : Byte} (hd : ¬ IsDigit d) (i : Nat) (ds : List Byte) (out : List Bool) :
    packDigits i (d :: ds) out = .error { code := .digit, pos := i, sym := d.toNat, wrote := packedLen out.length } :=
  if_neg hd

theorem packDigits_of_digit {d : Byte} (hd : IsDigit d) (i : Nat) (ds : List Byte) {out : List Bool}
    (hroom : out.length < 524288) :
    packDigits i (d :: ds) out = packDigits (i + 1) ds (out ++ [d == 0x31]) := by
  rw [packDigits, if_pos hd, outBit_eq i d.toNat out _ hroom]

/-- The digits before an index are packed (R382). -/
theorem packDigits_append {pre : List Byte} (hpre : ∀ d ∈ pre, IsDigit d) (i : Nat) (ds : List Byte) {out : List Bool}
    (hfit : out.length + pre.length ≤ 524288) :
    packDigits i (pre ++ ds) out = packDigits (i + pre.length) ds (out ++ digitBits pre) := by
  induction pre generalizing i out with
  | nil => simp [digitBits]
  | cons d pre ih =>
    obtain ⟨hd, hpre⟩ := List.forall_mem_cons.1 hpre
    rw [List.length_cons] at hfit ⊢
    rw [List.cons_append, packDigits_of_digit hd i _ (by omega), ih hpre (i + 1) (by
      rw [List.length_append, List.length_singleton]
      omega)]
    simp [digitBits, Nat.add_assoc, Nat.add_comm 1]

/-! ### `PACK` (R382) -/

theorem packBody_of_inLen_large {s : State} (h : 65536 < inLen s) :
    packBody s = .error { code := .cfgLen, pos := 0, sym := inLen s } := by
  rw [packBody, checkInLen_error h]

theorem packBody_of_bad_digit {s : State} (hlen : inLen s ≤ 65536) {i : Nat} (hi : i < inLen s)
    (hdigits : ∀ j < i, IsDigit (inByte s j)) (hbad : ¬ IsDigit (inByte s i)) :
    packBody s = .error { code := .digit, pos := i, sym := symAt s i, wrote := packedLen i } := by
  have hfit : i ≤ 524288 := by omega
  have hloop : packDigits 0 (inBytes s) [] =
      .error { code := .digit, pos := i, sym := symAt s i, wrote := packedLen i } := by
    rw [inBytes_eq_append hi, packDigits_append (by simpa using hdigits) 0 _ (by simpa using hfit),
      packDigits_of_bad_digit hbad]
    simp [symAt]
  rw [packBody, checkInLen_ok hlen, hloop]

theorem packBody_of_digits {s : State} (hlen : inLen s ≤ 65536) (hdigits : ∀ i < inLen s, IsDigit (inByte s i)) :
    packBody s = .ok (commitBits (digitBits (inBytes s)) { s with work := { s.work with ipos := inLen s } }) := by
  have hfit : inLen s ≤ 524288 := by omega
  have hloop := packDigits_append (forall_mem_inBytes.2 hdigits) 0 [] (out := []) (by simpa using hfit)
  rw [List.append_nil, List.nil_append] at hloop
  rw [packBody, checkInLen_ok hlen, hloop]
  rfl

/-- `PACK` of a digit string completes with its bits, packed (R382). -/
theorem exec_pack_ok {s : State} (hlen : inLen s ≤ 65536) (hdigits : ∀ i < inLen s, IsDigit (inByte s i)) :
    ∃ t, exec .pack s = .next t ∧ Completed s t ∧
      t.res = { s.res with
        outBits := BitVec.ofNat 32 (inLen s)
        outLen := BitVec.ofNat 32 (packedLen (inLen s))
        rdBits := 0 } ∧
      t.outBuf = s.outBuf.overwrite (packBits (digitBits (inBytes s))) := by
  refine ⟨_, exec_of_body_ok (i := .pack) (packBody_of_digits (s := startCommand s) hlen hdigits),
    ⟨rfl, rfl, rfl, rfl, rfl, rfl⟩, ?_, rfl⟩
  have hcount : (digitBits (inBytes (startCommand s))).length = inLen s :=
    (length_digitBits _).trans (length_inBytes (startCommand s))
  rw [completeDone_res, commitBits_res, hcount]
  rfl

/-- Settles O15: the check, the first byte that is no digit, and the packed string. -/
theorem packMeaning : Obligations.PackMeaning := by
  intro s
  refine ⟨fun hlarge => ?_, fun i hi hlen hdigits hne0 hne1 => ?_, fun hlen hdigits => ?_⟩
  · exact exec_reports (i := .pack) rfl (packBody_of_inLen_large (s := startCommand s) hlarge) ⟨rfl, rfl⟩
  · exact exec_raisedAfterWriting (i := .pack) rfl rfl
      (packBody_of_bad_digit (s := startCommand s) hlen hi hdigits (not_or.2 ⟨hne0, hne1⟩))
  · obtain ⟨t, hexec, hdone, hres, hbuf⟩ := exec_pack_ok hlen hdigits
    have hframe := exec_writesOnlyResults hexec
    have hcount : (digitBits (inBytes s)).length = inLen s := (length_digitBits _).trans (length_inBytes s)
    have hbit : ∀ i < 8 * ((inLen s + 7) / 8),
        (t.outBuf.read (i / 8)).getMsbD (i % 8) = (digitBits (inBytes s)).getD i false := fun i hi => by
      rw [hbuf, read_packBits _ _ _ (by rwa [hcount])]
    refine ⟨t, hexec, hdone, by rw [hres], by rw [hres]; rfl, by rw [hres], fun i hi => ?_, fun i hi hpad => ?_,
      fun i hi => ?_, hframe.setup, hframe.huff (by decide), hframe.probe (by decide), hframe.diag (by decide)⟩
    · rw [hbit i (by omega), getD_digitBits_inBytes hi]
    · rw [hbit i hpad, List.getD_eq_default _ _ (by rwa [hcount])]
    · rw [hbuf, Memory.read_overwrite_of_le (by rwa [packBits_length, hcount])]

/-! ### `UNPACK` (R383) -/

theorem getElem_inBits {s : State} {j : Nat} (hj : j < (inBits s).length) : (inBits s)[j] = inBit s j := by
  simp [inBits]

theorem unpackBody_of_inLen_large {s : State} (h : 65536 < inLen s) :
    unpackBody s = .error { code := .cfgLen, pos := 0, sym := inLen s } := by
  rw [unpackBody, checkInLen_error h]

theorem unpackBody_of_overflow {s : State} (hlen : inLen s ≤ 65536) (hover : 8192 < inLen s) :
    unpackBody s = .error { code := .outOvf, pos := inLen s, sym := 0 } := by
  rw [unpackBody, checkInLen_ok hlen]
  exact if_pos (by unfold Config.obufBytes; omega)

theorem unpackBody_of_fits {s : State} (hlen : inLen s ≤ 8192) :
    unpackBody s =
      .ok (commitBytes ((inBits s).map digitOf) { s with work := { s.work with rpos := 8 * inLen s } }) := by
  rw [unpackBody, checkInLen_ok (by unfold Config.ibufBytes; omega)]
  exact if_neg (by unfold Config.obufBytes; omega)

/-- `UNPACK` of an input that fits completes with the digits of its bits (R383). -/
theorem exec_unpack_ok {s : State} (hlen : inLen s ≤ 8192) :
    ∃ t, exec .unpack s = .next t ∧ Completed s t ∧
      t.res = { s.res with outBits := 0, outLen := BitVec.ofNat 32 (8 * inLen s), rdBits := 0 } ∧
      t.outBuf = s.outBuf.overwrite ((inBits s).map digitOf) := by
  refine ⟨_, exec_of_body_ok (i := .unpack) (unpackBody_of_fits (s := startCommand s) hlen),
    ⟨rfl, rfl, rfl, rfl, rfl, rfl⟩, ?_, rfl⟩
  rw [completeDone_res, commitBytes_res, List.length_map, length_inBits]
  rfl

/-- Settles O16: the check, the overflow test before any write, and the digits. -/
theorem unpackMeaning : Obligations.UnpackMeaning := by
  intro s
  refine ⟨fun hlarge => ?_, fun hlen hover => ?_, fun hlen => ?_⟩
  · exact exec_reports (i := .unpack) rfl (unpackBody_of_inLen_large (s := startCommand s) hlarge) ⟨rfl, rfl⟩
  · exact exec_reports (i := .unpack) rfl (unpackBody_of_overflow (s := startCommand s) hlen hover) ⟨rfl, rfl⟩
  · obtain ⟨t, hexec, hdone, hres, hbuf⟩ := exec_unpack_ok hlen
    have hframe := exec_writesOnlyResults hexec
    have hcount : ((inBits s).map digitOf).length = 8 * inLen s := (List.length_map _).trans (length_inBits s)
    refine ⟨t, hexec, hdone, by rw [hres], by rw [hres], by rw [hres], fun j hj => ?_, fun j hj => ?_, hframe.setup,
      hframe.huff (by decide), hframe.probe (by decide), hframe.diag (by decide)⟩
    · rw [hbuf, Memory.read_overwrite, dif_pos (by rwa [hcount]), List.getElem_map, getElem_inBits]
      rfl
    · rw [hbuf, Memory.read_overwrite_of_le (by rwa [hcount])]

/-! ### The round trips (R385) -/

/-- `UNPACK` of the output of `PACK` gives the digits, then `'0'` digits to the end of the last byte. -/
theorem unpack_of_packed {s t u : State} (hlen : inLen s ≤ 65536) (hdigits : ∀ i < inLen s, IsDigit (inByte s i))
    (hexec : exec .pack s = .next t) (hcopy : HoldsOutputOf t u) :
    ∃ w, exec .unpack u = .next w ∧ Completed u w ∧ w.res.outLen = BitVec.ofNat 32 (8 * packedLen (inLen s)) ∧
      (∀ i < inLen s, w.outBuf.read i = inByte s i) ∧
      (∀ i, inLen s ≤ i → i < 8 * packedLen (inLen s) → w.outBuf.read i = 0x30) := by
  obtain ⟨t', hexec', -, -, houtLen, -, hbits, hpad, -⟩ := (packMeaning s).2.2 hlen hdigits
  obtain rfl := Host.Outcome.next.inj (hexec.symm.trans hexec')
  obtain ⟨hulen, hbytes⟩ := hcopy
  have hsmall : packedLen (inLen s) ≤ 8192 := by unfold packedLen; omega
  rw [houtLen, ← packedLen, toNat_ofNat_of_le_obufBytes (hsmall.trans (by decide))] at hulen hbytes
  obtain ⟨w, hwexec, hdone, -, -, hwlen, hread, -⟩ := (unpackMeaning u).2.2 (hulen ▸ hsmall)
  rw [hulen] at hwlen hread
  have hdigit : ∀ i < 8 * packedLen (inLen s), w.outBuf.read i = digitOf ((t.outBuf.read (i / 8)).getMsbD (i % 8)) :=
    fun i hi => by
      rw [hread i hi, hbytes (i / 8) (by omega)]
      rfl
  refine ⟨w, hwexec, hdone, hwlen, fun i hi => ?_, fun i hi hi' => ?_⟩
  · rw [hdigit i (by unfold packedLen; omega), hbits i hi, digitOf_of_isDigit (hdigits i hi)]
  · rw [hdigit i hi', hpad i hi hi']
    rfl

/-- `PACK` of the output of `UNPACK` gives the bytes. -/
theorem pack_of_unpacked {s t u : State} (hlen : inLen s ≤ 8192) (hexec : exec .unpack s = .next t)
    (hcopy : HoldsOutputOf t u) :
    ∃ w, exec .pack u = .next w ∧ Completed u w ∧ w.res.outBits = BitVec.ofNat 32 (8 * inLen s) ∧
      w.res.outLen = BitVec.ofNat 32 (inLen s) ∧ (∀ i < inLen s, w.outBuf.read i = inByte s i) := by
  obtain ⟨t', hexec', -, -, -, houtLen, hread, -⟩ := (unpackMeaning s).2.2 hlen
  obtain rfl := Host.Outcome.next.inj (hexec.symm.trans hexec')
  obtain ⟨hulen, hbytes⟩ := hcopy
  rw [houtLen, toNat_ofNat_of_le_obufBytes (by unfold Config.obufBytes; omega)] at hulen hbytes
  have hdigit : ∀ i < 8 * inLen s, inByte u i = digitOf (inBit s i) := fun i hi => by
    rw [hbytes i hi, hread i hi]
    rfl
  obtain ⟨w, hwexec, hdone, houtBits, hwlen, -, hbits, -⟩ := (packMeaning u).2.2 (by omega)
    fun i hi => hdigit i (hulen ▸ hi) ▸ isDigit_digitOf _
  rw [hulen] at houtBits hwlen hbits
  refine ⟨w, hwexec, hdone, houtBits, by rw [hwlen]; congr 1; omega, fun i hi => BitVec.eq_of_getMsbD_eq fun q hq => ?_⟩
  have hdiv : (8 * i + q) / 8 = i := by omega
  have hmod : (8 * i + q) % 8 = q := by omega
  have hbit := hbits (8 * i + q) (by omega)
  rwa [hdigit _ (by omega), digitOf_beq, inBit, hdiv, hmod] at hbit

/-- Settles O17. -/
theorem packAndUnpackAreInverse : Obligations.PackAndUnpackAreInverse :=
  ⟨fun _ _ _ hlen hdigits hexec hcopy => unpack_of_packed hlen hdigits hexec hcopy,
    fun _ _ _ hlen hexec hcopy => pack_of_unpacked hlen hexec hcopy⟩

end Sys2Proof.Machine
end

section
/-! A legal command never raises `E_ILLEGAL_CMD`, the code of a word that does not decode (R151, R401): the codes of the errors
of a command, per loop. -/

namespace Sys2Proof.Machine

@[simp] theorem failsWith_ok {α : Type} (P : Failure → Prop) (a : α) : FailsWith P (.ok a) ↔ True := Iff.rfl

@[simp] theorem failsWith_error {α : Type} (P : Failure → Prop) (f : Failure) :
    FailsWith P (.error f : Except Failure α) ↔ P f := Iff.rfl

/-- The failure is one of a legal command word: any but `E_ILLEGAL_CMD` (R401). -/
abbrev Failure.OfLegalWord (f : Failure) : Prop := f.code ≠ .illegalCmd

theorem ofLegalWord_codeError (pos sym : Nat) : (codeError pos sym).OfLegalWord := nofun

/-! ### Checks and models -/

theorem checkInLen_ofLegalWord (s : State) : FailsWith Failure.OfLegalWord (checkInLen s) := by
  unfold checkInLen
  split <;> simp

theorem checkModel_ofLegalWord (m : Model) (c : Conf) : FailsWith Failure.OfLegalWord (checkModel m c) := by
  unfold checkModel
  split
  · simp
  · cases m with
    | fix =>
      dsimp only
      split_ifs
      · simp
      · simp
      · split <;> simp
      · split <;> simp
    | dir | big =>
      dsimp only
      split <;> simp

theorem checkCoder_ofLegalWord (m : Model) (s : State) : FailsWith Failure.OfLegalWord (checkCoder m s) := by
  unfold checkCoder
  split
  · next hf => exact (checkInLen_ofLegalWord s).failure hf
  · exact checkModel_ofLegalWord m s.conf

theorem checkHuffman_ofLegalWord (s : State) : FailsWith Failure.OfLegalWord (checkHuffman s) := by
  unfold checkHuffman
  split
  · next hf => exact (checkInLen_ofLegalWord s).failure hf
  · unfold checkTree
    split <;> simp

theorem feedModel_ofLegalWord (m : Model) (c : Conf) (bs : List Byte) (i : Nat) (k : Counts) :
    FailsWith Failure.OfLegalWord (feedModel m c i bs k) := by
  induction bs generalizing i k with
  | nil => trivial
  | cons b bs ih =>
    unfold feedModel
    split
    · simp
    · split
      · simp
      · exact ih _ _

/-! ### Bit streams -/

theorem outBit_ofLegalWord (pos sym : Nat) (out : List Bool) (b : Bool) :
    FailsWith Failure.OfLegalWord (outBit pos sym out b) := by
  unfold outBit
  split <;> simp

theorem outBits_ofLegalWord (pos sym : Nat) (bs out : List Bool) :
    FailsWith Failure.OfLegalWord (outBits pos sym out bs) := by
  induction bs generalizing out with
  | nil => trivial
  | cons b bs ih =>
    unfold outBits
    split
    · next hf => exact (outBit_ofLegalWord pos sym out b).failure hf
    · exact ih _

theorem renormEncStep_ofLegalWord (one pos sym : Nat) (k : RCase) (r : EncRun) :
    FailsWith Failure.OfLegalWord (renormEncStep one pos sym k r) := by
  unfold renormEncStep
  cases k with
  | middle => trivial
  | lower | upper =>
    dsimp only
    split
    · next hf => exact (outBits_ofLegalWord pos sym _ _).failure hf
    · trivial

theorem renormEnc_ofLegalWord (one : Nat) (middle : Bool) (pos sym fuel : Nat) (r : EncRun) :
    FailsWith Failure.OfLegalWord (renormEnc one middle pos sym fuel r) := by
  induction fuel generalizing r with
  | zero => trivial
  | succ fuel ih =>
    unfold renormEnc
    split
    · trivial
    · split
      · next hf => exact (renormEncStep_ofLegalWord one pos sym _ r).failure hf
      · exact ih _

theorem encodeSymbols_ofLegalWord (m : Model) (c : Conf) (bs : List Byte) (i : Nat) (k : Counts) (r : EncRun) :
    FailsWith Failure.OfLegalWord (encodeSymbols m c i bs k r) := by
  induction bs generalizing i k r with
  | nil => trivial
  | cons b bs ih =>
    unfold encodeSymbols
    dsimp only
    split_ifs
    · simp
    · simp
    · split
      · simp
      · split
        · next hf => exact (renormEnc_ofLegalWord _ true i b.toNat _ _).failure hf
        · exact ih _ _ _

theorem packDigits_ofLegalWord (ds : List Byte) (i : Nat) (out : List Bool) :
    FailsWith Failure.OfLegalWord (packDigits i ds out) := by
  induction ds generalizing i out with
  | nil => trivial
  | cons d ds ih =>
    unfold packDigits
    split
    · split
      · next hf => exact (outBit_ofLegalWord i d.toNat out _).failure hf
      · exact ih _ _
    · simp

theorem emitCode_ofLegalWord (t : Huff) (pos sym : Nat) (out : List Bool) :
    FailsWith Failure.OfLegalWord (emitCode t pos sym out) := by
  unfold emitCode
  split
  · exact outBits_ofLegalWord pos sym _ out
  · simp

theorem huffEncode_ofLegalWord (t : Huff) (bs : List Byte) (i : Nat) (out : List Bool) :
    FailsWith Failure.OfLegalWord (huffEncode t i bs out) := by
  induction bs generalizing i out with
  | nil => trivial
  | cons b bs ih =>
    unfold huffEncode
    split
    · simp
    · split
      · next hf => exact (emitCode_ofLegalWord t i b.toNat out).failure hf
      · exact ih _ _

/-! ### Decoders -/

theorem findSymbol_ofLegalWord (src : Nat → Bool) (c : Conf) (v : CumVec) (n : Nat) (r : DecRun) :
    FailsWith Failure.OfLegalWord (findSymbol src c v n r) := by
  induction n generalizing r with
  | zero =>
    unfold findSymbol
    split
    · trivial
    · split <;> simp
  | succ n ih =>
    unfold findSymbol
    split
    · trivial
    · split
      · trivial
      · exact ih _

theorem decodeSymbols_ofLegalWord (src : Nat → Bool) (m : Model) (c : Conf) (room : Nat) (r : DecRun) :
    FailsWith Failure.OfLegalWord (decodeSymbols src m c room r) := by
  induction room generalizing r with
  | zero =>
    unfold decodeSymbols
    split
    · next hf => exact (findSymbol_ofLegalWord src c _ _ r).failure hf
    · trivial
    · simp
  | succ room ih =>
    unfold decodeSymbols
    split
    · next hf => exact (findSymbol_ofLegalWord src c _ _ r).failure hf
    · trivial
    · dsimp only
      split
      · simp
      · exact ih _

theorem huffDecode_ofLegalWord (a : Arena) (root room rpos : Nat) (bits : List Bool) (out : List Byte) :
    FailsWith Failure.OfLegalWord (huffDecode a root room rpos bits out) := by
  induction room generalizing rpos bits out with
  | zero =>
    unfold huffDecode
    split
    · simp
    · simp
    · split <;> simp
  | succ room ih =>
    unfold huffDecode
    split
    · simp
    · simp
    · split
      · trivial
      · exact ih _ _ _

/-! ### The tree builder of `HLOAD` -/

theorem insertCode_ofLegalWord (sym : Nat) (bs : List Bool) (n i : Nat) (t : Trie) :
    FailsWith Failure.OfLegalWord (insertCode sym n i bs t) := by
  induction bs generalizing n i t with
  | nil =>
    unfold insertCode
    split
    · trivial
    · exact ofLegalWord_codeError i sym
  | cons b bs ih =>
    unfold insertCode
    split
    · exact ofLegalWord_codeError i sym
    · exact ih _ _ _

theorem insertAll_ofLegalWord (h : Huff) (syms : List Nat) (t : Trie) :
    FailsWith Failure.OfLegalWord (insertAll h syms t) := by
  induction syms generalizing t with
  | nil => trivial
  | cons sym rest ih =>
    unfold insertAll
    split_ifs
    · exact ofLegalWord_codeError _ sym
    · exact ofLegalWord_codeError 0 sym
    · split
      · next hf => exact (insertCode_ofLegalWord sym _ 0 0 t).failure hf
      · exact ih _

/-! ### Bodies -/

theorem probeBody_ofLegalWord (m : Model) (s : State) : FailsWith Failure.OfLegalWord (probeBody m s) := by
  unfold probeBody
  split
  · next hf => exact (checkCoder_ofLegalWord m s).failure hf
  · split
    · next hf => exact (feedModel_ofLegalWord m s.conf _ 0 _).failure hf
    · trivial

theorem countBody_ofLegalWord (s : State) : FailsWith Failure.OfLegalWord (countBody s) := by
  unfold countBody
  split
  · next hf => exact (checkInLen_ofLegalWord s).failure hf
  · split <;> simp

theorem encodeBody_ofLegalWord (m : Model) (s : State) : FailsWith Failure.OfLegalWord (encodeBody m s) := by
  unfold encodeBody
  split
  · next hf => exact (checkCoder_ofLegalWord m s).failure hf
  · split
    · next hf => exact (encodeSymbols_ofLegalWord m s.conf _ 0 _ _).failure hf
    · split
      · next hf => exact (renormEnc_ofLegalWord _ false _ _ _ _).failure hf
      · split
        · next hf => exact (outBit_ofLegalWord _ _ _ true).failure hf
        · trivial

theorem decodeBody_ofLegalWord (m : Model) (s : State) : FailsWith Failure.OfLegalWord (decodeBody m s) := by
  have hsyms := decodeSymbols_ofLegalWord (inBitZ s) m s.conf Config.obufBytes
    (decStart (inBitZ s) s.conf.numFmt (modelInit m s.work.counts))
  rw [decodeBody_eq_bind]
  generalize decodeSymbols (inBitZ s) m s.conf Config.obufBytes
    (decStart (inBitZ s) s.conf.numFmt (modelInit m s.work.counts)) = run at hsyms ⊢
  cases hc : checkCoder m s with
  | error f => exact (checkCoder_ofLegalWord m s).failure hc
  | ok _ =>
    cases run with
    | error f => exact hsyms
    | ok r => trivial

theorem loadBody_ofLegalWord (s : State) : FailsWith Failure.OfLegalWord (loadBody s) := by
  unfold loadBody
  split
  · exact ofLegalWord_codeError 0 129
  · split
    · next hf => exact (insertAll_ofLegalWord s.huff _ _).failure hf
    · trivial

theorem huffEncodeBody_ofLegalWord (s : State) : FailsWith Failure.OfLegalWord (huffEncodeBody s) := by
  unfold huffEncodeBody
  split
  · next hf => exact (checkHuffman_ofLegalWord s).failure hf
  · split
    · next hf => exact (huffEncode_ofLegalWord s.huff _ 0 []).failure hf
    · split
      · next hf => exact (emitCode_ofLegalWord s.huff _ _ _).failure hf
      · trivial

theorem huffDecodeBody_ofLegalWord (s : State) : FailsWith Failure.OfLegalWord (huffDecodeBody s) := by
  unfold huffDecodeBody
  split
  · next hf => exact (checkHuffman_ofLegalWord s).failure hf
  · split
    · next hf => exact (huffDecode_ofLegalWord s.huff.arena _ _ 0 _ []).failure hf
    · trivial

theorem packBody_ofLegalWord (s : State) : FailsWith Failure.OfLegalWord (packBody s) := by
  unfold packBody
  split
  · next hf => exact (checkInLen_ofLegalWord s).failure hf
  · split
    · next hf => exact (packDigits_ofLegalWord _ 0 []).failure hf
    · trivial

theorem unpackBody_ofLegalWord (s : State) : FailsWith Failure.OfLegalWord (unpackBody s) := by
  unfold unpackBody
  split
  · next hf => exact (checkInLen_ofLegalWord s).failure hf
  · split <;> simp

theorem bodyOf_ofLegalWord (i : Instr) (s : State) : FailsWith Failure.OfLegalWord (bodyOf i s) := by
  cases i with
  | nop | hbuild => trivial
  | aencFix | aencDir | aencBig => exact encodeBody_ofLegalWord _ s
  | adecFix | adecDir | adecBig => exact decodeBody_ofLegalWord _ s
  | mprobeFix | mprobeDir | mprobeBig => exact probeBody_ofLegalWord _ s
  | hcount => exact countBody_ofLegalWord s
  | hload => exact loadBody_ofLegalWord s
  | henc => exact huffEncodeBody_ofLegalWord s
  | hdec => exact huffDecodeBody_ofLegalWord s
  | pack => exact packBody_ofLegalWord s
  | unpack => exact unpackBody_ofLegalWord s

end Sys2Proof.Machine
end

section
/-! The two ends of a command (R400, R405, R406), and the interrupt that follows them (R420). -/

namespace Sys2Proof.Machine

/-! ### Completion (R405) -/

/-- `ERR_POS` and `ERR_SYM` are unchanged. -/
abbrev ReportKept (s t : State) : Prop := t.res.errPos = s.res.errPos ∧ t.res.errSym = s.res.errSym

/-- A body that completes has reported nothing. -/
theorem bodyOf_reportKept (i : Instr) (s : State) : EndsWith (ReportKept s) (bodyOf i s) := by
  cases i with
  | nop => exact ⟨rfl, rfl⟩
  | aencFix | aencDir | aencBig => exact (encodeBody_endsWith _ s).mono fun _ ⟨_, _, _, _, hb⟩ => hb ▸ ⟨rfl, rfl⟩
  | adecFix | adecDir | adecBig => exact (decodeBody_endsWith _ s).mono fun _ ⟨_, _, hb⟩ => hb ▸ ⟨rfl, rfl⟩
  | mprobeFix | mprobeDir | mprobeBig => exact (probeBody_endsWith _ s).mono fun _ ⟨_, _, hb⟩ => hb ▸ ⟨rfl, rfl⟩
  | hcount => exact (countBody_endsWith s).mono fun _ ⟨_, _, hb⟩ => hb ▸ ⟨rfl, rfl⟩
  | hbuild => exact ⟨rfl, rfl⟩
  | hload => exact (loadBody_endsWith s).mono fun _ ⟨_, _, hb⟩ => hb ▸ ⟨rfl, rfl⟩
  | henc => exact (huffEncodeBody_endsWith s).mono fun _ ⟨_, _, _, hb⟩ => hb ▸ ⟨rfl, rfl⟩
  | hdec => exact (huffDecodeBody_endsWith s).mono fun _ ⟨_, _, _, hb⟩ => hb ▸ ⟨rfl, rfl⟩
  | pack => exact (packBody_endsWith s).mono fun _ ⟨_, _, _, hb⟩ => hb ▸ ⟨rfl, rfl⟩
  | unpack => exact (unpackBody_endsWith s).mono fun _ ⟨_, _, _, hb⟩ => hb ▸ ⟨rfl, rfl⟩

/-- The prologue leaves `STATUS` and the report alone (R380). -/
theorem entryOf_kept (i : Instr) (s : State) : (entryOf i s).status = s.status ∧ ReportKept s (entryOf i s) := by
  obtain h | h := entryOf_cases i s <;> rw [h] <;> exact ⟨rfl, rfl, rfl⟩

theorem completed_of_body_ok {i : Instr} {s b : State} (h : bodyOf i (entryOf i s) = .ok b) :
    Completed s (completeDone b) := by
  obtain ⟨hstatus, hpos, hsym⟩ := entryOf_kept i s
  have hframe := (bodyOf_frame i (entryOf i s)).value h
  obtain ⟨hpos', hsym'⟩ := (bodyOf_reportKept i (entryOf i s)).value h
  have herr : b.status.err = s.status.err := by rw [hframe.status, hstatus]
  exact ⟨rfl, rfl, rfl, herr, hpos'.trans hpos, hsym'.trans hsym⟩

/-! ### Errors (R404, R406) -/

/-- Every code of R401 but success and `E_ILLEGAL_CMD`. -/
theorem Failure.OfLegalWord.toByte_listed {f : Failure} (h : f.OfLegalWord) :
    f.code.toByte ∈ [0x02#8, 0x03#8, 0x04#8, 0x05#8, 0x06#8, 0x10#8, 0x11#8, 0x12#8, 0x13#8, 0x14#8, 0x20#8, 0x21#8,
      0x30#8, 0x31#8] := by
  cases hcode : f.code with
  | illegalCmd => exact absurd hcode h
  | _ => decide

/-- A body that fails runs after the prologue: `NOP` never fails (R384). -/
theorem entryOf_of_body_error {i : Instr} {s : State} {f : Failure} (h : bodyOf i (entryOf i s) = .error f) :
    entryOf i s = startCommand s := by
  cases i with
  | nop => exact absurd h nofun
  | _ => rfl

theorem raised_of_body_error {i : Instr} {s : State} {f : Failure} (h : bodyOf i (entryOf i s) = .error f) :
    Raised f.code.toByte f.pos f.sym s (raiseErr f (entryOf i s)) := by
  rw [entryOf_of_body_error h]
  cases htree : f.tree <;> simp [Raised, htree]

/-- Settles O9: the body of a command answers a state, which completes, or a failure of a legal word, which is raised from the
state after the prologue. -/
theorem everyCommandCompletesOrRaises : Obligations.EveryCommandCompletesOrRaises := by
  intro i s hdone herr
  obtain ⟨t, ht⟩ := exec_next i s
  refine ⟨t, ht, ?_⟩
  obtain ⟨b, hb, rfl⟩ | ⟨f, hf, rfl⟩ := exec_cases ht
  · obtain ⟨hbusy, hdone', hcode, herr', hreport⟩ := completed_of_body_ok hb
    exact .inl ⟨⟨hbusy, hdone', hcode, herr', hreport⟩, herr'.trans herr⟩
  · obtain ⟨hbusy, herr', hdone', hcode, -, -, hlen, hbits, hrd⟩ := raised_of_body_error hf
    have hlisted := ((bodyOf_ofLegalWord i _).failure hf).toByte_listed
    exact .inr ⟨hbusy, hdone'.trans hdone, herr', hcode ▸ hlisted, hlen, hbits, hrd⟩

/-! ### The interrupt (R420) -/

theorem irq_iff (s : State) : s.irq = true ↔ s.irqEn = true ∧ (s.status.done = true ∨ s.status.err = true) := by
  simp [State.irq]

/-- `IRQ` is 0 when `DONE` and `ERR` are. -/
theorem irq_eq_false_of_no_flag {s : State} (hdone : s.status.done = false) (herr : s.status.err = false) :
    s.irq = false := by
  simp [State.irq, hdone, herr]

/-- The end of a command, with or without error, shows a flag. -/
theorem CommandEffect.done_or_err {s t : State} (h : CommandEffect s t) :
    t.status.done = true ∨ t.status.err = true := by
  cases h with
  | completed b => exact .inl rfl
  | raised f =>
    rw [raiseErr_status]
    split <;> exact .inr rfl

/-- With the flag of a completion up, `IRQ` is `IRQ_EN`. -/
theorem CommandEffect.irq {s t : State} (h : CommandEffect s t) : t.irq = t.irqEn := by
  have hflag := h.done_or_err
  rw [Bool.eq_iff_iff, irq_iff, and_iff_left hflag]

theorem exec_irq {i : Instr} {s t : State} (h : exec i s = .next t) : t.irq = s.irqEn := by
  obtain ⟨-, -, -, hirqEn, -⟩ := (exec_writesOnlyResults h).setup
  exact (exec_commandEffect h).irq.trans hirqEn

theorem illegalCommand_irq (s : State) : (illegalCommand s).irq = s.irqEn :=
  (illegalCommand_commandEffect s).irq.trans (raiseErr_irqEn _ s)

theorem step_of_due_irq {s : State} (hbusy : s.status.busy = true) (hwait : s.wait = 0) :
    ∃ t, step s = .next t ∧ t.irq = s.irqEn := by
  obtain ⟨t, ht⟩ := step_next s
  refine ⟨t, ht, ?_⟩
  obtain ⟨i, -, -, -, hexec⟩ | ⟨_, -, -, -, rfl⟩ | ⟨h, -⟩ | ⟨_, _, h, -⟩ := step_cases ht
  · exact exec_irq hexec
  · exact illegalCommand_irq s
  · simp [hbusy, hwait] at h
  · simp [hbusy, hwait] at h

/-- `DONE` and `ERR` of `t` are up only where those of `s` are. -/
abbrev NoFlagRises (s t : State) : Prop :=
  (t.status.done = true → s.status.done = true) ∧ (t.status.err = true → s.status.err = true)

/-- No arrival at the port makes a flag rise. -/
theorem PortEffect.noFlagRises {s t : State} (h : PortEffect s t) : NoFlagRises s t := by
  cases h with
  | softReset | hardReset | accepted => exact ⟨nofun, nofun⟩
  | statusWrite v => exact ⟨Bool.and_elim_left, Bool.and_elim_left⟩
  | stored a n v =>
    rw [NoFlagRises, (storeWord_status (locate a) n v s).1]
    exact ⟨id, id⟩
  | _ => exact ⟨id, id⟩

theorem step_of_not_due_noFlagRises {s t : State} (hslot : s.status.busy = false ∨ s.wait ≠ 0) (h : step s = .next t) :
    NoFlagRises s t := by
  obtain ⟨_, hbusy, hwait, -⟩ | ⟨_, hbusy, hwait, -⟩ | ⟨-, -, rfl⟩ | ⟨e, rest, -, -, rfl⟩ := step_cases h
  · simp [hbusy, hwait] at hslot
  · simp [hbusy, hwait] at hslot
  · exact ⟨id, id⟩
  · exact (serve_portEffect e { passSlot s with port := rest }).noFlagRises

/-- A write to `STATUS` with a 1 for each flag that is up leaves none up (R35). -/
theorem writeStatus_irq {s : State} {v : Word} (hdone : s.status.done = true → v.getLsbD 1 = true)
    (herr : s.status.err = true → v.getLsbD 2 = true) : (writeStatus v s).irq = false := by
  refine irq_eq_false_of_no_flag ?_ ?_
  · simpa using hdone
  · simpa using herr

theorem irqLine_iff (s : State) (line : Nat) : s.irqLine line = true ↔ s.irq = true ∧ line = Config.irqRoute := by
  simp [State.irqLine]

/-- Settles O50: the two ends of a command show a flag, and nothing else a step does makes one rise. -/
theorem interruptFollowsCompletion : Obligations.InterruptFollowsCompletion :=
  ⟨irq_iff, fun _ _ _ => exec_irq, fun _ => step_of_due_irq, fun _ _ => step_of_not_due_noFlagRises,
    fun _ _ => writeStatus_irq, fun _ _ => irq_eq_false_of_no_flag rfl rfl,
    fun _ => ⟨irq_eq_false_of_no_flag rfl rfl, irq_eq_false_of_no_flag rfl rfl⟩,
    fun s hdisabled => by rw [State.irq, hdisabled, Bool.false_and], irqLine_iff⟩

end Sys2Proof.Machine
end

section
/-! No command reads `OUT_BUF` (R468): with other contents of it a body answers alike, and writes the same bytes over them. -/

namespace Sys2Proof.Machine

/-- The state with other contents of `OUT_BUF`. -/
def withOutBuf (m : Memory) (s : State) : State := { s with outBuf := m }

/-! ### What does not look at `OUT_BUF` -/

section

variable (m : Memory) (s : State)

@[simp] theorem withOutBuf_conf : (withOutBuf m s).conf = s.conf := rfl
@[simp] theorem withOutBuf_huff : (withOutBuf m s).huff = s.huff := rfl
@[simp] theorem withOutBuf_work : (withOutBuf m s).work = s.work := rfl
@[simp] theorem inLen_withOutBuf : inLen (withOutBuf m s) = inLen s := rfl
@[simp] theorem inBytes_withOutBuf : inBytes (withOutBuf m s) = inBytes s := rfl
@[simp] theorem inBits_withOutBuf : inBits (withOutBuf m s) = inBits s := rfl
@[simp] theorem inBitZ_withOutBuf : inBitZ (withOutBuf m s) = inBitZ s := rfl
@[simp] theorem checkInLen_withOutBuf : checkInLen (withOutBuf m s) = checkInLen s := rfl
@[simp] theorem checkCoder_withOutBuf (md : Model) : checkCoder md (withOutBuf m s) = checkCoder md s := rfl
@[simp] theorem checkHuffman_withOutBuf : checkHuffman (withOutBuf m s) = checkHuffman s := rfl
@[simp] theorem trieStart_withOutBuf : trieStart (withOutBuf m s) = trieStart s := rfl

theorem entryOf_withOutBuf (i : Instr) : entryOf i (withOutBuf m s) = withOutBuf m (entryOf i s) := by
  cases i <;> rfl

/-- An error makes the same `W` bytes unspecified in any `OUT_BUF` (R404). -/
theorem raiseErr_withOutBuf (f : Failure) :
    raiseErr f (withOutBuf m s) = withOutBuf (m.scramble s.free f.wrote) (raiseErr f s) := by
  unfold raiseErr
  cases f.tree <;> rfl

end

/-! ### The answers of the bodies -/

/-- The answers of a body from `s` and from `s` with `m` for `OUT_BUF`: the same failure, or the same state but for
`OUT_BUF`, over which both have written the bytes `out`, which are all that `OUT_LEN` counts after an output command. -/
inductive SameButOutBuf (i : Instr) (s : State) (m : Memory) : Except Failure State → Except Failure State → Prop
  | ok (out : List Byte) (b : State) (hout : b.outBuf = s.outBuf.overwrite out)
    (hlen : writesOutBuf i = true → b.res.outLen.toNat ≤ out.length) :
    SameButOutBuf i s m (.ok b) (.ok (withOutBuf (m.overwrite out) b))
  | error (f : Failure) : SameButOutBuf i s m (.error f) (.error f)

section

variable {i : Instr} {m : Memory} {s : State}

/-- A command that writes no output leaves either `OUT_BUF` as it was. -/
theorem SameButOutBuf.kept {b : State} (hi : writesOutBuf i = false) (hb : b.outBuf = s.outBuf) :
    SameButOutBuf i s m (.ok b) (.ok (withOutBuf m b)) := by
  have h := SameButOutBuf.ok (i := i) (s := s) (m := m) [] b (by rw [hb, Memory.overwrite_nil]) (by simp [hi])
  rwa [Memory.overwrite_nil] at h

theorem toNat_ofNat_le (n : Nat) : (BitVec.ofNat 32 n).toNat ≤ n := by
  rw [BitVec.toNat_ofNat]
  exact Nat.mod_le _ _

/-- `OUT_LEN` counts no more than the bytes that hold the bits (R381). -/
theorem outLen_commitBits_le (out : List Bool) (s : State) :
    (commitBits out s).res.outLen.toNat ≤ (packBits out).length := by
  simpa using toNat_ofNat_le (packedLen out.length)

theorem outLen_commitBytes_le (out : List Byte) (s : State) :
    (commitBytes out s).res.outLen.toNat ≤ out.length :=
  toNat_ofNat_le out.length

theorem probeBody_sameButOutBuf (hi : writesOutBuf i = false) (md : Model) :
    SameButOutBuf i s m (probeBody md s) (probeBody md (withOutBuf m s)) := by
  unfold probeBody
  simp only [checkCoder_withOutBuf, withOutBuf_conf, withOutBuf_work, inBytes_withOutBuf]
  cases checkCoder md s with
  | error f => exact .error f
  | ok _ =>
    dsimp only
    cases feedModel md s.conf 0 (inBytes s) (modelInit md s.work.counts) with
    | error f => exact .error f
    | ok k => exact .kept hi rfl

theorem encodeBody_sameButOutBuf (md : Model) :
    SameButOutBuf i s m (encodeBody md s) (encodeBody md (withOutBuf m s)) := by
  unfold encodeBody
  simp only [checkCoder_withOutBuf, withOutBuf_conf, withOutBuf_work, inLen_withOutBuf, inBytes_withOutBuf]
  cases checkCoder md s with
  | error f => exact .error f
  | ok _ =>
    dsimp only
    cases encodeSymbols md s.conf 0 (inBytes s) (modelInit md s.work.counts) (encStart s.conf.numFmt) with
    | error f => exact .error f
    | ok p =>
      dsimp only
      cases narrowSentinel md s.conf (inLen s) p.1 p.2 with
      | error f => exact .error f
      | ok r =>
        dsimp only
        cases outBit (inLen s) (nsymOf s.conf) r.out true with
        | error f => exact .error f
        | ok out => exact .ok (packBits out) _ rfl fun _ => outLen_commitBits_le out s

theorem decodeBody_sameButOutBuf (md : Model) :
    SameButOutBuf i s m (decodeBody md s) (decodeBody md (withOutBuf m s)) := by
  rw [decodeBody_eq_bind, decodeBody_eq_bind, checkCoder_withOutBuf, inBitZ_withOutBuf, withOutBuf_conf, withOutBuf_work]
  generalize decodeSymbols (inBitZ s) md s.conf Config.obufBytes
    (decStart (inBitZ s) s.conf.numFmt (modelInit md s.work.counts)) = run
  cases checkCoder md s with
  | error f => exact .error f
  | ok _ =>
    cases run with
    | error f => exact .error f
    | ok r => exact .ok r.out _ rfl fun _ => outLen_commitBytes_le r.out s

theorem countBody_sameButOutBuf (hi : writesOutBuf i = false) :
    SameButOutBuf i s m (countBody s) (countBody (withOutBuf m s)) := by
  unfold countBody
  simp only [checkInLen_withOutBuf, withOutBuf_huff, withOutBuf_work, inLen_withOutBuf, inBytes_withOutBuf]
  cases checkInLen s with
  | error f => exact .error f
  | ok _ =>
    dsimp only
    cases firstOutside 0 (inBytes s) with
    | some p => exact .error _
    | none => exact .kept hi rfl

theorem loadBody_sameButOutBuf (hi : writesOutBuf i = false) :
    SameButOutBuf i s m (loadBody s) (loadBody (withOutBuf m s)) := by
  unfold loadBody
  rw [withOutBuf_huff, trieStart_withOutBuf]
  split
  · exact .error _
  · cases insertAll s.huff (validSymbols s.huff) ((trieStart s).alloc emptyNode) with
    | error f => exact .error f
    | ok t => exact .kept hi rfl

theorem huffEncodeBody_sameButOutBuf :
    SameButOutBuf i s m (huffEncodeBody s) (huffEncodeBody (withOutBuf m s)) := by
  unfold huffEncodeBody
  simp only [checkHuffman_withOutBuf, withOutBuf_huff, inLen_withOutBuf, inBytes_withOutBuf]
  cases checkHuffman s with
  | error f => exact .error f
  | ok _ =>
    dsimp only
    cases huffEncode s.huff 0 (inBytes s) [] with
    | error f => exact .error f
    | ok out =>
      dsimp only
      cases emitCode s.huff (inLen s) Config.sentH out with
      | error f => exact .error f
      | ok out' => exact .ok (packBits out') _ rfl fun _ => outLen_commitBits_le out' s

theorem huffDecodeBody_sameButOutBuf :
    SameButOutBuf i s m (huffDecodeBody s) (huffDecodeBody (withOutBuf m s)) := by
  unfold huffDecodeBody
  simp only [checkHuffman_withOutBuf, withOutBuf_huff, inBits_withOutBuf]
  generalize huffDecode s.huff.arena s.huff.hroot.toNat Config.obufBytes 0 (inBits s) [] = run
  cases checkHuffman s with
  | error f => exact .error f
  | ok _ =>
    cases run with
    | error f => exact .error f
    | ok p => exact .ok p.2 _ rfl fun _ => outLen_commitBytes_le p.2 s

theorem packBody_sameButOutBuf : SameButOutBuf i s m (packBody s) (packBody (withOutBuf m s)) := by
  unfold packBody
  simp only [checkInLen_withOutBuf, inLen_withOutBuf, inBytes_withOutBuf]
  cases checkInLen s with
  | error f => exact .error f
  | ok _ =>
    dsimp only
    cases packDigits 0 (inBytes s) [] with
    | error f => exact .error f
    | ok out => exact .ok (packBits out) _ rfl fun _ => outLen_commitBits_le out s

theorem unpackBody_sameButOutBuf : SameButOutBuf i s m (unpackBody s) (unpackBody (withOutBuf m s)) := by
  unfold unpackBody
  rw [checkInLen_withOutBuf, inLen_withOutBuf, inBits_withOutBuf]
  cases checkInLen s with
  | error f => exact .error f
  | ok _ =>
    dsimp only
    split
    · exact .error _
    · exact .ok ((inBits s).map digitOf) _ rfl fun _ => outLen_commitBytes_le _ s

end

theorem bodyOf_sameButOutBuf (i : Instr) (s : State) (m : Memory) :
    SameButOutBuf i s m (bodyOf i s) (bodyOf i (withOutBuf m s)) := by
  cases i with
  | nop | hbuild => exact .kept rfl rfl
  | aencFix | aencDir | aencBig => exact encodeBody_sameButOutBuf _
  | adecFix | adecDir | adecBig => exact decodeBody_sameButOutBuf _
  | mprobeFix | mprobeDir | mprobeBig => exact probeBody_sameButOutBuf rfl _
  | hcount => exact countBody_sameButOutBuf rfl
  | hload => exact loadBody_sameButOutBuf rfl
  | henc => exact huffEncodeBody_sameButOutBuf
  | hdec => exact huffDecodeBody_sameButOutBuf
  | pack => exact packBody_sameButOutBuf
  | unpack => exact unpackBody_sameButOutBuf

/-- Below its length a written list is read back, whatever the buffer held. -/
theorem Memory.read_overwrite_eq (m m' : Memory) {bs : List Byte} {j : Nat} (h : j < bs.length) :
    (m.overwrite bs).read j = (m'.overwrite bs).read j := by
  rw [Memory.read_overwrite, Memory.read_overwrite, dif_pos h, dif_pos h]

/-- Settles O12: a body writes the same bytes over any `OUT_BUF`, and an error makes the same bytes unspecified. -/
theorem outBufNeverRead : Obligations.OutBufNeverRead := by
  intro i s m
  show ∃ t m', exec i s = .next t ∧ exec i (withOutBuf m s) = .next (withOutBuf m' t) ∧ _
  have hsame := bodyOf_sameButOutBuf i (entryOf i s) m
  rw [← entryOf_withOutBuf] at hsame
  generalize hb : bodyOf i (entryOf i s) = r, hb' : bodyOf i (entryOf i (withOutBuf m s)) = r' at hsame
  cases hsame with
  | ok out b hout hlen =>
    refine ⟨_, m.overwrite out, exec_of_body_ok hb, exec_of_body_ok hb', fun _ hi j hj => ?_⟩
    rw [completeDone_outBuf, hout]
    exact Memory.read_overwrite_eq m _ (lt_of_lt_of_le hj (hlen hi))
  | error f =>
    refine ⟨_, m.scramble (entryOf i s).free f.wrote, exec_of_body_error hb, ?_,
      fun h => absurd h (raiseErr_errcode_ne_zero f _)⟩
    rw [exec_of_body_error hb', entryOf_withOutBuf, raiseErr_withOutBuf]

end Sys2Proof.Machine
end

section
/-! `BUSY` falls again (R460, R466): the end of a command clears it, and each slot before the end uses up one of the slots left
or aborts the command. -/

namespace Sys2Proof.Machine

/-- Both ends of a command clear `BUSY` (R404, R405). -/
theorem CommandEffect.idle {s t : State} (h : CommandEffect s t) : t.status.busy = false := by
  cases h with
  | completed b => rfl
  | raised f =>
    rw [raiseErr_status]
    split <;> rfl

theorem storeWord_wait (loc : Loc) (n : Nat) (v : Word) (s : State) : (storeWord loc n v s).wait = s.wait := by
  cases loc <;> rfl

/-- An arrival aborts the running command or leaves it the slots it had. -/
theorem PortEffect.idle_or_wait {s t : State} (h : PortEffect s t) (hbusy : s.status.busy = true) :
    t.status.busy = false ∨ t.wait = s.wait := by
  cases h with
  | softReset | hardReset => exact .inl rfl
  | accepted w _ hidle => exact absurd (hidle.symm.trans hbusy) Bool.false_ne_true
  | stored a n v => exact .inr (storeWord_wait (locate a) n v s)
  | _ => exact .inr rfl

/-- A step of a running command ends it or uses up one slot. -/
theorem step_idle_or_wait {s t : State} (hbusy : s.status.busy = true) (h : step s = .next t) :
    t.status.busy = false ∨ s.wait = t.wait + 1 := by
  have hslot : s.status.busy = false ∨ s.wait ≠ 0 → s.wait = (passSlot s).wait + 1 := by
    rw [passSlot_wait]
    simp only [hbusy, Bool.true_eq_false, false_or]
    omega
  obtain ⟨i, -, -, -, hexec⟩ | ⟨_, -, -, -, rfl⟩ | ⟨hwait, -, rfl⟩ | ⟨e, rest, hwait, -, rfl⟩ := step_cases h
  · exact .inl (exec_commandEffect hexec).idle
  · exact .inl (illegalCommand_commandEffect s).idle
  · exact .inr (hslot hwait)
  · refine ((serve_portEffect e { passSlot s with port := rest }).idle_or_wait hbusy).imp_right fun heq => ?_
    rw [heq]
    exact hslot hwait

/-- Settles O7, by induction on the slots left to the command. -/
theorem busyFalls : Obligations.BusyFalls := by
  intro s hbusy
  induction hn : s.wait generalizing s with
  | zero =>
    obtain ⟨t, ht⟩ := step_next s
    have hidle := (step_idle_or_wait hbusy ht).resolve_right (by omega)
    exact ⟨1, le_rfl, t, run_succ_of_step Sys2Proof.core ht 0, hidle⟩
  | succ n ih =>
    obtain ⟨t, ht⟩ := step_next s
    have hrun := run_succ_of_step Sys2Proof.core ht
    by_cases hbusy' : t.status.busy = true
    · have hwait := (step_idle_or_wait hbusy ht).resolve_left (by simp [hbusy'])
      obtain ⟨k, hk, u, hu, hidle⟩ := ih t hbusy' (by omega)
      exact ⟨k + 1, by omega, u, (hrun k).trans hu, hidle⟩
    · exact ⟨1, by omega, t, hrun 0, by simpa using hbusy'⟩

end Sys2Proof.Machine
end

section
/-! Writes while busy (R461). -/

namespace Sys2Proof.Machine

/-- A legal write to a location with no rule of its own goes to `writeIdle` (R107). -/
theorem memWrite_eq_writeIdle {a n : Nat} (hlegal : legalAccess a n = true) (hctrl : locate a ≠ .ctrl)
    (hstatus : locate a ≠ .status) (hhole : locate a ≠ .hole) (v : Word) (s : State) :
    memWrite a n v s = writeIdle (locate a) n v s := by
  unfold memWrite
  rw [if_pos hlegal]
  generalize locate a = loc at hctrl hstatus hhole ⊢
  cases loc with
  | ctrl => exact absurd rfl hctrl
  | status => exact absurd rfl hstatus
  | hole => exact absurd rfl hhole
  | _ => rfl

/-- A legal access to another offset than that of `loc` reaches another location. -/
theorem locate_ne_of_legal {a n : Nat} {loc : Loc} (hlegal : legalAccess a n = true) (hhole : locate a ≠ .hole)
    (hne : a ≠ offsetOf loc) : locate a ≠ loc := by
  rintro rfl
  exact hne (offsetOf_locate hlegal hhole).symm

theorem writeIdle_of_busy {s : State} (hbusy : s.status.busy = true) (loc : Loc) (n : Nat) (v : Word) :
    writeIdle loc n v s = { s with status := { s.status with wbusy := true } } :=
  if_pos hbusy

/-- Settles O55: the location is neither `CTRL` nor `STATUS`, since a legal access to either names its offset. -/
theorem writesWhileBusyDropped : Obligations.WritesWhileBusyDropped := by
  intro s a n v rest hbusy hwait hreset ha hlegal hctrl hstatus hhole hport
  have hctrl' : locate a ≠ .ctrl := locate_ne_of_legal hlegal hhole hctrl
  have hstatus' : locate a ≠ .status := locate_ne_of_legal hlegal hhole hstatus
  rw [step_of_write (.inr hwait) hreset ha hport, memWrite_eq_writeIdle hlegal hctrl' hstatus' hhole,
    writeIdle_of_busy (s := { passSlot s with port := rest }) hbusy]
  rfl

end Sys2Proof.Machine
end

section
/-! The two resets (R450 to R452). -/

namespace Sys2Proof.Machine

/-! ### Power-on -/

/-- Settles O46: the stores list nothing, every field of `STATUS` is 0, and no tree is claimed. -/
theorem resetMeetsInvariants : Obligations.ResetMeetsInvariants := by
  refine ⟨⟨Memory.wf_fresh 0, Memory.wf_fresh 1, Arena.wf_fresh 2⟩, statusCoherent_reset rfl, ?_, ?_⟩
  · exact fun hvalid => absurd hvalid Bool.false_ne_true
  · exact ⟨Nat.zero_le _, Nat.zero_le _, fun _ => rfl⟩

theorem tget_zeros (w n i : Nat) : tget (Vector.replicate n (0 : BitVec w)) i = 0 := by
  rw [tget_replicate]
  split <;> rfl

/-- `FREQ` after reset: 0, but for the hardwired entry of the sentinel (R51). -/
theorem freqOf_reset {x : Nat} (h : x < 128) : freqOf State.reset.huff x = 0 := by
  have hne : x ≠ Config.sentH := Nat.ne_of_lt h
  rw [freqOf, if_neg hne]
  exact congrArg BitVec.toNat (tget_zeros 32 128 x)

/-- Settles O47. -/
theorem powerOnResetValues : Obligations.PowerOnResetValues :=
  ⟨rfl, rfl, rfl, rfl, rfl, rfl, rfl, fun c _ => tget_zeros 31 128 c, rfl, rfl, rfl, rfl, rfl, rfl, rfl, rfl, rfl, rfl, rfl,
    rfl, rfl, rfl, fun j _ => tget_zeros 32 6 j, fun _ => freqOf_reset, rfl, fun x _ => tget_zeros 9 129 x,
    fun j _ => tget_zeros 32 516 j, fun c _ => tget_zeros 32 128 c, rfl, rfl⟩

/-! ### Soft reset (R452) -/

/-- No command of a list that covers `p` is aborted when none runs, or when the word in `CMD` is none of the list. -/
theorem aborts_eq_false {p : Instr → Bool} {l : List (Except DecodeError Instr)} (hcover : ∀ i, p i = true → .ok i ∈ l)
    {s : State} (h : s.status.busy = false ∨ decode s.cmd ∉ l) : aborts p s = false := by
  unfold aborts
  obtain h | h := h
  · rw [h, Bool.false_and]
  · cases hcmd : decode s.cmd with
    | error e => exact Bool.and_false _
    | ok i =>
      have hi : p i = false := Bool.eq_false_iff.2 fun hp => h (hcmd ▸ hcover i hp)
      dsimp only
      rw [hi, Bool.and_false]

theorem writesOutBuf_listed (i : Instr) (h : writesOutBuf i = true) :
    (.ok i : Except DecodeError Instr) ∈ [.ok .aencFix, .ok .aencDir, .ok .aencBig, .ok .adecFix, .ok .adecDir, .ok .adecBig,
      .ok .henc, .ok .hdec, .ok .pack, .ok .unpack] := by
  cases i <;> simp [writesOutBuf] at h ⊢

theorem writesArena_listed (i : Instr) (h : writesArena i = true) :
    (.ok i : Except DecodeError Instr) ∈ [.ok .hbuild, .ok .hload] := by
  cases i <;> simp [writesArena] at h ⊢

theorem softReset_outBuf_kept {s : State} (h : aborts writesOutBuf s = false) : (softReset s).outBuf = s.outBuf := by
  simp [h]

theorem softReset_arena_kept {s : State} (h : aborts writesArena s = false) :
    (softReset s).huff.arena = s.huff.arena := by
  simp [h, Huff.reset]

theorem memWrite_srst {v : Word} (h : v.getLsbD 0 = true) (s : State) : memWrite 0x004 4 v s = softReset s :=
  show writeCtrl v s = softReset s from if_pos h

/-- Bit 0 of `CTRL` is not stored (R34). -/
theorem contentOf_ctrl_srst (s : State) (n : Nat) : (contentOf s n .ctrl).getLsbD 0 = false := by
  show (0#30 ++ BitVec.ofBool s.irqEn ++ 0#1 : Word).getLsbD 0 = false
  cases s.irqEn <;> rfl

/-- Settles O48: the write is `softReset`, which keeps a store unless the aborted command is on the list that writes it. -/
theorem softResetMeaning : Obligations.SoftResetMeaning := by
  refine ⟨fun s => contentOf_ctrl_srst s 4, fun s v rest h hreset hport hsrst => ?_⟩
  refine ⟨softReset { passSlot s with port := rest }, ?_, rfl, rfl, rfl, rfl, rfl, rfl, rfl, rfl, rfl, rfl, rfl, rfl,
    rfl, rfl, rfl, rfl, rfl, fun hkept => ?_, fun hkept => ?_⟩
  · rw [step_of_write h hreset (by decide) hport, memWrite_srst hsrst]
  · exact softReset_outBuf_kept (aborts_eq_false writesOutBuf_listed hkept)
  · exact softReset_arena_kept (aborts_eq_false writesArena_listed hkept)

/-! ### Hard reset (R451) -/

/-- While the reset input is asserted a read returns any value (R451). -/
theorem serve_read_under_reset {s : State} (h : s.resetIn = true) (a n : Nat) :
    serve (.read a n) s = { s with rdata := Config.freeWord s.free, free := s.free + 1 } := by
  simp [serve, portRead, outsideRead, h]

/-- While the reset input is asserted a write has no effect (R451). -/
theorem serve_write_under_reset {s : State} (h : s.resetIn = true) (a n : Nat) (v : Word) :
    serve (.write a n v) s = s := by
  simp [serve, portWrite, h]

/-- The release of an asserted reset input is a hard reset (R451). -/
theorem serve_release {s : State} (h : s.resetIn = true) :
    serve (.resetInput false) s = { hardReset s with resetIn := false } := by
  simp [serve, setResetInput, h]

/-- Settles O49. -/
theorem hardResetMeaning : Obligations.HardResetMeaning := by
  refine ⟨fun s rest h hport => ?_, fun s a n v rest hidle hreset hport => ?_, fun s a n rest hidle hreset hport => ?_,
    fun s rest hidle hreset hport => ?_⟩
  · exact ⟨_, step_of_arrival h hport, rfl, rfl, rfl, rfl⟩
  · rw [step_of_arrival (.inl hidle) hport, serve_write_under_reset (s := { passSlot s with port := rest }) hreset]
    rfl
  · refine ⟨Config.freeWord s.free, ?_⟩
    rw [step_of_arrival (.inl hidle) hport, serve_read_under_reset (s := { passSlot s with port := rest }) hreset]
    rfl
  · refine ⟨{ hardReset { passSlot s with port := rest } with resetIn := false }, ?_, rfl, rfl, rfl, rfl, rfl, rfl, rfl,
      rfl, rfl, rfl, rfl, rfl, rfl, rfl, rfl, rfl⟩
    rw [step_of_arrival (.inl hidle) hport, serve_release (s := { passSlot s with port := rest }) hreset]

end Sys2Proof.Machine
end
